-- ==== Sys2Proof/Word.lean ====
section
/-! DEFINITION. The byte a master sees on either port, and the numbered things of the PX64. -/

namespace Sys2Proof

/-- One byte of a frame (11.2). -/
abbrev Byte := BitVec 8

/-- A slot of the Point Store (R1). -/
abbrev SlotId := Fin 64

/-- An analog input pin AIN0..AIN15 (R20). -/
abbrev PinId := Fin 16

/-- A differential pair: pin p as + and pin p+8 as − (R7). -/
abbrev PairId := Fin 8

/-- An output channel AOUT0..AOUT3 (R23). -/
abbrev ChannelId := Fin 4

/-- A scan class (R50). -/
abbrev ClassId := Fin 4

/-- An update set (R130). -/
abbrev SetId := Fin 4

/-- A range code; 0..3 bipolar, 4..7 unipolar (R8). -/
abbrev RangeCode := Fin 8

end Sys2Proof
end

