-- ==== Sys2Proof/Syntax.lean ====
section
/-! DEFINITION. The commands of the PX64: one constructor of Instr per row of spec/opcode_table.json, and the plain
types their operands are made of. -/

namespace Sys2Proof

/-- The two ports (10_request_ports.md). -/
inductive Port where
  | host
  | maintenance
deriving DecidableEq, Repr

/-- The bus a transfer comes in on. An I2C transfer names the 7-bit address its master sent (R174). -/
inductive Link where
  | spi
  | i2c (address : BitVec 7)
deriving DecidableEq, Repr

/-- The port a link leads to. -/
def Link.port : Link → Port
  | .spi => .host
  | .i2c _ => .maintenance

/-- One correction record: INVALID, or VALID with an offset and a gain (R144). -/
inductive Coefficients where
  | invalid
  | valid (offset gain : Int)
deriving DecidableEq, Repr

/-- The two sources of a hard reset (R182). -/
inductive ResetCause where
  | powerOn
  | nReset
deriving DecidableEq, Repr

/-- What the reset inputs do (R182). `a1` and `a0` are the levels of pins A1 and A0 at the end of the hard reset, where
they are sampled (R174). -/
inductive ResetEvent where
  /-- A hard reset begins: power comes up, or nRESET falls and is held low for 1 µs or more. -/
  | begins (cause : ResetCause)
  /-- The hard reset ends: nRESET rises, or the power-on time is over with nRESET high. -/
  | ends (a1 a0 : Bool)
  /-- A whole hard reset, from its beginning to its end. -/
  | whole (cause : ResetCause) (a1 a0 : Bool)
  /-- A low pulse on nRESET shorter than 1 µs. -/
  | shortPulse (a1 a0 : Bool)
deriving DecidableEq, Repr

/-- The nineteen requests (11.2). -/
inductive RequestKind where
  | define | lookup | nextTag | modify | hold | release | retire
  | classSet | read | peek | ack | stage | commit | discard
  | calibrate | calAbort | calSave | status | softReset
deriving DecidableEq, Repr

/-- The status codes of a response (11.2). -/
inductive Status where
  | ok | badRequest | badField | notFound | duplicateTag | tableFull | pinConflict
  | channelTaken | wrongKind | range | notPending | busy | denied
deriving DecidableEq, Repr

/-- A request as a frame carries it: code, id and payload (R166, R184). -/
structure Request where
  code    : Byte
  id      : Byte
  payload : List Byte
deriving DecidableEq, Repr

/-- The commands, one constructor per row of spec/opcode_table.json. The nineteen requests, the unknown request code
and the denied request are grants of the Request Engine (R175): each names the port served and the request it
carries out. The others are the events of the blocks. -/
inductive Instr where
  /-- DEFINE (R27 to R30). -/
  | define (port : Port) (id : Byte) (payload : List Byte)
  /-- LOOKUP (R31). -/
  | lookup (port : Port) (id : Byte) (payload : List Byte)
  /-- NEXT (R32). -/
  | nextTag (port : Port) (id : Byte) (payload : List Byte)
  /-- MODIFY (R33 to R41). -/
  | modify (port : Port) (id : Byte) (payload : List Byte)
  /-- HOLD (R42, R44). -/
  | hold (port : Port) (id : Byte) (payload : List Byte)
  /-- RELEASE (R43, R45). -/
  | release (port : Port) (id : Byte) (payload : List Byte)
  /-- RETIRE (R46 to R48). -/
  | retire (port : Port) (id : Byte) (payload : List Byte)
  /-- CLASS (R52). -/
  | classSet (port : Port) (id : Byte) (payload : List Byte)
  /-- READ (R106 to R109). -/
  | read (port : Port) (id : Byte) (payload : List Byte)
  /-- PEEK (R117). -/
  | peek (port : Port) (id : Byte) (payload : List Byte)
  /-- ACK (R118, R121). -/
  | ack (port : Port) (id : Byte) (payload : List Byte)
  /-- STAGE (R127, R128). -/
  | stage (port : Port) (id : Byte) (payload : List Byte)
  /-- COMMIT (R130 to R132). -/
  | commit (port : Port) (id : Byte) (payload : List Byte)
  /-- DISCARD (R130, R133). -/
  | discard (port : Port) (id : Byte) (payload : List Byte)
  /-- CALIBRATE (R146). -/
  | calibrate (port : Port) (id : Byte) (payload : List Byte)
  /-- CAL_ABORT (R155). -/
  | calAbort (port : Port) (id : Byte) (payload : List Byte)
  /-- CAL_SAVE (R161). -/
  | calSave (port : Port) (id : Byte) (payload : List Byte)
  /-- STATUS (R178). -/
  | status (port : Port) (id : Byte) (payload : List Byte)
  /-- SOFT_RESET (R179, R180). -/
  | softReset (port : Port) (id : Byte) (payload : List Byte)
  /-- UNKNOWN_REQUEST_CODE (R176): a taken request whose code is none of the nineteen. -/
  | unknownRequestCode (port : Port) (code id : Byte) (payload : List Byte)
  /-- DENIED_ON_MAINTENANCE_PORT (R177): a taken request the maintenance port may not send. -/
  | deniedOnMaintenancePort (code id : Byte) (payload : List Byte)
  /-- REQUEST_FRAME (R168): the L-th byte of the frame `bytes` arrives. -/
  | requestFrame (link : Link) (bytes : List Byte)
  /-- LENGTH_BYTE_CHECK_FAIL (R167): a length byte outside 5..64 arrives. -/
  | lengthByteCheckFail (link : Link) (length : Byte)
  /-- FRAME_ABORT (R167, R174): the transfer ends (nSEL rises, a STOP, a repeated START, or in a read a byte the master
  does not acknowledge) when only `received` of a frame has arrived; it is empty when no byte of a frame has, as in a
  read. -/
  | frameAbort (link : Link) (received : List Byte)
  /-- STATUS_BYTE (R169, R170, R172): a transfer the master reads starts; `first` is the byte the host sends on SDI while
  the status byte goes out, none when the transfer ends before its eighth bit. On I2C the byte has no meaning. -/
  | statusByte (link : Link) (first : Option Byte)
  /-- RESPONSE_DELIVERY (R171): the second CRC byte of a response is transferred in a fetch. -/
  | responseDelivery (link : Link)
  /-- HARD_RESET (R182). -/
  | hardReset (event : ResetEvent)
  /-- TABLE_LOAD (R160): the end of the load. -/
  | tableLoad
  /-- CLASS_TICK (R51). -/
  | classTick
  /-- CLASS_EXPIRY (R55 to R57) of one class. -/
  | classExpiry (c : ClassId)
  /-- GRANT (R73) of the converter. -/
  | grant
  /-- SETTLE_END (R77). -/
  | settleEnd
  /-- SAMPLE (R79): `input` is the selected input in codes of its range, before the converter's ends. -/
  | sample (input : Int)
  /-- RAMP_TICK (R134, R135). -/
  | rampTick
  /-- CAL_SETTLE_END (R149, R151). -/
  | calSettleEnd
  /-- CAL_SAMPLE (R149, R151): `input` is the measured node in codes, before the converter's ends. -/
  | calSample (input : Int)
  /-- ERASE_END (R162). -/
  | eraseEnd
  /-- ENTRY_RECORD_WRITE (R163): the next record is written, and `readBack` is what reads back. -/
  | entryRecordWrite (readBack : Coefficients)
  /-- MARK_END (R163). -/
  | markEnd
  /-- POWER_LOSS (R164). -/
  | powerLoss
deriving DecidableEq, Repr

end Sys2Proof
end

