-- ==== Sys2Proof/Decode.lean ====
section
/-! DEFINITION. The byte layouts a master sees: fields high byte first, the CRC, request and response frames, request
and status codes; and decodeTableWord over the rows of the opcode table that give bits (there is none). -/

namespace Sys2Proof

/-! ## Fields (R183) -/

/-- The byte at offset i of a payload. -/
def byteAt (p : List Byte) (i : Nat) : Byte := p.getD i 0

/-- A 1-byte unsigned field. -/
def u8 (p : List Byte) (i : Nat) : Nat := (byteAt p i).toNat

/-- A 2-byte unsigned field, high byte first. -/
def u16 (p : List Byte) (i : Nat) : Nat := u8 p i * 256 + u8 p (i + 1)

/-- A field of `bits` bits read as two's complement over its full width. -/
def twosComplement (bits : Nat) (u : Nat) : Int :=
  if u < 2 ^ (bits - 1) then (u : Int) else (u : Int) - 2 ^ bits

/-- A 2-byte signed field. -/
def s16 (p : List Byte) (i : Nat) : Int := twosComplement 16 (u16 p i)

/-- A 3-byte signed field. -/
def s24 (p : List Byte) (i : Nat) : Int := twosComplement 24 (u8 p i * 65536 + u16 p (i + 1))

/-- A 4-byte signed field. -/
def s32 (p : List Byte) (i : Nat) : Int := twosComplement 32 (u16 p i * 65536 + u16 p (i + 2))

/-- A 1-byte field of a response. -/
def put8 (n : Nat) : List Byte := [BitVec.ofNat 8 n]

/-- A 2-byte field of a response, high byte first; negative values in two's complement. -/
def put16 (x : Int) : List Byte :=
  let w := BitVec.ofInt 16 x
  [w.extractLsb' 8 8, w.extractLsb' 0 8]

/-- A 3-byte field of a response. -/
def put24 (x : Int) : List Byte :=
  let w := BitVec.ofInt 24 x
  [w.extractLsb' 16 8, w.extractLsb' 8 8, w.extractLsb' 0 8]

/-- A 4-byte field of a response. -/
def put32 (x : Int) : List Byte :=
  let w := BitVec.ofInt 32 x
  [w.extractLsb' 24 8, w.extractLsb' 16 8, w.extractLsb' 8 8, w.extractLsb' 0 8]

/-- A boolean or presence byte (11.4). -/
def putBool (b : Bool) : List Byte := [if b then 1 else 0]

/-- A boolean or presence byte of a request: 0 or 1, anything else is no boolean (R183). -/
def boolAt (p : List Byte) (i : Nat) : Option Bool :=
  if byteAt p i = 0 then some false else if byteAt p i = 1 then some true else none

/-! ## CRC (R167, R184) -/

/-- One shift of the CRC register with the polynomial x^16 + x^12 + x^5 + 1. -/
def crcShift (r : BitVec 16) : BitVec 16 :=
  if r.msb then (r <<< 1) ^^^ 0x1021 else r <<< 1

/-- One byte taken into the CRC register, most significant bit first. -/
def crcByte (r : BitVec 16) (b : Byte) : BitVec 16 :=
  let x := r ^^^ (b.zeroExtend 16 <<< 8)
  crcShift (crcShift (crcShift (crcShift (crcShift (crcShift (crcShift (crcShift x)))))))

/-- The CRC of a run of bytes: the register starts at all ones, and there is no final inversion. -/
def crc16 (bytes : List Byte) : BitVec 16 := bytes.foldl crcByte 0xFFFF

/-- The two CRC bytes, high byte first. -/
def crcBytes (bytes : List Byte) : List Byte :=
  [(crc16 bytes).extractLsb' 8 8, (crc16 bytes).extractLsb' 0 8]

/-- Bytes closed by their CRC. -/
def withCrc (bytes : List Byte) : List Byte := bytes ++ crcBytes bytes

/-! ## Codes (11.2) -/

/-- The code of each request. -/
def requestCode : RequestKind → Byte
  | .define => 0x10
  | .lookup => 0x11
  | .nextTag => 0x12
  | .modify => 0x13
  | .hold => 0x14
  | .release => 0x15
  | .retire => 0x16
  | .classSet => 0x20
  | .read => 0x28
  | .peek => 0x30
  | .ack => 0x31
  | .stage => 0x40
  | .commit => 0x41
  | .discard => 0x42
  | .calibrate => 0x50
  | .calAbort => 0x51
  | .calSave => 0x58
  | .status => 0x60
  | .softReset => 0x6F

/-- The nineteen requests in the order of their codes. -/
def requestKinds : List RequestKind :=
  [.define, .lookup, .nextTag, .modify, .hold, .release, .retire, .classSet, .read, .peek, .ack,
   .stage, .commit, .discard, .calibrate, .calAbort, .calSave, .status, .softReset]

/-- The request a code names, if it is one of the nineteen (R176). -/
def requestKind (code : Byte) : Option RequestKind :=
  requestKinds.find? (fun k => requestCode k == code)

/-- Whether the maintenance port may send a request (R177). -/
def allowedOnMaintenance : RequestKind → Bool
  | .lookup | .nextTag | .read | .peek | .ack | .status | .stage | .commit => true
  | .define | .modify | .hold | .release | .retire | .classSet | .discard
  | .calibrate | .calAbort | .calSave | .softReset => false

/-- Whether a port may send a request; the host port may send all nineteen (R177). -/
def allowedOn : Port → RequestKind → Bool
  | .host, _ => true
  | .maintenance, k => allowedOnMaintenance k

/-- The code of each status. -/
def statusCode : Status → Byte
  | .ok => 0x00
  | .badRequest => 0x01
  | .badField => 0x02
  | .notFound => 0x03
  | .duplicateTag => 0x04
  | .tableFull => 0x05
  | .pinConflict => 0x06
  | .channelTaken => 0x07
  | .wrongKind => 0x08
  | .range => 0x09
  | .notPending => 0x0A
  | .busy => 0x0B
  | .denied => 0x0C

/-! ## Frames (R167, R184) -/

/-- The request frame of a request: length byte, code, id, payload, CRC (R184). -/
def requestFrameOf (q : Request) : List Byte :=
  withCrc (BitVec.ofNat 8 (q.payload.length + 5) :: q.code :: q.id :: q.payload)

/-- The response frame to a request: length byte, echoes of code and id, status, payload, CRC (R184). -/
def responseFrame (q : Request) (st : Status) (payload : List Byte) : List Byte :=
  withCrc (BitVec.ofNat 8 (payload.length + 6) :: q.code :: q.id :: statusCode st :: payload)

/-- What the bytes of a transfer come to at the frame check (R167, R172). -/
inductive FrameCheck where
  /-- No byte arrived. -/
  | empty
  /-- On the host port, a first byte of 0: a fetch window. -/
  | fetch
  /-- A length byte outside 5..64. -/
  | badLength
  /-- The transfer ended before the L-th byte. -/
  | short
  /-- The L-th byte arrived and the CRC does not match. -/
  | badCrc
  /-- The L-th byte arrived and the frame passes. -/
  | good (q : Request)
deriving DecidableEq, Repr

/-- The length check (R167): the length byte must lie in 5..64. -/
def lengthPasses (b : Byte) : Bool := 5 ≤ b.toNat && b.toNat ≤ 64

/-- The frame check of the bytes of one transfer; bytes after the L-th are ignored (R167, R172, R174). -/
def frameCheck (port : Port) : List Byte → FrameCheck
  | [] => .empty
  | b :: rest =>
    if port = .host ∧ b = 0 then .fetch
    else if lengthPasses b = false then .badLength
    else if (b :: rest).length < b.toNat then .short
    else
      let frame := (b :: rest).take b.toNat
      if frame.drop (b.toNat - 2) = crcBytes (frame.take (b.toNat - 2)) then
        .good ⟨byteAt frame 1, byteAt frame 2, (frame.take (b.toNat - 2)).drop 3⟩
      else .badCrc

/-! ## The opcode table -/

/-- The command a word spells by the opcode table's bits. No row of spec/opcode_table.json gives bits, so no word
spells a command (log 17). -/
def decodeTableWord (_nbits _w : Nat) : Option Instr := none

end Sys2Proof
end

