-- ==== Sys2Proof/Config.lean ====
section
/-! DEFINITION. What the part fixes (part code, default periods, calibration limits) and the one value the manual
leaves free. -/

namespace Sys2Proof.Config

/-- The part code STATUS reports (R188). -/
def partCode : Nat := 0x0640

/-- The periods loaded at hard reset, in units of 100 µs (R50). -/
def defaultPeriod (c : ClassId) : Nat :=
  match c with
  | 0 => 10
  | 1 => 100
  | 2 => 1000
  | 3 => 10000

/-- The 7-bit I2C address less the number formed by A1 and A0 (R174). -/
def maintenanceBase : BitVec 7 := 0x62

/-- The code the reference node gives on a bipolar range of exact gain and zero offset (R149). -/
def expectedBipolar : Int := 26214

/-- The same on a unipolar range (R149). -/
def expectedUnipolar : Int := 52428

/-- The pin code an output measurement drives, positive in PLUS and negative in MINUS (R151). -/
def loopbackCode : Int := 24000

/-- Samples of one calibration measurement (R149, R151). -/
def calSamples : Nat := 64

/-- FREE VALUE (R182, log 7): whether the n-th low pulse on nRESET shorter than 1 µs gives a whole hard reset. The
manual lets it do either, and nothing constrains it here. -/
opaque shortPulseResets : Nat → Bool

end Sys2Proof.Config
end

