-- ==== Sys2Proof/Machine/State.lean ====
section
/-! DEFINITION. State: every piece of state the manual gives the PX64, as plain data, its value right after a hard
reset, and the reasons a step may stop. -/

namespace Sys2Proof.Machine

/-! ## Point records (R6 to R13) -/

/-- How a pin is connected: single-ended or differential (R7, R20). -/
inductive SourceMode where
  | se
  | diff
deriving DecidableEq, Repr

/-- The source field of an input record (R7). -/
inductive Source where
  | se (pin : PinId)
  | diff (pair : PairId)
deriving DecidableEq, Repr

/-- The oversample field: the number of samples averaged into one conversion (R9). -/
inductive Oversample where
  | x1 | x2 | x4 | x8 | x16
deriving DecidableEq, Repr

/-- A present scaling part (R10). -/
structure Scaling where
  gain   : Int
  offset : Int
deriving DecidableEq, Repr

/-- How a written conversion was obtained (R95). -/
inductive Condition where
  | normal | overrange | uncal
deriving DecidableEq, Repr

/-- The limit state of an input point (R98). -/
inductive LimitState where
  | normal | high | low
deriving DecidableEq, Repr

/-- The configuration of an input record: acquisition part and optional parts (R7 to R11). -/
structure InputConfig where
  source     : Source
  range      : RangeCode
  oversample : Oversample
  scanClass  : ClassId
  scaling    : Option Scaling
  highLimit  : Option Int
  lowLimit   : Option Int
  deadband   : Nat
deriving DecidableEq, Repr

/-- The value part of an input record (R12). -/
structure ValuePart where
  corrected     : Int
  value         : Int
  hasValue      : Bool
  lastCondition : Condition
  updateCount   : BitVec 8
  missedPasses  : Nat
  mark          : Bool
  limitState    : LimitState
deriving DecidableEq, Repr

/-- The configuration of an output record (R13). -/
structure OutputConfig where
  channel          : ChannelId
  clampMin         : Int
  clampMax         : Int
  slew             : Option Nat
  updateSet        : SetId
  operatorWritable : Bool
deriving DecidableEq, Repr

/-- The code part of an output record (R13, R125). -/
structure CodePart where
  live   : Int
  target : Int
  staged : Option Int
deriving DecidableEq, Repr

/-- The part of a record that depends on its kind (R6). -/
inductive Body where
  | input (config : InputConfig) (part : ValuePart)
  | output (config : OutputConfig) (codes : CodePart)
deriving DecidableEq, Repr

/-- The slot states of a slot that holds a record (R1). -/
inductive SlotState where
  | active | held | retiring
deriving DecidableEq, Repr

/-- A point record with the common fields of R6. -/
structure PointRecord where
  tag       : Nat
  slotState : SlotState
  body      : Body
deriving DecidableEq, Repr

/-- A slot: FREE, holding no record, or a record (R1). -/
abbrev Slot := Option PointRecord

/-- One pair of the Tag Index (R16). -/
structure IndexPair where
  tag  : Nat
  slot : SlotId
deriving DecidableEq, Repr

/-- One entry of the Pin Claim Table; `mode` is none for NONE (R20). -/
structure PinClaim where
  mode  : Option SourceMode
  count : Nat
deriving DecidableEq, Repr

/-- One entry of the Channel Table (R23). -/
structure Channel where
  owner    : Option SlotId
  driven   : Int
  underCal : Bool
deriving DecidableEq, Repr

/-! ## Scan Scheduler (R50, R61) -/

/-- A scan class record (R50). `expiryDue` is set by the class tick at which `remaining` reaches 0 and cleared when the
expiry is taken (R51, log 5). -/
structure ScanClass where
  enabled     : Bool
  period      : Nat
  remaining   : Nat
  outstanding : Nat
  overrun     : Bool
  expiryDue   : Bool
deriving DecidableEq, Repr

/-- One entry of the Conversion Queue (R61). -/
structure QueueEntry where
  slot      : SlotId
  passClass : ClassId
deriving DecidableEq, Repr

/-! ## Acquisition Unit (R71) -/

/-- The unit state (R71). -/
inductive UnitState where
  | idle | settling | sampling | lent
deriving DecidableEq, Repr

/-- The converter grant (R71). -/
inductive ConvGrant where
  | scan | cal
deriving DecidableEq, Repr

/-- A front-end selection other than "none" (R71). -/
structure Selection where
  source : Source
  range  : RangeCode
deriving DecidableEq, Repr

/-- The conversion in flight (R71). -/
structure Conversion where
  slot       : SlotId
  passClass  : ClassId
  oversample : Oversample
  taken      : Nat
  sum        : Int
  overrange  : Bool
  superseded : Bool
deriving DecidableEq, Repr

/-! ## Attention Unit (R112, R120) -/

/-- The reasons set of an attention entry or of a raise (R112, R113). -/
structure Reasons where
  limit   : Bool
  quality : Bool
deriving DecidableEq, Repr

/-- One entry of the Attention List (R112). -/
structure AttentionEntry where
  slot    : SlotId
  reasons : Reasons
  count   : Nat
deriving DecidableEq, Repr

/-- What a run did to one calibration entry (R153). -/
inductive EntryResult where
  | notRun | updated | failed | skipped
deriving DecidableEq, Repr

/-- The outcome of a calibration run (R153). -/
inductive RunOutcome where
  | completed | aborted
deriving DecidableEq, Repr

/-- The result CAL_DONE carries (R153): the outcome with the 12 per-entry results. -/
structure RunResult where
  outcome : RunOutcome
  results : Vector EntryResult 12
deriving DecidableEq, Repr

/-- The result SAVE_DONE carries (R163). -/
inductive SaveResult where
  | ok | failed
deriving DecidableEq, Repr

/-- The device event set (R120): each member absent or present, two of them with their result. -/
structure DeviceEvents where
  calDone      : Option RunResult
  saveDone     : Option SaveResult
  classOverrun : Bool
  storeEmpty   : Bool
deriving DecidableEq, Repr

/-! ## Calibration Unit (R144, R145) -/

/-- One of the 12 entries of the Calibration Table (R144). -/
inductive CalEntry where
  | input (range : RangeCode)
  | output (channel : ChannelId)
deriving DecidableEq, Repr

/-- The scope of a run (R147). -/
inductive Scope where
  | allInputs
  | range (r : RangeCode)
  | outputs
  | all
deriving DecidableEq, Repr

/-- The measurement within an entry (R145). -/
inductive CalPhase where
  | zero | reference | plus | minus
deriving DecidableEq, Repr

/-- The measurement in progress of a RUNNING run (R145). `settled` tells the sampling part of the phase from its
settling part. R145 gives `earlier` a meaning only while the second measurement of an entry is taken; its 0 during the
first one is the model's choice (DESIGN CHOICE, log 21). -/
structure Measurement where
  entry   : CalEntry
  phase   : CalPhase
  settled : Bool
  sum     : Int
  taken   : Nat
  earlier : Int
deriving DecidableEq, Repr

/-- The run state with what is meaningful in it (R145). -/
inductive CalRun where
  | idle
  | waiting (scope : Scope)
  | running (scope : Scope) (meas : Measurement)
deriving DecidableEq, Repr

/-! ## Calibration Store (R158, R161) -/

/-- The two banks (R158). -/
inductive BankName where
  | a | b
deriving DecidableEq, Repr

/-- The state of a bank (R158). -/
inductive BankState where
  | empty | valid | part
deriving DecidableEq, Repr

/-- A nonvolatile bank (R158). `entries` are the records written, in table order. -/
structure Bank where
  state      : BankState
  generation : Nat
  entries    : List Coefficients
deriving DecidableEq, Repr

/-- The phase of a save (R162); in WRITE, how many records have been written and read back. -/
inductive SavePhase where
  | erase
  | write (done : Nat)
  | mark
deriving DecidableEq, Repr

/-- A save in progress (R161). -/
structure Save where
  target     : BankName
  generation : Nat
  snapshot   : Vector Coefficients 12
  phase      : SavePhase
deriving DecidableEq, Repr

/-! ## Ports (R166) -/

/-- The port state, with the taken request it holds in EXECUTING and the response frame it holds in
RESPONSE_READY (R166). -/
inductive PortMode where
  | idle
  | executing (q : Request)
  | responseReady (frame : List Byte)
deriving DecidableEq, Repr

/-- What the transfer a master has open is (R171, R172, R174). -/
inductive TransferKind where
  /-- A read transaction, or a window whose first byte from the host is 0, with its response not yet delivered. -/
  | fetch
  /-- A window whose first byte from the host is not 0, its frame not over. -/
  | request
  /-- A window whose frame is over, or a fetch whose response is delivered: the port sends 0xFF until it ends. -/
  | over
deriving DecidableEq, Repr

/-- The transfer a master has open: the status byte sent in it, whose snapshot decides what a fetch delivers, and what
it is (R169, R171, log 4). -/
structure Transfer where
  snapshot : Byte
  kind     : TransferKind
deriving DecidableEq, Repr

/-- The state of one port (R166), with the transfer its master has open: none while nSEL is high, after a STOP and once
the PX64 has stopped sending (R172, R174, log 4). -/
structure PortState where
  mode         : PortMode
  refusedFlag  : Bool
  checkFlag    : Bool
  openTransfer : Option Transfer
deriving DecidableEq, Repr

/-! ## The whole part -/

/-- Whether the part has power and where it stands in a hard reset (R160, R164, R181, R182). -/
inductive Phase where
  | off | inReset | loading | running
deriving DecidableEq, Repr

/-- The state of the PX64. The last two fields are the model's own: the number of free values used (log 7), and the
queue of waiting commands. -/
structure State where
  slots        : Vector Slot 64
  tagIndex     : List IndexPair
  pinClaims    : Vector PinClaim 16
  channels     : Vector Channel 4
  classes      : Vector ScanClass 4
  queue        : List QueueEntry
  unit         : UnitState
  convGrant    : ConvGrant
  selection    : Option Selection
  inFlight     : Option Conversion
  attention    : List AttentionEntry
  events       : DeviceEvents
  calTable     : Vector Coefficients 12
  calRun       : CalRun
  calResults   : Vector EntryResult 12
  bankA        : Bank
  bankB        : Bank
  pointer      : Option BankName
  save         : Option Save
  hostPort     : PortState
  maintPort    : PortState
  lastServed   : Port
  maintAddress : BitVec 7
  phase        : Phase
  freeIndex    : Nat
  pending      : List Instr
deriving DecidableEq, Repr

/-! ## Reset values -/

/-- A class record after hard reset (R50, R70); `remaining` is not given while disabled (log 6). -/
def ScanClass.initial (c : ClassId) : ScanClass :=
  { enabled := false, period := Config.defaultPeriod c, remaining := Config.defaultPeriod c,
    outstanding := 0, overrun := false, expiryDue := false }

/-- A Channel Table entry after hard reset (R25). -/
def Channel.initial : Channel := { owner := none, driven := 0, underCal := false }

/-- A pin that no record uses (R20, R25). -/
def PinClaim.unclaimed : PinClaim := { mode := none, count := 0 }

/-- The empty device event set (R124). -/
def DeviceEvents.none : DeviceEvents :=
  { calDone := Option.none, saveDone := Option.none, classOverrun := false, storeEmpty := false }

/-- An erased bank (R158); its generation is not meaningful (log 9). -/
def Bank.erased : Bank := { state := .empty, generation := 0, entries := [] }

/-- A port after hard reset (R181). That a transfer open at the reset is closed is the model's choice (DESIGN CHOICE,
log 22). -/
def PortState.initial : PortState :=
  { mode := .idle, refusedFlag := false, checkFlag := false, openTransfer := Option.none }

/-- The four class records after hard reset (R70). -/
def initialClasses : Vector ScanClass 4 :=
  #v[ScanClass.initial 0, ScanClass.initial 1, ScanClass.initial 2, ScanClass.initial 3]

/-- The part right after a hard reset, with the load of the Calibration Table in progress: every block at the values its
chapter gives (R25, R70, R90, R124, R143, R157, R165, R181), and the banks as delivered (R158). The values the
manual does not give are those of log 6, 7, 8, 9 and 10. -/
def State.reset : State where
  slots        := Vector.replicate 64 none
  tagIndex     := []
  pinClaims    := Vector.replicate 16 PinClaim.unclaimed
  channels     := Vector.replicate 4 Channel.initial
  classes      := initialClasses
  queue        := []
  unit         := .idle
  convGrant    := .scan
  selection    := none
  inFlight     := none
  attention    := []
  events       := DeviceEvents.none
  calTable     := Vector.replicate 12 .invalid
  calRun       := .idle
  calResults   := Vector.replicate 12 .notRun
  bankA        := Bank.erased
  bankB        := Bank.erased
  pointer      := none
  save         := none
  hostPort     := PortState.initial
  maintPort    := PortState.initial
  lastServed   := .maintenance
  maintAddress := Config.maintenanceBase
  phase        := .loading
  freeIndex    := 0
  pending      := []

/-! ## Reasons to stop -/

/-- The faults of a step. -/
inductive Fault where
  /-- Raised by GRANT when the head of the Conversion Queue names a slot that holds no input record. R61 says that the
  queue holds only input slots in state ACTIVE, so no run reaches it. SAFE: the model stops in a state the part
  cannot be in (log 16). -/
  | queueHeadNotInput
deriving DecidableEq, Repr

/-- The refusals of a step. -/
inductive Refusal where
  /-- Raised by exec's arm of a command that has no meaning yet. No arm raises it. SAFE. -/
  | notModelled (mnemonic : String)
deriving DecidableEq, Repr

end Sys2Proof.Machine
end

