-- ==== Sys2Proof/Machine/Operands.lean ====
section
/-! DEFINITION. Operand forms: what the fields of a request stand for and which values they may take (R7 to R13, R183,
R185, R186), the order of a calibration scope (R147), and the codes of 11.4. -/

namespace Sys2Proof.Machine

/-! ## Ranges and conversion times (R8, R9) -/

/-- Ranges 0..3 are bipolar (R8). -/
def bipolar (r : RangeCode) : Bool := r.val < 4

/-- The lower code limit of a range (R8). -/
def codeMin (r : RangeCode) : Int := if bipolar r then -32768 else 0

/-- The upper code limit of a range (R8). -/
def codeMax (r : RangeCode) : Int := if bipolar r then 32767 else 65535

/-- The settle time of a range in µs (R8). -/
def settleTime (r : RangeCode) : Nat :=
  match r with
  | 0 | 1 | 4 | 5 => 10
  | 2 | 6 => 20
  | 3 | 7 => 40

/-- The number of samples an oversample setting stands for (R9). -/
def Oversample.samples : Oversample → Nat
  | .x1 => 1
  | .x2 => 2
  | .x4 => 4
  | .x8 => 8
  | .x16 => 16

/-- The oversample setting a sample count names; other counts name none (R9). -/
def oversampleOf (n : Nat) : Option Oversample :=
  match n with
  | 1 => some .x1
  | 2 => some .x2
  | 4 => some .x4
  | 8 => some .x8
  | 16 => some .x16
  | _ => none

/-- How long a conversion lasts in µs: the settle time when its start switches the front end, and 8 µs for each
sample (R9, R92). -/
def conversionTime (selection : Option Selection) (wanted : Selection) (n : Oversample) : Nat :=
  (if selection = some wanted then 0 else settleTime wanted.range) + n.samples * 8

/-! ## Sources and pins (R7) -/

/-- The mode of a source (R7). -/
def Source.mode : Source → SourceMode
  | .se _ => .se
  | .diff _ => .diff

/-- The − pin of a pair: pin p+8 (R7). -/
def minusPin (p : PairId) : PinId := ⟨p.val + 8, by omega⟩

/-- The + pin of a pair: pin p (R7). -/
def plusPin (p : PairId) : PinId := ⟨p.val, by omega⟩

/-- The pins a source uses (R7). -/
def Source.pins : Source → List PinId
  | .se p => [p]
  | .diff p => [plusPin p, minusPin p]

/-- The source a mode code and a pin or pair number name (R7, 11.4). -/
def sourceOf (mode number : Nat) : Option Source :=
  match mode with
  | 1 => if h : number < 16 then some (.se ⟨number, h⟩) else none
  | 2 => if h : number < 8 then some (.diff ⟨number, h⟩) else none
  | _ => none

/-- A number below n, or none (a code out of its range). -/
def finOf (n x : Nat) : Option (Fin n) := if h : x < n then some ⟨x, h⟩ else none

/-! ## Optional fields: a presence byte and a value (R183) -/

/-- A scaling part: presence at `i`, gain at `i+1`, offset at `i+3`. The outer none is a presence byte that is no
boolean. -/
def scalingAt (p : List Byte) (i : Nat) : Option (Option Scaling) :=
  (boolAt p i).map fun b => if b then some ⟨s16 p (i + 1), s24 p (i + 3)⟩ else none

/-- A limit: presence at `i`, value at `i+1`. -/
def limitAt (p : List Byte) (i : Nat) : Option (Option Int) :=
  (boolAt p i).map fun b => if b then some (s32 p (i + 1)) else none

/-- A slew: presence at `i`, value at `i+1`, 1..32767 when present (R13). -/
def slewAt (p : List Byte) (i : Nat) : Option (Option Nat) :=
  match boolAt p i with
  | none => none
  | some false => some none
  | some true => if 1 ≤ u16 p (i + 1) ∧ u16 p (i + 1) ≤ 32767 then some (some (u16 p (i + 1))) else none

/-! ## Cross-field conditions (R11, R13) -/

/-- With both limits present, the low limit plus the deadband is less than the high limit less the deadband (R11). -/
def limitsOk (c : InputConfig) : Bool :=
  match c.highLimit, c.lowLimit with
  | some h, some l => decide (l + (c.deadband : Int) < h - (c.deadband : Int))
  | _, _ => true

/-- Clamp min is not above clamp max (R13). -/
def clampOk (c : OutputConfig) : Bool := decide (c.clampMin ≤ c.clampMax)

/-! ## The configuration a DEFINE carries (R27, R185) -/

/-- The configuration of a DEFINE of an input point, when every field is in its range (R7 to R11). -/
def inputConfigOf (p : List Byte) : Option InputConfig := do
  let source ← sourceOf (u8 p 3) (u8 p 4)
  let range ← finOf 8 (u8 p 5)
  let oversample ← oversampleOf (u8 p 6)
  let scanClass ← finOf 4 (u8 p 7)
  let scaling ← scalingAt p 8
  let highLimit ← limitAt p 14
  let lowLimit ← limitAt p 19
  let c : InputConfig :=
    { source := source, range := range, oversample := oversample, scanClass := scanClass, scaling := scaling,
      highLimit := highLimit, lowLimit := lowLimit, deadband := u16 p 24 }
  if limitsOk c then some c else none

/-- The configuration of a DEFINE of an output point, when every field is in its range (R13). -/
def outputConfigOf (p : List Byte) : Option OutputConfig := do
  let channel ← finOf 4 (u8 p 3)
  let slew ← slewAt p 8
  let updateSet ← finOf 4 (u8 p 11)
  let operatorWritable ← boolAt p 12
  let c : OutputConfig :=
    { channel := channel, clampMin := s16 p 4, clampMax := s16 p 6, slew := slew, updateSet := updateSet,
      operatorWritable := operatorWritable }
  if clampOk c then some c else none

/-! ## The items of a MODIFY (R33, R186) -/

/-- The fields a MODIFY may name. -/
inductive ModifyField where
  | source | range | oversample | scanClass | scaling | highLimit | lowLimit | deadband
  | clampMin | clampMax | slew | updateSet | operatorWritable
deriving DecidableEq, Repr

/-- The field a selector names. The selectors of tag, kind and channel, and unknown ones, name none (R186). -/
def fieldOf (selector : Nat) : Option ModifyField :=
  match selector with
  | 0x10 => some .source
  | 0x11 => some .range
  | 0x12 => some .oversample
  | 0x13 => some .scanClass
  | 0x14 => some .scaling
  | 0x15 => some .highLimit
  | 0x16 => some .lowLimit
  | 0x17 => some .deadband
  | 0x20 => some .clampMin
  | 0x21 => some .clampMax
  | 0x22 => some .slew
  | 0x23 => some .updateSet
  | 0x24 => some .operatorWritable
  | _ => none

/-- Whether a field belongs to input records (R186). -/
def ModifyField.ofInput : ModifyField → Bool
  | .source | .range | .oversample | .scanClass | .scaling | .highLimit | .lowLimit | .deadband => true
  | .clampMin | .clampMax | .slew | .updateSet | .operatorWritable => false

/-- The new value of an input field, written into the configuration; none when the value is out of range. `v` is the
item's value area. A field of an output record has no value here. -/
def setInputField (f : ModifyField) (v : List Byte) (c : InputConfig) : Option InputConfig :=
  match f with
  | .source => (sourceOf (u8 v 0) (u8 v 1)).map fun x => { c with source := x }
  | .range => (finOf 8 (u8 v 0)).map fun x => { c with range := x }
  | .oversample => (oversampleOf (u8 v 0)).map fun x => { c with oversample := x }
  | .scanClass => (finOf 4 (u8 v 0)).map fun x => { c with scanClass := x }
  | .scaling => (scalingAt v 0).map fun x => { c with scaling := x }
  | .highLimit => (limitAt v 0).map fun x => { c with highLimit := x }
  | .lowLimit => (limitAt v 0).map fun x => { c with lowLimit := x }
  | .deadband => some { c with deadband := u16 v 0 }
  | .clampMin | .clampMax | .slew | .updateSet | .operatorWritable => none

/-- The new value of an output field, written into the configuration; none when the value is out of range. -/
def setOutputField (f : ModifyField) (v : List Byte) (c : OutputConfig) : Option OutputConfig :=
  match f with
  | .clampMin => some { c with clampMin := s16 v 0 }
  | .clampMax => some { c with clampMax := s16 v 0 }
  | .slew => (slewAt v 0).map fun x => { c with slew := x }
  | .updateSet => (finOf 4 (u8 v 0)).map fun x => { c with updateSet := x }
  | .operatorWritable => (boolAt v 0).map fun x => { c with operatorWritable := x }
  | .source | .range | .oversample | .scanClass | .scaling | .highLimit | .lowLimit | .deadband => none

/-- One item as the payload carries it: the selector and its 6-byte value area (R186). -/
structure ModifyItem where
  selector : Nat
  value    : List Byte
deriving DecidableEq, Repr

/-- Item n of a MODIFY, counted from 0: it begins at payload offset 3 + 7n (R186). -/
def itemAt (p : List Byte) (n : Nat) : ModifyItem :=
  { selector := u8 p (3 + 7 * n), value := (p.drop (4 + 7 * n)).take 6 }

/-- The items of a MODIFY, in payload order. -/
def itemsOf (p : List Byte) : List ModifyItem := (List.range (u8 p 2)).map (itemAt p)

/-- What the item checks come to: the position and status of the first item that fails, or the configuration after all
items (R33 step 4). -/
inductive ItemsOutcome (α : Type) where
  | refused (position : Nat) (st : Status)
  | passed (config : α)
deriving DecidableEq, Repr

/-- The item checks of R33 step 4, one item after another: selector, kind, repeated field, value. `ofKind` says which
fields belong to the record, `write` writes one, `seen` holds the fields of the earlier items, `position` counts from
1. -/
def checkItems {α : Type} (ofKind : ModifyField → Bool) (write : ModifyField → List Byte → α → Option α) :
    List ModifyField → Nat → List ModifyItem → α → ItemsOutcome α
  | _, _, [], c => .passed c
  | seen, position, item :: rest, c =>
    match fieldOf item.selector with
    | none => .refused position .badField
    | some f =>
      if ofKind f = false then .refused position .wrongKind
      else if f ∈ seen then .refused position .badField
      else
        match write f item.value c with
        | none => .refused position .badField
        | some c' => checkItems ofKind write (f :: seen) (position + 1) rest c'

/-! ## Calibration scopes (R146, R147) -/

/-- The place of an entry in table order: input ranges 0..7, then channels 0..3 (R144). -/
def CalEntry.place : CalEntry → Fin 12
  | .input r => ⟨r.val, by omega⟩
  | .output c => ⟨c.val + 8, by omega⟩

/-- The eight input range entries in order. -/
def inputEntries : List CalEntry := (List.finRange 8).map .input

/-- The four output channel entries in order. -/
def outputEntries : List CalEntry := (List.finRange 4).map .output

/-- The entries of a scope, in the order the run measures them (R147). -/
def Scope.entries : Scope → List CalEntry
  | .allInputs => inputEntries
  | .range r => [.input r]
  | .outputs => outputEntries
  | .all => inputEntries ++ outputEntries

/-- The entries of a scope still to come after one of them. -/
def Scope.after (sc : Scope) (e : CalEntry) : List CalEntry :=
  (sc.entries.dropWhile (fun x => x != e)).tail

/-- The scope a CALIBRATE payload names; the range byte counts for RANGE only (R146, R183). -/
def scopeOf (p : List Byte) : Option Scope :=
  match u8 p 0 with
  | 1 => some .allInputs
  | 2 => (finOf 8 (u8 p 1)).map .range
  | 3 => some .outputs
  | 4 => some .all
  | _ => none

/-! ## Enumeration codes (11.4) -/

/-- The code of a record's kind. -/
def Body.kindCode : Body → Nat
  | .input _ _ => 1
  | .output _ _ => 2

/-- The code of a slot state a request can see; RETIRING is reached by none (R14). -/
def SlotState.code : SlotState → Nat
  | .active => 1
  | .held => 2
  | .retiring => 0

/-- The mode code and the pin or pair number of a source. -/
def Source.codes : Source → Nat × Nat
  | .se p => (1, p.val)
  | .diff p => (2, p.val)

/-- The code of a limit state. -/
def LimitState.code : LimitState → Nat
  | .normal => 0
  | .high => 1
  | .low => 2

/-- The code of a last condition. -/
def Condition.code : Condition → Nat
  | .normal => 0
  | .overrange => 1
  | .uncal => 2

/-- The reasons byte: bit 0 LIMIT, bit 1 QUALITY. -/
def Reasons.code (r : Reasons) : Nat := (if r.limit then 1 else 0) + (if r.quality then 2 else 0)

/-- The device events byte: bit 0 CAL_DONE, bit 1 SAVE_DONE, bit 2 CLASS_OVERRUN, bit 3 STORE_EMPTY. -/
def DeviceEvents.code (e : DeviceEvents) : Nat :=
  (if e.calDone.isSome then 1 else 0) + (if e.saveDone.isSome then 2 else 0)
    + (if e.classOverrun then 4 else 0) + (if e.storeEmpty then 8 else 0)

/-- The code of a per-entry result. -/
def EntryResult.code : EntryResult → Nat
  | .notRun => 0
  | .updated => 1
  | .failed => 2
  | .skipped => 3

/-- The code of a run's outcome. -/
def RunOutcome.code : RunOutcome → Nat
  | .completed => 1
  | .aborted => 2

/-- The code of a save's result. -/
def SaveResult.code : SaveResult → Nat
  | .ok => 1
  | .failed => 2

/-- The code of a bank, or of no bank. -/
def bankCode : Option BankName → Nat
  | none => 0
  | some .a => 1
  | some .b => 2

/-- The code of the run state. -/
def CalRun.code : CalRun → Nat
  | .idle => 0
  | .waiting _ => 1
  | .running _ _ => 2

/-- The code of a scope. -/
def Scope.code : Scope → Nat
  | .allInputs => 1
  | .range _ => 2
  | .outputs => 3
  | .all => 4

/-- The scope of a run in progress. -/
def CalRun.scope : CalRun → Option Scope
  | .idle => none
  | .waiting sc => some sc
  | .running sc _ => some sc

/-- The scope code and scope range of STATUS: 0 and 0 when no run is in progress (R188). -/
def CalRun.scopeCodes (r : CalRun) : Nat × Nat :=
  match r.scope with
  | none => (0, 0)
  | some (.range c) => (2, c.val)
  | some sc => (sc.code, 0)

end Sys2Proof.Machine
end

