-- ==== Sys2Proof/Machine/Flags.lean ====
section
/-! DEFINITION. The derived grades and the arithmetic: rounding and clamping, quality, limit states, raises, input and
output correction, calibration coefficients, bank generations, the status byte. -/

namespace Sys2Proof.Machine

/-! ## Arithmetic (00_scope.md, "Arithmetic") -/

/-- A value replaced by the nearer end of lo..hi when it lies outside it. -/
def clampTo (lo hi x : Int) : Int := if x < lo then lo else if hi < x then hi else x

/-- n / d rounded to nearest for d > 0, a result exactly halfway rounded away from zero. -/
def divNearest (n d : Int) : Int :=
  if 0 ≤ n then (2 * n + d) / (2 * d) else -((2 * -n + d) / (2 * d))

/-! ## Value, quality, limits -/

/-- The value of a corrected code under a scaling part (R10, R94). -/
def scaledValue (sc : Option Scaling) (corrected : Int) : Int :=
  match sc with
  | none => corrected
  | some k => (corrected * k.gain).tdiv 4096 + k.offset

/-- The grade of an input point's value (R14). -/
inductive Quality where
  | none | good | stale | uncal | overrange | held
deriving DecidableEq, Repr

/-- The code of a quality (11.4). -/
def Quality.code : Quality → Nat
  | .none => 0
  | .good => 1
  | .stale => 2
  | .uncal => 3
  | .overrange => 4
  | .held => 5

/-- The quality of an input record, by the first case of R14 that holds. -/
def qualityOf (st : SlotState) (v : ValuePart) : Quality :=
  if st = .held then .held
  else if v.hasValue = false then .none
  else if 3 ≤ v.missedPasses then .stale
  else
    match v.lastCondition with
    | .uncal => .uncal
    | .overrange => .overrange
    | .normal => .good

/-- Whether a move from one quality to another raises QUALITY attention (R15). -/
def qualityRaises (before after : Quality) : Bool :=
  before != after && (after == .stale || after == .overrange || after == .uncal)

/-- A high limit is present and v is above it (R99). -/
def aboveHigh (c : InputConfig) (v : Int) : Bool :=
  match c.highLimit with
  | some h => decide (h < v)
  | none => false

/-- A low limit is present and v is below it (R99). -/
def belowLow (c : InputConfig) (v : Int) : Bool :=
  match c.lowLimit with
  | some l => decide (v < l)
  | none => false

/-- v is below the high limit less the deadband; an absent limit takes part in no comparison (R99, R101, log 13). -/
def leavesHigh (c : InputConfig) (v : Int) : Bool :=
  match c.highLimit with
  | some h => decide (v < h - (c.deadband : Int))
  | none => false

/-- v is above the low limit plus the deadband (R99, R102, log 13). -/
def leavesLow (c : InputConfig) (v : Int) : Bool :=
  match c.lowLimit with
  | some l => decide (l + (c.deadband : Int) < v)
  | none => false

/-- The limit state an evaluation against v leads to from a limit state (R100, R101, R102). -/
def evalLimit (c : InputConfig) (start : LimitState) (v : Int) : LimitState :=
  match start with
  | .normal => if aboveHigh c v then .high else if belowLow c v then .low else .normal
  | .high => if belowLow c v then .low else if leavesHigh c v then .normal else .high
  | .low => if aboveHigh c v then .high else if leavesLow c v then .normal else .low

/-! ## Conversion results (R79 to R82, R93) -/

/-- The code the converter gives for an input on a range: beyond the span, the code at the nearer end (R79). -/
def converterCode (r : RangeCode) (input : Int) : Int := clampTo (codeMin r) (codeMax r) input

/-- Whether a sample is a saturation code (R80). -/
def saturates (r : RangeCode) (code : Int) : Bool :=
  if bipolar r then code == -32768 || code == 32767 else code == 65535

/-- The raw code of a conversion: the sum over N, rounded toward negative infinity (R79). -/
def rawCode (sum : Int) (n : Oversample) : Int := sum / (n.samples : Int)

/-- The corrected code of a raw code (R81, R82). -/
def correctedCode (e : Coefficients) (r : RangeCode) (raw : Int) : Int :=
  match e with
  | .invalid => raw
  | .valid o g => clampTo (codeMin r) (codeMax r) (((raw - o) * g).tdiv 32768)

/-- The condition handed to the Point Store with a corrected code (R82). -/
def conditionOf (e : Coefficients) (overrange : Bool) : Condition :=
  match e with
  | .invalid => .uncal
  | .valid _ _ => if overrange then .overrange else .normal

/-- The value part after a written completion (R93). -/
def writtenPart (c : InputConfig) (v : ValuePart) (corrected : Int) (cond : Condition) : ValuePart :=
  let value := scaledValue c.scaling corrected
  { corrected := corrected, value := value, hasValue := true, lastCondition := cond,
    updateCount := v.updateCount + 1, missedPasses := 0, mark := true,
    limitState := evalLimit c v.limitState value }

/-- The reasons an event decides from the record before and after it (R15, R104). -/
def reasonsOf (st : SlotState) (before after : ValuePart) : Reasons :=
  { limit := before.limitState != after.limitState,
    quality := qualityRaises (qualityOf st before) (qualityOf st after) }

/-- The value part after an expiry of the point's class (R55): missed passes rises on a clear mark, staying at 255
once there, and the mark is cleared. -/
def expiredPart (v : ValuePart) : ValuePart :=
  { v with
    missedPasses := if v.mark then v.missedPasses else if 255 ≤ v.missedPasses then v.missedPasses
      else v.missedPasses + 1
    mark := false }

/-! ## Output correction (R139) -/

/-- The pin code of a driven code through an output entry (R139). -/
def outputCode (e : Coefficients) (driven : Int) : Int :=
  match e with
  | .invalid => driven
  | .valid o g => clampTo (-32768) 32767 ((driven * g).tdiv 32768 + o)

/-- The live code after a ramp tick of an ACTIVE point (R135). -/
def rampStep (slew : Option Nat) (live target : Int) : Int :=
  match slew with
  | none => target
  | some s =>
    if (target - live).natAbs ≤ s then target
    else if live < target then live + (s : Int) else live - (s : Int)

/-! ## Calibration coefficients (R149, R151, R152) -/

/-- The acceptance limits of a measured entry, and of every VALID entry (R144, R149). -/
def acceptable (o g : Int) : Bool :=
  decide (-1024 ≤ o) && decide (o ≤ 1024) && decide (24576 ≤ g) && decide (g ≤ 40960)

/-- An accepted entry is VALID with its coefficients, any other outcome INVALID (R149). -/
def accepted (o g : Int) : Coefficients := if acceptable o g then .valid o g else .invalid

/-- The code of the reference node on a converter of exact gain and zero offset (R149). -/
def expectedCode (r : RangeCode) : Int :=
  if bipolar r then Config.expectedBipolar else Config.expectedUnipolar

/-- The entry of an input range from the sums of the zero and the reference samples (R149). The denominator
F / 64 − o is taken as the fraction (F − 64 o) / 64. -/
def inputEntryOf (r : RangeCode) (zeroSum referenceSum : Int) : Coefficients :=
  let o := zeroSum.tdiv 64
  let d := referenceSum - 64 * o
  if d ≤ 0 then .invalid else accepted o (divNearest (32768 * expectedCode r * 64) d)

/-- A loopback mean times `loopbackScale e0`, from the sum of 64 samples: m itself with entry 0 INVALID, and
(m − o0) × g0 / 32768 with it VALID, as an exact fraction (R151). -/
def loopbackNumerator (e0 : Coefficients) (sum : Int) : Int :=
  match e0 with
  | .invalid => sum
  | .valid o0 g0 => (sum - 64 * o0) * g0

/-- The common denominator of the two loopback means (R151). -/
def loopbackScale (e0 : Coefficients) : Int :=
  match e0 with
  | .invalid => 64
  | .valid _ _ => 64 * 32768

/-- The entry of an output channel from the sums of the PLUS and the MINUS samples, read through input range entry 0
(R151, R152). -/
def outputEntryOf (e0 : Coefficients) (plusSum minusSum : Int) : Coefficients :=
  let mp := loopbackNumerator e0 plusSum
  let mm := loopbackNumerator e0 minusSum
  let k := loopbackScale e0
  if mp - mm ≤ 0 then .invalid
  else accepted ((-(mp + mm)).tdiv (2 * k)) (divNearest (32768 * 48000 * k) (mp - mm))

/-- The per-entry result of a measured entry (R149, R152). -/
def measuredResult (e : Coefficients) : EntryResult :=
  match e with
  | .invalid => .failed
  | .valid _ _ => .updated

/-! ## Banks (R159) -/

/-- The generation that follows one; 0 is not used (R159). -/
def nextGeneration (g : Nat) : Nat := if 65535 ≤ g then 1 else g + 1

/-- The current bank, chosen from the bank states and generations (R159). -/
def currentBank (a b : Bank) : Option BankName :=
  if a.state = .valid then
    if b.state = .valid then
      let d := ((b.generation : Int) - (a.generation : Int)) % 65536
      if 1 ≤ d ∧ d ≤ 32767 then some .b else some .a
    else some .a
  else if b.state = .valid then some .b else none

/-! ## The status byte (R169, R189) -/

/-- The status byte of its flags: bit 0 RDY, 1 EXEC, 2 REFUSED, 3 CHECK, 4 ATTN, 5 CAL, 6 BUSY, bit 7 always 0. -/
def statusBits (rdy exec refused check attn cal busy : Bool) : Byte :=
  BitVec.ofNat 8
    ((if rdy then 1 else 0) + (if exec then 2 else 0) + (if refused then 4 else 0) + (if check then 8 else 0)
      + (if attn then 16 else 0) + (if cal then 32 else 0) + (if busy then 64 else 0))

end Sys2Proof.Machine
end

