-- ==== Sys2Proof/Machine/Ops.lean ====
section
/-! DEFINITION. The shared operations over State: tables, the Tag Index, pin claims, the Conversion Queue, attention and
device events, the converter, the calibration run, the store, the ports, the Request Engine and the resets. -/

namespace Sys2Proof.Machine

/-! ## Tables -/

/-- A table with entry i replaced. -/
def put {α : Type} {n : Nat} (v : Vector α n) (i : Fin n) (x : α) : Vector α n := v.set i.val x i.isLt

/-- A table with every entry mapped. -/
def mapTable {α β : Type} {n : Nat} (f : α → β) (v : Vector α n) : Vector β n := ⟨⟨v.toList.map f⟩, by simp⟩

/-- The slot numbers in ascending order (R1). -/
def slotIds : List SlotId := List.finRange 64

/-- The record of a slot, or none when it is FREE (R1). -/
def State.slot (s : State) (i : SlotId) : Slot := s.slots.get i

/-- The state with one slot replaced. -/
def State.setSlot (s : State) (i : SlotId) (x : Slot) : State := { s with slots := put s.slots i x }

/-- A Channel Table entry. -/
def State.channel (s : State) (c : ChannelId) : Channel := s.channels.get c

/-- The state with one Channel Table entry replaced. -/
def State.setChannel (s : State) (c : ChannelId) (x : Channel) : State := { s with channels := put s.channels c x }

/-- A scan class record. -/
def State.scanClass (s : State) (c : ClassId) : ScanClass := s.classes.get c

/-- The state with one scan class record replaced. -/
def State.setClass (s : State) (c : ClassId) (x : ScanClass) : State := { s with classes := put s.classes c x }

/-- A Pin Claim Table entry. -/
def State.claim (s : State) (p : PinId) : PinClaim := s.pinClaims.get p

/-- A Calibration Table entry (R144). -/
def State.calEntry (s : State) (e : CalEntry) : Coefficients := s.calTable.get e.place

/-- The state with one Calibration Table entry replaced whole (R144). -/
def State.setCalEntry (s : State) (e : CalEntry) (x : Coefficients) : State :=
  { s with calTable := put s.calTable e.place x }

/-- The state with one per-entry result replaced (R145). -/
def State.setCalResult (s : State) (e : CalEntry) (x : EntryResult) : State :=
  { s with calResults := put s.calResults e.place x }

/-- A bank of the Calibration Store. -/
def State.bank (s : State) : BankName → Bank
  | .a => s.bankA
  | .b => s.bankB

/-- The state with one bank replaced. -/
def State.setBank (s : State) (n : BankName) (x : Bank) : State :=
  match n with
  | .a => { s with bankA := x }
  | .b => { s with bankB := x }

/-- The state of a port. -/
def State.port (s : State) : Port → PortState
  | .host => s.hostPort
  | .maintenance => s.maintPort

/-- The state with one port replaced. -/
def State.setPort (s : State) (p : Port) (x : PortState) : State :=
  match p with
  | .host => { s with hostPort := x }
  | .maintenance => { s with maintPort := x }

/-! ## Slots and the Tag Index (R4, R16 to R19) -/

/-- The lowest-numbered FREE slot (R4). -/
def State.lowestFree (s : State) : Option SlotId := slotIds.find? (fun i => (s.slot i).isNone)

/-- The number of FREE slots (R1). -/
def State.freeCount (s : State) : Nat := slotIds.countP (fun i => (s.slot i).isNone)

/-- The number of slots in a slot state (R1). -/
def State.countState (s : State) (st : SlotState) : Nat :=
  slotIds.countP (fun i => match s.slot i with
    | some r => r.slotState == st
    | none => false)

/-- The slot a tag is paired with (R18). -/
def lookupTag (index : List IndexPair) (tag : Nat) : Option SlotId :=
  (index.find? (fun e => e.tag == tag)).map (fun e => e.slot)

/-- A pair inserted at the place its tag takes in ascending order (R17). -/
def insertPair (tag : Nat) (i : SlotId) : List IndexPair → List IndexPair
  | [] => [⟨tag, i⟩]
  | e :: rest => if tag < e.tag then ⟨tag, i⟩ :: e :: rest else e :: insertPair tag i rest

/-- A tag's pair removed (R17). -/
def removeTag (tag : Nat) (index : List IndexPair) : List IndexPair := index.filter (fun e => e.tag != tag)

/-- The smallest held tag greater than t, or 65535 (R19). -/
def successor (index : List IndexPair) (t : Nat) : Nat :=
  index.foldl (fun best e => if t < e.tag ∧ e.tag < best then e.tag else best) 65535

/-- The point a tag names: its slot and record (R18). -/
def State.findPoint (s : State) (tag : Nat) : Option (SlotId × PointRecord) :=
  match lookupTag s.tagIndex tag with
  | none => none
  | some i => (s.slot i).map fun r => (i, r)

/-! ## Pin claims (R20 to R22) -/

/-- Whether a source may be claimed: every pin it uses is unclaimed or claimed in its mode (R21). -/
def claimable (claims : Vector PinClaim 16) (src : Source) : Bool :=
  src.pins.all (fun p => (claims.get p).mode == none || (claims.get p).mode == some src.mode)

/-- One pin claimed in a mode (R21). -/
def claimPin (m : SourceMode) (claims : Vector PinClaim 16) (p : PinId) : Vector PinClaim 16 :=
  put claims p ⟨some m, (claims.get p).count + 1⟩

/-- The claims of a source taken (R21). -/
def takeClaims (claims : Vector PinClaim 16) (src : Source) : Vector PinClaim 16 :=
  src.pins.foldl (claimPin src.mode) claims

/-- One pin given back: a count that reaches 0 sets the mode to NONE (R22). -/
def releasePin (claims : Vector PinClaim 16) (p : PinId) : Vector PinClaim 16 :=
  put claims p (if (claims.get p).count ≤ 1 then PinClaim.unclaimed
    else ⟨(claims.get p).mode, (claims.get p).count - 1⟩)

/-- The claims of a source given back (R22). -/
def giveClaims (claims : Vector PinClaim 16) (src : Source) : Vector PinClaim 16 :=
  src.pins.foldl releasePin claims

/-- A slot made FREE: its record is discarded, and an input record's claims are given back (R1, R22). -/
def State.freeSlot (s : State) (i : SlotId) (r : PointRecord) : State :=
  let s1 := s.setSlot i none
  match r.body with
  | .input c _ => { s1 with pinClaims := giveClaims s.pinClaims c.source }
  | .output _ _ => s1

/-! ## Channels (R23, R24) -/

/-- The driven code of an owned channel made equal to its owner's live code (R24). -/
def driveOwner (slots : Vector Slot 64) (ch : Channel) : Channel :=
  match ch.owner with
  | none => ch
  | some i =>
    match slots.get i with
    | some ⟨_, _, .output _ k⟩ => { ch with driven := k.live }
    | _ => ch

/-- Every record mapped in one act, each owned channel following its owner's live code (R24, R131, R134). -/
def State.mapRecords (s : State) (f : PointRecord → PointRecord) : State :=
  let slots := mapTable (fun x => x.map f) s.slots
  { s with slots := slots, channels := mapTable (driveOwner slots) s.channels }

/-- An output record's codes written; when the live code is `drive`n, its channel's driven code follows (R24). -/
def State.writeOutput (s : State) (i : SlotId) (r : PointRecord) (c : OutputConfig) (k : CodePart) (drive : Bool) :
    State :=
  let s1 := s.setSlot i (some { r with body := .output c k })
  if drive then s1.setChannel c.channel { s1.channel c.channel with driven := k.live } else s1

/-! ## The Conversion Queue (R61 to R65) -/

/-- The queue entry of a slot. -/
def State.queueEntry (s : State) (i : SlotId) : Option QueueEntry := s.queue.find? (fun e => e.slot == i)

/-- A class's outstanding count lowered by 1 (R65). -/
def State.lowerOutstanding (s : State) (c : ClassId) : State :=
  s.setClass c { s.scanClass c with outstanding := (s.scanClass c).outstanding - 1 }

/-- A slot's queue entry removed, if it has one, with its pass class's outstanding count lowered (R64). -/
def State.unqueue (s : State) (i : SlotId) : State :=
  match s.queueEntry i with
  | none => s
  | some e => { s.lowerOutstanding e.passClass with queue := s.queue.filter (fun x => x.slot != i) }

/-- The entries of a pass of class c put after every entry of class c or lower and before every entry of a higher
class (R62). -/
def insertPass (c : ClassId) (pass queue : List QueueEntry) : List QueueEntry :=
  queue.filter (fun e => e.passClass ≤ c) ++ pass ++ queue.filter (fun e => c < e.passClass)

/-- Whether the conversion in flight is the slot's (R5). -/
def State.inFlightAt (s : State) (i : SlotId) : Bool :=
  match s.inFlight with
  | some c => c.slot == i
  | none => false

/-- The superseded mark set on the conversion in flight when it is the slot's (R88). -/
def State.supersede (s : State) (i : SlotId) : State :=
  { s with inFlight := s.inFlight.map (fun c => if c.slot = i then { c with superseded := true } else c) }

/-! ## Attention (R113 to R116, R120) -/

/-- The reasons of a listed entry joined by a raise's (R115). -/
def Reasons.join (a b : Reasons) : Reasons := { limit := a.limit || b.limit, quality := a.quality || b.quality }

/-- A raise joined to a listed entry; the change count stays at 15 once there (R115). -/
def AttentionEntry.join (e : AttentionEntry) (r : Reasons) : AttentionEntry :=
  { e with reasons := e.reasons.join r, count := if 15 ≤ e.count then e.count else e.count + 1 }

/-- A raise taken by the Attention List: it joins the slot's entry or appends a new one at the tail (R114, R115). -/
def raiseOn (list : List AttentionEntry) (i : SlotId) (r : Reasons) : List AttentionEntry :=
  if list.any (fun e => e.slot == i) then list.map (fun e => if e.slot = i then e.join r else e)
  else list ++ [⟨i, r, 1⟩]

/-- A raise carries at least one reason (R112). -/
def Reasons.any (r : Reasons) : Bool := r.limit || r.quality

/-- An event's raise for a slot handed to the Attention Unit when it carries a reason (R113). -/
def State.raise (s : State) (i : SlotId) (r : Reasons) : State :=
  if r.any then { s with attention := raiseOn s.attention i r } else s

/-- The attention entry of a slot. -/
def State.attentionAt (s : State) (i : SlotId) : Option AttentionEntry := s.attention.find? (fun e => e.slot == i)

/-- A slot's attention entry removed; the entries behind it close up (R116). -/
def State.unlist (s : State) (i : SlotId) : State :=
  { s with attention := s.attention.filter (fun e => e.slot != i) }

/-- CAL_DONE raised; the result of an instance already in the set is replaced (R120). -/
def State.raiseCalDone (s : State) (o : RunOutcome) : State :=
  { s with events := { s.events with calDone := some ⟨o, s.calResults⟩ } }

/-- SAVE_DONE raised; the result of an instance already in the set is replaced (R120). -/
def State.raiseSaveDone (s : State) (r : SaveResult) : State :=
  { s with events := { s.events with saveDone := some r } }

/-- The PX64 drives nATTN low while the list or the set holds anything (R123). -/
def State.attn (s : State) : Bool := !s.attention.isEmpty || s.events != DeviceEvents.none

/-! ## Runs and saves in progress (R145, R161) -/

/-- A calibration run is in progress while WAITING or RUNNING (R145). -/
def State.runInProgress (s : State) : Bool := s.calRun != .idle

/-- A store save is in progress. -/
def State.saveInProgress (s : State) : Bool := s.save.isSome

/-! ## The course of a calibration run (R148 to R153) -/

/-- The run's end: IDLE, the converter released with the selection "none", CAL_DONE raised (R153). -/
def State.endRun (s : State) (o : RunOutcome) : State :=
  State.raiseCalDone { s with calRun := .idle, unit := .idle, convGrant := .scan, selection := none } o

/-- A measurement at the beginning of its settling part. -/
def Measurement.start (e : CalEntry) (ph : CalPhase) (earlier : Int) : Measurement :=
  { entry := e, phase := ph, settled := false, sum := 0, taken := 0, earlier := earlier }

/-- The under calibration mark of a channel written (R23). -/
def State.setUnderCal (s : State) (c : ChannelId) (b : Bool) : State :=
  s.setChannel c { s.channel c with underCal := b }

/-- The next entry of a run begins: an input entry starts its ZERO measurement, an owned channel is SKIPPED in the same
act, an unowned one is marked and starts its PLUS measurement; with no entry left the run ends (R148, R150, R153). The
earlier sum, which R145 leaves open until the second measurement, is 0 (DESIGN CHOICE, log 21). -/
def State.beginEntries (sc : Scope) : List CalEntry → State → State
  | [], s => s.endRun .completed
  | .input r :: _, s => { s with calRun := .running sc (.start (.input r) .zero 0) }
  | .output c :: rest, s =>
    if (s.channel c).owner.isSome then State.beginEntries sc rest (s.setCalResult (.output c) .skipped)
    else { s.setUnderCal c true with calRun := .running sc (.start (.output c) .plus 0) }

/-- A measured entry is replaced whole with its result, its channel, if it is one, drives its held code again, and the
next entry of the scope begins (R149, R152). -/
def State.finishEntry (s : State) (sc : Scope) (e : CalEntry) (x : Coefficients) : State :=
  let s1 := (s.setCalEntry e x).setCalResult e (measuredResult x)
  let s2 := match e with
    | .input _ => s1
    | .output c => s1.setUnderCal c false
  s2.beginEntries sc (sc.after e)

/-- The range a calibration measurement samples on: that of an input entry, range 0 for the loopback (R149, R151). -/
def CalEntry.sampleRange : CalEntry → RangeCode
  | .input r => r
  | .output _ => 0

/-! ## Conversions (R76, R84 to R86) -/

/-- A start: the head becomes the conversion in flight, and the front end settles when the wanted selection differs
from the present one (R76, R77). -/
def State.startConversion (s : State) (e : QueueEntry) (rest : List QueueEntry) (c : InputConfig) : State :=
  let wanted : Selection := ⟨c.source, c.range⟩
  { s with
    queue := rest
    inFlight := some ⟨e.slot, e.passClass, c.oversample, 0, 0, false, false⟩
    selection := some wanted
    unit := if s.selection = some wanted then .sampling else .settling }

/-- The Point Store takes a completion: a RETIRING slot is freed, a wanted result for an ACTIVE slot is written and
may raise attention, any other result is discarded (R85, R93, R105). -/
def State.deliver (s : State) (i : SlotId) (superseded : Bool) (corrected : Int) (cond : Condition) : State :=
  match s.slot i with
  | none => s
  | some r =>
    match r.slotState with
    | .retiring => s.freeSlot i r
    | .held => s
    | .active =>
      match r.body with
      | .output _ _ => s
      | .input c v =>
        if superseded then s
        else
          let v' := writtenPart c v corrected cond
          State.raise (s.setSlot i (some { r with body := .input c v' })) i (reasonsOf .active v v')

/-- The completion of a conversion on a range (R84). -/
def State.complete (s : State) (k : Conversion) (r : RangeCode) : State :=
  let e := s.calEntry (.input r)
  let s1 := s.deliver k.slot k.superseded (correctedCode e r (rawCode k.sum k.oversample)) (conditionOf e k.overrange)
  { s1.lowerOutstanding k.passClass with inFlight := none, unit := .idle }

/-! ## The Request Engine (R175, R176) -/

/-- What carrying out a request comes to: a refusal, which changes no state, or the new state with the payload of an OK
response (R176). -/
inductive Answer where
  | refuse (st : Status) (payload : List Byte)
  | done (s : State) (payload : List Byte)

/-- A port in EXECUTING is a claim on the engine (R175). -/
def State.claims (s : State) (p : Port) : Bool :=
  match (s.port p).mode with
  | .executing _ => true
  | _ => false

/-- The port a grant serves now: the one that claims, and of two the one not served last (R175). -/
def State.enginePort (s : State) : Option Port :=
  match s.claims .host, s.claims .maintenance with
  | true, true => if s.lastServed = .host then some .maintenance else some .host
  | true, false => some .host
  | false, true => some .maintenance
  | false, false => none

/-- The engine's next grant serves this port, and the port's taken request is this one. -/
def State.serves (s : State) (p : Port) (q : Request) : Bool :=
  s.enginePort == some p && (s.port p).mode == .executing q

/-- A response placed in a port: RESPONSE_READY, the taken request dropped, the port served last (R175). -/
def State.placeResponse (s : State) (p : Port) (frame : List Byte) : State :=
  { s.setPort p { s.port p with mode := .responseReady frame } with lastServed := p }

/-- The response to a request built and placed (R176, R184). -/
def State.respond (s : State) (p : Port) (q : Request) : Answer → State
  | .refuse st payload => s.placeResponse p (responseFrame q st payload)
  | .done s' payload => s'.placeResponse p (responseFrame q .ok payload)

/-- One grant of the engine for a request of the nineteen, when it is the grant the engine makes now: a request the
port may not send is DENIED, any other is carried out by `own` (R175, R176, R177). The command changes nothing when
the engine would not make this grant (log 1, log 3). -/
def State.grantRequest (s : State) (p : Port) (k : RequestKind) (id : Byte) (payload : List Byte)
    (own : State → Answer) : State :=
  if s.serves p ⟨requestCode k, id, payload⟩ then
    s.respond p ⟨requestCode k, id, payload⟩ (if allowedOn p k then own s else .refuse .denied [])
  else s

/-- A request whose payload has its length and whose tag is checked and found (R18, R26). -/
def State.onPoint (s : State) (payload : List Byte) (length : Nat) (f : SlotId → PointRecord → Answer) : Answer :=
  if payload.length ≠ length then .refuse .badField []
  else if u16 payload 0 = 0 ∨ u16 payload 0 = 65535 then .refuse .badField []
  else
    match s.findPoint (u16 payload 0) with
    | none => .refuse .notFound []
    | some (i, r) => f i r

/-! ## Transfers on the ports (R167 to R171) -/

/-- The part answers its ports: it has power and is not held in a hard reset (R181). -/
def State.alive (s : State) : Bool := s.phase == .loading || s.phase == .running

/-- The part takes part in a transfer on a link: on I2C the master must send its address (R174, R181). -/
def State.answers (s : State) (l : Link) : Bool :=
  s.alive && match l with
    | .spi => true
    | .i2c a => a == s.maintAddress

/-- The status byte of a port as its flags stand; while the load is in progress it shows BUSY alone (R169). -/
def State.statusOf (s : State) (p : Port) : Byte :=
  let x := s.port p
  if s.phase = .loading then statusBits false false false false false false true
  else
    statusBits
      (match x.mode with
        | .responseReady _ => true
        | _ => false)
      (match x.mode with
        | .executing _ => true
        | _ => false)
      x.refusedFlag x.checkFlag s.attn (s.runInProgress || s.saveInProgress) false

/-- What a transfer whose status byte is sent is: on SPI the host's first byte decides, an I2C read is a fetch (R171,
R172). -/
def transferKind : Link → Byte → TransferKind
  | .spi, first => if first = 0 then .fetch else .request
  | .i2c _, _ => .fetch

/-- A transfer starts and its whole status byte is sent: the snapshot is kept with the open transfer, and the flags it
carries are cleared; a byte that shows BUSY carries none (R169, R170). -/
def State.sendStatus (s : State) (p : Port) (k : TransferKind) : State :=
  let x := s.port p
  s.setPort p
    { x with
      openTransfer := some ⟨s.statusOf p, k⟩
      refusedFlag := x.refusedFlag && s.phase == .loading
      checkFlag := x.checkFlag && s.phase == .loading }

/-- What the transfer open on a port is. -/
def State.openKind (s : State) (p : Port) : Option TransferKind := (s.port p).openTransfer.map Transfer.kind

/-- Every window on SPI begins with the status byte; when the window open is not of the kind the command tells, the
command's own window begins with it (R172, log 4). An I2C write carries none. -/
def State.startWindow (s : State) (l : Link) (k : TransferKind) : State :=
  match l with
  | .i2c _ => s
  | .spi => if s.openKind .host = some k then s else s.sendStatus .host k

/-- The open transfer of a port ends: nothing more is sent in it (R172, R174). -/
def State.endTransfer (s : State) (p : Port) : State := s.setPort p { s.port p with openTransfer := none }

/-- The rest of the transfer open on a port is ignored, and the port sends 0xFF in it (R171, R172). -/
def State.passTransfer (s : State) (p : Port) : State :=
  s.setPort p { s.port p with openTransfer := (s.port p).openTransfer.map fun x => { x with kind := .over } }

/-- A frame is over on a link: the window goes on and is ignored; an I2C write sends nothing (R172, R174). -/
def State.endFrame (s : State) : Link → State
  | .spi => s.passTransfer .host
  | .i2c _ => s.endTransfer .maintenance

/-- CHECK set in a port (R167). -/
def State.setCheck (s : State) (p : Port) : State := s.setPort p { s.port p with checkFlag := true }

/-- REFUSED set in a port (R168). -/
def State.setRefused (s : State) (p : Port) : State := s.setPort p { s.port p with refusedFlag := true }

/-- A frame that passes its check: taken into an IDLE port, refused otherwise and during the load (R168). -/
def State.takeFrame (s : State) (p : Port) (q : Request) : State :=
  if (s.port p).mode = .idle ∧ s.phase ≠ .loading then s.setPort p { s.port p with mode := .executing q }
  else s.setRefused p

/-- The window a frame check tells of on SPI: a first byte of 0 makes a fetch (R172). -/
def windowOf : FrameCheck → TransferKind
  | .fetch => .fetch
  | .empty | .badLength | .short | .badCrc | .good _ => .request

/-- What a transfer's bytes do to the port, by the frame check (R167, R168, R172). -/
def State.receive (s : State) (l : Link) (c : FrameCheck) : State :=
  let s1 := s.startWindow l (windowOf c)
  match c with
  | .empty => s
  | .fetch => s1
  | .badLength | .short | .badCrc => (s1.endFrame l).setCheck l.port
  | .good q => (s1.endFrame l).takeFrame l.port q

/-! ## Resets (R25, R70, R90, R124, R143, R157, R165, R179, R181) -/

/-- The class records after a soft reset: disabled with periods kept, counts 0, flags clear (R70). -/
def ScanClass.softReset (c : ScanClass) : ScanClass :=
  { c with enabled := false, outstanding := 0, overrun := false, expiryDue := false }

/-- A Channel Table entry after a soft reset: no owner, the driven code kept, no mark (R25). -/
def Channel.softReset (c : Channel) : Channel := { c with owner := none, underCal := false }

/-- The values a soft reset sets (R179): directory, scan, converter, attention, outputs and calibration run. The
Calibration Table, the per-entry results, the store and the ports are left. -/
def State.softResetBlocks (s : State) : State :=
  { s with
    slots := Vector.replicate 64 none
    tagIndex := []
    pinClaims := Vector.replicate 16 PinClaim.unclaimed
    channels := mapTable Channel.softReset s.channels
    classes := mapTable ScanClass.softReset s.classes
    queue := []
    unit := .idle
    convGrant := .scan
    selection := none
    inFlight := none
    attention := []
    events := DeviceEvents.none
    calRun := .idle }

/-- What a SOFT_RESET does to the maintenance port: a taken request is dropped and REFUSED set; a response is
kept (R180). -/
def PortState.dropRequest (x : PortState) : PortState :=
  match x.mode with
  | .executing _ => { x with mode := .idle, refusedFlag := true }
  | _ => x

/-- The values a hard reset sets in every block, the part then being in phase `ph`. The banks are kept: a save cut
short leaves its target as its phase had reached (R164). The Calibration Table is left to the load (R157, log 8),
and a transfer open on a port is closed (DESIGN CHOICE, log 22). -/
def State.hardResetBlocks (s : State) (ph : Phase) : State :=
  { State.reset with
    calTable := s.calTable
    bankA := s.bankA
    bankB := s.bankB
    maintAddress := s.maintAddress
    phase := ph
    freeIndex := s.freeIndex
    pending := s.pending }

/-- The end of a hard reset: A1 and A0 are sampled, and the load begins (R174, R182). -/
def State.endHardReset (s : State) (a1 a0 : Bool) : State :=
  { s with
    phase := .loading
    maintAddress := Config.maintenanceBase + BitVec.ofNat 7 ((if a1 then 2 else 0) + (if a0 then 1 else 0)) }

end Sys2Proof.Machine
end

