-- ==== Sys2Proof/Machine/Acquisition.lean ====
section
/-! DEFINITION. The Acquisition Unit: the converter grant, the end of settling, and the samples with the completion
(R71 to R92). -/

namespace Sys2Proof.Machine

/-- The converter lent to a WAITING Calibration Unit, whose first entry begins (R73, R148). -/
def State.lend (s : State) (sc : Scope) : State :=
  State.beginEntries sc sc.entries { s with unit := .lent, convGrant := .cal, selection := none }

/-- GRANT (R73): with the unit IDLE, a WAITING Calibration Unit is served first, else the head of the queue starts. A
grant that finds no claim does nothing. -/
def execGrant (s : State) : Host.Outcome State Fault Refusal :=
  if s.unit ≠ .idle then .next s
  else
    match s.calRun, s.queue with
    | .waiting sc, _ => .next (s.lend sc)
    | _, [] => .next s
    | _, e :: rest =>
      match s.slot e.slot with
      | some ⟨_, _, .input c _⟩ => .next (s.startConversion e rest c)
      | _ => .fault .queueHeadNotInput

/-- SETTLE_END (R77): the unit enters SAMPLING. -/
def execSettleEnd (s : State) : Host.Outcome State Fault Refusal :=
  .next (if s.unit = .settling then { s with unit := .sampling } else s)

/-- A conversion with one sample more (R79, R80). -/
def Conversion.addSample (k : Conversion) (r : RangeCode) (code : Int) : Conversion :=
  { k with taken := k.taken + 1, sum := k.sum + code, overrange := k.overrange || saturates r code }

/-- One sample of the conversion in flight on the selected range, with the completion at the last (R79, R84). -/
def State.takeSample (s : State) (k : Conversion) (r : RangeCode) (input : Int) : State :=
  let k' := k.addSample r (converterCode r input)
  if k.oversample.samples ≤ k'.taken then s.complete k' r else { s with inFlight := some k' }

/-- SAMPLE (R79 to R86). -/
def execSample (input : Int) (s : State) : Host.Outcome State Fault Refusal :=
  .next
    (if s.unit = .sampling then
      match s.inFlight, s.selection with
      | some k, some sel => s.takeSample k sel.range input
      | _, _ => s
    else s)

end Sys2Proof.Machine
end

