-- ==== Sys2Proof/Machine/Attention.lean ====
section
/-! DEFINITION. The requests of the Attention Unit: PEEK and ACK (R117 to R122). -/

namespace Sys2Proof.Machine

/-- The quality and limit state codes PEEK shows for a listed point, and the tag its record carries (R117). -/
def peekPoint (x : Slot) : Nat × Nat × Nat :=
  match x with
  | some ⟨tag, st, .input _ v⟩ => (tag, (qualityOf st v).code, v.limitState.code)
  | some ⟨tag, _, .output _ _⟩ => (tag, 0, 0)
  | none => (0, 0, 0)

/-- PEEK's payload: 9 bytes (R117, 11.3). -/
def peekPayload (s : State) : List Byte :=
  match s.attention with
  | [] => putBool true ++ put16 0 ++ put8 0 ++ put8 0 ++ put8 0 ++ put8 0 ++ put8 0 ++ put8 s.events.code
  | e :: _ =>
    let x := peekPoint (s.slot e.slot)
    putBool false ++ put16 x.1 ++ put8 e.reasons.code ++ put8 e.count ++ put8 x.2.1 ++ put8 x.2.2
      ++ put8 s.attention.length ++ put8 s.events.code

/-- PEEK (R117). -/
def requestPeek (payload : List Byte) (s : State) : Answer :=
  if payload.length ≠ 0 then .refuse .badField [] else .done s (peekPayload s)

/-- PEEK (R117). -/
def execPeek (p : Port) (id : Byte) (payload : List Byte) (s : State) : Host.Outcome State Fault Refusal :=
  .next (s.grantRequest p .peek id payload (requestPeek payload))

/-- The overrun flags byte: the flag of class c at bit c (11.3). -/
def overrunFlags (s : State) : Nat :=
  (if (s.scanClass 0).overrun then 1 else 0) + (if (s.scanClass 1).overrun then 2 else 0)
    + (if (s.scanClass 2).overrun then 4 else 0) + (if (s.scanClass 3).overrun then 8 else 0)

/-- The twelve per-entry results in table order (11.3). -/
def putResults (v : Vector EntryResult 12) : List Byte := v.toList.flatMap (fun r => put8 r.code)

/-- The fields of CAL_DONE in a device acknowledgement, zeros when the set does not hold it (11.3). -/
def putCalDone (x : Option RunResult) : List Byte :=
  match x with
  | none => List.replicate 13 0
  | some r => put8 r.outcome.code ++ putResults r.results

/-- The field of SAVE_DONE in a device acknowledgement, 0 when the set does not hold it (11.3). -/
def putSaveDone (x : Option SaveResult) : List Byte :=
  match x with
  | none => put8 0
  | some r => put8 r.code

/-- A device acknowledgement's payload: 16 bytes (R121, 11.3). -/
def deviceAckPayload (s : State) : List Byte :=
  put8 s.events.code ++ putCalDone s.events.calDone ++ putSaveDone s.events.saveDone ++ put8 (overrunFlags s)

/-- A class record with its overrun flag cleared. -/
def ScanClass.clearOverrun (c : ScanClass) : ScanClass := { c with overrun := false }

/-- A device acknowledgement's effects: the device event set emptied, the four overrun flags cleared (R121). -/
def State.deviceAck (s : State) : State :=
  { s with events := DeviceEvents.none, classes := mapTable ScanClass.clearOverrun s.classes }

/-- ACK with its checks in the order of R118. -/
def requestAck (payload : List Byte) (s : State) : Answer :=
  if payload.length ≠ 2 then .refuse .badField []
  else if u16 payload 0 = 65535 then .refuse .badField []
  else if u16 payload 0 = 0 then .done s.deviceAck (deviceAckPayload s)
  else
    match s.findPoint (u16 payload 0) with
    | none => .refuse .notFound []
    | some (i, _) =>
      match s.attentionAt i with
      | none => .refuse .notPending []
      | some e => .done (s.unlist i) (put8 e.reasons.code ++ put8 e.count)

/-- ACK (R118, R121). -/
def execAck (p : Port) (id : Byte) (payload : List Byte) (s : State) : Host.Outcome State Fault Refusal :=
  .next (s.grantRequest p .ack id payload (requestAck payload))

end Sys2Proof.Machine
end

