-- ==== Sys2Proof/Machine/Calibration.lean ====
section
/-! DEFINITION. The Calibration Unit: CALIBRATE, CAL_ABORT and the events of a run (R144 to R157). -/

namespace Sys2Proof.Machine

/-- CALIBRATE with its checks in the order of R146; the response carries the number of entries in the scope. -/
def requestCalibrate (payload : List Byte) (s : State) : Answer :=
  if payload.length ≠ 2 then .refuse .badField []
  else
    match scopeOf payload with
    | none => .refuse .badField []
    | some sc =>
      if s.runInProgress then .refuse .busy []
      else if s.saveInProgress then .refuse .busy []
      else
        .done { s with calRun := .waiting sc, calResults := Vector.replicate 12 .notRun } (put8 sc.entries.length)

/-- CALIBRATE (R146). -/
def execCalibrate (p : Port) (id : Byte) (payload : List Byte) (s : State) : Host.Outcome State Fault Refusal :=
  .next (s.grantRequest p .calibrate id payload (requestCalibrate payload))

/-- The effects of aborting a RUNNING run: the measurement is dropped, a channel under calibration is given back, and
the run ends ABORTED (R155). -/
def State.abortRunning (s : State) (m : Measurement) : State :=
  (match m.entry with
    | .input _ => s
    | .output c => s.setUnderCal c false).endRun .aborted

/-- CAL_ABORT with its checks in the order of R155; the response carries the run state found. -/
def requestCalAbort (payload : List Byte) (s : State) : Answer :=
  if payload.length ≠ 0 then .refuse .badField []
  else
    match s.calRun with
    | .idle => .refuse .notPending []
    | .waiting _ => .done (State.raiseCalDone { s with calRun := .idle } .aborted) (put8 s.calRun.code)
    | .running _ m => .done (s.abortRunning m) (put8 s.calRun.code)

/-- CAL_ABORT (R155). -/
def execCalAbort (p : Port) (id : Byte) (payload : List Byte) (s : State) : Host.Outcome State Fault Refusal :=
  .next (s.grantRequest p .calAbort id payload (requestCalAbort payload))

/-- CAL_SETTLE_END (R149, R151): the samples of the current measurement begin. -/
def execCalSettleEnd (s : State) : Host.Outcome State Fault Refusal :=
  .next
    (match s.calRun with
      | .running sc m => if m.settled then s else { s with calRun := .running sc { m with settled := true } }
      | .idle | .waiting _ => s)

/-- The end of a measurement of 64 samples: the first one of an entry leads to the second, the second to the entry's
end (R149, R151, R152). -/
def State.endMeasurement (s : State) (sc : Scope) (m : Measurement) : State :=
  match m.phase with
  | .zero => { s with calRun := .running sc (.start m.entry .reference m.sum) }
  | .plus => { s with calRun := .running sc (.start m.entry .minus m.sum) }
  | .reference | .minus =>
    s.finishEntry sc m.entry
      (match m.entry with
        | .input r => inputEntryOf r m.earlier m.sum
        | .output _ => outputEntryOf (s.calEntry (.input 0)) m.earlier m.sum)

/-- One sample of a calibration measurement (R149, R151). -/
def State.takeCalSample (s : State) (sc : Scope) (m : Measurement) (input : Int) : State :=
  let m' : Measurement :=
    { m with sum := m.sum + converterCode m.entry.sampleRange input, taken := m.taken + 1 }
  if Config.calSamples ≤ m'.taken then s.endMeasurement sc m' else { s with calRun := .running sc m' }

/-- CAL_SAMPLE (R149 to R153). -/
def execCalSample (input : Int) (s : State) : Host.Outcome State Fault Refusal :=
  .next
    (match s.calRun with
      | .running sc m => if m.settled then s.takeCalSample sc m input else s
      | .idle | .waiting _ => s)

end Sys2Proof.Machine
end

