-- ==== Sys2Proof/Machine/Directory.lean ====
section
/-! DEFINITION. The requests of chapter 2: DEFINE, LOOKUP, NEXT, MODIFY, HOLD, RELEASE and RETIRE. -/

namespace Sys2Proof.Machine

/-! ## DEFINE (R27 to R30) -/

/-- The payload length the kind byte sets: 26 for INPUT, 13 for OUTPUT (R185). -/
def defineLength (payload : List Byte) : Option Nat :=
  match u8 payload 2 with
  | 1 => some 26
  | 2 => some 13
  | _ => none

/-- The value part of a new input record (R12, R28). -/
def ValuePart.initial : ValuePart :=
  { corrected := 0, value := 0, hasValue := false, lastCondition := .normal, updateCount := 0,
    missedPasses := 0, mark := true, limitState := .normal }

/-- The effects of a DEFINE of an input point in slot i (R28). -/
def State.defineInput (s : State) (i : SlotId) (tag : Nat) (c : InputConfig) : State :=
  { s.setSlot i (some ⟨tag, .active, .input c ValuePart.initial⟩) with
    pinClaims := takeClaims s.pinClaims c.source
    tagIndex := insertPair tag i s.tagIndex }

/-- The code part of a new output record on a channel driven at `driven`: the target is that code clamped, and with
slew absent the live code steps to it (R30). -/
def takenOver (c : OutputConfig) (driven : Int) : CodePart :=
  let target := clampTo c.clampMin c.clampMax driven
  { live := if c.slew.isNone then target else driven, target := target, staged := none }

/-- The effects of a DEFINE of an output point in slot i (R30). -/
def State.defineOutput (s : State) (i : SlotId) (tag : Nat) (c : OutputConfig) : State :=
  let k := takenOver c (s.channel c.channel).driven
  { (s.setSlot i (some ⟨tag, .active, .output c k⟩)).setChannel c.channel
      { s.channel c.channel with owner := some i, driven := k.live } with
    tagIndex := insertPair tag i s.tagIndex }

/-- DEFINE's response: the number of slots still FREE (R27). -/
def definedAnswer (s : State) : Answer := .done s (put8 s.freeCount)

/-- Steps 5 and 6 of R27 for an input point. -/
def State.defineInputChecks (s : State) (i : SlotId) (tag : Nat) (payload : List Byte) : Answer :=
  match inputConfigOf payload with
  | none => .refuse .badField []
  | some c =>
    if claimable s.pinClaims c.source then definedAnswer (s.defineInput i tag c) else .refuse .pinConflict []

/-- Steps 5 and 6 of R27 for an output point. -/
def State.defineOutputChecks (s : State) (i : SlotId) (tag : Nat) (payload : List Byte) : Answer :=
  match outputConfigOf payload with
  | none => .refuse .badField []
  | some c =>
    if (s.channel c.channel).owner.isSome then .refuse .channelTaken []
    else if (s.channel c.channel).underCal then .refuse .busy []
    else definedAnswer (s.defineOutput i tag c)

/-- DEFINE with its checks in the order of R27. -/
def requestDefine (payload : List Byte) (s : State) : Answer :=
  if defineLength payload ≠ some payload.length then .refuse .badField []
  else if u16 payload 0 = 0 ∨ u16 payload 0 = 65535 then .refuse .badField []
  else if (lookupTag s.tagIndex (u16 payload 0)).isSome then .refuse .duplicateTag []
  else
    match s.lowestFree with
    | none => .refuse .tableFull []
    | some i =>
      if u8 payload 2 = 1 then s.defineInputChecks i (u16 payload 0) payload
      else s.defineOutputChecks i (u16 payload 0) payload

/-- DEFINE (R27 to R30). -/
def execDefine (p : Port) (id : Byte) (payload : List Byte) (s : State) : Host.Outcome State Fault Refusal :=
  .next (s.grantRequest p .define id payload (requestDefine payload))

/-! ## LOOKUP and NEXT (R31, R32) -/

/-- An optional scaling part in a response: an absent part carries zeros (R31, R183). -/
def putScaling (x : Option Scaling) : List Byte :=
  match x with
  | none => putBool false ++ put16 0 ++ put24 0
  | some k => putBool true ++ put16 k.gain ++ put24 k.offset

/-- An optional limit in a response. -/
def putLimit (x : Option Int) : List Byte := putBool x.isSome ++ put32 (x.getD 0)

/-- LOOKUP's payload for a record (R31, 11.3). -/
def lookupPayload (r : PointRecord) : List Byte :=
  put16 r.tag ++ put8 r.body.kindCode ++ put8 r.slotState.code ++
    match r.body with
    | .input c v =>
      put8 c.source.codes.1 ++ put8 c.source.codes.2 ++ put8 c.range.val ++ put8 c.oversample.samples
        ++ put8 c.scanClass.val ++ putScaling c.scaling ++ putLimit c.highLimit ++ putLimit c.lowLimit
        ++ put16 c.deadband ++ put8 (qualityOf r.slotState v).code
    | .output c _ =>
      put8 c.channel.val ++ put16 c.clampMin ++ put16 c.clampMax ++ putBool c.slew.isSome ++ put16 (c.slew.getD 0)
        ++ put8 c.updateSet.val ++ putBool c.operatorWritable

/-- LOOKUP (R31): the configuration of the point named. -/
def requestLookup (payload : List Byte) (s : State) : Answer :=
  s.onPoint payload 2 fun _ r => .done s (lookupPayload r)

/-- LOOKUP (R31). -/
def execLookup (p : Port) (id : Byte) (payload : List Byte) (s : State) : Host.Outcome State Fault Refusal :=
  .next (s.grantRequest p .lookup id payload (requestLookup payload))

/-- NEXT's payload: the successor with its kind and slot state, or 65535 with NONE (R32). -/
def nextPayload (s : State) (t : Nat) : List Byte :=
  put16 (successor s.tagIndex t) ++
    match s.findPoint (successor s.tagIndex t) with
    | none => put8 0 ++ put8 0
    | some (_, r) => put8 r.body.kindCode ++ put8 r.slotState.code

/-- NEXT (R32): it names a tag in 0..65534, held or not. -/
def requestNext (payload : List Byte) (s : State) : Answer :=
  if payload.length ≠ 2 then .refuse .badField []
  else if u16 payload 0 = 65535 then .refuse .badField []
  else .done s (nextPayload s (u16 payload 0))

/-- NEXT (R32). -/
def execNextTag (p : Port) (id : Byte) (payload : List Byte) (s : State) : Host.Outcome State Fault Refusal :=
  .next (s.grantRequest p .nextTag id payload (requestNext payload))

/-! ## MODIFY (R33 to R41) -/

/-- A change that supersedes the conversion in flight: source, range or oversample (R88). -/
def supersedes (c c' : InputConfig) : Bool :=
  c'.source != c.source || c'.range != c.range || c'.oversample != c.oversample

/-- A change of source or range clears has-value (R35). -/
def clearsValue (c c' : InputConfig) : Bool := c'.source != c.source || c'.range != c.range

/-- A change that re-evaluates the limits when has-value is true: scaling, limits or deadband (R38, R39). -/
def reevaluates (c c' : InputConfig) : Bool :=
  c'.scaling != c.scaling || c'.highLimit != c.highLimit || c'.lowLimit != c.lowLimit || c'.deadband != c.deadband

/-- The value a MODIFY leaves: recomputed from the corrected code when the scaling changed (R38). -/
def modifiedValue (c c' : InputConfig) (v : ValuePart) : Int :=
  if c'.scaling != c.scaling then scaledValue c'.scaling v.corrected else v.value

/-- The value part a MODIFY of an input record leaves (R34, R35, R37 to R39). -/
def modifiedPart (c c' : InputConfig) (v : ValuePart) : ValuePart :=
  let w : ValuePart := { v with mark := v.mark || c'.scanClass != c.scanClass }
  if clearsValue c c' then { w with hasValue := false, limitState := .normal }
  else if v.hasValue && reevaluates c c' then
    { w with value := modifiedValue c c' v, limitState := evalLimit c' .normal (modifiedValue c c' v) }
  else w

/-- The raise of a MODIFY of an input record: LIMIT when a re-evaluation changes the limit state (R39). -/
def modifyReasons (c c' : InputConfig) (v : ValuePart) : Reasons :=
  { limit := !clearsValue c c' && v.hasValue && reevaluates c c'
      && evalLimit c' .normal (modifiedValue c c' v) != v.limitState
    quality := false }

/-- The claims after a MODIFY: moved when the source changed (R21). -/
def movedClaims (claims : Vector PinClaim 16) (c c' : InputConfig) : Vector PinClaim 16 :=
  if c'.source = c.source then claims else takeClaims (giveClaims claims c.source) c'.source

/-- The effects of a MODIFY of the input record in slot i from configuration c to c' (R34 to R39). -/
def State.modifyInput (s : State) (i : SlotId) (r : PointRecord) (c : InputConfig) (v : ValuePart)
    (c' : InputConfig) : State :=
  let s1 : State :=
    { s.setSlot i (some { r with body := .input c' (modifiedPart c c' v) }) with
      pinClaims := movedClaims s.pinClaims c c' }
  let s2 := if supersedes c c' then s1.supersede i else s1
  let s3 := if c'.scanClass = c.scanClass then s2 else s2.unqueue i
  s3.raise i (modifyReasons c c' v)

/-- The codes after a clamp change: target and staged code clamped; an ACTIVE point with slew absent steps to a target
that moved (R40). The slew is the one held before the MODIFY. -/
def reclampedCodes (active : Bool) (c c' : OutputConfig) (k : CodePart) : CodePart :=
  if c'.clampMin = c.clampMin ∧ c'.clampMax = c.clampMax then k
  else
    let target := clampTo c'.clampMin c'.clampMax k.target
    { live := if active && c.slew.isNone && target != k.target then target else k.live
      target := target
      staged := k.staged.map (clampTo c'.clampMin c'.clampMax) }

/-- The effects of a MODIFY of the output record in slot i (R40, R41). -/
def State.modifyOutput (s : State) (i : SlotId) (r : PointRecord) (c : OutputConfig) (k : CodePart)
    (c' : OutputConfig) : State :=
  let k' := reclampedCodes (r.slotState == .active) c c' k
  s.writeOutput i r c' k' (k'.live != k.live)

/-- MODIFY's refusal carries the position of the failing item, 0 at any step but 4 (R33, R186). -/
def modifyRefusal (st : Status) (position : Nat) : Answer := .refuse st (put8 position)

/-- Steps 4 to 6 of R33 for an input point. -/
def State.modifyInputChecks (s : State) (i : SlotId) (r : PointRecord) (c : InputConfig) (v : ValuePart)
    (items : List ModifyItem) : Answer :=
  match checkItems ModifyField.ofInput setInputField [] 1 items c with
  | .refused position st => modifyRefusal st position
  | .passed c' =>
    if limitsOk c' = false then modifyRefusal .badField 0
    else if c'.source ≠ c.source ∧ claimable (giveClaims s.pinClaims c.source) c'.source = false then
      modifyRefusal .pinConflict 0
    else .done (s.modifyInput i r c v c') []

/-- Steps 4 to 6 of R33 for an output point. -/
def State.modifyOutputChecks (s : State) (i : SlotId) (r : PointRecord) (c : OutputConfig) (k : CodePart)
    (items : List ModifyItem) : Answer :=
  match checkItems (fun f => !f.ofInput) setOutputField [] 1 items c with
  | .refused position st => modifyRefusal st position
  | .passed c' =>
    if clampOk c' = false then modifyRefusal .badField 0 else .done (s.modifyOutput i r c k c') []

/-- MODIFY with its checks in the order of R33. -/
def requestModify (payload : List Byte) (s : State) : Answer :=
  if u8 payload 2 = 0 ∨ 8 < u8 payload 2 ∨ payload.length ≠ 3 + 7 * u8 payload 2 then modifyRefusal .badField 0
  else if u16 payload 0 = 0 ∨ u16 payload 0 = 65535 then modifyRefusal .badField 0
  else
    match s.findPoint (u16 payload 0) with
    | none => modifyRefusal .notFound 0
    | some (i, r) =>
      match r.body with
      | .input c v => s.modifyInputChecks i r c v (itemsOf payload)
      | .output c k => s.modifyOutputChecks i r c k (itemsOf payload)

/-- MODIFY (R33 to R41). -/
def execModify (p : Port) (id : Byte) (payload : List Byte) (s : State) : Host.Outcome State Fault Refusal :=
  .next (s.grantRequest p .modify id payload (requestModify payload))

/-! ## HOLD and RELEASE (R42 to R45) -/

/-- The effects of a HOLD: an ACTIVE slot becomes HELD and an input point's queue entry is removed; a HELD one is left
(R42, R44). An output point has no queue entry. -/
def State.holdPoint (s : State) (i : SlotId) (r : PointRecord) : State :=
  match r.slotState, r.body with
  | .active, .input _ _ => (s.setSlot i (some { r with slotState := .held })).unqueue i
  | .active, .output _ _ => s.setSlot i (some { r with slotState := .held })
  | .held, _ => s
  | .retiring, _ => s

/-- HOLD (R42, R44). -/
def requestHold (payload : List Byte) (s : State) : Answer :=
  s.onPoint payload 2 fun i r => .done (s.holdPoint i r) []

/-- HOLD (R42, R44). -/
def execHold (p : Port) (id : Byte) (payload : List Byte) (s : State) : Host.Outcome State Fault Refusal :=
  .next (s.grantRequest p .hold id payload (requestHold payload))

/-- The value part a RELEASE leaves: missed passes 3 and the mark set (R43). -/
def releasedPart (v : ValuePart) : ValuePart := { v with missedPasses := 3, mark := true }

/-- The effects of a RELEASE: a HELD slot becomes ACTIVE; an output point with slew absent steps to its target (R43,
R45). -/
def State.releasePoint (s : State) (i : SlotId) (r : PointRecord) : State :=
  match r.slotState with
  | .active | .retiring => s
  | .held =>
    match r.body with
    | .input c v => s.setSlot i (some { r with slotState := .active, body := .input c (releasedPart v) })
    | .output c k =>
      let step := c.slew.isNone && k.live != k.target
      s.writeOutput i { r with slotState := .active } c (if step then { k with live := k.target } else k) step

/-- RELEASE (R43, R45). -/
def requestRelease (payload : List Byte) (s : State) : Answer :=
  s.onPoint payload 2 fun i r => .done (s.releasePoint i r) []

/-- RELEASE (R43, R45). -/
def execRelease (p : Port) (id : Byte) (payload : List Byte) (s : State) : Host.Outcome State Fault Refusal :=
  .next (s.grantRequest p .release id payload (requestRelease payload))

/-! ## RETIRE (R46 to R48) -/

/-- The outcome of a RETIRE of the record in slot i: PENDING for an input point whose conversion is in flight (R46). -/
def State.retirePends (s : State) (i : SlotId) (r : PointRecord) : Bool :=
  match r.body with
  | .input _ _ => s.inFlightAt i
  | .output _ _ => false

/-- The tag's pair and the attention entry removed, in every RETIRE (R46). -/
def State.forget (s : State) (i : SlotId) (r : PointRecord) : State :=
  { s.unlist i with tagIndex := removeTag r.tag s.tagIndex }

/-- The effects of a RETIRE (R46 to R48). -/
def State.retirePoint (s : State) (i : SlotId) (r : PointRecord) : State :=
  let s1 := s.forget i r
  if s.retirePends i r then s1.setSlot i (some { r with slotState := .retiring })
  else
    match r.body with
    | .input _ _ => (s1.unqueue i).freeSlot i r
    | .output c _ => (s1.freeSlot i r).setChannel c.channel { s.channel c.channel with owner := none }

/-- RETIRE (R46 to R48); outcome FREED is 1 and PENDING 2 (11.4). -/
def requestRetire (payload : List Byte) (s : State) : Answer :=
  s.onPoint payload 2 fun i r => .done (s.retirePoint i r) (put8 (if s.retirePends i r then 2 else 1))

/-- RETIRE (R46 to R48). -/
def execRetire (p : Port) (id : Byte) (payload : List Byte) (s : State) : Host.Outcome State Fault Refusal :=
  .next (s.grantRequest p .retire id payload (requestRetire payload))

end Sys2Proof.Machine
end

