-- ==== Sys2Proof/Machine/Outputs.lean ====
section
/-! DEFINITION. The Output Unit: STAGE, COMMIT, DISCARD and the ramp tick (R125 to R143). -/

namespace Sys2Proof.Machine

/-! ## STAGE (R127, R128) -/

/-- Steps 4 to 6 of R127 and the effect of R128 on the point found. -/
def State.stagePoint (s : State) (p : Port) (code : Int) (i : SlotId) (r : PointRecord) : Answer :=
  match r.body with
  | .input _ _ => .refuse .wrongKind []
  | .output c k =>
    if p = .maintenance ∧ c.operatorWritable = false then .refuse .denied []
    else if code < c.clampMin ∨ c.clampMax < code then .refuse .range []
    else .done (s.writeOutput i r c { k with staged := some code } false) (putBool k.staged.isSome)

/-- STAGE with its checks in the order of R127. -/
def requestStage (p : Port) (payload : List Byte) (s : State) : Answer :=
  s.onPoint payload 4 (s.stagePoint p (s16 payload 2))

/-- STAGE (R127, R128). -/
def execStage (p : Port) (id : Byte) (payload : List Byte) (s : State) : Host.Outcome State Fault Refusal :=
  .next (s.grantRequest p .stage id payload (requestStage p payload))

/-! ## COMMIT and DISCARD (R130 to R133) -/

/-- The update set a COMMIT or DISCARD payload names, when the length and the number pass (R130). -/
def updateSetOf (payload : List Byte) : Option SetId :=
  if payload.length = 1 then finOf 4 (u8 payload 0) else none

/-- Whether a record is a member of a set with a staged code in a slot state (R130, R131). -/
def stagedMember (u : SetId) (st : SlotState) (r : PointRecord) : Bool :=
  match r.body with
  | .output c k => r.slotState == st && c.updateSet == u && k.staged.isSome
  | .input _ _ => false

/-- The number of slots whose record passes a test. -/
def State.countRecords (s : State) (f : PointRecord → Bool) : Nat :=
  slotIds.countP (fun i => match s.slot i with
    | some r => f r
    | none => false)

/-- The codes of a committed member: the staged code becomes the target and is made absent; with slew absent the live
code steps to it (R131, R132). -/
def committedCodes (c : OutputConfig) (k : CodePart) : CodePart :=
  match k.staged with
  | none => k
  | some x => { live := if c.slew.isNone then x else k.live, target := x, staged := none }

/-- A COMMIT's effect on one record (R131). -/
def commitRecord (u : SetId) (r : PointRecord) : PointRecord :=
  match r.body with
  | .output c k =>
    if r.slotState = .active ∧ c.updateSet = u then { r with body := .output c (committedCodes c k) } else r
  | .input _ _ => r

/-- COMMIT with its checks in the order of R130; the response carries the committed and the held-skipped count. -/
def requestCommit (payload : List Byte) (s : State) : Answer :=
  match updateSetOf payload with
  | none => .refuse .badField []
  | some u =>
    .done (s.mapRecords (commitRecord u))
      (put8 (s.countRecords (stagedMember u .active)) ++ put8 (s.countRecords (stagedMember u .held)))

/-- COMMIT (R130 to R132). -/
def execCommit (p : Port) (id : Byte) (payload : List Byte) (s : State) : Host.Outcome State Fault Refusal :=
  .next (s.grantRequest p .commit id payload (requestCommit payload))

/-- A DISCARD's effect on one record: the staged code of a member is made absent (R133). -/
def discardRecord (u : SetId) (r : PointRecord) : PointRecord :=
  match r.body with
  | .output c k =>
    if c.updateSet = u ∧ r.slotState ≠ .retiring then { r with body := .output c { k with staged := none } } else r
  | .input _ _ => r

/-- DISCARD with its checks in the order of R130; the response carries the number of codes made absent. -/
def requestDiscard (payload : List Byte) (s : State) : Answer :=
  match updateSetOf payload with
  | none => .refuse .badField []
  | some u =>
    .done { s with slots := mapTable (fun x => x.map (discardRecord u)) s.slots }
      (put8 (s.countRecords (stagedMember u .active) + s.countRecords (stagedMember u .held)))

/-- DISCARD (R130, R133). -/
def execDiscard (p : Port) (id : Byte) (payload : List Byte) (s : State) : Host.Outcome State Fault Refusal :=
  .next (s.grantRequest p .discard id payload (requestDiscard payload))

/-! ## The ramp tick (R134, R135) -/

/-- A ramp tick's effect on one record (R135). -/
def rampRecord (r : PointRecord) : PointRecord :=
  match r.body with
  | .output c k =>
    if r.slotState = .active ∧ k.live ≠ k.target then
      { r with body := .output c { k with live := rampStep c.slew k.live k.target } }
    else r
  | .input _ _ => r

/-- RAMP_TICK (R134, R135). The tick runs from the end of hard reset. -/
def execRampTick (s : State) : Host.Outcome State Fault Refusal :=
  .next (if s.alive then s.mapRecords rampRecord else s)

end Sys2Proof.Machine
end

