-- ==== Sys2Proof/Machine/Ports.lean ====
section
/-! DEFINITION. The ports and the resets: STATUS, SOFT_RESET, the answers to an unknown or denied request, the transfer
events, HARD_RESET and POWER_LOSS (R166 to R182). -/

namespace Sys2Proof.Machine

/-! ## STATUS (R178, R188) -/

/-- The five bytes of a class in STATUS (R188). -/
def putClass (c : ScanClass) : List Byte :=
  putBool c.enabled ++ put16 c.period ++ put8 c.outstanding ++ putBool c.overrun

/-- The current bank's generation, 0 when the pointer is none (R159). -/
def State.currentGeneration (s : State) : Nat :=
  match s.pointer with
  | none => 0
  | some n => (s.bank n).generation

/-- STATUS's payload: 47 bytes (R178, R188). -/
def statusPayload (s : State) : List Byte :=
  put16 Config.partCode ++ put8 (s.countState .active) ++ put8 (s.countState .held) ++ put8 (s.countState .retiring)
    ++ put8 s.queue.length ++ s.classes.toList.flatMap putClass
    ++ put8 s.calRun.code ++ put8 s.calRun.scopeCodes.1 ++ put8 s.calRun.scopeCodes.2
    ++ s.calResults.toList.flatMap (fun r => put8 r.code)
    ++ put8 (bankCode s.pointer) ++ put16 s.currentGeneration ++ putBool s.saveInProgress
    ++ put8 s.events.code ++ put8 s.attention.length

/-- STATUS (R178). -/
def requestStatus (payload : List Byte) (s : State) : Answer :=
  if payload.length ≠ 0 then .refuse .badField [] else .done s (statusPayload s)

/-- STATUS (R178). -/
def execStatus (p : Port) (id : Byte) (payload : List Byte) (s : State) : Host.Outcome State Fault Refusal :=
  .next (s.grantRequest p .status id payload (requestStatus payload))

/-! ## SOFT_RESET (R179, R180) -/

/-- SOFT_RESET (R179): the blocks take their soft reset values, and the maintenance port's request is dropped (R180). -/
def requestSoftReset (payload : List Byte) (s : State) : Answer :=
  if payload.length ≠ 0 then .refuse .badField []
  else .done { s.softResetBlocks with maintPort := s.maintPort.dropRequest } []

/-- SOFT_RESET (R179, R180). -/
def execSoftReset (p : Port) (id : Byte) (payload : List Byte) (s : State) : Host.Outcome State Fault Refusal :=
  .next (s.grantRequest p .softReset id payload (requestSoftReset payload))

/-! ## Requests answered without being carried out (R176, R177) -/

/-- UNKNOWN_REQUEST_CODE (R176): a taken request whose code is none of the nineteen is answered with BAD_REQUEST. -/
def execUnknownRequestCode (p : Port) (code id : Byte) (payload : List Byte) (s : State) :
    Host.Outcome State Fault Refusal :=
  .next
    (if s.serves p ⟨code, id, payload⟩ && (requestKind code).isNone then
      s.respond p ⟨code, id, payload⟩ (.refuse .badRequest [])
    else s)

/-- Whether a code is that of a request the maintenance port may not send (R177). -/
def deniedCode (code : Byte) : Bool :=
  match requestKind code with
  | some k => !allowedOnMaintenance k
  | none => false

/-- DENIED_ON_MAINTENANCE_PORT (R177): a taken request the maintenance port may not send is answered with DENIED
before its payload is checked. -/
def execDeniedOnMaintenancePort (code id : Byte) (payload : List Byte) (s : State) :
    Host.Outcome State Fault Refusal :=
  .next
    (if s.serves .maintenance ⟨code, id, payload⟩ && deniedCode code then
      s.respond .maintenance ⟨code, id, payload⟩ (.refuse .denied [])
    else s)

/-! ## Transfers (R167 to R174) -/

/-- REQUEST_FRAME (R167, R168): the bytes of a write or request window, up to the L-th. -/
def execRequestFrame (l : Link) (bytes : List Byte) (s : State) : Host.Outcome State Fault Refusal :=
  .next (if s.answers l then s.receive l (frameCheck l.port bytes) else s)

/-- LENGTH_BYTE_CHECK_FAIL (R167): a length byte outside 5..64 sets CHECK. A byte that passes, and on SPI the 0 of a
fetch, fails no check. -/
def execLengthByteCheckFail (l : Link) (length : Byte) (s : State) : Host.Outcome State Fault Refusal :=
  .next (if s.answers l && frameCheck l.port [length] == .badLength then s.receive l .badLength else s)

/-- FRAME_ABORT (R167, R171, R172, R174): the transfer ends with `received` of a frame arrived, and nothing more is sent
in it. A frame cut short sets CHECK; a fetch, a write with no byte and a transfer whose frame was taken or refused at
its L-th byte end without an effect on flags or response. -/
def execFrameAbort (l : Link) (received : List Byte) (s : State) : Host.Outcome State Fault Refusal :=
  .next
    (if s.answers l then
      State.endTransfer
        (match frameCheck l.port received with
          | .good _ | .badCrc => s
          | .empty => if s.openKind l.port = some .request then s.setCheck l.port else s
          | c => s.receive l c)
        l.port
    else s)

/-- STATUS_BYTE (R169, R170, R172): the snapshot is taken and sent, and on SPI the host's first byte decides the window.
A transfer cut short before the eighth bit clears nothing and leaves no transfer open. -/
def execStatusByte (l : Link) (first : Option Byte) (s : State) : Host.Outcome State Fault Refusal :=
  .next
    (if s.answers l then
      match first with
      | some b => s.sendStatus l.port (transferKind l b)
      | none => s.endTransfer l.port
    else s)

/-- Whether the transfer open on a port sends the response: it is a fetch, and RDY was set in its snapshot (R171). -/
def Transfer.sendsResponse (x : Transfer) : Bool := x.kind == .fetch && x.snapshot.getLsbD 0

/-- Whether the open transfer delivers: it sends the response, and the response is there (R171). -/
def State.delivers (s : State) (p : Port) : Bool :=
  match (s.port p).openTransfer, (s.port p).mode with
  | some x, .responseReady _ => x.sendsResponse
  | _, _ => false

/-- RESPONSE_DELIVERY (R171): the port empties its buffer and enters IDLE; the bytes after the second CRC byte are
0xFF. -/
def execResponseDelivery (l : Link) (s : State) : Host.Outcome State Fault Refusal :=
  .next
    (if s.answers l && s.delivers l.port then
      (s.setPort l.port { s.port l.port with mode := .idle }).passTransfer l.port
    else s)

/-! ## HARD_RESET and POWER_LOSS (R164, R181, R182) -/

/-- A reset cause acts: nRESET does nothing to a part without power. -/
def State.resettable (s : State) (c : ResetCause) : Bool := c == .powerOn || s.phase != .off

/-- HARD_RESET (R182). A low pulse shorter than 1 µs gives nothing or a whole hard reset, by a free value (log 7). -/
def execHardReset (e : ResetEvent) (s : State) : Host.Outcome State Fault Refusal :=
  .next
    (match e with
      | .begins c => if s.resettable c then s.hardResetBlocks .inReset else s
      | .ends a1 a0 => if s.phase = .inReset then s.endHardReset a1 a0 else s
      | .whole c a1 a0 => if s.resettable c then (s.hardResetBlocks .inReset).endHardReset a1 a0 else s
      | .shortPulse a1 a0 =>
        if s.alive then
          let s1 : State := { s with freeIndex := s.freeIndex + 1 }
          if Config.shortPulseResets s.freeIndex then (s1.hardResetBlocks .inReset).endHardReset a1 a0 else s1
        else s)

/-- POWER_LOSS (R164): a save in progress is abandoned with its target as its phase had reached, the banks are kept,
and all working state is lost (log 8, log 12). -/
def execPowerLoss (s : State) : Host.Outcome State Fault Refusal :=
  .next (if s.phase = .off then s else { s.hardResetBlocks .off with calTable := Vector.replicate 12 .invalid })

end Sys2Proof.Machine
end

