-- ==== Sys2Proof/Machine/Reading.lean ====
section
/-! DEFINITION. The READ request (R106 to R110, R187). -/

namespace Sys2Proof.Machine

/-- Bytes that carry no value (R183). -/
def zeros (n : Nat) : List Byte := List.replicate n 0

/-- The part of a READ entry that depends on the kind: 14 bytes (R108, R109, R187). -/
def readBody (r : PointRecord) : List Byte :=
  match r.body with
  | .input _ v =>
    put8 (qualityOf r.slotState v).code ++ put8 v.limitState.code ++ putBool v.hasValue
      ++ put8 (if v.hasValue then v.lastCondition.code else 0) ++ put8 v.updateCount.toNat ++ put8 v.missedPasses
      ++ put32 (if v.hasValue then v.corrected else 0) ++ put32 (if v.hasValue then v.value else 0)
  | .output _ k =>
    put16 k.live ++ put16 k.target ++ putBool k.staged.isSome ++ put16 (k.staged.getD 0)
      ++ putBool (k.live != k.target) ++ zeros 6

/-- One entry of a READ response: 19 bytes (R107, R187). -/
def readEntry (s : State) (tag : Nat) : List Byte :=
  match s.findPoint tag with
  | none => put16 tag ++ [statusCode .notFound] ++ zeros 16
  | some (_, r) =>
    put16 tag ++ [statusCode .ok] ++ put8 r.body.kindCode ++ put8 r.slotState.code ++ readBody r

/-- The tags a READ names (R185). -/
def readTags (payload : List Byte) : List Nat := (List.range (u8 payload 0)).map (fun n => u16 payload (1 + 2 * n))

/-- READ with its checks in the order of R106. -/
def requestRead (payload : List Byte) (s : State) : Answer :=
  if u8 payload 0 = 0 ∨ 4 < u8 payload 0 ∨ payload.length ≠ 1 + 2 * u8 payload 0 then .refuse .badField []
  else if (readTags payload).any (fun t => t == 0 || t == 65535) then .refuse .badField []
  else .done s (put8 (u8 payload 0) ++ (readTags payload).flatMap (readEntry s))

/-- READ (R106 to R110). -/
def execRead (p : Port) (id : Byte) (payload : List Byte) (s : State) : Host.Outcome State Fault Refusal :=
  .next (s.grantRequest p .read id payload (requestRead payload))

end Sys2Proof.Machine
end

