-- ==== Sys2Proof/Machine/Scan.lean ====
section
/-! DEFINITION. The Scan Scheduler: the CLASS request, the class tick and the class expiry (R50 to R70). -/

namespace Sys2Proof.Machine

/-! ## CLASS (R52) -/

/-- A class record after a CLASS: an enabled class restarts its timer; the overrun flag and an expiry of the old timer
are dropped (R52, R53). A disabled class keeps its remaining field (DESIGN CHOICE, log 6). -/
def ScanClass.configure (c : ScanClass) (enable : Bool) (period : Nat) : ScanClass :=
  { c with
    enabled := enable
    period := period
    remaining := if enable then period else c.remaining
    overrun := false
    expiryDue := false }

/-- CLASS with its checks in the order of R52; the response carries the outstanding count and the overrun flag as it
stood. -/
def requestClass (payload : List Byte) (s : State) : Answer :=
  if payload.length ≠ 4 then .refuse .badField []
  else
    match finOf 4 (u8 payload 0), boolAt payload 1 with
    | some c, some enable =>
      if u16 payload 2 = 0 then .refuse .badField []
      else
        .done (s.setClass c ((s.scanClass c).configure enable (u16 payload 2)))
          (put8 (s.scanClass c).outstanding ++ putBool (s.scanClass c).overrun)
    | _, _ => .refuse .badField []

/-- CLASS (R52). -/
def execClassSet (p : Port) (id : Byte) (payload : List Byte) (s : State) : Host.Outcome State Fault Refusal :=
  .next (s.grantRequest p .classSet id payload (requestClass payload))

/-! ## The class tick (R51) -/

/-- A class record after a class tick: an enabled class counts down, and at 0 it is loaded with its period and has an
expiry due (R51, log 5). -/
def ScanClass.tick (c : ScanClass) : ScanClass :=
  if c.enabled = false then c
  else if c.remaining ≤ 1 then { c with remaining := c.period, expiryDue := true }
  else { c with remaining := c.remaining - 1 }

/-- CLASS_TICK (R51). The tick runs from the end of hard reset. -/
def execClassTick (s : State) : Host.Outcome State Fault Refusal :=
  .next (if s.alive then { s with classes := mapTable ScanClass.tick s.classes } else s)

/-! ## The class expiry (R54 to R57) -/

/-- A record is a point of a class for an expiry: an ACTIVE input record whose scan class names it (R54). -/
def inClass (c : ClassId) (r : PointRecord) : Bool :=
  match r.body with
  | .input k _ => r.slotState == .active && k.scanClass == c
  | .output _ _ => false

/-- The accounting of an expiry on one record (R55). -/
def expireRecord (c : ClassId) (r : PointRecord) : PointRecord :=
  if inClass c r then
    match r.body with
    | .input k v => { r with body := .input k (expiredPart v) }
    | .output _ _ => r
  else r

/-- The slots of the class's points in ascending tag order, as the Tag Index holds them (R57). -/
def State.members (s : State) (c : ClassId) : List SlotId :=
  (s.tagIndex.map (fun e => e.slot)).filter (fun i =>
    match s.slot i with
    | some r => inClass c r
    | none => false)

/-- The raise an expiry makes for one of its points: QUALITY on entering STALE (R55). -/
def State.expiryReasons (s : State) (i : SlotId) : Reasons :=
  match s.slot i with
  | some ⟨_, st, .input _ v⟩ => reasonsOf st v (expiredPart v)
  | _ => ⟨false, false⟩

/-- The entries a pass of class c appends: its points in tag order, less those queued or in flight (R57). -/
def State.passOf (s : State) (c : ClassId) : List QueueEntry :=
  ((s.members c).filter (fun i => (s.queueEntry i).isNone && !s.inFlightAt i)).map (fun i => ⟨i, c⟩)

/-- Missed-pass accounting with its raises in tag order (R55). -/
def State.account (s : State) (c : ClassId) : State :=
  (s.members c).foldl (fun t i => t.raise i (s.expiryReasons i))
    { s with slots := mapTable (fun x => x.map (expireRecord c)) s.slots }

/-- An overrun: the class's flag is set and CLASS_OVERRUN raised (R56). -/
def State.declareOverrun (s : State) (c : ClassId) : State :=
  { s.setClass c { s.scanClass c with overrun := true, expiryDue := false } with
    events := { s.events with classOverrun := true } }

/-- A pass start: its entries are inserted and counted (R57, R62). -/
def State.startPass (s : State) (c : ClassId) (pass : List QueueEntry) : State :=
  { s.setClass c { s.scanClass c with outstanding := pass.length, expiryDue := false } with
    queue := insertPass c pass s.queue }

/-- One expiry: accounting, then a pass or an overrun (R55 to R57). -/
def State.takeExpiry (s : State) (c : ClassId) : State :=
  if 0 < (s.scanClass c).outstanding then (s.account c).declareOverrun c
  else (s.account c).startPass c (s.passOf c)

/-- CLASS_EXPIRY of class c, when a class tick has made it due and the class is enabled (R51, R55 to R57). -/
def execClassExpiry (c : ClassId) (s : State) : Host.Outcome State Fault Refusal :=
  .next (if (s.scanClass c).enabled && (s.scanClass c).expiryDue then s.takeExpiry c else s)

end Sys2Proof.Machine
end

