-- ==== Sys2Proof/Machine/Store.lean ====
section
/-! DEFINITION. The Calibration Store: CAL_SAVE, the events of a save, and the load after a hard reset (R158 to
R165). -/

namespace Sys2Proof.Machine

/-- The bank a save writes: the one that is not current, A when there is none (R161). -/
def targetOf (pointer : Option BankName) : BankName :=
  match pointer with
  | some .a => .b
  | some .b => .a
  | none => .a

/-- The generation a save writes: the one after the current bank's, 1 when there is none (R161). -/
def State.saveGeneration (s : State) : Nat :=
  match s.pointer with
  | none => 1
  | some n => nextGeneration (s.bank n).generation

/-- The effects of a CAL_SAVE: the snapshot, the target and the generation are fixed, and the target bank becomes
PARTIAL (R161), with its generation and records kept until it is erased (DESIGN CHOICE, log 9). -/
def State.startSave (s : State) : State :=
  let n := targetOf s.pointer
  { s.setBank n { s.bank n with state := .part } with
    save := some { target := n, generation := s.saveGeneration, snapshot := s.calTable, phase := .erase } }

/-- CAL_SAVE with its checks in the order of R161; the response carries the target bank and the generation. -/
def requestCalSave (payload : List Byte) (s : State) : Answer :=
  if payload.length ≠ 0 then .refuse .badField []
  else if s.runInProgress then .refuse .busy []
  else if s.saveInProgress then .refuse .busy []
  else .done s.startSave (put8 (bankCode (some (targetOf s.pointer))) ++ put16 s.saveGeneration)

/-- CAL_SAVE (R161). -/
def execCalSave (p : Port) (id : Byte) (payload : List Byte) (s : State) : Host.Outcome State Fault Refusal :=
  .next (s.grantRequest p .calSave id payload (requestCalSave payload))

/-- ERASE_END (R162): the target bank is EMPTY, and WRITE begins. -/
def execEraseEnd (s : State) : Host.Outcome State Fault Refusal :=
  .next
    (match s.save with
      | none => s
      | some v =>
        match v.phase with
        | .erase => { s.setBank v.target Bank.erased with save := some { v with phase := .write 0 } }
        | .write _ | .mark => s)

/-- The save's end with its result (R163). -/
def State.endSave (s : State) (r : SaveResult) : State := State.raiseSaveDone { s with save := none } r

/-- Record n of the snapshot written to the target bank, and `readBack` read back from it: the bank is PARTIAL, and the
next record or MARK follows, or the save ends FAILED on a mismatch (R162, R163). -/
def State.writeRecord (s : State) (v : Save) (n : Fin 12) (readBack : Coefficients) : State :=
  let old := s.bank v.target
  let s1 := s.setBank v.target { old with state := .part, entries := old.entries ++ [readBack] }
  if readBack = v.snapshot.get n then
    { s1 with save := some { v with phase := if n.val = 11 then .mark else .write (n.val + 1) } }
  else s1.endSave .failed

/-- ENTRY_RECORD_WRITE (R162, R163). -/
def execEntryRecordWrite (readBack : Coefficients) (s : State) : Host.Outcome State Fault Refusal :=
  .next
    (match s.save with
      | none => s
      | some v =>
        match v.phase with
        | .write n => if h : n < 12 then s.writeRecord v ⟨n, h⟩ readBack else s
        | .erase | .mark => s)

/-- MARK_END (R163): the target bank is VALID with its generation, the pointer names it, and the save ends OK. -/
def execMarkEnd (s : State) : Host.Outcome State Fault Refusal :=
  .next
    (match s.save with
      | none => s
      | some v =>
        match v.phase with
        | .mark =>
          State.endSave
            { s.setBank v.target { s.bank v.target with state := .valid, generation := v.generation } with
              pointer := some v.target } .ok
        | .erase | .write _ => s)

/-- The table a bank's records give (R160). -/
def tableOf (records : List Coefficients) : Vector Coefficients 12 :=
  Vector.ofFn (fun i => records.getD i.val .invalid)

/-- The load's end: the current bank is chosen and copied into the table, or every entry is made INVALID and
STORE_EMPTY is raised (R160). -/
def State.loadTable (s : State) : State :=
  let p := currentBank s.bankA s.bankB
  match p with
  | some n => { s with phase := .running, pointer := p, calTable := tableOf (s.bank n).entries }
  | none =>
    { s with
      phase := .running
      pointer := p
      calTable := Vector.replicate 12 .invalid
      events := { s.events with storeEmpty := true } }

/-- TABLE_LOAD (R160), while the load is in progress. -/
def execTableLoad (s : State) : Host.Outcome State Fault Refusal :=
  .next (if s.phase = .loading then s.loadTable else s)

end Sys2Proof.Machine
end

