-- ==== Sys2Proof/Machine/Dispatch.lean ====
section
/-! DEFINITION. exec: one arm per command. -/

namespace Sys2Proof.Machine

def exec (i : Instr) (s : State) : Host.Outcome State Fault Refusal :=
  match i with
  | .define port id payload => Sys2Proof.Machine.execDefine port id payload s
  | .lookup port id payload => Sys2Proof.Machine.execLookup port id payload s
  | .nextTag port id payload => Sys2Proof.Machine.execNextTag port id payload s
  | .modify port id payload => Sys2Proof.Machine.execModify port id payload s
  | .hold port id payload => Sys2Proof.Machine.execHold port id payload s
  | .release port id payload => Sys2Proof.Machine.execRelease port id payload s
  | .retire port id payload => Sys2Proof.Machine.execRetire port id payload s
  | .classSet port id payload => Sys2Proof.Machine.execClassSet port id payload s
  | .read port id payload => Sys2Proof.Machine.execRead port id payload s
  | .peek port id payload => Sys2Proof.Machine.execPeek port id payload s
  | .ack port id payload => Sys2Proof.Machine.execAck port id payload s
  | .stage port id payload => Sys2Proof.Machine.execStage port id payload s
  | .commit port id payload => Sys2Proof.Machine.execCommit port id payload s
  | .discard port id payload => Sys2Proof.Machine.execDiscard port id payload s
  | .calibrate port id payload => Sys2Proof.Machine.execCalibrate port id payload s
  | .calAbort port id payload => Sys2Proof.Machine.execCalAbort port id payload s
  | .calSave port id payload => Sys2Proof.Machine.execCalSave port id payload s
  | .status port id payload => Sys2Proof.Machine.execStatus port id payload s
  | .softReset port id payload => Sys2Proof.Machine.execSoftReset port id payload s
  | .unknownRequestCode port code id payload => Sys2Proof.Machine.execUnknownRequestCode port code id payload s
  | .deniedOnMaintenancePort code id payload => Sys2Proof.Machine.execDeniedOnMaintenancePort code id payload s
  | .requestFrame link bytes => Sys2Proof.Machine.execRequestFrame link bytes s
  | .lengthByteCheckFail link length => Sys2Proof.Machine.execLengthByteCheckFail link length s
  | .frameAbort link received => Sys2Proof.Machine.execFrameAbort link received s
  | .statusByte link first => Sys2Proof.Machine.execStatusByte link first s
  | .responseDelivery link => Sys2Proof.Machine.execResponseDelivery link s
  | .hardReset event => Sys2Proof.Machine.execHardReset event s
  | .tableLoad => Sys2Proof.Machine.execTableLoad s
  | .classTick => Sys2Proof.Machine.execClassTick s
  | .classExpiry c => Sys2Proof.Machine.execClassExpiry c s
  | .grant => Sys2Proof.Machine.execGrant s
  | .settleEnd => Sys2Proof.Machine.execSettleEnd s
  | .sample input => Sys2Proof.Machine.execSample input s
  | .rampTick => Sys2Proof.Machine.execRampTick s
  | .calSettleEnd => Sys2Proof.Machine.execCalSettleEnd s
  | .calSample input => Sys2Proof.Machine.execCalSample input s
  | .eraseEnd => Sys2Proof.Machine.execEraseEnd s
  | .entryRecordWrite readBack => Sys2Proof.Machine.execEntryRecordWrite readBack s
  | .markEnd => Sys2Proof.Machine.execMarkEnd s
  | .powerLoss => Sys2Proof.Machine.execPowerLoss s

end Sys2Proof.Machine
end

