-- ==== Sys2Proof/Machine/Pins.lean ====
section
/-! DEFINITION. What the outside sees of a state: RDY, nATTN, the pin codes of the outputs, the bytes of a fetch, the
acknowledge bits on I2C (R123, R139 to R141, R171 to R174). No command reads these. -/

namespace Sys2Proof.Machine

/-- RDY is high while the host port is in RESPONSE_READY (R173). -/
def State.rdy (s : State) : Bool :=
  match s.hostPort.mode with
  | .responseReady _ => true
  | _ => false

/-- The PX64 drives nATTN low (R123). -/
def State.nAttnLow (s : State) : Bool := s.attn

/-- The uncorrected code the Calibration Unit drives a channel at, while it measures it (R141, R151). -/
def CalRun.drives (r : CalRun) (c : ChannelId) : Option Int :=
  match r with
  | .running _ m =>
    if m.entry = .output c then some (if m.phase = .minus then -Config.loopbackCode else Config.loopbackCode) else none
  | .idle | .waiting _ => none

/-- The pin code of a channel (R139, R140, R141): 0 in a hard reset and during the load, the Calibration Unit's code
while the channel is under calibration, else its driven code through its output entry. None without power (log 14). -/
def State.pinCode (s : State) (c : ChannelId) : Option Int :=
  match s.phase with
  | .off => none
  | .inReset | .loading => some 0
  | .running =>
    if (s.channel c).underCal then s.calRun.drives c
    else some (outputCode (s.calEntry (.output c)) (s.channel c).driven)

/-- Byte n after the status byte of the transfer the port's master has open: the response in a fetch whose snapshot
shows RDY, 0xFF in any other transfer and after the response (R171, R172). None when no transfer is open: SDO is at high
impedance, and the maintenance port has stopped sending (R172, R174, R181). -/
def State.fetchByte (s : State) (p : Port) (n : Nat) : Option Byte :=
  (s.port p).openTransfer.map fun x =>
    match (s.port p).mode with
    | .responseReady frame => if x.sendsResponse then frame.getD n 0xFF else 0xFF
    | .idle | .executing _ => 0xFF

/-- The maintenance port acknowledges its own address, in every port state and during the load (R174). -/
def State.acknowledges (s : State) (address : BitVec 7) : Bool := s.answers (.i2c address)

/-- Whether byte n (from 0) of a write transaction is acknowledged: the length byte always, the others up to the L-th
when it passed (R174). -/
def acknowledgesByte (length : Byte) (n : Nat) : Bool :=
  n == 0 || (lengthPasses length && decide (n < length.toNat))

end Sys2Proof.Machine
end

