-- ==== Sys2Proof/Machine/Step.lean ====
section
/-! DEFINITION. step takes the command at the front of the queue and runs exec on it with the queue's rest. -/

namespace Sys2Proof.Machine

/-- One step: the front command is carried out; on an empty queue the block idles (log 2). -/
def step (s : State) : Host.Outcome State Fault Refusal :=
  match s.pending with
  | [] => .next s
  | c :: rest => exec c { s with pending := rest }

/-- The state with the command a table word spells put at the front of the queue; unchanged when the word spells none,
and no row of the table gives bits (log 17). -/
def State.withFetchWord (s : State) (nbits w : Nat) : State :=
  match decodeTableWord nbits w with
  | none => s
  | some c => { s with pending := c :: s.pending }

end Sys2Proof.Machine
end

