-- ==== Sys2Proof/Safety.lean ====
section
/-! DEFINITION. The conditions the manual says always hold, as properties of a state: what a safe state of the PX64 is.
Each structure gathers the conditions that are kept together. -/

namespace Sys2Proof.Machine

/-- The record of a slot is an input record in a slot state other than FREE whose source uses a pin (R20). -/
def usesPin (p : PinId) (x : Slot) : Bool :=
  match x with
  | some ⟨_, _, .input c _⟩ => c.source.pins.contains p
  | _ => false

/-- The number of slots whose source uses a pin (R20). -/
def State.pinUsers (s : State) (p : PinId) : Nat := slotIds.countP (fun i => usesPin p (s.slot i))

/-- A code of the signed 16-bit range (R13, R23). -/
def isCode (x : Int) : Prop := -32768 ≤ x ∧ x ≤ 32767

/-- The Tag Index holds exactly the tags of the ACTIVE and HELD slots, in ascending order, each once (R16). -/
structure IndexInv (s : State) : Prop where
  sorted  : s.tagIndex.Pairwise (fun a b => a.tag < b.tag)
  inRange : ∀ e ∈ s.tagIndex, 1 ≤ e.tag ∧ e.tag ≤ 65534
  exact   : ∀ t i, ⟨t, i⟩ ∈ s.tagIndex ↔ ∃ r, s.slot i = some r ∧ r.tag = t ∧ r.slotState ≠ .retiring

/-- Each claim count is the number of input slots whose source uses the pin, the mode is NONE exactly at count 0, and
every user of a pin uses it in the claimed mode (R20). -/
structure ClaimInv (s : State) : Prop where
  count : ∀ p, (s.claim p).count = s.pinUsers p
  free  : ∀ p, (s.claim p).mode = none ↔ (s.claim p).count = 0
  mode  : ∀ p i tag st c v, s.slot i = some ⟨tag, st, .input c v⟩ → p ∈ c.source.pins →
            (s.claim p).mode = some c.source.mode

/-- A channel's owner is the ACTIVE or HELD output slot naming it and every such slot is its channel's owner; an owned
channel's driven code is its owner's live code; a channel under calibration has no owner (R23, R24). -/
structure ChannelInv (s : State) : Prop where
  owner  : ∀ c i, (s.channel c).owner = some i →
             ∃ tag st k q, s.slot i = some ⟨tag, st, .output k q⟩ ∧ st ≠ .retiring ∧ k.channel = c ∧
               q.live = (s.channel c).driven
  owned  : ∀ i tag st k q, s.slot i = some ⟨tag, st, .output k q⟩ → (s.channel k.channel).owner = some i
  calFree : ∀ c, (s.channel c).underCal = true → (s.channel c).owner = none

/-- The target code and a staged code lie within the clamp; codes and slew lie in their ranges (R13, R23, R126). -/
structure CodeInv (s : State) : Prop where
  clamp  : ∀ i tag st k q, s.slot i = some ⟨tag, st, .output k q⟩ →
             isCode k.clampMin ∧ isCode k.clampMax ∧ k.clampMin ≤ q.target ∧ q.target ≤ k.clampMax
  staged : ∀ i tag st k q x, s.slot i = some ⟨tag, st, .output k q⟩ → q.staged = some x →
             k.clampMin ≤ x ∧ x ≤ k.clampMax
  live   : ∀ i tag st k q, s.slot i = some ⟨tag, st, .output k q⟩ → isCode q.live
  slew   : ∀ i tag st k q n, s.slot i = some ⟨tag, st, .output k q⟩ → k.slew = some n → 1 ≤ n ∧ n ≤ 32767
  driven : ∀ c, isCode (s.channel c).driven

/-- The number of outstanding conversions of a class: its queue entries, and one more for a conversion in flight that
belongs to a pass of it (R65). -/
def State.outstandingWork (s : State) (c : ClassId) : Nat :=
  s.queue.countP (fun e => e.passClass == c) +
    match s.inFlight with
    | some k => if k.passClass = c then 1 else 0
    | none => 0

/-- The Conversion Queue holds each slot once, only ACTIVE input slots of the entry's class, never the slot of the
conversion in flight, ordered by class; the outstanding counts match it; a RETIRING slot is that of the conversion in
flight, which is an input slot (R5, R61, R62, R65). -/
structure QueueInv (s : State) : Prop where
  nodup       : (s.queue.map (fun e => e.slot)).Nodup
  entries     : ∀ e ∈ s.queue, ∃ tag c v, s.slot e.slot = some ⟨tag, .active, .input c v⟩ ∧ c.scanClass = e.passClass
  ordered     : s.queue.Pairwise (fun a b => a.passClass ≤ b.passClass)
  notInFlight : ∀ k e, s.inFlight = some k → e ∈ s.queue → e.slot ≠ k.slot
  outstanding : ∀ c, (s.scanClass c).outstanding = s.outstandingWork c
  flying      : ∀ k, s.inFlight = some k → ∃ tag st c v, s.slot k.slot = some ⟨tag, st, .input c v⟩
  retiring    : ∀ i r, s.slot i = some r → r.slotState = .retiring → ∃ k, s.inFlight = some k ∧ k.slot = i

/-- The conversion in flight is present exactly while the unit is SETTLING or SAMPLING, with a selection and samples
still to take; the grant is CAL exactly in LENT; the unit is LENT exactly while a run is RUNNING, with the selection
"none" (R71, R73). -/
structure ConverterInv (s : State) : Prop where
  flight    : s.inFlight.isSome = true ↔ s.unit = .settling ∨ s.unit = .sampling
  samples   : ∀ k, s.inFlight = some k → k.taken < k.oversample.samples
  selected  : s.inFlight.isSome = true → s.selection.isSome = true
  grant     : s.convGrant = .cal ↔ s.unit = .lent
  lent      : s.unit = .lent ↔ ∃ sc m, s.calRun = .running sc m
  unselected : s.unit = .lent → s.selection = none

/-- An entry is under measurement. -/
def measures (s : State) (e : CalEntry) : Prop := ∃ sc m, s.calRun = .running sc m ∧ m.entry = e

/-- The measurement in progress is of an entry of the scope, in a phase of its kind, with samples still to take; a
channel is under calibration exactly while its entry is measured (R23, R145, R150, R152). -/
structure RunInv (s : State) : Prop where
  inScope  : ∀ sc m, s.calRun = .running sc m → m.entry ∈ sc.entries
  phase    : ∀ sc m, s.calRun = .running sc m →
               match m.entry with
               | .input _ => m.phase = .zero ∨ m.phase = .reference
               | .output _ => m.phase = .plus ∨ m.phase = .minus
  samples  : ∀ sc m, s.calRun = .running sc m → m.taken < 64 ∧ (m.settled = false → m.taken = 0)
  underCal : ∀ c, (s.channel c).underCal = true ↔ measures s (.output c)

/-- The coefficients of a VALID record lie in their ranges (R144). -/
def inLimits (x : Coefficients) : Prop :=
  match x with
  | .invalid => True
  | .valid o g => acceptable o g = true

/-- Every VALID entry of the table, of a VALID bank and of a save's snapshot has coefficients in their ranges (R144,
R158). -/
structure TableInv (s : State) : Prop where
  table    : ∀ e, inLimits (s.calEntry e)
  banks    : ∀ n, (s.bank n).state = .valid → ∀ x ∈ (s.bank n).entries, inLimits x
  snapshot : ∀ v, s.save = some v → ∀ j, inLimits (v.snapshot.get j)
  written  : ∀ v, s.save = some v → v.phase ≠ .erase → ∀ x ∈ (s.bank v.target).entries, inLimits x

/-- The records of the save's snapshot written so far are in the target bank, whose state is that of the phase
(R162). -/
def savePhaseOk (v : Save) (b : Bank) : Prop :=
  match v.phase with
  | .erase => b.state = .part
  | .write n => n < 12 ∧ b.entries = v.snapshot.toList.take n ∧ b.state = (if n = 0 then .empty else .part)
  | .mark => b.entries = v.snapshot.toList ∧ b.state = .part

/-- The store: never two VALID banks with equal generations; a VALID bank is complete; the pointer names a VALID bank,
and none while the part runs only when there is none; a save writes into a bank that is not current, with the
generation after the current bank's; a run and a save are never both in progress (R146, R158, R159, R161, R162). -/
structure StoreInv (s : State) : Prop where
  distinct   : s.bankA.state = .valid → s.bankB.state = .valid → s.bankA.generation ≠ s.bankB.generation
  complete   : ∀ n, (s.bank n).state = .valid →
                 1 ≤ (s.bank n).generation ∧ (s.bank n).generation ≤ 65535 ∧ (s.bank n).entries.length = 12
  current    : ∀ n, s.pointer = some n → (s.bank n).state = .valid
  noneValid  : s.phase = .running → s.pointer = none → ∀ n, (s.bank n).state ≠ .valid
  target     : ∀ v, s.save = some v → v.target = targetOf s.pointer ∧ v.generation = s.saveGeneration ∧
                 savePhaseOk v (s.bank v.target)
  exclusive  : s.runInProgress = true → s.saveInProgress = false

/-- Until the part runs, the ports are IDLE, nothing is in progress and the directory is empty (R160, R169, R181); the
I2C address is one that A1 and A0 give (R174). -/
structure PhaseInv (s : State) : Prop where
  ports   : s.phase ≠ .running → s.hostPort.mode = .idle ∧ s.maintPort.mode = .idle
  idle    : s.phase ≠ .running → s.calRun = .idle ∧ s.save = none ∧ s.unit = .idle ∧ s.pointer = none
  classes : s.phase ≠ .running → ∀ c, (s.scanClass c).enabled = false
  empty   : s.phase ≠ .running → s.attention = [] ∧ s.events = DeviceEvents.none ∧ s.queue = [] ∧
              ∀ i, s.slot i = none
  address : s.maintAddress ∈ [0x62, 0x63, 0x64, 0x65]

/-- The Attention List holds each slot once, only ACTIVE or HELD input slots, each entry with at least one reason and
a change count of 1..15 (R112, R113). -/
structure AttentionInv (s : State) : Prop where
  nodup   : (s.attention.map (fun e => e.slot)).Nodup
  entries : ∀ e ∈ s.attention, e.reasons.any = true ∧ 1 ≤ e.count ∧ e.count ≤ 15
  listed  : ∀ e ∈ s.attention, ∃ tag st c v, s.slot e.slot = some ⟨tag, st, .input c v⟩ ∧ st ≠ .retiring

/-- A class record in its ranges (R50). -/
structure ClassInv (s : State) : Prop where
  period    : ∀ c, 1 ≤ (s.scanClass c).period ∧ (s.scanClass c).period ≤ 65535
  remaining : ∀ c, (s.scanClass c).enabled = true → 1 ≤ (s.scanClass c).remaining ∧
                (s.scanClass c).remaining ≤ (s.scanClass c).period
  due       : ∀ c, (s.scanClass c).expiryDue = true → (s.scanClass c).enabled = true

/-- The optional parts of an input configuration lie in their ranges (R10, R11). -/
structure inputInRange (c : InputConfig) : Prop where
  scaling  : ∀ k, c.scaling = some k →
               -32768 ≤ k.gain ∧ k.gain ≤ 32767 ∧ -8388608 ≤ k.offset ∧ k.offset ≤ 8388607
  high     : ∀ h, c.highLimit = some h → -2147483648 ≤ h ∧ h ≤ 2147483647
  low      : ∀ l, c.lowLimit = some l → -2147483648 ≤ l ∧ l ≤ 2147483647
  deadband : c.deadband ≤ 65535

/-- The configuration and the value part of an input record in their ranges, with limits that meet R11; without a value
the limit state is NORMAL, and HIGH and LOW hold their limit present; the running sum is a sum of codes of the selected
range (R10, R11, R12, R79, R94, R98). -/
structure ValueInv (s : State) : Prop where
  fields  : ∀ i tag st c v, s.slot i = some ⟨tag, st, .input c v⟩ → inputInRange c
  limits  : ∀ i tag st c v, s.slot i = some ⟨tag, st, .input c v⟩ → limitsOk c = true
  codes   : ∀ i tag st c v, s.slot i = some ⟨tag, st, .input c v⟩ → -32768 ≤ v.corrected ∧ v.corrected ≤ 65535
  value   : ∀ i tag st c v, s.slot i = some ⟨tag, st, .input c v⟩ → -8912888 ≤ v.value ∧ v.value ≤ 8912887
  missed  : ∀ i tag st c v, s.slot i = some ⟨tag, st, .input c v⟩ → v.missedPasses ≤ 255
  noValue : ∀ i tag st c v, s.slot i = some ⟨tag, st, .input c v⟩ → v.hasValue = false → v.limitState = .normal
  high    : ∀ i tag st c v, s.slot i = some ⟨tag, st, .input c v⟩ → v.limitState = .high → c.highLimit.isSome = true
  low     : ∀ i tag st c v, s.slot i = some ⟨tag, st, .input c v⟩ → v.limitState = .low → c.lowLimit.isSome = true
  sum     : ∀ k sel, s.inFlight = some k → s.selection = some sel →
              codeMin sel.range * (k.taken : Int) ≤ k.sum ∧ k.sum ≤ codeMax sel.range * (k.taken : Int)

/-! ## What a command is said to do -/

/-- The command that carries out a request of a kind. -/
def requestCommand (k : RequestKind) (p : Port) (id : Byte) (payload : List Byte) : Instr :=
  match k with
  | .define => .define p id payload
  | .lookup => .lookup p id payload
  | .nextTag => .nextTag p id payload
  | .modify => .modify p id payload
  | .hold => .hold p id payload
  | .release => .release p id payload
  | .retire => .retire p id payload
  | .classSet => .classSet p id payload
  | .read => .read p id payload
  | .peek => .peek p id payload
  | .ack => .ack p id payload
  | .stage => .stage p id payload
  | .commit => .commit p id payload
  | .discard => .discard p id payload
  | .calibrate => .calibrate p id payload
  | .calAbort => .calAbort p id payload
  | .calSave => .calSave p id payload
  | .status => .status p id payload
  | .softReset => .softReset p id payload

/-- The request a frame of a kind carries. -/
abbrev requestOf (k : RequestKind) (id : Byte) (payload : List Byte) : Request := ⟨requestCode k, id, payload⟩

/-- The engine's next grant serves this request, and its port may send it (R175, R177). -/
abbrev Served (s : State) (p : Port) (k : RequestKind) (id : Byte) (payload : List Byte) : Prop :=
  s.serves p (requestOf k id payload) = true ∧ allowedOn p k = true

/-- A payload of its length whose tag is in 1..65534 and held; `i` and `r` are the point found (R18). -/
abbrev Names (s : State) (payload : List Byte) (length : Nat) (i : SlotId) (r : PointRecord) : Prop :=
  payload.length = length ∧ 1 ≤ u16 payload 0 ∧ u16 payload 0 ≤ 65534 ∧ s.findPoint (u16 payload 0) = some (i, r)

/-- After `t` the port holds the response to q and was served last; the other port is as it was (R175, R184). -/
structure Answered (s t : State) (p : Port) (q : Request) (st : Status) (payload : List Byte) : Prop where
  port   : t.port p = { s.port p with mode := .responseReady (responseFrame q st payload) }
  other  : ∀ p', p' ≠ p → t.port p' = s.port p'
  served : t.lastServed = p

/-- `s` with the ports and the last-served port of `t`: what a frame says when nothing else changed. -/
def State.withPorts (s t : State) : State :=
  { s with hostPort := t.hostPort, maintPort := t.maintPort, lastServed := t.lastServed }

/-- A request command answered with a status and payload that leaves everything but the ports as it was. -/
def OnlyAnswers (c : Instr) (s : State) (p : Port) (q : Request) (st : Status) (payload : List Byte) : Prop :=
  ∃ t, exec c s = .next t ∧ Answered s t p q st payload ∧ t = s.withPorts t

/-- A command changes the link's port only, to x. -/
def ChangesPort (c : Instr) (s : State) (l : Link) (x : PortState) : Prop :=
  ∃ t, exec c s = .next t ∧ t = s.withPorts t ∧ t.lastServed = s.lastServed ∧
    (∀ p, p ≠ l.port → t.port p = s.port p) ∧ t.port l.port = x

/-- `w` is `s` in the window in which a command tells of a frame with this first byte: on SPI a window with no frame in
it open begins with its status byte, as a STATUS_BYTE sends it (R172, log 4); an I2C write carries none. -/
def InWindow (s w : State) (l : Link) (first : Byte) : Prop :=
  if l = .spi ∧ (s.port .host).openTransfer.map Transfer.kind ≠ some .request then
    exec (.statusByte .spi (some first)) s = .next w
  else w = s

/-- The transfer on a link once its frame is over: an SPI window goes on, ignored; an I2C write sends nothing (R172,
R174). -/
def afterFrame (w : State) (l : Link) : Option Transfer :=
  match l with
  | .spi => (w.port .host).openTransfer.map fun x => ⟨x.snapshot, .over⟩
  | .i2c _ => none

/-- A command by which a damaged frame sets CHECK in the link's port and leaves everything else, but for the status byte
that opens the window (R167, log 4). -/
def SetsCheck (c : Instr) (s : State) (l : Link) (first : Byte) : Prop :=
  ∃ w, InWindow s w l first ∧
    ChangesPort c s l { w.port l.port with checkFlag := true, openTransfer := afterFrame w l }

/-- The same at the end of the transfer, which leaves none open. -/
def EndsWithCheck (c : Instr) (s : State) (l : Link) (first : Byte) : Prop :=
  ∃ w, InWindow s w l first ∧ ChangesPort c s l { w.port l.port with checkFlag := true, openTransfer := none }

/-- The state of the part in a hard reset begun in `s` (R25, R70, R90, R124, R143, R157, R165, R181): every field has its
reset value, but the banks are kept and the Calibration Table waits for the load. The values the manual does not give are
the model's: a dropped expiry (log 5), the remaining fields (log 6), the table until the load (log 8), the address while
the reset is held (log 10), the transfers closed (log 22). -/
def State.inHardReset (s : State) (ph : Phase) (address : BitVec 7) (free : Nat) : State :=
  { State.reset with
    calTable := s.calTable, bankA := s.bankA, bankB := s.bankB, maintAddress := address, phase := ph,
    freeIndex := free, pending := s.pending }

/-- Slot i holds x, and every other slot is as it was. -/
def SlotSet (s t : State) (i : SlotId) (x : Slot) : Prop := t.slot i = x ∧ ∀ j, j ≠ i → t.slot j = s.slot j

/-- The queue entry of slot i is gone, and the outstanding count of its pass class is lowered by 1; the other entries
keep their order and the other counts their values (R64). -/
def Unqueued (s t : State) (i : SlotId) : Prop :=
  t.queue = s.queue.filter (fun e => e.slot != i) ∧
  ∀ c, t.scanClass c =
    if (s.queueEntry i).map QueueEntry.passClass = some c then
      { s.scanClass c with outstanding := (s.scanClass c).outstanding - 1 }
    else s.scanClass c

/-- The Attention List after a raise for slot i (R114, R115): the listed entry of the slot is joined in its place, or a
new entry with change count 1 stands at the tail. -/
def Raised (s t : State) (i : SlotId) (r : Reasons) : Prop :=
  if r.limit = false ∧ r.quality = false then t.attention = s.attention
  else if ∃ e ∈ s.attention, e.slot = i then
    t.attention = s.attention.map (fun e =>
      if e.slot = i then
        ⟨i, ⟨e.reasons.limit || r.limit, e.reasons.quality || r.quality⟩, if e.count < 15 then e.count + 1 else e.count⟩
      else e)
  else t.attention = s.attention ++ [⟨i, r, 1⟩]

/-- Whether the value area of a MODIFY item holds a value in the range of its field (R7 to R13, R186). -/
def valueFits (f : ModifyField) (v : List Byte) : Bool :=
  match f with
  | .source => (u8 v 0 == 1 && decide (u8 v 1 < 16)) || (u8 v 0 == 2 && decide (u8 v 1 < 8))
  | .range => decide (u8 v 0 < 8)
  | .oversample => [1, 2, 4, 8, 16].contains (u8 v 0)
  | .scanClass | .updateSet => decide (u8 v 0 < 4)
  | .scaling | .highLimit | .lowLimit | .operatorWritable => decide (u8 v 0 ≤ 1)
  | .deadband | .clampMin | .clampMax => true
  | .slew => u8 v 0 == 0 || (u8 v 0 == 1 && decide (1 ≤ u16 v 1 ∧ u16 v 1 ≤ 32767))

/-- The selector byte of item m (from 1) of a MODIFY (R186). -/
def selectorAt (p : List Byte) (m : Nat) : Nat := u8 p (3 + 7 * (m - 1))

/-- The status with which item m (from 1) of a MODIFY fails, or none: selector, kind, repeated field, value (R33 step 4,
R186). `input` says that the point is an input point. -/
def itemVerdict (input : Bool) (p : List Byte) (m : Nat) : Option Status :=
  match fieldOf (selectorAt p m) with
  | none => some .badField
  | some f =>
    if f.ofInput ≠ input then some .wrongKind
    else if (List.range (m - 1)).any (fun k => fieldOf (selectorAt p (k + 1)) == some f) then some .badField
    else if valueFits f ((p.drop (4 + 7 * (m - 1))).take 6) then none
    else some .badField

/-- A MODIFY payload whose item count is 1..8 and whose length matches it (R33 step 1, R185). -/
abbrev ModifyFits (p : List Byte) : Prop := 1 ≤ u8 p 2 ∧ u8 p 2 ≤ 8 ∧ p.length = 3 + 7 * u8 p 2

/-- The accounting of an expiry of class c (R54, R55): a clear mark raises missed passes up to 255, and every mark of
an ACTIVE input point of the class is cleared; each point that enters STALE raises QUALITY, in tag order. -/
def Accounted (s t : State) (c : ClassId) : Prop :=
  (∀ i tag k v, s.slot i = some ⟨tag, .active, .input k v⟩ → k.scanClass = c →
    t.slot i = some ⟨tag, .active, .input k
      { v with
        missedPasses := if v.mark = false ∧ v.missedPasses < 255 then v.missedPasses + 1 else v.missedPasses
        mark := false }⟩) ∧
  (∀ i, (∀ tag k v, s.slot i = some ⟨tag, .active, .input k v⟩ → k.scanClass ≠ c) → t.slot i = s.slot i) ∧
  t.attention =
    ((s.tagIndex.map IndexPair.slot).filter (fun i =>
      match s.slot i with
      | some ⟨_, .active, .input k v⟩ => k.scanClass == c && !v.mark && v.missedPasses == 2 && v.hasValue
      | _ => false)).foldl (fun l i => raiseOn l i ⟨false, true⟩) s.attention

/-- An entry of a calibration run that is skipped: an output channel with an owner (R150). -/
def skips (s : State) (e : CalEntry) : Bool :=
  match e with
  | .input _ => false
  | .output c => (s.channel c).owner.isSome

/-- The entries `rest` of a run come up in `s` and leave `t` (R148, R150, R153): owned channels are SKIPPED up to the
first other entry, which begins its first measurement, an output channel with its mark set; with none left the run ends
COMPLETED and the converter is released. The earlier sum of a first measurement, 0, is the model's choice (log 21). -/
def EntriesBegin (sc : Scope) (rest : List CalEntry) (s t : State) : Prop :=
  t = { s with calRun := t.calRun, calResults := t.calResults, channels := t.channels, events := t.events,
               unit := t.unit, convGrant := t.convGrant, selection := t.selection } ∧
  (∀ e, t.calResults.get e.place = if e ∈ rest.takeWhile (skips s) then .skipped else s.calResults.get e.place) ∧
  match rest.dropWhile (skips s) with
  | [] =>
    t.calRun = .idle ∧ t.unit = .idle ∧ t.convGrant = .scan ∧ t.selection = none ∧ t.channels = s.channels ∧
      t.events = { s.events with calDone := some ⟨.completed, t.calResults⟩ }
  | e :: _ =>
    t.unit = s.unit ∧ t.convGrant = s.convGrant ∧ t.selection = s.selection ∧ t.events = s.events ∧
      match e with
      | .input r => t.calRun = .running sc ⟨.input r, .zero, false, 0, 0, 0⟩ ∧ t.channels = s.channels
      | .output c =>
        t.calRun = .running sc ⟨.output c, .plus, false, 0, 0, 0⟩ ∧
          t.channel c = { s.channel c with underCal := true } ∧ ∀ c', c' ≠ c → t.channel c' = s.channel c'

/-- g is n / d rounded to nearest, halfway away from zero, for n ≥ 0 and d > 0. -/
def nearest (g n d : Int) : Prop := 2 * g * d - d ≤ 2 * n ∧ 2 * n < 2 * g * d + d

/-- The first three checks of R27 passed: length by kind, tag in range, tag not held. -/
abbrev DefinePasses (s : State) (payload : List Byte) : Prop :=
  ((u8 payload 2 = 1 ∧ payload.length = 26) ∨ (u8 payload 2 = 2 ∧ payload.length = 13)) ∧
    1 ≤ u16 payload 0 ∧ u16 payload 0 ≤ 65534 ∧ ∀ e ∈ s.tagIndex, e.tag ≠ u16 payload 0

/-- Each channel with an owner drives its owner's live code, and a channel without one keeps its entry (R24). -/
def ChannelsFollow (s t : State) : Prop :=
  ∀ ch, ((s.channel ch).owner = none → t.channel ch = s.channel ch) ∧
    ∀ i tag st c k, (s.channel ch).owner = some i → t.slot i = some ⟨tag, st, .output c k⟩ →
      t.channel ch = { s.channel ch with driven := k.live }

/-- The number of members of an update set in a slot state that hold a staged code (R130, R131). -/
def stagedIn (s : State) (u : SetId) (st : SlotState) : Nat :=
  slotIds.countP (fun i =>
    match s.slot i with
    | some ⟨_, st', .output c k⟩ => st' == st && c.updateSet == u && k.staged.isSome
    | _ => false)

/-- A device events byte: bit 0 CAL_DONE, bit 1 SAVE_DONE, bit 2 CLASS_OVERRUN, bit 3 STORE_EMPTY (11.4). -/
def EventBits (x : Byte) (e : DeviceEvents) : Prop :=
  x.toNat < 16 ∧ x.getLsbD 0 = e.calDone.isSome ∧ x.getLsbD 1 = e.saveDone.isSome ∧
    x.getLsbD 2 = e.classOverrun ∧ x.getLsbD 3 = e.storeEmpty

/-- The record a measurement leads to, from an offset, the numerator and the denominator of the gain (R149, R151, R152):
INVALID when the denominator is 0 or less or a coefficient lies outside its limits. -/
def Measured (o n d : Int) (x : Coefficients) : Prop :=
  (d ≤ 0 → x = .invalid) ∧
  ∀ g, 0 < d → nearest g n d →
    x = if -1024 ≤ o ∧ o ≤ 1024 ∧ 24576 ≤ g ∧ g ≤ 40960 then .valid o g else .invalid

/-- The per-entry result of a measured entry (R153). -/
def resultOf (x : Coefficients) : EntryResult :=
  match x with
  | .invalid => .failed
  | .valid _ _ => .updated

end Sys2Proof.Machine
end

