-- ==== Sys2Proof/Certificates/Slice0/Obligations.lean ====
section
/-! DEFINITION. The statements for the provers, chapter by chapter. Each docstring names the rules of spec/ it rests on. -/

section

open Sys2Proof Sys2Proof.Machine

/-! ## The step -/

/-- A step carries out the command at the front of the queue with the queue's rest; with no command waiting the block
idles, which is the model's choice (log 2). -/
def Obligations.StepRunsFrontCommand : Prop :=
  (∀ (s : State) (c : Instr) (rest : List Instr), s.pending = c :: rest →
    step s = exec c { s with pending := rest }) ∧
  ∀ s : State, s.pending = [] → step s = .next s

/-- Every command completes and leaves the queue of commands alone, in every state whose Conversion Queue is as R61
says. -/
def Obligations.EveryCommandCompletes : Prop :=
  ∀ (c : Instr) (s : State), QueueInv s → ∃ t, exec c s = .next t ∧ t.pending = s.pending

/-! ## Ports and the Request Engine -/

/-- R175: a grant serves the port that claims, and of two claims the port not served last; it places one response in
that port and makes it the last-served port. A grant the engine would not make now changes nothing, nor does
UNKNOWN_REQUEST_CODE or DENIED_ON_MAINTENANCE_PORT for a request of another code; that is the model's choice (log 1). -/
def Obligations.EngineServesInTurn : Prop :=
  (∀ (s : State) (p : Port) (q : Request), s.serves p q = true ↔
    (s.port p).mode = .executing q ∧
      ∀ p' q', p' ≠ p → (s.port p').mode = .executing q' → s.lastServed ≠ p) ∧
  (∀ (k : RequestKind) (p : Port) (id : Byte) (payload : List Byte) (s : State),
    (s.serves p (requestOf k id payload) = true →
      ∃ t st bytes, exec (requestCommand k p id payload) s = .next t ∧
        t.port p = { s.port p with mode := .responseReady (responseFrame (requestOf k id payload) st bytes) } ∧
        (k ≠ .softReset → ∀ p', p' ≠ p → t.port p' = s.port p') ∧ t.lastServed = p) ∧
    (s.serves p (requestOf k id payload) = false → exec (requestCommand k p id payload) s = .next s)) ∧
  ∀ (p : Port) (code id : Byte) (payload : List Byte) (s : State),
    (s.serves p ⟨code, id, payload⟩ = false ∨ (∃ k, code = requestCode k) →
      exec (.unknownRequestCode p code id payload) s = .next s) ∧
    (s.serves .maintenance ⟨code, id, payload⟩ = false ∨
        code ∉ [0x10, 0x13, 0x14, 0x15, 0x16, 0x20, 0x42, 0x50, 0x51, 0x58, (0x6F : Byte)] →
      exec (.deniedOnMaintenancePort code id payload) s = .next s)

/-- R176, R177: a request that does not end in OK changes no state apart from the port that receives its response, and
its response carries no payload, but for MODIFY's position byte; a taken request whose code is none of the nineteen is
answered BAD_REQUEST, and one of the eleven requests the maintenance port may not send is answered DENIED there,
whichever of its two commands the grant is. -/
def Obligations.RefusalsChangeNothing : Prop :=
  (∀ (k : RequestKind) (p : Port) (id : Byte) (payload bytes : List Byte) (st : Status) (s t : State),
    s.serves p (requestOf k id payload) = true → exec (requestCommand k p id payload) s = .next t →
    (t.port p).mode = .responseReady (responseFrame (requestOf k id payload) st bytes) → st ≠ .ok →
    t = s.withPorts t ∧ Answered s t p (requestOf k id payload) st bytes ∧
      (bytes = [] ∨ (k = .modify ∧ p = .host ∧ bytes.length = 1))) ∧
  (∀ (p : Port) (code id : Byte) (payload : List Byte) (s : State), s.serves p ⟨code, id, payload⟩ = true →
    code ∉ [0x10, 0x11, 0x12, 0x13, 0x14, 0x15, 0x16, 0x20, 0x28, 0x30, 0x31, 0x40, 0x41, 0x42, 0x50, 0x51, 0x58,
      0x60, (0x6F : Byte)] →
    OnlyAnswers (.unknownRequestCode p code id payload) s p ⟨code, id, payload⟩ .badRequest []) ∧
  ∀ (k : RequestKind) (id : Byte) (payload : List Byte) (s : State),
    s.serves .maintenance (requestOf k id payload) = true →
    k ∈ [.define, .modify, .hold, .release, .retire, .classSet, .discard, .calibrate, .calAbort, .calSave,
      RequestKind.softReset] →
    OnlyAnswers (.deniedOnMaintenancePort (requestCode k) id payload) s .maintenance (requestOf k id payload)
        .denied [] ∧
      OnlyAnswers (requestCommand k .maintenance id payload) s .maintenance (requestOf k id payload) .denied []

/-- R168: a frame that passes its check is taken into an IDLE port of a running part, and refused with REFUSED in any
other port state and during the load. On SPI the window's status byte goes out first (log 4). A part that does not
answer the link takes nothing (R181). R174: the maintenance port acknowledges its own address alone, one of 0x62..0x65,
from the end of hard reset on. -/
def Obligations.FrameTakenOrRefused : Prop :=
  (∀ (s : State) (l : Link) (q : Request) (extra : List Byte), q.payload.length ≤ 59 →
    (s.answers l = true →
      ∃ w, InWindow s w l (byteAt (requestFrameOf q) 0) ∧
        ((s.port l.port).mode = .idle ∧ s.phase = .running →
          ChangesPort (.requestFrame l (requestFrameOf q ++ extra)) s l
            { w.port l.port with mode := .executing q, openTransfer := afterFrame w l }) ∧
        ((s.port l.port).mode ≠ .idle ∨ s.phase = .loading →
          ChangesPort (.requestFrame l (requestFrameOf q ++ extra)) s l
            { w.port l.port with refusedFlag := true, openTransfer := afterFrame w l })) ∧
    (s.answers l = false → exec (.requestFrame l (requestFrameOf q ++ extra)) s = .next s)) ∧
  ∀ (s : State) (address : BitVec 7),
    (s.acknowledges address = true ↔ (s.phase = .loading ∨ s.phase = .running) ∧ address = s.maintAddress) ∧
    (PhaseInv s → s.acknowledges address = true → address ∈ [0x62, 0x63, 0x64, 0x65])

/-- R167, R172, R174: a length byte outside 5..64, a CRC that does not match and a frame cut short set CHECK and leave
the port state, and the rest of the transfer is ignored; a first byte of 0 on SPI is a fetch; a write with no byte and
the end of a transfer with no frame under way set nothing. The window's status byte: log 4. Of a write, the length byte
is acknowledged, and the bytes up to the L-th when it passes. -/
def Obligations.DamagedFrameSetsCheck : Prop :=
  ∀ (s : State) (l : Link) (bytes : List Byte) (b : Byte), s.answers l = true →
    (5 ≤ (byteAt bytes 0).toNat → (byteAt bytes 0).toNat ≤ 64 → (byteAt bytes 0).toNat ≤ bytes.length →
      ((bytes.take (byteAt bytes 0).toNat).drop ((byteAt bytes 0).toNat - 2)
        ≠ crcBytes (bytes.take ((byteAt bytes 0).toNat - 2)) →
        SetsCheck (.requestFrame l bytes) s l (byteAt bytes 0)) ∧
      ChangesPort (.frameAbort l bytes) s l { s.port l.port with openTransfer := none }) ∧
    (5 ≤ (byteAt bytes 0).toNat → (byteAt bytes 0).toNat ≤ 64 → bytes.length < (byteAt bytes 0).toNat →
      bytes ≠ [] → SetsCheck (.requestFrame l bytes) s l (byteAt bytes 0) ∧
        EndsWithCheck (.frameAbort l bytes) s l (byteAt bytes 0)) ∧
    (b.toNat < 5 ∨ 64 < b.toNat → ¬ (l = .spi ∧ b = 0) →
      SetsCheck (.requestFrame l (b :: bytes)) s l b ∧ SetsCheck (.lengthByteCheckFail l b) s l b) ∧
    exec (.requestFrame .spi (0 :: bytes)) s =
      (if (s.port .host).openTransfer.map Transfer.kind = some .fetch then .next s
        else exec (.statusByte .spi (some 0)) s) ∧
    exec (.requestFrame l []) s = .next s ∧
    ChangesPort (.frameAbort l []) s l { s.port l.port with
      openTransfer := none
      checkFlag := (s.port l.port).checkFlag ||
        decide ((s.port l.port).openTransfer.map Transfer.kind = some .request) } ∧
    ∀ n, acknowledgesByte b n = true ↔ n = 0 ∨ (5 ≤ b.toNat ∧ b.toNat ≤ 64 ∧ n < b.toNat)

/-- R169, R170, R172, R189: the status byte is the snapshot of the seven flags at their bits, BUSY alone during the load;
once its eighth bit is out, a byte without BUSY clears REFUSED and CHECK, and on SPI the host's first byte has decided
the window: 0 makes a fetch; a byte cut short clears nothing. R171, R174: an I2C read is a fetch. A part that does not
answer the link, an address that is not its own included, sends nothing and takes nothing (R174, R181). The transfer that
STATUS_BYTE opens, that a byte cut short leaves none open, and that CHECK for a first byte that fails its length is left
to the command that tells it, are the model's reading (log 4). -/
def Obligations.StatusByteSnapshot : Prop :=
  ∀ (s : State) (l : Link) (first : Byte),
    (s.answers l = true →
      (∃ t b, exec (.statusByte l (some first)) s = .next t ∧ t = s.withPorts t ∧ t.lastServed = s.lastServed ∧
        (∀ p, p ≠ l.port → t.port p = s.port p) ∧
        (t.port l.port).openTransfer = some ⟨b, if l = .spi ∧ first ≠ 0 then .request else .fetch⟩ ∧
        (t.port l.port).mode = (s.port l.port).mode ∧
        (s.phase = .loading → b = 0x40 ∧ (t.port l.port).refusedFlag = (s.port l.port).refusedFlag ∧
          (t.port l.port).checkFlag = (s.port l.port).checkFlag) ∧
        (s.phase ≠ .loading →
          (b.getLsbD 0 = true ↔ ∃ f, (s.port l.port).mode = .responseReady f) ∧
          (b.getLsbD 1 = true ↔ ∃ q, (s.port l.port).mode = .executing q) ∧
          b.getLsbD 2 = (s.port l.port).refusedFlag ∧ b.getLsbD 3 = (s.port l.port).checkFlag ∧
          (b.getLsbD 4 = true ↔ s.attention ≠ [] ∨ s.events ≠ DeviceEvents.none) ∧
          (b.getLsbD 5 = true ↔ s.calRun ≠ .idle ∨ s.save ≠ none) ∧
          b.getLsbD 6 = false ∧ b.getLsbD 7 = false ∧
          (t.port l.port).refusedFlag = false ∧ (t.port l.port).checkFlag = false)) ∧
      ChangesPort (.statusByte l none) s l { s.port l.port with openTransfer := none }) ∧
    (s.answers l = false → ∀ (sent : Option Byte) (bytes : List Byte) (b : Byte),
      exec (.statusByte l sent) s = .next s ∧ exec (.responseDelivery l) s = .next s ∧
        exec (.frameAbort l bytes) s = .next s ∧ exec (.lengthByteCheckFail l b) s = .next s)

/-- R171, R172, R174: in a fetch with RDY in its snapshot the response follows byte by byte and then 0xFF, and its second
CRC byte empties the buffer and leaves the port IDLE, the rest of the transfer 0xFF; in a fetch without RDY, in a window
of a frame and after a frame or a delivery every byte is 0xFF and nothing is delivered. A fetch that ends (nSEL, STOP, a
byte not acknowledged) sends and delivers nothing more and leaves the response. With no fetch open a delivery is not
due and changes nothing (log 1). -/
def Obligations.ResponseDelivery : Prop :=
  ∀ (s : State) (l : Link), s.answers l = true →
    (∀ frame b, (s.port l.port).mode = .responseReady frame → (s.port l.port).openTransfer = some ⟨b, .fetch⟩ →
      b.getLsbD 0 = true →
      (∀ n, s.fetchByte l.port n = some (frame.getD n 0xFF)) ∧
      ChangesPort (.responseDelivery l) s l
        { s.port l.port with mode := .idle, openTransfer := some ⟨b, .over⟩ }) ∧
    (∀ b kind, (s.port l.port).openTransfer = some ⟨b, kind⟩ →
      kind ≠ .fetch ∨ b.getLsbD 0 = false ∨ (∀ frame, (s.port l.port).mode ≠ .responseReady frame) →
      exec (.responseDelivery l) s = .next s ∧ ∀ n, s.fetchByte l.port n = some 0xFF) ∧
    ((s.port l.port).openTransfer = none →
      exec (.responseDelivery l) s = .next s ∧ ∀ n, s.fetchByte l.port n = none) ∧
    ((∀ b, (s.port l.port).openTransfer ≠ some ⟨b, .request⟩) →
      ∃ t, exec (.frameAbort l []) s = .next t ∧ t = s.withPorts t ∧ t.lastServed = s.lastServed ∧
        (∀ p, p ≠ l.port → t.port p = s.port p) ∧ t.port l.port = { s.port l.port with openTransfer := none } ∧
        exec (.responseDelivery l) t = .next t ∧ ∀ n, t.fetchByte l.port n = none)

/-- R167, R183, R184: the frame of every request of at most 59 payload bytes passes the check of either port as that
request, whatever follows it; a response frame carries its length, the echoes, the status and the payload at their
places; the CRC over a whole frame is 0; and the code of every request names it. -/
def Obligations.FrameRoundTrip : Prop :=
  (∀ (p : Port) (q : Request) (extra : List Byte), q.payload.length ≤ 59 →
    frameCheck p (requestFrameOf q ++ extra) = .good q ∧ crc16 (requestFrameOf q) = 0 ∧
      (requestFrameOf q).length = q.payload.length + 5) ∧
  (∀ (q : Request) (st : Status) (payload : List Byte), payload.length ≤ 249 →
    (byteAt (responseFrame q st payload) 0).toNat = (responseFrame q st payload).length ∧
    (responseFrame q st payload).length = payload.length + 6 ∧
    byteAt (responseFrame q st payload) 1 = q.code ∧ byteAt (responseFrame q st payload) 2 = q.id ∧
    byteAt (responseFrame q st payload) 3 = statusCode st ∧
    ((responseFrame q st payload).drop 4).take payload.length = payload ∧ crc16 (responseFrame q st payload) = 0) ∧
  ∀ k : RequestKind, requestKind (requestCode k) = some k

/-! ## Resets and power -/

/-- What the chapters give after a hard reset (R25, R70, R90, R124, R143, R157, R165, R181), in the state right after
it: the directory empty, the channels unowned at 0, the classes disabled at their periods, nothing queued, converted,
listed, run or saved, the ports IDLE with clear flags, MAINTENANCE served last, the load to come. That no transfer is open
on a port is the model's choice (log 22). -/
def Obligations.ResetValues : Prop :=
  (∀ i, State.reset.slot i = none) ∧ State.reset.tagIndex = [] ∧
  (∀ p, State.reset.claim p = ⟨none, 0⟩) ∧ (∀ c, State.reset.channel c = ⟨none, 0, false⟩) ∧
  (∀ c, (State.reset.scanClass c).enabled = false ∧ (State.reset.scanClass c).outstanding = 0 ∧
    (State.reset.scanClass c).overrun = false) ∧
  (State.reset.scanClass 0).period = 10 ∧ (State.reset.scanClass 1).period = 100 ∧
  (State.reset.scanClass 2).period = 1000 ∧ (State.reset.scanClass 3).period = 10000 ∧
  State.reset.queue = [] ∧ State.reset.unit = .idle ∧ State.reset.convGrant = .scan ∧
  State.reset.selection = none ∧ State.reset.inFlight = none ∧ State.reset.attention = [] ∧
  State.reset.events = ⟨none, none, false, false⟩ ∧ State.reset.calRun = .idle ∧
  (∀ e, State.reset.calResults.get e = .notRun) ∧ State.reset.pointer = none ∧ State.reset.save = none ∧
  (∀ p, State.reset.port p = ⟨.idle, false, false, none⟩) ∧ State.reset.lastServed = .maintenance ∧
  State.reset.phase = .loading

/-- R182, R174, R181: a hard reset puts every block at its reset value and keeps the banks; at its end A1 and A0 give the
address and the load begins; a pulse shorter than 1 µs gives nothing or a whole hard reset, and which of the two is a
free value (log 7). nRESET does nothing to a part without power (log 19), and the ports are inert until the end. The
equality also holds what the model chose: the dropped expiry due (log 5), the remaining field of the disabled classes
(log 6), the Calibration Table kept until the load (log 8), the address kept until the end (log 10) and the transfers
closed (log 22). -/
def Obligations.HardResetRestores : Prop :=
  ∀ (s : State) (cause : ResetCause) (a1 a0 : Bool),
    (cause = .powerOn ∨ s.phase ≠ .off →
      exec (.hardReset (.begins cause)) s = .next (s.inHardReset .inReset s.maintAddress s.freeIndex) ∧
      exec (.hardReset (.whole cause a1 a0)) s =
        .next (s.inHardReset .loading (0x62 + (if a1 then 2 else 0) + (if a0 then 1 else 0)) s.freeIndex)) ∧
    (s.phase = .inReset →
      exec (.hardReset (.ends a1 a0)) s =
        .next { s with phase := .loading, maintAddress := 0x62 + (if a1 then 2 else 0) + (if a0 then 1 else 0) }) ∧
    (s.phase = .loading ∨ s.phase = .running →
      exec (.hardReset (.shortPulse a1 a0)) s = .next { s with freeIndex := s.freeIndex + 1 } ∨
      exec (.hardReset (.shortPulse a1 a0)) s =
        .next (s.inHardReset .loading (0x62 + (if a1 then 2 else 0) + (if a0 then 1 else 0)) (s.freeIndex + 1))) ∧
    (s.phase = .off → exec (.hardReset (.begins .nReset)) s = .next s ∧
      exec (.hardReset (.whole .nReset a1 a0)) s = .next s) ∧
    (s.phase = .off ∨ s.phase = .inReset → ∀ l, s.answers l = false)

/-- R159, R160: the load's end chooses the current bank by the serial comparison of the generations and copies its
records into the table, or makes every entry INVALID and raises STORE_EMPTY; the banks are not written. That TABLE_LOAD
outside the load changes nothing is the model's choice (log 1). -/
def Obligations.TableLoadChoosesBank : Prop :=
  ∀ s : State,
    (s.phase = .loading →
      ∃ t, exec .tableLoad s = .next t ∧
        t = { s with phase := .running, pointer := t.pointer, calTable := t.calTable, events := t.events } ∧
        (s.bankA.state ≠ .valid → s.bankB.state ≠ .valid → t.pointer = none) ∧
        (s.bankA.state = .valid → s.bankB.state ≠ .valid → t.pointer = some .a) ∧
        (s.bankA.state ≠ .valid → s.bankB.state = .valid → t.pointer = some .b) ∧
        (s.bankA.state = .valid → s.bankB.state = .valid →
          t.pointer =
            if 1 ≤ ((s.bankB.generation : Int) - (s.bankA.generation : Int)) % 65536 ∧
              ((s.bankB.generation : Int) - (s.bankA.generation : Int)) % 65536 ≤ 32767 then some .b else some .a) ∧
        (∀ n, t.pointer = some n →
          (∀ i : Fin 12, t.calTable.get i = (s.bank n).entries.getD i.val .invalid) ∧ t.events = s.events) ∧
        (t.pointer = none →
          (∀ i, t.calTable.get i = .invalid) ∧ t.events = { s.events with storeEmpty := true })) ∧
    (s.phase ≠ .loading → exec .tableLoad s = .next s)

/-- R179, R180 with R25, R70, R91, R124, R142, R157, R165: a SOFT_RESET on the host port resets the directory and the
work in flight, keeps periods, driven codes, the Calibration Table, the results, the store and a save in progress, and
drops a request the maintenance port has taken. -/
def Obligations.SoftResetClearsAndKeeps : Prop :=
  ∀ (s : State) (id : Byte) (payload : List Byte), Served s .host .softReset id payload →
    (payload = [] →
      ∃ t, exec (.softReset .host id payload) s = .next t ∧
        t.hostPort = { s.hostPort with mode := .responseReady (responseFrame (requestOf .softReset id payload) .ok []) } ∧
        t.lastServed = .host ∧
        (∀ q, s.maintPort.mode = .executing q →
          t.maintPort = { s.maintPort with mode := .idle, refusedFlag := true }) ∧
        ((∀ q, s.maintPort.mode ≠ .executing q) → t.maintPort = s.maintPort) ∧
        (∀ i, t.slot i = none) ∧ t.tagIndex = [] ∧ (∀ p, t.claim p = ⟨none, 0⟩) ∧
        (∀ c, t.channel c = ⟨none, (s.channel c).driven, false⟩) ∧
        (∀ c, (t.scanClass c).enabled = false ∧ (t.scanClass c).period = (s.scanClass c).period ∧
          (t.scanClass c).outstanding = 0 ∧ (t.scanClass c).overrun = false) ∧
        t.queue = [] ∧ t.unit = .idle ∧ t.convGrant = .scan ∧ t.selection = none ∧ t.inFlight = none ∧
        t.attention = [] ∧ t.events = ⟨none, none, false, false⟩ ∧ t.calRun = .idle ∧
        t.calTable = s.calTable ∧ t.calResults = s.calResults ∧ t.bankA = s.bankA ∧ t.bankB = s.bankB ∧
        t.pointer = s.pointer ∧ t.save = s.save ∧ t.phase = s.phase ∧ t.maintAddress = s.maintAddress) ∧
    (payload ≠ [] →
      OnlyAnswers (.softReset .host id payload) s .host (requestOf .softReset id payload) .badField [])

/-- R164: a hard reset or loss of power during a save abandons it without SAVE_DONE; the banks stay, so the target is in
the state its phase had reached and the current bank is VALID. What else a power loss leaves is the model's choice
(log 12, with log 5, log 6, log 8, log 10 and log 22). -/
def Obligations.SaveCutShort : Prop :=
  (∀ (s : State) (v : Save) (e : Instr), StoreInv s → s.phase = .running → s.save = some v →
    e ∈ [.powerLoss, .hardReset (.begins .nReset), Instr.hardReset (.begins .powerOn)] →
    ∃ t, exec e s = .next t ∧ t.save = none ∧ t.events = ⟨none, none, false, false⟩ ∧
      (∀ n, t.bank n = s.bank n) ∧
      (t.bank v.target).state = (match v.phase with
        | .erase => .part
        | .write 0 => .empty
        | .write _ => .part
        | .mark => .part) ∧
      ∀ n, s.pointer = some n → (t.bank n).state = .valid) ∧
  ∀ s : State,
    (s.phase ≠ .off → exec .powerLoss s =
      .next { s.inHardReset .off s.maintAddress s.freeIndex with calTable := Vector.replicate 12 .invalid }) ∧
    (s.phase = .off → exec .powerLoss s = .next s)

/-! ## The directory -/

/-- R16, R18: with the Tag Index as R16 says, a tag finds exactly the ACTIVE or HELD slot whose record carries it. -/
def Obligations.FindPointByTag : Prop :=
  ∀ (s : State) (tag : Nat) (i : SlotId) (r : PointRecord), IndexInv s →
    (s.findPoint tag = some (i, r) ↔ s.slot i = some r ∧ r.tag = tag ∧ r.slotState ≠ .retiring)

/-- R27: DEFINE's checks in their order, each with the status of its refusal. -/
def Obligations.DefineRefusals : Prop :=
  ∀ (s : State) (id : Byte) (payload : List Byte), Served s .host .define id payload →
    (¬ ((u8 payload 2 = 1 ∧ payload.length = 26) ∨ (u8 payload 2 = 2 ∧ payload.length = 13)) →
      OnlyAnswers (.define .host id payload) s .host (requestOf .define id payload) .badField []) ∧
    (((u8 payload 2 = 1 ∧ payload.length = 26) ∨ (u8 payload 2 = 2 ∧ payload.length = 13)) →
      (u16 payload 0 = 0 ∨ u16 payload 0 = 65535) →
      OnlyAnswers (.define .host id payload) s .host (requestOf .define id payload) .badField []) ∧
    (((u8 payload 2 = 1 ∧ payload.length = 26) ∨ (u8 payload 2 = 2 ∧ payload.length = 13)) →
      1 ≤ u16 payload 0 → u16 payload 0 ≤ 65534 → (∃ e ∈ s.tagIndex, e.tag = u16 payload 0) →
      OnlyAnswers (.define .host id payload) s .host (requestOf .define id payload) .duplicateTag []) ∧
    (DefinePasses s payload → (∀ i, s.slot i ≠ none) →
      OnlyAnswers (.define .host id payload) s .host (requestOf .define id payload) .tableFull []) ∧
    (DefinePasses s payload → (∃ i, s.slot i = none) →
      (u8 payload 2 = 1 → inputConfigOf payload = none →
        OnlyAnswers (.define .host id payload) s .host (requestOf .define id payload) .badField []) ∧
      (u8 payload 2 = 2 → outputConfigOf payload = none →
        OnlyAnswers (.define .host id payload) s .host (requestOf .define id payload) .badField []) ∧
      (∀ c, u8 payload 2 = 1 → inputConfigOf payload = some c →
        (∃ p ∈ c.source.pins, (s.claim p).mode ≠ none ∧ (s.claim p).mode ≠ some c.source.mode) →
        OnlyAnswers (.define .host id payload) s .host (requestOf .define id payload) .pinConflict []) ∧
      ∀ c, u8 payload 2 = 2 → outputConfigOf payload = some c →
        ((s.channel c.channel).owner ≠ none →
          OnlyAnswers (.define .host id payload) s .host (requestOf .define id payload) .channelTaken []) ∧
        ((s.channel c.channel).owner = none → (s.channel c.channel).underCal = true →
          OnlyAnswers (.define .host id payload) s .host (requestOf .define id payload) .busy []))

/-- R7 to R11, R13, R27 step 5 with the layout of R185: a DEFINE payload gives a configuration exactly when each field is
in its range and the cross-field condition holds, and then it gives the fields at their offsets. -/
def Obligations.DefineFields : Prop :=
  (∀ (p : List Byte) (c : InputConfig), inputConfigOf p = some c ↔
    ((u8 p 3 = 1 ∧ ∃ n : PinId, u8 p 4 = n.val ∧ c.source = .se n) ∨
      (u8 p 3 = 2 ∧ ∃ n : PairId, u8 p 4 = n.val ∧ c.source = .diff n)) ∧
    u8 p 5 = c.range.val ∧ u8 p 6 = c.oversample.samples ∧ u8 p 7 = c.scanClass.val ∧
    ((u8 p 8 = 0 ∧ c.scaling = none) ∨ (u8 p 8 = 1 ∧ c.scaling = some ⟨s16 p 9, s24 p 11⟩)) ∧
    ((u8 p 14 = 0 ∧ c.highLimit = none) ∨ (u8 p 14 = 1 ∧ c.highLimit = some (s32 p 15))) ∧
    ((u8 p 19 = 0 ∧ c.lowLimit = none) ∨ (u8 p 19 = 1 ∧ c.lowLimit = some (s32 p 20))) ∧
    c.deadband = u16 p 24 ∧
    ∀ h l, c.highLimit = some h → c.lowLimit = some l → l + (c.deadband : Int) < h - (c.deadband : Int)) ∧
  ∀ (p : List Byte) (c : OutputConfig), outputConfigOf p = some c ↔
    u8 p 3 = c.channel.val ∧ c.clampMin = s16 p 4 ∧ c.clampMax = s16 p 6 ∧
    ((u8 p 8 = 0 ∧ c.slew = none) ∨ (u8 p 8 = 1 ∧ 1 ≤ u16 p 9 ∧ u16 p 9 ≤ 32767 ∧ c.slew = some (u16 p 9))) ∧
    u8 p 11 = c.updateSet.val ∧
    ((u8 p 12 = 0 ∧ c.operatorWritable = false) ∨ (u8 p 12 = 1 ∧ c.operatorWritable = true)) ∧
    c.clampMin ≤ c.clampMax

/-- R4, R17, R21, R28: a DEFINE of an input point that passes every check fills the lowest-numbered FREE slot with the
starting values, inserts the pair at its place, claims the pins and changes nothing else; it answers the number of slots
still FREE. -/
def Obligations.DefineInput : Prop :=
  ∀ (s : State) (id : Byte) (payload : List Byte) (i : SlotId) (c : InputConfig),
    Served s .host .define id payload → DefinePasses s payload → u8 payload 2 = 1 →
    s.slot i = none → (∀ j, j < i → s.slot j ≠ none) → inputConfigOf payload = some c →
    (∀ p ∈ c.source.pins, (s.claim p).mode = none ∨ (s.claim p).mode = some c.source.mode) →
    ∃ t, exec (.define .host id payload) s = .next t ∧
      Answered s t .host (requestOf .define id payload) .ok
        [BitVec.ofNat 8 (slotIds.countP (fun j => (t.slot j).isNone))] ∧
      t = { s.withPorts t with slots := t.slots, tagIndex := t.tagIndex, pinClaims := t.pinClaims } ∧
      SlotSet s t i (some ⟨u16 payload 0, .active, .input c ⟨0, 0, false, .normal, 0, 0, true, .normal⟩⟩) ∧
      (∃ l₁ l₂, s.tagIndex = l₁ ++ l₂ ∧ t.tagIndex = l₁ ++ ⟨u16 payload 0, i⟩ :: l₂ ∧
        (∀ e ∈ l₁, e.tag < u16 payload 0) ∧ ∀ e, l₂.head? = some e → u16 payload 0 < e.tag) ∧
      ∀ p, t.claim p =
        if p ∈ c.source.pins then ⟨some c.source.mode, (s.claim p).count + 1⟩ else s.claim p

/-- R24, R30: a DEFINE of an output point takes its channel over: the live code is the driven code, the target is it
clamped, with slew absent the live and the driven code step to the target, and the new slot owns the channel. -/
def Obligations.DefineOutput : Prop :=
  ∀ (s : State) (id : Byte) (payload : List Byte) (i : SlotId) (c : OutputConfig) (d target live : Int),
    Served s .host .define id payload → DefinePasses s payload → u8 payload 2 = 2 →
    s.slot i = none → (∀ j, j < i → s.slot j ≠ none) → outputConfigOf payload = some c →
    (s.channel c.channel).owner = none → (s.channel c.channel).underCal = false →
    d = (s.channel c.channel).driven →
    target = (if d < c.clampMin then c.clampMin else if c.clampMax < d then c.clampMax else d) →
    live = (if c.slew = none then target else d) →
    ∃ t, exec (.define .host id payload) s = .next t ∧
      Answered s t .host (requestOf .define id payload) .ok
        [BitVec.ofNat 8 (slotIds.countP (fun j => (t.slot j).isNone))] ∧
      t = { s.withPorts t with slots := t.slots, tagIndex := t.tagIndex, channels := t.channels } ∧
      SlotSet s t i (some ⟨u16 payload 0, .active, .output c ⟨live, target, none⟩⟩) ∧
      (∃ l₁ l₂, s.tagIndex = l₁ ++ l₂ ∧ t.tagIndex = l₁ ++ ⟨u16 payload 0, i⟩ :: l₂ ∧
        (∀ e ∈ l₁, e.tag < u16 payload 0) ∧ ∀ e, l₂.head? = some e → u16 payload 0 < e.tag) ∧
      t.channel c.channel = ⟨some i, live, false⟩ ∧ ∀ ch, ch ≠ c.channel → t.channel ch = s.channel ch

/-- R18, R26: a request that names one point is refused BAD_FIELD for a wrong length or a tag of 0 or 65535, and
NOT_FOUND for a tag not held. ACK takes tag 0, as ACK's own statement says. -/
def Obligations.NamedPointRefusals : Prop :=
  ∀ (s : State) (p : Port) (k : RequestKind) (id : Byte) (payload : List Byte) (n : Nat),
    (k, n) ∈ [(.lookup, 2), (.hold, 2), (.release, 2), (.retire, 2), (RequestKind.stage, 4), (RequestKind.ack, 2)] →
    Served s p k id payload →
    (payload.length ≠ n →
      OnlyAnswers (requestCommand k p id payload) s p (requestOf k id payload) .badField []) ∧
    (payload.length = n → (u16 payload 0 = 0 ∧ k ≠ .ack) ∨ u16 payload 0 = 65535 →
      OnlyAnswers (requestCommand k p id payload) s p (requestOf k id payload) .badField []) ∧
    (payload.length = n → 1 ≤ u16 payload 0 → u16 payload 0 ≤ 65534 → s.findPoint (u16 payload 0) = none →
      OnlyAnswers (requestCommand k p id payload) s p (requestOf k id payload) .notFound [])

/-- R31 with the layout of 11.3: LOOKUP changes nothing and returns the point's configuration, 28 bytes for an input
point with its quality and 14 for an output point; an absent part carries zeros. -/
def Obligations.LookupReturnsConfiguration : Prop :=
  ∀ (s : State) (p : Port) (id : Byte) (payload : List Byte) (i : SlotId) (r : PointRecord),
    Served s p .lookup id payload → Names s payload 2 i r → r.tag ≤ 65534 →
    (∀ c v, r.body = .input c v → inputInRange c →
      ∃ b, OnlyAnswers (.lookup p id payload) s p (requestOf .lookup id payload) .ok b ∧ b.length = 28 ∧
        u16 b 0 = r.tag ∧ u8 b 2 = 1 ∧ u8 b 3 = r.slotState.code ∧
        (u8 b 4, u8 b 5) = (match c.source with
          | .se n => (1, n.val)
          | .diff n => (2, n.val)) ∧
        u8 b 6 = c.range.val ∧ u8 b 7 = c.oversample.samples ∧ u8 b 8 = c.scanClass.val ∧
        (u8 b 9, s16 b 10, s24 b 12) = (match c.scaling with
          | none => (0, 0, 0)
          | some k => (1, k.gain, k.offset)) ∧
        (u8 b 15, s32 b 16) = (match c.highLimit with
          | none => (0, 0)
          | some h => (1, h)) ∧
        (u8 b 20, s32 b 21) = (match c.lowLimit with
          | none => (0, 0)
          | some l => (1, l)) ∧
        u16 b 25 = c.deadband ∧ u8 b 27 = (qualityOf r.slotState v).code) ∧
    (∀ c k, r.body = .output c k → isCode c.clampMin → isCode c.clampMax → (∀ n, c.slew = some n → n ≤ 32767) →
      ∃ b, OnlyAnswers (.lookup p id payload) s p (requestOf .lookup id payload) .ok b ∧ b.length = 14 ∧
        u16 b 0 = r.tag ∧ u8 b 2 = 2 ∧ u8 b 3 = r.slotState.code ∧ u8 b 4 = c.channel.val ∧
        s16 b 5 = c.clampMin ∧ s16 b 7 = c.clampMax ∧
        (u8 b 9, u16 b 10) = (match c.slew with
          | none => (0, 0)
          | some n => (1, n)) ∧
        u8 b 12 = c.updateSet.val ∧ u8 b 13 = (if c.operatorWritable then 1 else 0))

/-- R19, R32: NEXT returns the smallest held tag greater than its argument with that point's kind and slot state, or
65535 with NONE; it refuses 65535 and changes nothing. -/
def Obligations.NextReturnsSuccessor : Prop :=
  ∀ (s : State) (p : Port) (id : Byte) (payload : List Byte), Served s p .nextTag id payload → IndexInv s →
    (payload.length ≠ 2 ∨ u16 payload 0 = 65535 →
      OnlyAnswers (.nextTag p id payload) s p (requestOf .nextTag id payload) .badField []) ∧
    (payload.length = 2 → u16 payload 0 ≤ 65534 →
      ∃ b, OnlyAnswers (.nextTag p id payload) s p (requestOf .nextTag id payload) .ok b ∧ b.length = 4 ∧
        ((∀ e ∈ s.tagIndex, e.tag ≤ u16 payload 0) → u16 b 0 = 65535 ∧ u8 b 2 = 0 ∧ u8 b 3 = 0) ∧
        ∀ e ∈ s.tagIndex, u16 payload 0 < e.tag →
          (∀ e' ∈ s.tagIndex, u16 payload 0 < e'.tag → e.tag ≤ e'.tag) →
          ∃ r, s.slot e.slot = some r ∧ u16 b 0 = e.tag ∧ u8 b 2 = r.body.kindCode ∧ u8 b 3 = r.slotState.code)

/-- R33 step 4, R186: the items a MODIFY passes name fields of the point's kind, each once, and write exactly the fields
they name with the values they carry. `m` counts the items from 0. -/
def Obligations.ModifyItems : Prop :=
  (∀ (p : List Byte) (c c' : InputConfig),
    checkItems ModifyField.ofInput setInputField [] 1 (itemsOf p) c = .passed c' →
    (∀ m, m < u8 p 2 → u8 p (3 + 7 * m) ∈ [0x10, 0x11, 0x12, 0x13, 0x14, 0x15, 0x16, 0x17]) ∧
    (∀ m m', m < u8 p 2 → m' < u8 p 2 → u8 p (3 + 7 * m) = u8 p (3 + 7 * m') → m = m') ∧
    (∀ m, m < u8 p 2 →
      (u8 p (3 + 7 * m) = 0x10 →
        (u8 p (4 + 7 * m) = 1 ∧ ∃ n : PinId, u8 p (5 + 7 * m) = n.val ∧ c'.source = .se n) ∨
        (u8 p (4 + 7 * m) = 2 ∧ ∃ n : PairId, u8 p (5 + 7 * m) = n.val ∧ c'.source = .diff n)) ∧
      (u8 p (3 + 7 * m) = 0x11 → u8 p (4 + 7 * m) = c'.range.val) ∧
      (u8 p (3 + 7 * m) = 0x12 → u8 p (4 + 7 * m) = c'.oversample.samples) ∧
      (u8 p (3 + 7 * m) = 0x13 → u8 p (4 + 7 * m) = c'.scanClass.val) ∧
      (u8 p (3 + 7 * m) = 0x14 → (u8 p (4 + 7 * m) = 0 ∧ c'.scaling = none) ∨
        (u8 p (4 + 7 * m) = 1 ∧ c'.scaling = some ⟨s16 p (5 + 7 * m), s24 p (7 + 7 * m)⟩)) ∧
      (u8 p (3 + 7 * m) = 0x15 → (u8 p (4 + 7 * m) = 0 ∧ c'.highLimit = none) ∨
        (u8 p (4 + 7 * m) = 1 ∧ c'.highLimit = some (s32 p (5 + 7 * m)))) ∧
      (u8 p (3 + 7 * m) = 0x16 → (u8 p (4 + 7 * m) = 0 ∧ c'.lowLimit = none) ∨
        (u8 p (4 + 7 * m) = 1 ∧ c'.lowLimit = some (s32 p (5 + 7 * m)))) ∧
      (u8 p (3 + 7 * m) = 0x17 → c'.deadband = u16 p (4 + 7 * m))) ∧
    ((∀ m, m < u8 p 2 → u8 p (3 + 7 * m) ≠ 0x10) → c'.source = c.source) ∧
    ((∀ m, m < u8 p 2 → u8 p (3 + 7 * m) ≠ 0x11) → c'.range = c.range) ∧
    ((∀ m, m < u8 p 2 → u8 p (3 + 7 * m) ≠ 0x12) → c'.oversample = c.oversample) ∧
    ((∀ m, m < u8 p 2 → u8 p (3 + 7 * m) ≠ 0x13) → c'.scanClass = c.scanClass) ∧
    ((∀ m, m < u8 p 2 → u8 p (3 + 7 * m) ≠ 0x14) → c'.scaling = c.scaling) ∧
    ((∀ m, m < u8 p 2 → u8 p (3 + 7 * m) ≠ 0x15) → c'.highLimit = c.highLimit) ∧
    ((∀ m, m < u8 p 2 → u8 p (3 + 7 * m) ≠ 0x16) → c'.lowLimit = c.lowLimit) ∧
    ((∀ m, m < u8 p 2 → u8 p (3 + 7 * m) ≠ 0x17) → c'.deadband = c.deadband)) ∧
  ∀ (p : List Byte) (c c' : OutputConfig),
    checkItems (fun f => !f.ofInput) setOutputField [] 1 (itemsOf p) c = .passed c' →
    (∀ m, m < u8 p 2 → u8 p (3 + 7 * m) ∈ [0x20, 0x21, 0x22, 0x23, 0x24]) ∧
    (∀ m m', m < u8 p 2 → m' < u8 p 2 → u8 p (3 + 7 * m) = u8 p (3 + 7 * m') → m = m') ∧
    (∀ m, m < u8 p 2 →
      (u8 p (3 + 7 * m) = 0x20 → c'.clampMin = s16 p (4 + 7 * m)) ∧
      (u8 p (3 + 7 * m) = 0x21 → c'.clampMax = s16 p (4 + 7 * m)) ∧
      (u8 p (3 + 7 * m) = 0x22 → (u8 p (4 + 7 * m) = 0 ∧ c'.slew = none) ∨
        (u8 p (4 + 7 * m) = 1 ∧ 1 ≤ u16 p (5 + 7 * m) ∧ u16 p (5 + 7 * m) ≤ 32767 ∧
          c'.slew = some (u16 p (5 + 7 * m)))) ∧
      (u8 p (3 + 7 * m) = 0x23 → u8 p (4 + 7 * m) = c'.updateSet.val) ∧
      (u8 p (3 + 7 * m) = 0x24 → u8 p (4 + 7 * m) = (if c'.operatorWritable then 1 else 0))) ∧
    c'.channel = c.channel ∧
    ((∀ m, m < u8 p 2 → u8 p (3 + 7 * m) ≠ 0x20) → c'.clampMin = c.clampMin) ∧
    ((∀ m, m < u8 p 2 → u8 p (3 + 7 * m) ≠ 0x21) → c'.clampMax = c.clampMax) ∧
    ((∀ m, m < u8 p 2 → u8 p (3 + 7 * m) ≠ 0x22) → c'.slew = c.slew) ∧
    ((∀ m, m < u8 p 2 → u8 p (3 + 7 * m) ≠ 0x23) → c'.updateSet = c.updateSet) ∧
    ((∀ m, m < u8 p 2 → u8 p (3 + 7 * m) ≠ 0x24) → c'.operatorWritable = c.operatorWritable)

/-- R33, R186: MODIFY's checks in their order, each with its status and position: the position is that of the first
failing item at step 4 and 0 at every other step; with no failing item the items are taken. -/
def Obligations.ModifyRefusals : Prop :=
  ∀ (s : State) (id : Byte) (payload : List Byte), Served s .host .modify id payload →
    (¬ ModifyFits payload →
      OnlyAnswers (.modify .host id payload) s .host (requestOf .modify id payload) .badField [0]) ∧
    (ModifyFits payload → u16 payload 0 = 0 ∨ u16 payload 0 = 65535 →
      OnlyAnswers (.modify .host id payload) s .host (requestOf .modify id payload) .badField [0]) ∧
    (ModifyFits payload → 1 ≤ u16 payload 0 → u16 payload 0 ≤ 65534 → s.findPoint (u16 payload 0) = none →
      OnlyAnswers (.modify .host id payload) s .host (requestOf .modify id payload) .notFound [0]) ∧
    ∀ i r, ModifyFits payload → 1 ≤ u16 payload 0 → u16 payload 0 ≤ 65534 →
      s.findPoint (u16 payload 0) = some (i, r) →
      (∀ m st, 1 ≤ m → m ≤ u8 payload 2 → itemVerdict (r.body.kindCode == 1) payload m = some st →
        (∀ m', 1 ≤ m' → m' < m → itemVerdict (r.body.kindCode == 1) payload m' = none) →
        OnlyAnswers (.modify .host id payload) s .host (requestOf .modify id payload) st [BitVec.ofNat 8 m]) ∧
      ((∀ m, 1 ≤ m → m ≤ u8 payload 2 → itemVerdict (r.body.kindCode == 1) payload m = none) →
        (∀ c v, r.body = .input c v →
          ∃ c', checkItems ModifyField.ofInput setInputField [] 1 (itemsOf payload) c = .passed c') ∧
        (∀ c k, r.body = .output c k →
          ∃ c', checkItems (fun f => !f.ofInput) setOutputField [] 1 (itemsOf payload) c = .passed c')) ∧
      (∀ c v c', r.body = .input c v →
        checkItems ModifyField.ofInput setInputField [] 1 (itemsOf payload) c = .passed c' →
        ((∃ h l, c'.highLimit = some h ∧ c'.lowLimit = some l ∧
            h - (c'.deadband : Int) ≤ l + (c'.deadband : Int)) →
          OnlyAnswers (.modify .host id payload) s .host (requestOf .modify id payload) .badField [0]) ∧
        (limitsOk c' = true → c'.source ≠ c.source →
          (∃ p ∈ c'.source.pins, ¬ (p ∈ c.source.pins ∧ (s.claim p).count ≤ 1) ∧ (s.claim p).mode ≠ none ∧
            (s.claim p).mode ≠ some c'.source.mode) →
          OnlyAnswers (.modify .host id payload) s .host (requestOf .modify id payload) .pinConflict [0])) ∧
      ∀ c k c', r.body = .output c k →
        checkItems (fun f => !f.ofInput) setOutputField [] 1 (itemsOf payload) c = .passed c' →
        c'.clampMax < c'.clampMin →
        OnlyAnswers (.modify .host id payload) s .host (requestOf .modify id payload) .badField [0]

/-- R34 to R39, R21, R88, R64: what a MODIFY that passes its checks does to an input point. A change of source or range
clears has-value and returns the limit state to NORMAL without a raise; else a change of scaling, limits or deadband
re-evaluates from NORMAL while has-value is true; a change of source, range or oversample supersedes the conversion in
flight; a change of class removes the queue entry and sets the mark. -/
def Obligations.ModifyInput : Prop :=
  ∀ (s : State) (id : Byte) (payload : List Byte) (i : SlotId) (r : PointRecord) (c c' : InputConfig) (v : ValuePart),
    Served s .host .modify id payload → ModifyFits payload → 1 ≤ u16 payload 0 → u16 payload 0 ≤ 65534 →
    s.findPoint (u16 payload 0) = some (i, r) → r.body = .input c v →
    checkItems ModifyField.ofInput setInputField [] 1 (itemsOf payload) c = .passed c' → limitsOk c' = true →
    (c'.source ≠ c.source → ∀ p ∈ c'.source.pins, (p ∈ c.source.pins ∧ (s.claim p).count ≤ 1) ∨
      (s.claim p).mode = none ∨ (s.claim p).mode = some c'.source.mode) →
    ∃ t v', exec (.modify .host id payload) s = .next t ∧
      Answered s t .host (requestOf .modify id payload) .ok [] ∧
      t = { s.withPorts t with slots := t.slots, pinClaims := t.pinClaims, inFlight := t.inFlight,
                               queue := t.queue, classes := t.classes, attention := t.attention } ∧
      SlotSet s t i (some { r with body := .input c' v' }) ∧
      v'.corrected = v.corrected ∧ v'.lastCondition = v.lastCondition ∧ v'.updateCount = v.updateCount ∧
      v'.missedPasses = v.missedPasses ∧ v'.mark = (v.mark || decide (c'.scanClass ≠ c.scanClass)) ∧
      (c'.source ≠ c.source ∨ c'.range ≠ c.range →
        v'.hasValue = false ∧ v'.limitState = .normal ∧ v'.value = v.value ∧ t.attention = s.attention) ∧
      (c'.source = c.source ∧ c'.range = c.range →
        v'.hasValue = v.hasValue ∧ Raised s t i ⟨decide (v'.limitState ≠ v.limitState), false⟩ ∧
        (v.hasValue = true → c'.scaling ≠ c.scaling → v'.value = (match c'.scaling with
          | none => v.corrected
          | some k => (v.corrected * k.gain).tdiv 4096 + k.offset)) ∧
        (v.hasValue = false ∨ c'.scaling = c.scaling → v'.value = v.value) ∧
        (v.hasValue = true → c'.scaling ≠ c.scaling ∨ c'.highLimit ≠ c.highLimit ∨ c'.lowLimit ≠ c.lowLimit ∨
            c'.deadband ≠ c.deadband →
          v'.limitState = evalLimit c' .normal v'.value) ∧
        (v.hasValue = false ∨ (c'.scaling = c.scaling ∧ c'.highLimit = c.highLimit ∧ c'.lowLimit = c.lowLimit ∧
            c'.deadband = c.deadband) →
          v'.limitState = v.limitState)) ∧
      (c'.source = c.source → t.pinClaims = s.pinClaims) ∧
      (c'.source ≠ c.source → ∀ p,
        t.claim p =
          (let given : PinClaim := if p ∈ c.source.pins then
              (if (s.claim p).count ≤ 1 then ⟨none, 0⟩ else ⟨(s.claim p).mode, (s.claim p).count - 1⟩)
            else s.claim p
          if p ∈ c'.source.pins then ⟨some c'.source.mode, given.count + 1⟩ else given)) ∧
      t.inFlight = s.inFlight.map (fun k =>
        if k.slot = i ∧ (c'.source ≠ c.source ∨ c'.range ≠ c.range ∨ c'.oversample ≠ c.oversample) then
          { k with superseded := true }
        else k) ∧
      (c'.scanClass ≠ c.scanClass → Unqueued s t i) ∧
      (c'.scanClass = c.scanClass → t.queue = s.queue ∧ t.classes = s.classes)

/-- R40, R41, R24: what a MODIFY that passes its checks does to an output point: a clamp change clamps the target and the
staged code, and an ACTIVE point whose slew before the MODIFY is absent steps to a target that moved, with its channel;
the other fields move no code. -/
def Obligations.ModifyOutput : Prop :=
  ∀ (s : State) (id : Byte) (payload : List Byte) (i : SlotId) (r : PointRecord) (c c' : OutputConfig) (k : CodePart)
    (target live : Int),
    Served s .host .modify id payload → ModifyFits payload → 1 ≤ u16 payload 0 → u16 payload 0 ≤ 65534 →
    s.findPoint (u16 payload 0) = some (i, r) → r.body = .output c k →
    checkItems (fun f => !f.ofInput) setOutputField [] 1 (itemsOf payload) c = .passed c' → c'.clampMin ≤ c'.clampMax →
    c.clampMin ≤ k.target → k.target ≤ c.clampMax →
    (∀ x, k.staged = some x → c.clampMin ≤ x ∧ x ≤ c.clampMax) →
    target = (if k.target < c'.clampMin then c'.clampMin else if c'.clampMax < k.target then c'.clampMax
      else k.target) →
    live = (if r.slotState = .active ∧ c.slew = none ∧ target ≠ k.target then target else k.live) →
    ∃ t, exec (.modify .host id payload) s = .next t ∧
      Answered s t .host (requestOf .modify id payload) .ok [] ∧
      t = { s.withPorts t with slots := t.slots, channels := t.channels } ∧
      SlotSet s t i (some { r with body := .output c' ⟨live, target, k.staged.map (fun x =>
        if x < c'.clampMin then c'.clampMin else if c'.clampMax < x then c'.clampMax else x)⟩ }) ∧
      c'.channel = c.channel ∧
      t.channel c.channel =
        { s.channel c.channel with driven := if live = k.live then (s.channel c.channel).driven else live } ∧
      ∀ ch, ch ≠ c.channel → t.channel ch = s.channel ch

/-- R42, R44, R64: HOLD of an ACTIVE point sets the slot HELD and removes an input point's queue entry, and leaves the
record, the attention, the channel and a conversion in flight alone; HOLD of a HELD point changes nothing. -/
def Obligations.HoldSuspends : Prop :=
  ∀ (s : State) (id : Byte) (payload : List Byte) (i : SlotId) (r : PointRecord),
    Served s .host .hold id payload → Names s payload 2 i r →
    ∃ t, exec (.hold .host id payload) s = .next t ∧ Answered s t .host (requestOf .hold id payload) .ok [] ∧
      (r.slotState ≠ .active → t = s.withPorts t) ∧
      (r.slotState = .active →
        t = { s.withPorts t with slots := t.slots, queue := t.queue, classes := t.classes } ∧
        SlotSet s t i (some { r with slotState := .held }) ∧
        (∀ c v, r.body = .input c v → Unqueued s t i) ∧
        ∀ c k, r.body = .output c k → t.queue = s.queue ∧ t.classes = s.classes)

/-- R43, R45, R24: RELEASE of a HELD input point sets it ACTIVE with missed passes 3 and the mark set, its quality then
STALE or NONE, and raises nothing; RELEASE of a HELD output point sets it ACTIVE and, with slew absent, steps it to its
target with its channel; RELEASE of an ACTIVE point changes nothing. -/
def Obligations.ReleaseResumes : Prop :=
  ∀ (s : State) (id : Byte) (payload : List Byte) (i : SlotId) (r : PointRecord),
    Served s .host .release id payload → Names s payload 2 i r →
    ∃ t, exec (.release .host id payload) s = .next t ∧ Answered s t .host (requestOf .release id payload) .ok [] ∧
      (r.slotState ≠ .held → t = s.withPorts t) ∧
      (r.slotState = .held →
        (∀ c v, r.body = .input c v →
          t = { s.withPorts t with slots := t.slots } ∧
          SlotSet s t i (some ⟨r.tag, .active, .input c { v with missedPasses := 3, mark := true }⟩) ∧
          qualityOf .active { v with missedPasses := 3, mark := true } = (if v.hasValue then .stale else .none)) ∧
        ∀ c k, r.body = .output c k →
          t = { s.withPorts t with slots := t.slots, channels := t.channels } ∧
          SlotSet s t i (some ⟨r.tag, .active, .output c
            { k with live := if c.slew = none then k.target else k.live }⟩) ∧
          t.channel c.channel = { s.channel c.channel with
            driven := if c.slew = none ∧ k.live ≠ k.target then k.target else (s.channel c.channel).driven } ∧
          ∀ ch, ch ≠ c.channel → t.channel ch = s.channel ch)

/-- R46 to R48, R22: RETIRE removes the tag's pair and the attention entry. An input point whose conversion is in flight
goes RETIRING and keeps its claims (PENDING, 2); any other input point loses its queue entry, its slot and its claims
(FREED, 1); an output point's channel keeps its driven code without an owner. -/
def Obligations.RetireRemoves : Prop :=
  ∀ (s : State) (id : Byte) (payload : List Byte) (i : SlotId) (r : PointRecord),
    Served s .host .retire id payload → Names s payload 2 i r →
    ∃ t b, exec (.retire .host id payload) s = .next t ∧
      Answered s t .host (requestOf .retire id payload) .ok [b] ∧
      t = { s.withPorts t with slots := t.slots, tagIndex := t.tagIndex, attention := t.attention, queue := t.queue,
                               classes := t.classes, pinClaims := t.pinClaims, channels := t.channels } ∧
      t.tagIndex = s.tagIndex.filter (fun e => e.tag != r.tag) ∧
      t.attention = s.attention.filter (fun e => e.slot != i) ∧
      (∀ c v, r.body = .input c v → t.channels = s.channels ∧
        ((∃ k, s.inFlight = some k ∧ k.slot = i) → b = 2 ∧ SlotSet s t i (some { r with slotState := .retiring }) ∧
          t.queue = s.queue ∧ t.classes = s.classes ∧ t.pinClaims = s.pinClaims) ∧
        ((∀ k, s.inFlight = some k → k.slot ≠ i) → b = 1 ∧ SlotSet s t i none ∧ Unqueued s t i ∧
          ∀ p, t.claim p = if p ∈ c.source.pins then
            (if (s.claim p).count ≤ 1 then ⟨none, 0⟩ else ⟨(s.claim p).mode, (s.claim p).count - 1⟩)
          else s.claim p)) ∧
      ∀ c k, r.body = .output c k → b = 1 ∧ SlotSet s t i none ∧ t.queue = s.queue ∧ t.classes = s.classes ∧
        t.pinClaims = s.pinClaims ∧ t.channel c.channel = { s.channel c.channel with owner := none } ∧
        ∀ ch, ch ≠ c.channel → t.channel ch = s.channel ch

/-! ## The scan -/

/-- R52, R53: CLASS stores the enable and the period, restarts the timer of an enabled class, clears the overrun flag and
drops an expiry of the old timer; it returns the outstanding count and the flag as it stood. A wrong length, class,
enable or period is refused with BAD_FIELD. That a disabled class keeps its remaining field, and the expiry due, are the
model's choices (log 6, log 5). -/
def Obligations.ClassSetsTimer : Prop :=
  ∀ (s : State) (id : Byte) (payload : List Byte), Served s .host .classSet id payload →
    (payload.length ≠ 4 ∨ 4 ≤ u8 payload 0 ∨ 2 ≤ u8 payload 1 ∨ u16 payload 2 = 0 →
      OnlyAnswers (.classSet .host id payload) s .host (requestOf .classSet id payload) .badField []) ∧
    ∀ c : ClassId, payload.length = 4 → u8 payload 0 = c.val → u8 payload 1 ≤ 1 → 1 ≤ u16 payload 2 →
      ∃ t, exec (.classSet .host id payload) s = .next t ∧
        Answered s t .host (requestOf .classSet id payload) .ok
          [BitVec.ofNat 8 (s.scanClass c).outstanding, if (s.scanClass c).overrun then 1 else 0] ∧
        t = { s.withPorts t with classes := t.classes } ∧
        t.scanClass c = { s.scanClass c with
          enabled := u8 payload 1 == 1, period := u16 payload 2,
          remaining := if u8 payload 1 = 1 then u16 payload 2 else (s.scanClass c).remaining,
          overrun := false, expiryDue := false } ∧
        ∀ c', c' ≠ c → t.scanClass c' = s.scanClass c'

/-- R51: a class tick lowers the remaining field of every enabled class by 1; a field that reaches 0 is loaded with the
period, and the class has an expiry due (log 5). Disabled classes do not count. The tick runs from the end of hard
reset, and before it a tick changes nothing (log 1). -/
def Obligations.ClassTickCountsDown : Prop :=
  ∀ s : State,
    (s.phase = .loading ∨ s.phase = .running →
      ∃ t, exec .classTick s = .next t ∧ t = { s with classes := t.classes } ∧
        ∀ c, ((s.scanClass c).enabled = false → t.scanClass c = s.scanClass c) ∧
          ((s.scanClass c).enabled = true → 1 < (s.scanClass c).remaining →
            t.scanClass c = { s.scanClass c with remaining := (s.scanClass c).remaining - 1 }) ∧
          ((s.scanClass c).enabled = true → (s.scanClass c).remaining ≤ 1 →
            t.scanClass c = { s.scanClass c with remaining := (s.scanClass c).period, expiryDue := true })) ∧
    (s.phase = .off ∨ s.phase = .inReset → exec .classTick s = .next s)

/-- R55, R56, R57, R62: an expiry accounts for the points of its class. With the outstanding count above 0 it sets the
overrun flag, raises CLASS_OVERRUN and starts no pass. With the count at 0 it starts a pass: the ACTIVE input points of
the class in tag order, less those queued or in flight, go after every entry of the class or a lower one and before
every entry of a higher one, and the count is their number. With no expiry due, or the class disabled, the command
changes nothing (log 1). -/
def Obligations.ClassExpiryAccountsAndStartsPass : Prop :=
  ∀ (s : State) (c : ClassId),
    ((s.scanClass c).enabled = true → (s.scanClass c).expiryDue = true → 0 < (s.scanClass c).outstanding →
      ∃ t, exec (.classExpiry c) s = .next t ∧
        t = { s with slots := t.slots, attention := t.attention, classes := t.classes, events := t.events } ∧
        Accounted s t c ∧ t.events = { s.events with classOverrun := true } ∧
        t.scanClass c = { s.scanClass c with overrun := true, expiryDue := false } ∧
        ∀ c', c' ≠ c → t.scanClass c' = s.scanClass c') ∧
    ((s.scanClass c).enabled = true → (s.scanClass c).expiryDue = true → (s.scanClass c).outstanding = 0 →
      ∃ t pass, exec (.classExpiry c) s = .next t ∧
        t = { s with slots := t.slots, attention := t.attention, classes := t.classes, queue := t.queue } ∧
        Accounted s t c ∧
        pass = ((s.tagIndex.map IndexPair.slot).filter (fun i =>
          (match s.slot i with
            | some ⟨_, .active, .input k _⟩ => k.scanClass == c
            | _ => false) &&
          !(s.queue.any (fun e => e.slot == i)) && s.inFlight.all (fun k => k.slot != i))).map (fun i => ⟨i, c⟩) ∧
        t.queue = s.queue.filter (fun e => e.passClass ≤ c) ++ pass ++ s.queue.filter (fun e => c < e.passClass) ∧
        t.scanClass c = { s.scanClass c with outstanding := pass.length, expiryDue := false } ∧
        ∀ c', c' ≠ c → t.scanClass c' = s.scanClass c') ∧
    ((s.scanClass c).enabled = false ∨ (s.scanClass c).expiryDue = false → exec (.classExpiry c) s = .next s)

/-! ## The converter -/

/-- R73, R76, R77, R148: a grant with the unit IDLE serves a WAITING Calibration Unit first: the converter is lent and
the run's first entry begins; otherwise the head of the queue becomes the conversion in flight, settling when its source
or range differs from the selection. That a grant with no claim, or with the unit not IDLE, changes nothing, and that
the earlier sum of the run's first measurement is 0, are the model's choices (log 1, log 21). -/
def Obligations.GrantServesClaim : Prop :=
  ∀ s : State,
    (∀ sc, s.unit = .idle → s.calRun = .waiting sc →
      ∃ t, exec .grant s = .next t ∧
        EntriesBegin sc sc.entries { s with unit := .lent, convGrant := .cal, selection := none } t) ∧
    (∀ e rest tag st c v, s.unit = .idle → (∀ sc, s.calRun ≠ .waiting sc) → s.queue = e :: rest →
      s.slot e.slot = some ⟨tag, st, .input c v⟩ →
      exec .grant s = .next { s with
        queue := rest
        inFlight := some ⟨e.slot, e.passClass, c.oversample, 0, 0, false, false⟩
        selection := some ⟨c.source, c.range⟩
        unit := if s.selection = some ⟨c.source, c.range⟩ then .sampling else .settling }) ∧
    (s.unit ≠ .idle ∨ (s.queue = [] ∧ ∀ sc, s.calRun ≠ .waiting sc) → exec .grant s = .next s)

/-- R77, R79, R80: the end of settling leads to SAMPLING; a sample below the N-th adds the input's code, at the nearer end
of the range when it lies beyond, raises samples taken and marks a saturation code. That neither does anything in
another unit state is the model's choice (log 1). -/
def Obligations.SettleAndSample : Prop :=
  ∀ (s : State) (input code : Int),
    (s.unit = .settling → exec .settleEnd s = .next { s with unit := .sampling }) ∧
    (s.unit ≠ .settling → exec .settleEnd s = .next s) ∧
    (s.unit ≠ .sampling → exec (.sample input) s = .next s) ∧
    ∀ k sel, s.unit = .sampling → s.inFlight = some k → s.selection = some sel →
      k.taken + 1 < k.oversample.samples →
      code = (if input < codeMin sel.range then codeMin sel.range else
        if codeMax sel.range < input then codeMax sel.range else input) →
      exec (.sample input) s = .next { s with inFlight := some { k with
        taken := k.taken + 1, sum := k.sum + code,
        overrange := k.overrange || decide (code = codeMax sel.range ∨ (sel.range.val < 4 ∧ code = -32768)) } }

/-- R79 to R82, R84, R86, R93, R94, R97, R104, R105: the N-th sample of a wanted conversion of an ACTIVE point writes its
result: the mean rounded toward negative infinity, corrected by the range's entry, scaled, graded and evaluated; one
raise carries the reasons; the class's count falls and the unit is IDLE. -/
def Obligations.WrittenCompletion : Prop :=
  ∀ (s : State) (input code raw corrected value : Int) (k : Conversion) (sel : Selection) (tag : Nat)
    (c : InputConfig) (v : ValuePart) (cond : Condition),
    s.unit = .sampling → s.inFlight = some k → s.selection = some sel → k.oversample.samples ≤ k.taken + 1 →
    k.superseded = false → s.slot k.slot = some ⟨tag, .active, .input c v⟩ →
    code = (if input < codeMin sel.range then codeMin sel.range else
      if codeMax sel.range < input then codeMax sel.range else input) →
    raw * k.oversample.samples ≤ k.sum + code → k.sum + code < (raw + 1) * k.oversample.samples →
    (∀ o g x, s.calEntry (.input sel.range) = .valid o g → x = ((raw - o) * g).tdiv 32768 →
      corrected = (if x < codeMin sel.range then codeMin sel.range else
        if codeMax sel.range < x then codeMax sel.range else x)) →
    (s.calEntry (.input sel.range) = .invalid → corrected = raw) →
    cond = (if s.calEntry (.input sel.range) = .invalid then .uncal
      else if k.overrange = true ∨ code = codeMax sel.range ∨ (sel.range.val < 4 ∧ code = -32768) then .overrange
      else .normal) →
    value = (match c.scaling with
      | none => corrected
      | some a => (corrected * a.gain).tdiv 4096 + a.offset) →
    ∃ t, exec (.sample input) s = .next t ∧
      t = { s with slots := t.slots, attention := t.attention, classes := t.classes, inFlight := none,
                   unit := .idle } ∧
      SlotSet s t k.slot (some ⟨tag, .active, .input c ⟨corrected, value, true, cond, v.updateCount + 1, 0, true,
        evalLimit c v.limitState value⟩⟩) ∧
      Raised s t k.slot
        ⟨decide (evalLimit c v.limitState value ≠ v.limitState),
          decide ((cond = .uncal ∧ qualityOf .active v ≠ .uncal) ∨
            (cond = .overrange ∧ qualityOf .active v ≠ .overrange))⟩ ∧
      t.scanClass k.passClass =
        { s.scanClass k.passClass with outstanding := (s.scanClass k.passClass).outstanding - 1 } ∧
      ∀ c', c' ≠ k.passClass → t.scanClass c' = s.scanClass c'

/-- R84, R85, R5, R22: the N-th sample of a superseded conversion, or of a point that is HELD or RETIRING, discards its
result: no record field, no attention; a RETIRING slot becomes FREE and gives back its claims; the class's count falls
and the unit is IDLE. -/
def Obligations.DiscardedCompletion : Prop :=
  ∀ (s : State) (input : Int) (k : Conversion) (sel : Selection) (tag : Nat) (st : SlotState) (c : InputConfig)
    (v : ValuePart),
    s.unit = .sampling → s.inFlight = some k → s.selection = some sel → k.oversample.samples ≤ k.taken + 1 →
    s.slot k.slot = some ⟨tag, st, .input c v⟩ → k.superseded = true ∨ st ≠ .active →
    ∃ t, exec (.sample input) s = .next t ∧
      t = { s with slots := t.slots, pinClaims := t.pinClaims, classes := t.classes, inFlight := none,
                   unit := .idle } ∧
      (st ≠ .retiring → t.slots = s.slots ∧ t.pinClaims = s.pinClaims) ∧
      (st = .retiring → SlotSet s t k.slot none ∧
        ∀ p, t.claim p = if p ∈ c.source.pins then
          (if (s.claim p).count ≤ 1 then ⟨none, 0⟩ else ⟨(s.claim p).mode, (s.claim p).count - 1⟩)
        else s.claim p) ∧
      t.scanClass k.passClass =
        { s.scanClass k.passClass with outstanding := (s.scanClass k.passClass).outstanding - 1 } ∧
      ∀ c', c' ≠ k.passClass → t.scanClass c' = s.scanClass c'

/-- R14, R99 to R102: the grades of an input point. The limit state moves by the first case that holds, with strict
comparisons and the deadband on leaving only; whatever leads to NORMAL stays NORMAL at the next evaluation of the same
value. The quality is the first case of R14. -/
def Obligations.LimitStateAndQuality : Prop :=
  (∀ (c : InputConfig) (v : Int) (above below : Prop),
    (above ↔ ∃ h, c.highLimit = some h ∧ h < v) → (below ↔ ∃ l, c.lowLimit = some l ∧ v < l) →
    (above → evalLimit c .normal v = .high) ∧ (¬ above → below → evalLimit c .normal v = .low) ∧
    (¬ above → ¬ below → evalLimit c .normal v = .normal) ∧
    (below → evalLimit c .high v = .low) ∧
    (¬ below → ∀ h, c.highLimit = some h →
      evalLimit c .high v = if v < h - (c.deadband : Int) then .normal else .high) ∧
    (above → evalLimit c .low v = .high) ∧
    (¬ above → ∀ l, c.lowLimit = some l →
      evalLimit c .low v = if l + (c.deadband : Int) < v then .normal else .low) ∧
    (limitsOk c = true → ¬ (above ∧ below)) ∧
    ∀ st, evalLimit c st v = .normal → evalLimit c .normal v = .normal) ∧
  ∀ (st : SlotState) (v : ValuePart),
    (st = .held → qualityOf st v = .held) ∧
    (st ≠ .held → v.hasValue = false → qualityOf st v = .none) ∧
    (st ≠ .held → v.hasValue = true → 3 ≤ v.missedPasses → qualityOf st v = .stale) ∧
    (st ≠ .held → v.hasValue = true → v.missedPasses < 3 →
      (v.lastCondition = .uncal → qualityOf st v = .uncal) ∧
      (v.lastCondition = .overrange → qualityOf st v = .overrange) ∧
      (v.lastCondition = .normal → qualityOf st v = .good))

/-! ## READ and attention -/

/-- R106 to R109, R187: READ changes nothing and returns a count byte and a 19-byte entry for each tag in the order named:
the value part of an input point (0, 0 and NORMAL without a value), the codes of an output point, or NOT_FOUND with
zeros. -/
def Obligations.ReadReturnsEntries : Prop :=
  ∀ (s : State) (p : Port) (id : Byte) (payload : List Byte), Served s p .read id payload →
    IndexInv s → CodeInv s → ValueInv s →
    (u8 payload 0 = 0 ∨ 4 < u8 payload 0 ∨ payload.length ≠ 1 + 2 * u8 payload 0 →
      OnlyAnswers (.read p id payload) s p (requestOf .read id payload) .badField []) ∧
    (1 ≤ u8 payload 0 → u8 payload 0 ≤ 4 → payload.length = 1 + 2 * u8 payload 0 →
      ((∃ m, m < u8 payload 0 ∧ (u16 payload (1 + 2 * m) = 0 ∨ u16 payload (1 + 2 * m) = 65535)) →
        OnlyAnswers (.read p id payload) s p (requestOf .read id payload) .badField []) ∧
      ((∀ m, m < u8 payload 0 → 1 ≤ u16 payload (1 + 2 * m) ∧ u16 payload (1 + 2 * m) ≤ 65534) →
        ∃ b, OnlyAnswers (.read p id payload) s p (requestOf .read id payload) .ok b ∧
          b.length = 1 + 19 * u8 payload 0 ∧ u8 b 0 = u8 payload 0 ∧
          ∀ m, m < u8 payload 0 →
            u16 b (1 + 19 * m) = u16 payload (1 + 2 * m) ∧
            (s.findPoint (u16 payload (1 + 2 * m)) = none →
              u8 b (3 + 19 * m) = 3 ∧ ∀ j, 3 ≤ j → j < 19 → u8 b (1 + 19 * m + j) = 0) ∧
            ∀ i r, s.findPoint (u16 payload (1 + 2 * m)) = some (i, r) →
              u8 b (3 + 19 * m) = 0 ∧ u8 b (4 + 19 * m) = r.body.kindCode ∧
              u8 b (5 + 19 * m) = (if r.slotState = .active then 1 else 2) ∧
              (∀ c v, r.body = .input c v →
                u8 b (6 + 19 * m) = (qualityOf r.slotState v).code ∧ u8 b (7 + 19 * m) = v.limitState.code ∧
                u8 b (8 + 19 * m) = (if v.hasValue then 1 else 0) ∧
                u8 b (9 + 19 * m) = (if v.hasValue then v.lastCondition.code else 0) ∧
                u8 b (10 + 19 * m) = v.updateCount.toNat ∧ u8 b (11 + 19 * m) = v.missedPasses ∧
                s32 b (12 + 19 * m) = (if v.hasValue then v.corrected else 0) ∧
                s32 b (16 + 19 * m) = (if v.hasValue then v.value else 0)) ∧
              ∀ c k, r.body = .output c k →
                s16 b (6 + 19 * m) = k.live ∧ s16 b (8 + 19 * m) = k.target ∧
                u8 b (10 + 19 * m) = (if k.staged = none then 0 else 1) ∧ s16 b (11 + 19 * m) = k.staged.getD 0 ∧
                u8 b (13 + 19 * m) = (if k.live = k.target then 0 else 1) ∧
                ∀ j, 13 ≤ j → j < 19 → u8 b (1 + 19 * m + j) = 0))

/-- R117: PEEK changes nothing and returns the head entry with its point's tag, quality and limit state as they stand, the
list length and the device events, or zeros with the empty flag. -/
def Obligations.PeekShowsHead : Prop :=
  ∀ (s : State) (p : Port) (id : Byte) (payload : List Byte), Served s p .peek id payload →
    IndexInv s → AttentionInv s →
    (payload ≠ [] → OnlyAnswers (.peek p id payload) s p (requestOf .peek id payload) .badField []) ∧
    (payload = [] → ∃ b, OnlyAnswers (.peek p id payload) s p (requestOf .peek id payload) .ok b ∧
      b.length = 9 ∧ EventBits (byteAt b 8) s.events ∧
      (s.attention = [] → u8 b 0 = 1 ∧ u16 b 1 = 0 ∧ u8 b 3 = 0 ∧ u8 b 4 = 0 ∧ u8 b 5 = 0 ∧ u8 b 6 = 0 ∧
        u8 b 7 = 0) ∧
      ∀ e rest, s.attention = e :: rest →
        u8 b 0 = 0 ∧ u8 b 3 = (if e.reasons.limit then 1 else 0) + (if e.reasons.quality then 2 else 0) ∧
        u8 b 4 = e.count ∧ u8 b 7 = rest.length + 1 ∧
        ∃ tag st c v, s.slot e.slot = some ⟨tag, st, .input c v⟩ ∧ u16 b 1 = tag ∧
          u8 b 5 = (qualityOf st v).code ∧ u8 b 6 = v.limitState.code)

/-- R118, R121: ACK of a held tag removes the point's entry wherever it stands and returns its reasons and change count,
or answers NOT_PENDING; ACK of tag 0 returns and empties the device event set and clears the four overrun flags, and
leaves the list. -/
def Obligations.AckRemovesAndReturns : Prop :=
  ∀ (s : State) (p : Port) (id : Byte) (payload : List Byte), Served s p .ack id payload →
    (∀ i r, Names s payload 2 i r →
      (s.attentionAt i = none →
        OnlyAnswers (.ack p id payload) s p (requestOf .ack id payload) .notPending []) ∧
      ∀ e, s.attentionAt i = some e →
        ∃ t, exec (.ack p id payload) s = .next t ∧
          Answered s t p (requestOf .ack id payload) .ok
            [BitVec.ofNat 8 ((if e.reasons.limit then 1 else 0) + (if e.reasons.quality then 2 else 0)),
              BitVec.ofNat 8 e.count] ∧
          t = { s.withPorts t with attention := t.attention } ∧
          t.attention = s.attention.filter (fun e => e.slot != i)) ∧
    (payload.length = 2 → u16 payload 0 = 0 →
      ∃ t b, exec (.ack p id payload) s = .next t ∧ Answered s t p (requestOf .ack id payload) .ok b ∧
        t = { s.withPorts t with events := ⟨none, none, false, false⟩, classes := t.classes } ∧
        (∀ c, t.scanClass c = { s.scanClass c with overrun := false }) ∧
        b.length = 16 ∧ EventBits (byteAt b 0) s.events ∧
        (s.events.calDone = none → ∀ j, 1 ≤ j → j < 14 → u8 b j = 0) ∧
        (∀ r, s.events.calDone = some r → u8 b 1 = r.outcome.code ∧
          ∀ e : Fin 12, u8 b (2 + e.val) = (r.results.get e).code) ∧
        (s.events.saveDone = none → u8 b 14 = 0) ∧ (∀ r, s.events.saveDone = some r → u8 b 14 = r.code) ∧
        (∀ c : ClassId, (byteAt b 15).getLsbD c.val = (s.scanClass c).overrun) ∧ u8 b 15 < 16)

/-! ## Outputs -/

/-- R127, R128: STAGE's checks on the point found, in their order, and its effect: the staged code is the code named, and
nothing moves. -/
def Obligations.StageSetsCode : Prop :=
  ∀ (s : State) (p : Port) (id : Byte) (payload : List Byte) (i : SlotId) (r : PointRecord),
    Served s p .stage id payload → Names s payload 4 i r →
    (∀ c v, r.body = .input c v →
      OnlyAnswers (.stage p id payload) s p (requestOf .stage id payload) .wrongKind []) ∧
    ∀ c k, r.body = .output c k →
      (p = .maintenance → c.operatorWritable = false →
        OnlyAnswers (.stage p id payload) s p (requestOf .stage id payload) .denied []) ∧
      (p = .host ∨ c.operatorWritable = true →
        (s16 payload 2 < c.clampMin ∨ c.clampMax < s16 payload 2 →
          OnlyAnswers (.stage p id payload) s p (requestOf .stage id payload) .range []) ∧
        (c.clampMin ≤ s16 payload 2 → s16 payload 2 ≤ c.clampMax →
          ∃ t, exec (.stage p id payload) s = .next t ∧
            Answered s t p (requestOf .stage id payload) .ok [if k.staged = none then 0 else 1] ∧
            t = { s.withPorts t with slots := t.slots } ∧
            SlotSet s t i (some { r with body := .output c { k with staged := some (s16 payload 2) } })))

/-- R130 to R133, R24: COMMIT makes the staged code of every ACTIVE member its target, steps the members whose slew is
absent with their channels, and counts the committed and the held-skipped members; DISCARD makes the staged code of every
member absent and counts them. -/
def Obligations.CommitAndDiscard : Prop :=
  (∀ (s : State) (p : Port) (id : Byte) (payload : List Byte), Served s p .commit id payload →
    (payload.length ≠ 1 ∨ 4 ≤ u8 payload 0 →
      OnlyAnswers (.commit p id payload) s p (requestOf .commit id payload) .badField []) ∧
    ∀ u : SetId, payload.length = 1 → u8 payload 0 = u.val →
      ∃ t, exec (.commit p id payload) s = .next t ∧
        Answered s t p (requestOf .commit id payload) .ok
          [BitVec.ofNat 8 (stagedIn s u .active), BitVec.ofNat 8 (stagedIn s u .held)] ∧
        t = { s.withPorts t with slots := t.slots, channels := t.channels } ∧
        (∀ i tag c k x, s.slot i = some ⟨tag, .active, .output c k⟩ → c.updateSet = u → k.staged = some x →
          t.slot i = some ⟨tag, .active, .output c ⟨if c.slew = none then x else k.live, x, none⟩⟩) ∧
        (∀ i, (∀ tag c k x, s.slot i = some ⟨tag, .active, .output c k⟩ → c.updateSet = u → k.staged ≠ some x) →
          t.slot i = s.slot i) ∧
        ChannelsFollow s t) ∧
  ∀ (s : State) (id : Byte) (payload : List Byte), Served s .host .discard id payload →
    (payload.length ≠ 1 ∨ 4 ≤ u8 payload 0 →
      OnlyAnswers (.discard .host id payload) s .host (requestOf .discard id payload) .badField []) ∧
    ∀ u : SetId, payload.length = 1 → u8 payload 0 = u.val →
      ∃ t, exec (.discard .host id payload) s = .next t ∧
        Answered s t .host (requestOf .discard id payload) .ok
          [BitVec.ofNat 8 (stagedIn s u .active + stagedIn s u .held)] ∧
        t = { s.withPorts t with slots := t.slots } ∧
        (∀ i tag st c k, s.slot i = some ⟨tag, st, .output c k⟩ → c.updateSet = u → st ≠ .retiring →
          t.slot i = some ⟨tag, st, .output c { k with staged := none }⟩) ∧
        ∀ i, (∀ tag st c k, s.slot i = some ⟨tag, st, .output c k⟩ → c.updateSet = u → st = .retiring) →
          t.slot i = s.slot i

/-- R134, R135, R24: a ramp tick moves the live code of every ACTIVE output point toward its target by at most the slew,
or sets it to the target within reach or with slew absent, with its channel; HELD points and unowned channels stay. The
tick runs from the end of hard reset, and before it a tick changes nothing (log 1). -/
def Obligations.RampTickMovesTowardTarget : Prop :=
  ∀ s : State,
    (s.phase = .loading ∨ s.phase = .running →
      ∃ t, exec .rampTick s = .next t ∧ t = { s with slots := t.slots, channels := t.channels } ∧
        (∀ i tag c k live, s.slot i = some ⟨tag, .active, .output c k⟩ → k.live ≠ k.target →
          (c.slew = none → live = k.target) →
          (∀ n, c.slew = some n →
            live = if k.live - (n : Int) ≤ k.target ∧ k.target ≤ k.live + (n : Int) then k.target
              else if k.live < k.target then k.live + (n : Int) else k.live - (n : Int)) →
          t.slot i = some ⟨tag, .active, .output c { k with live := live }⟩) ∧
        (∀ i, (∀ tag c k, s.slot i = some ⟨tag, .active, .output c k⟩ → k.live = k.target) → t.slot i = s.slot i) ∧
        ChannelsFollow s t) ∧
    (s.phase = .off ∨ s.phase = .inReset → exec .rampTick s = .next s)

/-- R139 to R141, R151: a channel drives its driven code through its entry, 0 in a hard reset and during the load, and the
Calibration Unit's uncorrected code while it is measured. R173, R123: RDY is high exactly while the host port is in
RESPONSE_READY, nATTN low exactly while the Attention List or the device event set holds anything; until the part runs
RDY is low and nATTN released. -/
def Obligations.PinCodesOfChannels : Prop :=
  (∀ s : State,
    (s.rdy = true ↔ ∃ frame, s.hostPort.mode = .responseReady frame) ∧
    (s.nAttnLow = true ↔ s.attention ≠ [] ∨ s.events ≠ ⟨none, none, false, false⟩) ∧
    (PhaseInv s → s.phase ≠ .running → s.rdy = false ∧ s.nAttnLow = false)) ∧
  ∀ (s : State) (c : ChannelId),
    (s.phase = .inReset ∨ s.phase = .loading → s.pinCode c = some 0) ∧
    (s.phase = .running → (s.channel c).underCal = false →
      (s.calEntry (.output c) = .invalid → s.pinCode c = some (s.channel c).driven) ∧
      ∀ o g x, s.calEntry (.output c) = .valid o g → x = ((s.channel c).driven * g).tdiv 32768 + o →
        s.pinCode c = some (if x < -32768 then -32768 else if 32767 < x then 32767 else x)) ∧
    ∀ sc m, RunInv s → s.phase = .running → (s.channel c).underCal = true → s.calRun = .running sc m →
      s.pinCode c = some (if m.phase = .plus then 24000 else -24000)

/-! ## Calibration -/

/-- R146, R147: CALIBRATE's checks in their order; one that passes leaves the run WAITING with its scope and 12 results
NOT_RUN, and answers the number of entries. -/
def Obligations.CalibrateStartsRun : Prop :=
  ∀ (s : State) (id : Byte) (payload : List Byte), Served s .host .calibrate id payload →
    (payload.length ≠ 2 ∨ u8 payload 0 = 0 ∨ 4 < u8 payload 0 ∨ (u8 payload 0 = 2 ∧ 8 ≤ u8 payload 1) →
      OnlyAnswers (.calibrate .host id payload) s .host (requestOf .calibrate id payload) .badField []) ∧
    ∀ sc n, payload.length = 2 →
      (u8 payload 0 = 1 ∧ sc = .allInputs ∧ n = 8) ∨
        (u8 payload 0 = 2 ∧ (∃ r : RangeCode, u8 payload 1 = r.val ∧ sc = .range r) ∧ n = 1) ∨
        (u8 payload 0 = 3 ∧ sc = .outputs ∧ n = 4) ∨ (u8 payload 0 = 4 ∧ sc = .all ∧ n = 12) →
      (s.calRun ≠ .idle ∨ s.save ≠ none →
        OnlyAnswers (.calibrate .host id payload) s .host (requestOf .calibrate id payload) .busy []) ∧
      (s.calRun = .idle → s.save = none →
        ∃ t, exec (.calibrate .host id payload) s = .next t ∧
          Answered s t .host (requestOf .calibrate id payload) .ok [n] ∧
          t = { s.withPorts t with calRun := .waiting sc, calResults := t.calResults } ∧
          ∀ e, t.calResults.get e = .notRun)

/-- R155: CAL_ABORT is refused with NOT_PENDING when IDLE; it cancels a WAITING run, or drops the measurement of a RUNNING
one, gives its channel back and releases the converter; it raises CAL_DONE ABORTED with the results as they stand and
answers the run state found. -/
def Obligations.CalAbortEndsRun : Prop :=
  ∀ (s : State) (id : Byte) (payload : List Byte), Served s .host .calAbort id payload →
    (payload ≠ [] →
      OnlyAnswers (.calAbort .host id payload) s .host (requestOf .calAbort id payload) .badField []) ∧
    (payload = [] → s.calRun = .idle →
      OnlyAnswers (.calAbort .host id payload) s .host (requestOf .calAbort id payload) .notPending []) ∧
    (∀ sc, payload = [] → s.calRun = .waiting sc →
      ∃ t, exec (.calAbort .host id payload) s = .next t ∧
        Answered s t .host (requestOf .calAbort id payload) .ok [1] ∧
        t = { s.withPorts t with
          calRun := .idle, events := { s.events with calDone := some ⟨.aborted, s.calResults⟩ } }) ∧
    ∀ sc m, payload = [] → s.calRun = .running sc m →
      ∃ t, exec (.calAbort .host id payload) s = .next t ∧
        Answered s t .host (requestOf .calAbort id payload) .ok [2] ∧
        t = { s.withPorts t with
          calRun := .idle, unit := .idle, convGrant := .scan, selection := none, channels := t.channels,
          events := { s.events with calDone := some ⟨.aborted, s.calResults⟩ } } ∧
        ∀ c, t.channel c = if m.entry = .output c then { s.channel c with underCal := false } else s.channel c

/-- R149, R151: after its settling a calibration measurement takes 64 samples, at the ends of the range when they lie
beyond; the 64th of the first measurement of an entry keeps its sum and begins the second. That nothing happens without
a measurement in that part is the model's choice (log 1). -/
def Obligations.CalMeasurement : Prop :=
  ∀ (s : State) (sc : Scope) (m : Measurement) (input code : Int) (r : RangeCode),
    (m.entry = .input r ∨ ((∃ c, m.entry = .output c) ∧ r = 0)) →
    code = (if input < codeMin r then codeMin r else if codeMax r < input then codeMax r else input) →
    (s.calRun = .running sc m →
      (m.settled = false →
        exec .calSettleEnd s = .next { s with calRun := .running sc { m with settled := true } } ∧
        exec (.calSample input) s = .next s) ∧
      (m.settled = true → exec .calSettleEnd s = .next s ∧
        (m.taken < 63 → exec (.calSample input) s =
          .next { s with calRun := .running sc { m with sum := m.sum + code, taken := m.taken + 1 } }) ∧
        (63 ≤ m.taken → m.phase = .zero → exec (.calSample input) s =
          .next { s with calRun := .running sc ⟨m.entry, .reference, false, 0, 0, m.sum + code⟩ }) ∧
        (63 ≤ m.taken → m.phase = .plus → exec (.calSample input) s =
          .next { s with calRun := .running sc ⟨m.entry, .minus, false, 0, 0, m.sum + code⟩ }))) ∧
    ((∀ sc m, s.calRun ≠ .running sc m) →
      exec .calSettleEnd s = .next s ∧ exec (.calSample input) s = .next s)

/-- R149, R151, R152, R153: the 64th sample of the second measurement replaces the entry whole from the two sums, VALID
within the limits and INVALID otherwise, with its result UPDATED or FAILED; a channel's mark is cleared; the entries of
the scope still to come begin, or the run ends. That the earlier sum of the next entry's first measurement is 0 is the
model's choice (log 21). -/
def Obligations.CalEntryEnd : Prop :=
  ∀ (s : State) (sc : Scope) (m : Measurement) (input code last : Int) (before rest : List CalEntry),
    s.calRun = .running sc m → m.settled = true → 63 ≤ m.taken → sc.entries = before ++ m.entry :: rest →
    last = m.sum + code →
    (∀ r o x, m.entry = .input r → m.phase = .reference →
      code = (if input < codeMin r then codeMin r else if codeMax r < input then codeMax r else input) →
      o = m.earlier.tdiv 64 →
      Measured o (32768 * (if r.val < 4 then 26214 else 52428) * 64) (last - 64 * o) x →
      ∃ t, exec (.calSample input) s = .next t ∧
        EntriesBegin sc rest
          { s with calTable := put s.calTable m.entry.place x,
                   calResults := put s.calResults m.entry.place (resultOf x) } t) ∧
    (∀ c x P M k, m.entry = .output c → m.phase = .minus →
      code = (if input < -32768 then -32768 else if 32767 < input then 32767 else input) →
      (P, M, k) = (match s.calEntry (.input 0) with
        | .invalid => (m.earlier, last, 64)
        | .valid o g => ((m.earlier - 64 * o) * g, (last - 64 * o) * g, 64 * 32768)) →
      Measured ((-(P + M)).tdiv (2 * k)) (32768 * 48000 * k) (P - M) x →
      ∃ t, exec (.calSample input) s = .next t ∧
        EntriesBegin sc rest
          { s with calTable := put s.calTable m.entry.place x,
                   calResults := put s.calResults m.entry.place (resultOf x),
                   channels := put s.channels c { s.channel c with underCal := false } } t)

/-! ## The store -/

/-- R159, R161: CAL_SAVE's checks in their order; one that passes takes the snapshot, makes the bank that is not current
PARTIAL, fixes the generation that follows the current one, and answers the bank and the generation. That the bank made
PARTIAL keeps its old generation and records for the time is the model's choice (log 9). -/
def Obligations.CalSaveStartsSave : Prop :=
  ∀ (s : State) (id : Byte) (payload : List Byte), Served s .host .calSave id payload →
    (payload ≠ [] →
      OnlyAnswers (.calSave .host id payload) s .host (requestOf .calSave id payload) .badField []) ∧
    (payload = [] → s.calRun ≠ .idle ∨ s.save ≠ none →
      OnlyAnswers (.calSave .host id payload) s .host (requestOf .calSave id payload) .busy []) ∧
    ∀ target g, payload = [] → s.calRun = .idle → s.save = none →
      (s.pointer = none ∧ target = .a ∧ g = 1) ∨
        (∃ n, s.pointer = some n ∧ target ≠ n ∧ 1 ≤ (s.bank n).generation ∧ (s.bank n).generation ≤ 65535 ∧
          g = if (s.bank n).generation = 65535 then 1 else (s.bank n).generation + 1) →
      ∃ t b, exec (.calSave .host id payload) s = .next t ∧
        Answered s t .host (requestOf .calSave id payload) .ok b ∧ b.length = 3 ∧
        u8 b 0 = (if target = .a then 1 else 2) ∧ u16 b 1 = g ∧
        t = { s.withPorts t with save := some ⟨target, g, s.calTable, .erase⟩, bankA := t.bankA, bankB := t.bankB } ∧
        t.bank target = { s.bank target with state := .part } ∧ ∀ n, n ≠ target → t.bank n = s.bank n

/-- R162, R163: the end of ERASE leaves the target EMPTY; each record that reads back as written joins it, PARTIAL, in
table order, and the twelfth leads to MARK; one that reads back otherwise ends the save FAILED with the pointer as it
was; the end of MARK makes the target VALID and current and ends the save OK. That a phase's end outside the phase
changes nothing, that an erased bank has generation 0, and what a mismatched first record leaves are the model's choices
(log 1, log 9, log 18). -/
def Obligations.SavePhases : Prop :=
  (∀ (s : State) (v : Save), s.save = some v →
    (v.phase = .erase →
      ∃ t, exec .eraseEnd s = .next t ∧
        t = { s with save := some { v with phase := .write 0 }, bankA := t.bankA, bankB := t.bankB } ∧
        t.bank v.target = ⟨.empty, 0, []⟩ ∧ ∀ n, n ≠ v.target → t.bank n = s.bank n) ∧
    (∀ (n : Fin 12) (x : Coefficients), v.phase = .write n.val →
      ∃ t, exec (.entryRecordWrite x) s = .next t ∧
        t.bank v.target =
          { s.bank v.target with state := .part, entries := (s.bank v.target).entries ++ [x] } ∧
        (∀ n, n ≠ v.target → t.bank n = s.bank n) ∧
        (x = v.snapshot.get n →
          t = { s with save := some { v with phase := if n.val = 11 then .mark else .write (n.val + 1) },
                       bankA := t.bankA, bankB := t.bankB }) ∧
        (x ≠ v.snapshot.get n →
          t = { s with save := none, events := { s.events with saveDone := some .failed },
                       bankA := t.bankA, bankB := t.bankB })) ∧
    (v.phase = .mark →
      ∃ t, exec .markEnd s = .next t ∧
        t = { s with save := none, pointer := some v.target, events := { s.events with saveDone := some .ok },
                     bankA := t.bankA, bankB := t.bankB } ∧
        t.bank v.target = { s.bank v.target with state := .valid, generation := v.generation } ∧
        ∀ n, n ≠ v.target → t.bank n = s.bank n)) ∧
  ∀ (s : State) (x : Coefficients),
    ((∀ v, s.save = some v → v.phase ≠ .erase) → exec .eraseEnd s = .next s) ∧
    ((∀ v n, s.save = some v → v.phase ≠ .write n) → exec (.entryRecordWrite x) s = .next s) ∧
    ((∀ v, s.save = some v → v.phase ≠ .mark) → exec .markEnd s = .next s)

/-- R178, R188, R69: STATUS changes nothing and returns the 47 bytes of one act at their offsets. -/
def Obligations.StatusReport : Prop :=
  ∀ (s : State) (p : Port) (id : Byte) (payload : List Byte), Served s p .status id payload →
    (payload ≠ [] → OnlyAnswers (.status p id payload) s p (requestOf .status id payload) .badField []) ∧
    (payload = [] → s.queue.length ≤ 64 → s.attention.length ≤ 64 →
      (∀ c, (s.scanClass c).period ≤ 65535 ∧ (s.scanClass c).outstanding ≤ 64) →
      (∀ n, s.pointer = some n → (s.bank n).generation ≤ 65535) →
      ∃ b, OnlyAnswers (.status p id payload) s p (requestOf .status id payload) .ok b ∧ b.length = 47 ∧
        u16 b 0 = 0x0640 ∧
        u8 b 2 = slotIds.countP (fun i => match s.slot i with
          | some r => r.slotState == .active
          | none => false) ∧
        u8 b 3 = slotIds.countP (fun i => match s.slot i with
          | some r => r.slotState == .held
          | none => false) ∧
        u8 b 4 = slotIds.countP (fun i => match s.slot i with
          | some r => r.slotState == .retiring
          | none => false) ∧
        u8 b 5 = s.queue.length ∧
        (∀ c : ClassId, u8 b (6 + 5 * c.val) = (if (s.scanClass c).enabled then 1 else 0) ∧
          u16 b (7 + 5 * c.val) = (s.scanClass c).period ∧ u8 b (9 + 5 * c.val) = (s.scanClass c).outstanding ∧
          u8 b (10 + 5 * c.val) = (if (s.scanClass c).overrun then 1 else 0)) ∧
        (s.calRun = .idle → u8 b 26 = 0 ∧ u8 b 27 = 0 ∧ u8 b 28 = 0) ∧
        (∀ sc, s.calRun = .waiting sc ∨ (∃ m, s.calRun = .running sc m) →
          u8 b 26 = (if s.calRun = .waiting sc then 1 else 2) ∧
          (u8 b 27, u8 b 28) = (match sc with
            | .allInputs => (1, 0)
            | .range r => (2, r.val)
            | .outputs => (3, 0)
            | .all => (4, 0))) ∧
        (∀ e : Fin 12, u8 b (29 + e.val) = (s.calResults.get e).code) ∧
        (s.pointer = none → u8 b 41 = 0 ∧ u16 b 42 = 0) ∧
        (∀ n, s.pointer = some n → u8 b 41 = (if n = .a then 1 else 2) ∧ u16 b 42 = (s.bank n).generation) ∧
        u8 b 44 = (if s.save = none then 0 else 1) ∧ EventBits (byteAt b 45) s.events ∧
        u8 b 46 = s.attention.length)

/-! ## What every step keeps -/

/-- R16, R17: every step keeps the Tag Index as R16 says. -/
def Obligations.IndexKept : Prop :=
  ∀ s t : State, IndexInv s → step s = .next t → IndexInv t

/-- R20, R21, R22: every step keeps the claim counts equal to the users of each pin, in one mode. -/
def Obligations.ClaimsKept : Prop :=
  ∀ s t : State, ClaimInv s → step s = .next t → ClaimInv t

/-- R23, R24, R126: every step keeps each channel with its one owner and its owner's live code, and the target and staged
codes within the clamp. -/
def Obligations.OutputsKept : Prop :=
  ∀ s t : State, ChannelInv s → CodeInv s → step s = .next t → ChannelInv t ∧ CodeInv t

/-- R71, R73, R145, R150: every step keeps the unit, the grant, the conversion in flight and the run of one accord, and a
channel's mark with its measurement. -/
def Obligations.ConverterKept : Prop :=
  ∀ s t : State, ConverterInv s → RunInv s → step s = .next t → ConverterInv t ∧ RunInv t

/-- R5, R61, R62, R65: every step keeps the Conversion Queue and the outstanding counts, in states whose Tag Index and
converter are as their own invariants say. -/
def Obligations.QueueKept : Prop :=
  ∀ s t : State, IndexInv s → ConverterInv s → QueueInv s → step s = .next t → QueueInv t

/-- R158, R159, R161, R162, R146, R144, R160: every step keeps the banks, the pointer and the save, the coefficients in
their ranges, and the idle blocks of a part that does not run. -/
def Obligations.StoreKept : Prop :=
  ∀ s t : State, PhaseInv s → StoreInv s → TableInv s → step s = .next t → PhaseInv t ∧ StoreInv t ∧ TableInv t

/-- R112, R113, R116: every step keeps the Attention List, in states whose Tag Index is as R16 says. -/
def Obligations.AttentionKept : Prop :=
  ∀ s t : State, IndexInv s → AttentionInv s → step s = .next t → AttentionInv t

/-- R10 to R12, R50, R94, R98: every step keeps the class records, the configurations and the value parts in their ranges,
in states whose converter is as its own invariant says. -/
def Obligations.ValuesKept : Prop :=
  ∀ s t : State, ConverterInv s → ClassInv s → ValueInv s → step s = .next t → ClassInv t ∧ ValueInv t

/-- The state right after a hard reset has all these invariants. -/
def Obligations.InvariantsAtReset : Prop :=
  IndexInv State.reset ∧ ClaimInv State.reset ∧ ChannelInv State.reset ∧ CodeInv State.reset ∧
    ConverterInv State.reset ∧ RunInv State.reset ∧ QueueInv State.reset ∧ PhaseInv State.reset ∧
    StoreInv State.reset ∧ TableInv State.reset ∧ AttentionInv State.reset ∧ ClassInv State.reset ∧
    ValueInv State.reset

end
end

