-- ==== Sys2Proof/Laws/Bytes.lean ====
section
/-! SUPPORT. Fields read back as they are put, and what frames and their CRC are made of. -/

namespace Sys2Proof

/-! ## Fields -/

theorem byteAt_append (a b : List Byte) (i : Nat) :
    byteAt (a ++ b) i = if i < a.length then byteAt a i else byteAt b (i - a.length) := by
  unfold byteAt
  simp only [List.getD_eq_getElem?_getD, List.getElem?_append]
  split <;> rfl

theorem byteAt_append_left {a b : List Byte} {i : Nat} (h : i < a.length) : byteAt (a ++ b) i = byteAt a i := by
  simp [byteAt_append, h]

theorem byteAt_append_right {a b : List Byte} {i : Nat} (h : a.length ≤ i) :
    byteAt (a ++ b) i = byteAt b (i - a.length) := by
  simp [byteAt_append, Nat.not_lt.mpr h]

theorem byteAt_of_length_le {p : List Byte} {i : Nat} (h : p.length ≤ i) : byteAt p i = 0 := by
  simp [byteAt, h]

theorem byteAt_drop (p : List Byte) (n i : Nat) : byteAt (p.drop n) i = byteAt p (n + i) := by
  simp [byteAt, List.getElem?_drop]

theorem byteAt_take {p : List Byte} {n i : Nat} (h : i < n) : byteAt (p.take n) i = byteAt p i := by
  simp [byteAt, h]

theorem u8_lt (p : List Byte) (i : Nat) : u8 p i < 256 := (byteAt p i).isLt

theorem u16_lt (p : List Byte) (i : Nat) : u16 p i < 65536 := by
  have := u8_lt p i; have := u8_lt p (i + 1); unfold u16; omega

theorem u8_append_left {a b : List Byte} {i : Nat} (h : i < a.length) : u8 (a ++ b) i = u8 a i := by
  simp [u8, byteAt_append_left h]

theorem u8_append_right {a b : List Byte} {i : Nat} (h : a.length ≤ i) : u8 (a ++ b) i = u8 b (i - a.length) := by
  simp [u8, byteAt_append_right h]

@[simp] theorem length_put8 (n : Nat) : (put8 n).length = 1 := rfl
@[simp] theorem length_put16 (x : Int) : (put16 x).length = 2 := rfl
@[simp] theorem length_put24 (x : Int) : (put24 x).length = 3 := rfl
@[simp] theorem length_put32 (x : Int) : (put32 x).length = 4 := rfl
@[simp] theorem length_putBool (b : Bool) : (putBool b).length = 1 := rfl

theorem u8_put8 {n : Nat} (h : n < 256) : u8 (put8 n) 0 = n := by
  simp [u8, byteAt, put8, h]

theorem u8_putBool (b : Bool) : u8 (putBool b) 0 = if b then 1 else 0 := by
  cases b <;> rfl

/-- The two bytes of a 16-bit word joined. -/
theorem join16 (w : BitVec 16) :
    (w.extractLsb' 8 8).toNat * 256 + (w.extractLsb' 0 8).toNat = w.toNat := by
  simp only [BitVec.extractLsb'_toNat, Nat.shiftRight_eq_div_pow]
  have := w.isLt; omega

theorem join24 (w : BitVec 24) :
    (w.extractLsb' 16 8).toNat * 65536 + ((w.extractLsb' 8 8).toNat * 256 + (w.extractLsb' 0 8).toNat)
      = w.toNat := by
  simp only [BitVec.extractLsb'_toNat, Nat.shiftRight_eq_div_pow]
  have := w.isLt; omega

theorem join32 (w : BitVec 32) :
    ((w.extractLsb' 24 8).toNat * 256 + (w.extractLsb' 16 8).toNat) * 65536
      + ((w.extractLsb' 8 8).toNat * 256 + (w.extractLsb' 0 8).toNat) = w.toNat := by
  simp only [BitVec.extractLsb'_toNat, Nat.shiftRight_eq_div_pow]
  have := w.isLt; omega

/-- Two's complement read back from the low bits of an integer in range. -/
theorem twosComplement_ofInt {n : Nat} (hn : 0 < n) {x : Int} (hlo : -2 ^ (n - 1) ≤ x) (hhi : x < 2 ^ (n - 1)) :
    twosComplement n (BitVec.ofInt n x).toNat = x := by
  obtain ⟨m, rfl⟩ : ∃ m, n = m + 1 := ⟨n - 1, by omega⟩
  simp only [Nat.add_sub_cancel] at hlo hhi
  have hp : (2 : Int) ^ (m + 1) = 2 * 2 ^ m := by ring
  have hpn : (2 : Nat) ^ (m + 1) = 2 * 2 ^ m := by ring
  have hpos : (0 : Int) < 2 ^ m := by positivity
  simp only [twosComplement, BitVec.toNat_ofInt, Nat.add_sub_cancel]
  push_cast
  rw [hp]
  by_cases h0 : 0 ≤ x
  · have e : x % (2 * 2 ^ m) = x := Int.emod_eq_of_lt h0 (by omega)
    rw [e]
    have : x.toNat < 2 ^ m := by zify; rw [Int.toNat_of_nonneg h0]; exact_mod_cast hhi
    simp [this, h0]
  · have e : x % (2 * 2 ^ m) = x + 2 * 2 ^ m := by
      rw [← Int.add_emod_right, Int.emod_eq_of_lt (by omega) (by omega)]
    rw [e]
    have : ¬ (x + 2 * 2 ^ m).toNat < 2 ^ m := by
      zify; rw [Int.toNat_of_nonneg (by omega)]; omega
    rw [if_neg this, Int.toNat_of_nonneg (by omega)]; omega

theorem u16_put16 {x : Int} (h0 : 0 ≤ x) (h1 : x ≤ 65535) : (u16 (put16 x) 0 : Int) = x := by
  have := join16 (BitVec.ofInt 16 x)
  simp only [u16, u8, byteAt, put16, List.getD_cons_zero, List.getD_cons_succ]
  rw [this, BitVec.toNat_ofInt]; omega

theorem s16_put16 {x : Int} (h0 : -32768 ≤ x) (h1 : x ≤ 32767) : s16 (put16 x) 0 = x := by
  have := join16 (BitVec.ofInt 16 x)
  simp only [s16, u16, u8, byteAt, put16, List.getD_cons_zero, List.getD_cons_succ]
  rw [this]; exact twosComplement_ofInt (by omega) (by simpa using h0) (by norm_num; omega)

theorem s24_put24 {x : Int} (h0 : -8388608 ≤ x) (h1 : x ≤ 8388607) : s24 (put24 x) 0 = x := by
  have := join24 (BitVec.ofInt 24 x)
  simp only [s24, u16, u8, byteAt, put24, List.getD_cons_zero, List.getD_cons_succ, Nat.zero_add]
  rw [this]; exact twosComplement_ofInt (by omega) (by simpa using h0) (by norm_num; omega)

theorem s32_put32 {x : Int} (h0 : -2147483648 ≤ x) (h1 : x ≤ 2147483647) : s32 (put32 x) 0 = x := by
  have := join32 (BitVec.ofInt 32 x)
  simp only [s32, u16, u8, byteAt, put32, List.getD_cons_zero, List.getD_cons_succ, Nat.zero_add]
  rw [this]; exact twosComplement_ofInt (by omega) (by simpa using h0) (by norm_num; omega)

/-- A signed 16-bit field lies in its range. -/
theorem s16_range (p : List Byte) (i : Nat) : -32768 ≤ s16 p i ∧ s16 p i ≤ 32767 := by
  have := u16_lt p i
  simp only [s16, twosComplement]
  split <;> norm_num at * <;> omega

theorem s24_range (p : List Byte) (i : Nat) : -8388608 ≤ s24 p i ∧ s24 p i ≤ 8388607 := by
  have := u16_lt p (i + 1); have := u8_lt p i
  simp only [s24, twosComplement]
  split <;> norm_num at * <;> omega

theorem s32_range (p : List Byte) (i : Nat) : -2147483648 ≤ s32 p i ∧ s32 p i ≤ 2147483647 := by
  have := u16_lt p (i + 2); have := u16_lt p i
  simp only [s32, twosComplement]
  split <;> norm_num at * <;> omega

/-! ## CRC -/

theorem crc16_append (a b : List Byte) : crc16 (a ++ b) = b.foldl crcByte (crc16 a) := by
  simp [crc16, List.foldl_append]

@[simp] theorem length_crcBytes (bytes : List Byte) : (crcBytes bytes).length = 2 := rfl

@[simp] theorem length_withCrc (bytes : List Byte) : (withCrc bytes).length = bytes.length + 2 := by
  simp [withCrc]

theorem crcShift_of_not_msb {r : BitVec 16} (h : r.msb = false) : crcShift r = r <<< 1 := by
  simp [crcShift, h]

/-- A register whose high byte is clear shifts its low byte up eight places with no feedback. -/
theorem crcShift_eight {r : BitVec 16} (h : r.toNat < 256) :
    crcShift (crcShift (crcShift (crcShift (crcShift (crcShift (crcShift (crcShift r))))))) = r <<< 8 := by
  have step : ∀ k, k < 8 → crcShift (r <<< k) = r <<< (k + 1) := by
    intro k hk
    rw [crcShift_of_not_msb, ← BitVec.shiftLeft_add]
    rw [BitVec.msb_eq_decide]
    simp only [BitVec.toNat_shiftLeft, Nat.shiftLeft_eq, decide_eq_false_iff_not, not_le]
    have : r.toNat * 2 ^ k < 256 * 2 ^ k := Nat.mul_lt_mul_of_pos_right h (by positivity)
    have : 2 ^ k ≤ 2 ^ 7 := Nat.pow_le_pow_right (by omega) (by omega)
    have h2 : r.toNat * 2 ^ k < 2 ^ 16 := by nlinarith
    rw [Nat.mod_eq_of_lt h2]; norm_num at *; nlinarith
  have e := step 0 (by omega)
  rw [BitVec.shiftLeft_zero] at e
  rw [e, step 1, step 2, step 3, step 4, step 5, step 6, step 7] <;> omega

/-- The CRC register run over its own two bytes, high byte first, ends at 0. -/
theorem crc_residue (r : BitVec 16) :
    crcByte (crcByte r (r.extractLsb' 8 8)) (r.extractLsb' 0 8) = 0 := by
  have h1 : r ^^^ ((r.extractLsb' 8 8).zeroExtend 16 <<< 8) = (r.extractLsb' 0 8).zeroExtend 16 := by
    ext i hi
    simp only [BitVec.getElem_xor, BitVec.getElem_shiftLeft, BitVec.truncate_eq_setWidth,
      BitVec.getElem_setWidth, BitVec.getLsbD_extractLsb', BitVec.getLsbD_eq_getElem hi, Nat.zero_add]
    by_cases h8 : i < 8
    · simp [h8]
    · have : i - 8 < 8 := by omega
      have e : 8 + (i - 8) = i := by omega
      simp [h8, this, e, BitVec.getLsbD_eq_getElem hi]
  have hlt : ((r.extractLsb' 0 8).zeroExtend 16).toNat < 256 := by
    simp only [BitVec.truncate_eq_setWidth, BitVec.toNat_setWidth]
    have := (r.extractLsb' 0 8).isLt
    omega
  have h2 : crcByte r (r.extractLsb' 8 8) = (r.extractLsb' 0 8).zeroExtend 16 <<< 8 := by
    simp only [crcByte]
    rw [h1, crcShift_eight hlt]
  rw [h2]
  simp only [crcByte, BitVec.xor_self]
  decide

theorem crc16_withCrc (bytes : List Byte) : crc16 (withCrc bytes) = 0 := by
  simpa [withCrc, crc16_append, crcBytes] using crc_residue (crc16 bytes)

/-! ## Frames -/

theorem length_requestFrameOf (q : Request) : (requestFrameOf q).length = q.payload.length + 5 := by
  simp [requestFrameOf]

theorem length_responseFrame (q : Request) (st : Status) (payload : List Byte) :
    (responseFrame q st payload).length = payload.length + 6 := by
  simp [responseFrame]

/-- Two responses to one request with the same frame carry the same status and payload. -/
theorem responseFrame_inj {q : Request} {st st' : Status} {a b : List Byte}
    (h : responseFrame q st a = responseFrame q st' b) : st = st' ∧ a = b := by
  have hl := congrArg List.length h
  simp only [length_responseFrame] at hl
  simp only [responseFrame, withCrc] at h
  have h' := (List.append_inj h (by simp; omega)).1
  simp only [List.cons.injEq] at h'
  refine ⟨?_, h'.2.2.2.2⟩
  have := h'.2.2.2.1
  cases st <;> cases st' <;> first | rfl | (revert this; decide)

/-- The checks of a frame in their order (R167, R172). -/
theorem frameCheck_cons (port : Port) (b : Byte) (rest : List Byte) :
    frameCheck port (b :: rest) =
      if port = .host ∧ b = 0 then .fetch
      else if lengthPasses b = false then .badLength
      else if (b :: rest).length < b.toNat then .short
      else if ((b :: rest).take b.toNat).drop (b.toNat - 2)
          = crcBytes (((b :: rest).take b.toNat).take (b.toNat - 2)) then
        .good ⟨byteAt ((b :: rest).take b.toNat) 1, byteAt ((b :: rest).take b.toNat) 2,
          (((b :: rest).take b.toNat).take (b.toNat - 2)).drop 3⟩
      else .badCrc := rfl

end Sys2Proof
end

