-- ==== Sys2Proof/Laws/Tables.lean ====
section
/-! SUPPORT. Reading a table after an entry is replaced or all are mapped. -/

namespace Sys2Proof.Machine

theorem get_put {α : Type} {n : Nat} (v : Vector α n) (i j : Fin n) (x : α) :
    (put v i x).get j = if i = j then x else v.get j := by
  simp only [put, Vector.get_eq_getElem, Vector.getElem_set, Fin.ext_iff]

@[simp] theorem get_put_self {α : Type} {n : Nat} (v : Vector α n) (i : Fin n) (x : α) : (put v i x).get i = x := by
  simp [get_put]

theorem get_put_ne {α : Type} {n : Nat} (v : Vector α n) {i j : Fin n} (x : α) (h : i ≠ j) :
    (put v i x).get j = v.get j := by
  simp [get_put, h]

@[simp] theorem get_mapTable {α β : Type} {n : Nat} (f : α → β) (v : Vector α n) (i : Fin n) :
    (mapTable f v).get i = f (v.get i) := by
  simp only [mapTable, Vector.get_eq_getElem, Vector.getElem_mk, List.getElem_toArray, List.getElem_map,
    Vector.getElem_toList]

@[simp] theorem get_replicate {α : Type} {n : Nat} (x : α) (i : Fin n) : (Vector.replicate n x).get i = x := by
  simp [Vector.get]

theorem table_ext {α : Type} {n : Nat} {v w : Vector α n} (h : ∀ i, v.get i = w.get i) : v = w := by
  ext i hi
  simpa [Vector.get] using h ⟨i, hi⟩

@[simp] theorem put_get_self {α : Type} {n : Nat} (v : Vector α n) (i : Fin n) : put v i (v.get i) = v := by
  refine table_ext fun j => ?_
  by_cases h : i = j
  · subst h; simp
  · simp [get_put_ne, h]

@[simp] theorem mem_slotIds (i : SlotId) : i ∈ slotIds := by simp [slotIds]

theorem slotIds_nodup : slotIds.Nodup := List.nodup_finRange 64

end Sys2Proof.Machine
end

