-- ==== Sys2Proof/Laws/State.lean ====
section
/-! SUPPORT. What each update of State leaves and writes: one lemma per field per update, and the accessors after the
updates of their own table. -/

namespace Sys2Proof.Machine

variable (s : State)

@[simp] theorem setSlot_slots (i : SlotId) (x : Slot) : (s.setSlot i x).slots = put s.slots i x := rfl
@[simp] theorem setSlot_tagIndex (i : SlotId) (x : Slot) : (s.setSlot i x).tagIndex = s.tagIndex := rfl
@[simp] theorem setSlot_pinClaims (i : SlotId) (x : Slot) : (s.setSlot i x).pinClaims = s.pinClaims := rfl
@[simp] theorem setSlot_channels (i : SlotId) (x : Slot) : (s.setSlot i x).channels = s.channels := rfl
@[simp] theorem setSlot_classes (i : SlotId) (x : Slot) : (s.setSlot i x).classes = s.classes := rfl
@[simp] theorem setSlot_queue (i : SlotId) (x : Slot) : (s.setSlot i x).queue = s.queue := rfl
@[simp] theorem setSlot_unit (i : SlotId) (x : Slot) : (s.setSlot i x).unit = s.unit := rfl
@[simp] theorem setSlot_convGrant (i : SlotId) (x : Slot) : (s.setSlot i x).convGrant = s.convGrant := rfl
@[simp] theorem setSlot_selection (i : SlotId) (x : Slot) : (s.setSlot i x).selection = s.selection := rfl
@[simp] theorem setSlot_inFlight (i : SlotId) (x : Slot) : (s.setSlot i x).inFlight = s.inFlight := rfl
@[simp] theorem setSlot_attention (i : SlotId) (x : Slot) : (s.setSlot i x).attention = s.attention := rfl
@[simp] theorem setSlot_events (i : SlotId) (x : Slot) : (s.setSlot i x).events = s.events := rfl
@[simp] theorem setSlot_calTable (i : SlotId) (x : Slot) : (s.setSlot i x).calTable = s.calTable := rfl
@[simp] theorem setSlot_calRun (i : SlotId) (x : Slot) : (s.setSlot i x).calRun = s.calRun := rfl
@[simp] theorem setSlot_calResults (i : SlotId) (x : Slot) : (s.setSlot i x).calResults = s.calResults := rfl
@[simp] theorem setSlot_bankA (i : SlotId) (x : Slot) : (s.setSlot i x).bankA = s.bankA := rfl
@[simp] theorem setSlot_bankB (i : SlotId) (x : Slot) : (s.setSlot i x).bankB = s.bankB := rfl
@[simp] theorem setSlot_pointer (i : SlotId) (x : Slot) : (s.setSlot i x).pointer = s.pointer := rfl
@[simp] theorem setSlot_save (i : SlotId) (x : Slot) : (s.setSlot i x).save = s.save := rfl
@[simp] theorem setSlot_hostPort (i : SlotId) (x : Slot) : (s.setSlot i x).hostPort = s.hostPort := rfl
@[simp] theorem setSlot_maintPort (i : SlotId) (x : Slot) : (s.setSlot i x).maintPort = s.maintPort := rfl
@[simp] theorem setSlot_lastServed (i : SlotId) (x : Slot) : (s.setSlot i x).lastServed = s.lastServed := rfl
@[simp] theorem setSlot_maintAddress (i : SlotId) (x : Slot) : (s.setSlot i x).maintAddress = s.maintAddress := rfl
@[simp] theorem setSlot_phase (i : SlotId) (x : Slot) : (s.setSlot i x).phase = s.phase := rfl
@[simp] theorem setSlot_freeIndex (i : SlotId) (x : Slot) : (s.setSlot i x).freeIndex = s.freeIndex := rfl
@[simp] theorem setSlot_pending (i : SlotId) (x : Slot) : (s.setSlot i x).pending = s.pending := rfl

@[simp] theorem setChannel_slots (c : ChannelId) (x : Channel) : (s.setChannel c x).slots = s.slots := rfl
@[simp] theorem setChannel_tagIndex (c : ChannelId) (x : Channel) : (s.setChannel c x).tagIndex = s.tagIndex := rfl
@[simp] theorem setChannel_pinClaims (c : ChannelId) (x : Channel) : (s.setChannel c x).pinClaims = s.pinClaims := rfl
@[simp] theorem setChannel_channels (c : ChannelId) (x : Channel) : (s.setChannel c x).channels = put s.channels c x := rfl
@[simp] theorem setChannel_classes (c : ChannelId) (x : Channel) : (s.setChannel c x).classes = s.classes := rfl
@[simp] theorem setChannel_queue (c : ChannelId) (x : Channel) : (s.setChannel c x).queue = s.queue := rfl
@[simp] theorem setChannel_unit (c : ChannelId) (x : Channel) : (s.setChannel c x).unit = s.unit := rfl
@[simp] theorem setChannel_convGrant (c : ChannelId) (x : Channel) : (s.setChannel c x).convGrant = s.convGrant := rfl
@[simp] theorem setChannel_selection (c : ChannelId) (x : Channel) : (s.setChannel c x).selection = s.selection := rfl
@[simp] theorem setChannel_inFlight (c : ChannelId) (x : Channel) : (s.setChannel c x).inFlight = s.inFlight := rfl
@[simp] theorem setChannel_attention (c : ChannelId) (x : Channel) : (s.setChannel c x).attention = s.attention := rfl
@[simp] theorem setChannel_events (c : ChannelId) (x : Channel) : (s.setChannel c x).events = s.events := rfl
@[simp] theorem setChannel_calTable (c : ChannelId) (x : Channel) : (s.setChannel c x).calTable = s.calTable := rfl
@[simp] theorem setChannel_calRun (c : ChannelId) (x : Channel) : (s.setChannel c x).calRun = s.calRun := rfl
@[simp] theorem setChannel_calResults (c : ChannelId) (x : Channel) : (s.setChannel c x).calResults = s.calResults := rfl
@[simp] theorem setChannel_bankA (c : ChannelId) (x : Channel) : (s.setChannel c x).bankA = s.bankA := rfl
@[simp] theorem setChannel_bankB (c : ChannelId) (x : Channel) : (s.setChannel c x).bankB = s.bankB := rfl
@[simp] theorem setChannel_pointer (c : ChannelId) (x : Channel) : (s.setChannel c x).pointer = s.pointer := rfl
@[simp] theorem setChannel_save (c : ChannelId) (x : Channel) : (s.setChannel c x).save = s.save := rfl
@[simp] theorem setChannel_hostPort (c : ChannelId) (x : Channel) : (s.setChannel c x).hostPort = s.hostPort := rfl
@[simp] theorem setChannel_maintPort (c : ChannelId) (x : Channel) : (s.setChannel c x).maintPort = s.maintPort := rfl
@[simp] theorem setChannel_lastServed (c : ChannelId) (x : Channel) : (s.setChannel c x).lastServed = s.lastServed := rfl
@[simp] theorem setChannel_maintAddress (c : ChannelId) (x : Channel) : (s.setChannel c x).maintAddress = s.maintAddress := rfl
@[simp] theorem setChannel_phase (c : ChannelId) (x : Channel) : (s.setChannel c x).phase = s.phase := rfl
@[simp] theorem setChannel_freeIndex (c : ChannelId) (x : Channel) : (s.setChannel c x).freeIndex = s.freeIndex := rfl
@[simp] theorem setChannel_pending (c : ChannelId) (x : Channel) : (s.setChannel c x).pending = s.pending := rfl

@[simp] theorem setClass_slots (c : ClassId) (x : ScanClass) : (s.setClass c x).slots = s.slots := rfl
@[simp] theorem setClass_tagIndex (c : ClassId) (x : ScanClass) : (s.setClass c x).tagIndex = s.tagIndex := rfl
@[simp] theorem setClass_pinClaims (c : ClassId) (x : ScanClass) : (s.setClass c x).pinClaims = s.pinClaims := rfl
@[simp] theorem setClass_channels (c : ClassId) (x : ScanClass) : (s.setClass c x).channels = s.channels := rfl
@[simp] theorem setClass_classes (c : ClassId) (x : ScanClass) : (s.setClass c x).classes = put s.classes c x := rfl
@[simp] theorem setClass_queue (c : ClassId) (x : ScanClass) : (s.setClass c x).queue = s.queue := rfl
@[simp] theorem setClass_unit (c : ClassId) (x : ScanClass) : (s.setClass c x).unit = s.unit := rfl
@[simp] theorem setClass_convGrant (c : ClassId) (x : ScanClass) : (s.setClass c x).convGrant = s.convGrant := rfl
@[simp] theorem setClass_selection (c : ClassId) (x : ScanClass) : (s.setClass c x).selection = s.selection := rfl
@[simp] theorem setClass_inFlight (c : ClassId) (x : ScanClass) : (s.setClass c x).inFlight = s.inFlight := rfl
@[simp] theorem setClass_attention (c : ClassId) (x : ScanClass) : (s.setClass c x).attention = s.attention := rfl
@[simp] theorem setClass_events (c : ClassId) (x : ScanClass) : (s.setClass c x).events = s.events := rfl
@[simp] theorem setClass_calTable (c : ClassId) (x : ScanClass) : (s.setClass c x).calTable = s.calTable := rfl
@[simp] theorem setClass_calRun (c : ClassId) (x : ScanClass) : (s.setClass c x).calRun = s.calRun := rfl
@[simp] theorem setClass_calResults (c : ClassId) (x : ScanClass) : (s.setClass c x).calResults = s.calResults := rfl
@[simp] theorem setClass_bankA (c : ClassId) (x : ScanClass) : (s.setClass c x).bankA = s.bankA := rfl
@[simp] theorem setClass_bankB (c : ClassId) (x : ScanClass) : (s.setClass c x).bankB = s.bankB := rfl
@[simp] theorem setClass_pointer (c : ClassId) (x : ScanClass) : (s.setClass c x).pointer = s.pointer := rfl
@[simp] theorem setClass_save (c : ClassId) (x : ScanClass) : (s.setClass c x).save = s.save := rfl
@[simp] theorem setClass_hostPort (c : ClassId) (x : ScanClass) : (s.setClass c x).hostPort = s.hostPort := rfl
@[simp] theorem setClass_maintPort (c : ClassId) (x : ScanClass) : (s.setClass c x).maintPort = s.maintPort := rfl
@[simp] theorem setClass_lastServed (c : ClassId) (x : ScanClass) : (s.setClass c x).lastServed = s.lastServed := rfl
@[simp] theorem setClass_maintAddress (c : ClassId) (x : ScanClass) : (s.setClass c x).maintAddress = s.maintAddress := rfl
@[simp] theorem setClass_phase (c : ClassId) (x : ScanClass) : (s.setClass c x).phase = s.phase := rfl
@[simp] theorem setClass_freeIndex (c : ClassId) (x : ScanClass) : (s.setClass c x).freeIndex = s.freeIndex := rfl
@[simp] theorem setClass_pending (c : ClassId) (x : ScanClass) : (s.setClass c x).pending = s.pending := rfl

@[simp] theorem setCalEntry_slots (e : CalEntry) (x : Coefficients) : (s.setCalEntry e x).slots = s.slots := rfl
@[simp] theorem setCalEntry_tagIndex (e : CalEntry) (x : Coefficients) : (s.setCalEntry e x).tagIndex = s.tagIndex := rfl
@[simp] theorem setCalEntry_pinClaims (e : CalEntry) (x : Coefficients) : (s.setCalEntry e x).pinClaims = s.pinClaims := rfl
@[simp] theorem setCalEntry_channels (e : CalEntry) (x : Coefficients) : (s.setCalEntry e x).channels = s.channels := rfl
@[simp] theorem setCalEntry_classes (e : CalEntry) (x : Coefficients) : (s.setCalEntry e x).classes = s.classes := rfl
@[simp] theorem setCalEntry_queue (e : CalEntry) (x : Coefficients) : (s.setCalEntry e x).queue = s.queue := rfl
@[simp] theorem setCalEntry_unit (e : CalEntry) (x : Coefficients) : (s.setCalEntry e x).unit = s.unit := rfl
@[simp] theorem setCalEntry_convGrant (e : CalEntry) (x : Coefficients) : (s.setCalEntry e x).convGrant = s.convGrant := rfl
@[simp] theorem setCalEntry_selection (e : CalEntry) (x : Coefficients) : (s.setCalEntry e x).selection = s.selection := rfl
@[simp] theorem setCalEntry_inFlight (e : CalEntry) (x : Coefficients) : (s.setCalEntry e x).inFlight = s.inFlight := rfl
@[simp] theorem setCalEntry_attention (e : CalEntry) (x : Coefficients) : (s.setCalEntry e x).attention = s.attention := rfl
@[simp] theorem setCalEntry_events (e : CalEntry) (x : Coefficients) : (s.setCalEntry e x).events = s.events := rfl
@[simp] theorem setCalEntry_calTable (e : CalEntry) (x : Coefficients) : (s.setCalEntry e x).calTable = put s.calTable e.place x := rfl
@[simp] theorem setCalEntry_calRun (e : CalEntry) (x : Coefficients) : (s.setCalEntry e x).calRun = s.calRun := rfl
@[simp] theorem setCalEntry_calResults (e : CalEntry) (x : Coefficients) : (s.setCalEntry e x).calResults = s.calResults := rfl
@[simp] theorem setCalEntry_bankA (e : CalEntry) (x : Coefficients) : (s.setCalEntry e x).bankA = s.bankA := rfl
@[simp] theorem setCalEntry_bankB (e : CalEntry) (x : Coefficients) : (s.setCalEntry e x).bankB = s.bankB := rfl
@[simp] theorem setCalEntry_pointer (e : CalEntry) (x : Coefficients) : (s.setCalEntry e x).pointer = s.pointer := rfl
@[simp] theorem setCalEntry_save (e : CalEntry) (x : Coefficients) : (s.setCalEntry e x).save = s.save := rfl
@[simp] theorem setCalEntry_hostPort (e : CalEntry) (x : Coefficients) : (s.setCalEntry e x).hostPort = s.hostPort := rfl
@[simp] theorem setCalEntry_maintPort (e : CalEntry) (x : Coefficients) : (s.setCalEntry e x).maintPort = s.maintPort := rfl
@[simp] theorem setCalEntry_lastServed (e : CalEntry) (x : Coefficients) : (s.setCalEntry e x).lastServed = s.lastServed := rfl
@[simp] theorem setCalEntry_maintAddress (e : CalEntry) (x : Coefficients) : (s.setCalEntry e x).maintAddress = s.maintAddress := rfl
@[simp] theorem setCalEntry_phase (e : CalEntry) (x : Coefficients) : (s.setCalEntry e x).phase = s.phase := rfl
@[simp] theorem setCalEntry_freeIndex (e : CalEntry) (x : Coefficients) : (s.setCalEntry e x).freeIndex = s.freeIndex := rfl
@[simp] theorem setCalEntry_pending (e : CalEntry) (x : Coefficients) : (s.setCalEntry e x).pending = s.pending := rfl

@[simp] theorem setCalResult_slots (e : CalEntry) (x : EntryResult) : (s.setCalResult e x).slots = s.slots := rfl
@[simp] theorem setCalResult_tagIndex (e : CalEntry) (x : EntryResult) : (s.setCalResult e x).tagIndex = s.tagIndex := rfl
@[simp] theorem setCalResult_pinClaims (e : CalEntry) (x : EntryResult) : (s.setCalResult e x).pinClaims = s.pinClaims := rfl
@[simp] theorem setCalResult_channels (e : CalEntry) (x : EntryResult) : (s.setCalResult e x).channels = s.channels := rfl
@[simp] theorem setCalResult_classes (e : CalEntry) (x : EntryResult) : (s.setCalResult e x).classes = s.classes := rfl
@[simp] theorem setCalResult_queue (e : CalEntry) (x : EntryResult) : (s.setCalResult e x).queue = s.queue := rfl
@[simp] theorem setCalResult_unit (e : CalEntry) (x : EntryResult) : (s.setCalResult e x).unit = s.unit := rfl
@[simp] theorem setCalResult_convGrant (e : CalEntry) (x : EntryResult) : (s.setCalResult e x).convGrant = s.convGrant := rfl
@[simp] theorem setCalResult_selection (e : CalEntry) (x : EntryResult) : (s.setCalResult e x).selection = s.selection := rfl
@[simp] theorem setCalResult_inFlight (e : CalEntry) (x : EntryResult) : (s.setCalResult e x).inFlight = s.inFlight := rfl
@[simp] theorem setCalResult_attention (e : CalEntry) (x : EntryResult) : (s.setCalResult e x).attention = s.attention := rfl
@[simp] theorem setCalResult_events (e : CalEntry) (x : EntryResult) : (s.setCalResult e x).events = s.events := rfl
@[simp] theorem setCalResult_calTable (e : CalEntry) (x : EntryResult) : (s.setCalResult e x).calTable = s.calTable := rfl
@[simp] theorem setCalResult_calRun (e : CalEntry) (x : EntryResult) : (s.setCalResult e x).calRun = s.calRun := rfl
@[simp] theorem setCalResult_calResults (e : CalEntry) (x : EntryResult) : (s.setCalResult e x).calResults = put s.calResults e.place x := rfl
@[simp] theorem setCalResult_bankA (e : CalEntry) (x : EntryResult) : (s.setCalResult e x).bankA = s.bankA := rfl
@[simp] theorem setCalResult_bankB (e : CalEntry) (x : EntryResult) : (s.setCalResult e x).bankB = s.bankB := rfl
@[simp] theorem setCalResult_pointer (e : CalEntry) (x : EntryResult) : (s.setCalResult e x).pointer = s.pointer := rfl
@[simp] theorem setCalResult_save (e : CalEntry) (x : EntryResult) : (s.setCalResult e x).save = s.save := rfl
@[simp] theorem setCalResult_hostPort (e : CalEntry) (x : EntryResult) : (s.setCalResult e x).hostPort = s.hostPort := rfl
@[simp] theorem setCalResult_maintPort (e : CalEntry) (x : EntryResult) : (s.setCalResult e x).maintPort = s.maintPort := rfl
@[simp] theorem setCalResult_lastServed (e : CalEntry) (x : EntryResult) : (s.setCalResult e x).lastServed = s.lastServed := rfl
@[simp] theorem setCalResult_maintAddress (e : CalEntry) (x : EntryResult) : (s.setCalResult e x).maintAddress = s.maintAddress := rfl
@[simp] theorem setCalResult_phase (e : CalEntry) (x : EntryResult) : (s.setCalResult e x).phase = s.phase := rfl
@[simp] theorem setCalResult_freeIndex (e : CalEntry) (x : EntryResult) : (s.setCalResult e x).freeIndex = s.freeIndex := rfl
@[simp] theorem setCalResult_pending (e : CalEntry) (x : EntryResult) : (s.setCalResult e x).pending = s.pending := rfl

@[simp] theorem setUnderCal_slots (c : ChannelId) (b : Bool) : (s.setUnderCal c b).slots = s.slots := rfl
@[simp] theorem setUnderCal_tagIndex (c : ChannelId) (b : Bool) : (s.setUnderCal c b).tagIndex = s.tagIndex := rfl
@[simp] theorem setUnderCal_pinClaims (c : ChannelId) (b : Bool) : (s.setUnderCal c b).pinClaims = s.pinClaims := rfl
@[simp] theorem setUnderCal_channels (c : ChannelId) (b : Bool) : (s.setUnderCal c b).channels = put s.channels c { s.channel c with underCal := b } := rfl
@[simp] theorem setUnderCal_classes (c : ChannelId) (b : Bool) : (s.setUnderCal c b).classes = s.classes := rfl
@[simp] theorem setUnderCal_queue (c : ChannelId) (b : Bool) : (s.setUnderCal c b).queue = s.queue := rfl
@[simp] theorem setUnderCal_unit (c : ChannelId) (b : Bool) : (s.setUnderCal c b).unit = s.unit := rfl
@[simp] theorem setUnderCal_convGrant (c : ChannelId) (b : Bool) : (s.setUnderCal c b).convGrant = s.convGrant := rfl
@[simp] theorem setUnderCal_selection (c : ChannelId) (b : Bool) : (s.setUnderCal c b).selection = s.selection := rfl
@[simp] theorem setUnderCal_inFlight (c : ChannelId) (b : Bool) : (s.setUnderCal c b).inFlight = s.inFlight := rfl
@[simp] theorem setUnderCal_attention (c : ChannelId) (b : Bool) : (s.setUnderCal c b).attention = s.attention := rfl
@[simp] theorem setUnderCal_events (c : ChannelId) (b : Bool) : (s.setUnderCal c b).events = s.events := rfl
@[simp] theorem setUnderCal_calTable (c : ChannelId) (b : Bool) : (s.setUnderCal c b).calTable = s.calTable := rfl
@[simp] theorem setUnderCal_calRun (c : ChannelId) (b : Bool) : (s.setUnderCal c b).calRun = s.calRun := rfl
@[simp] theorem setUnderCal_calResults (c : ChannelId) (b : Bool) : (s.setUnderCal c b).calResults = s.calResults := rfl
@[simp] theorem setUnderCal_bankA (c : ChannelId) (b : Bool) : (s.setUnderCal c b).bankA = s.bankA := rfl
@[simp] theorem setUnderCal_bankB (c : ChannelId) (b : Bool) : (s.setUnderCal c b).bankB = s.bankB := rfl
@[simp] theorem setUnderCal_pointer (c : ChannelId) (b : Bool) : (s.setUnderCal c b).pointer = s.pointer := rfl
@[simp] theorem setUnderCal_save (c : ChannelId) (b : Bool) : (s.setUnderCal c b).save = s.save := rfl
@[simp] theorem setUnderCal_hostPort (c : ChannelId) (b : Bool) : (s.setUnderCal c b).hostPort = s.hostPort := rfl
@[simp] theorem setUnderCal_maintPort (c : ChannelId) (b : Bool) : (s.setUnderCal c b).maintPort = s.maintPort := rfl
@[simp] theorem setUnderCal_lastServed (c : ChannelId) (b : Bool) : (s.setUnderCal c b).lastServed = s.lastServed := rfl
@[simp] theorem setUnderCal_maintAddress (c : ChannelId) (b : Bool) : (s.setUnderCal c b).maintAddress = s.maintAddress := rfl
@[simp] theorem setUnderCal_phase (c : ChannelId) (b : Bool) : (s.setUnderCal c b).phase = s.phase := rfl
@[simp] theorem setUnderCal_freeIndex (c : ChannelId) (b : Bool) : (s.setUnderCal c b).freeIndex = s.freeIndex := rfl
@[simp] theorem setUnderCal_pending (c : ChannelId) (b : Bool) : (s.setUnderCal c b).pending = s.pending := rfl

@[simp] theorem lowerOutstanding_slots (c : ClassId) : (s.lowerOutstanding c).slots = s.slots := rfl
@[simp] theorem lowerOutstanding_tagIndex (c : ClassId) : (s.lowerOutstanding c).tagIndex = s.tagIndex := rfl
@[simp] theorem lowerOutstanding_pinClaims (c : ClassId) : (s.lowerOutstanding c).pinClaims = s.pinClaims := rfl
@[simp] theorem lowerOutstanding_channels (c : ClassId) : (s.lowerOutstanding c).channels = s.channels := rfl
@[simp] theorem lowerOutstanding_classes (c : ClassId) : (s.lowerOutstanding c).classes = put s.classes c { s.scanClass c with outstanding := (s.scanClass c).outstanding - 1 } := rfl
@[simp] theorem lowerOutstanding_queue (c : ClassId) : (s.lowerOutstanding c).queue = s.queue := rfl
@[simp] theorem lowerOutstanding_unit (c : ClassId) : (s.lowerOutstanding c).unit = s.unit := rfl
@[simp] theorem lowerOutstanding_convGrant (c : ClassId) : (s.lowerOutstanding c).convGrant = s.convGrant := rfl
@[simp] theorem lowerOutstanding_selection (c : ClassId) : (s.lowerOutstanding c).selection = s.selection := rfl
@[simp] theorem lowerOutstanding_inFlight (c : ClassId) : (s.lowerOutstanding c).inFlight = s.inFlight := rfl
@[simp] theorem lowerOutstanding_attention (c : ClassId) : (s.lowerOutstanding c).attention = s.attention := rfl
@[simp] theorem lowerOutstanding_events (c : ClassId) : (s.lowerOutstanding c).events = s.events := rfl
@[simp] theorem lowerOutstanding_calTable (c : ClassId) : (s.lowerOutstanding c).calTable = s.calTable := rfl
@[simp] theorem lowerOutstanding_calRun (c : ClassId) : (s.lowerOutstanding c).calRun = s.calRun := rfl
@[simp] theorem lowerOutstanding_calResults (c : ClassId) : (s.lowerOutstanding c).calResults = s.calResults := rfl
@[simp] theorem lowerOutstanding_bankA (c : ClassId) : (s.lowerOutstanding c).bankA = s.bankA := rfl
@[simp] theorem lowerOutstanding_bankB (c : ClassId) : (s.lowerOutstanding c).bankB = s.bankB := rfl
@[simp] theorem lowerOutstanding_pointer (c : ClassId) : (s.lowerOutstanding c).pointer = s.pointer := rfl
@[simp] theorem lowerOutstanding_save (c : ClassId) : (s.lowerOutstanding c).save = s.save := rfl
@[simp] theorem lowerOutstanding_hostPort (c : ClassId) : (s.lowerOutstanding c).hostPort = s.hostPort := rfl
@[simp] theorem lowerOutstanding_maintPort (c : ClassId) : (s.lowerOutstanding c).maintPort = s.maintPort := rfl
@[simp] theorem lowerOutstanding_lastServed (c : ClassId) : (s.lowerOutstanding c).lastServed = s.lastServed := rfl
@[simp] theorem lowerOutstanding_maintAddress (c : ClassId) : (s.lowerOutstanding c).maintAddress = s.maintAddress := rfl
@[simp] theorem lowerOutstanding_phase (c : ClassId) : (s.lowerOutstanding c).phase = s.phase := rfl
@[simp] theorem lowerOutstanding_freeIndex (c : ClassId) : (s.lowerOutstanding c).freeIndex = s.freeIndex := rfl
@[simp] theorem lowerOutstanding_pending (c : ClassId) : (s.lowerOutstanding c).pending = s.pending := rfl

@[simp] theorem unlist_slots (i : SlotId) : (s.unlist i).slots = s.slots := rfl
@[simp] theorem unlist_tagIndex (i : SlotId) : (s.unlist i).tagIndex = s.tagIndex := rfl
@[simp] theorem unlist_pinClaims (i : SlotId) : (s.unlist i).pinClaims = s.pinClaims := rfl
@[simp] theorem unlist_channels (i : SlotId) : (s.unlist i).channels = s.channels := rfl
@[simp] theorem unlist_classes (i : SlotId) : (s.unlist i).classes = s.classes := rfl
@[simp] theorem unlist_queue (i : SlotId) : (s.unlist i).queue = s.queue := rfl
@[simp] theorem unlist_unit (i : SlotId) : (s.unlist i).unit = s.unit := rfl
@[simp] theorem unlist_convGrant (i : SlotId) : (s.unlist i).convGrant = s.convGrant := rfl
@[simp] theorem unlist_selection (i : SlotId) : (s.unlist i).selection = s.selection := rfl
@[simp] theorem unlist_inFlight (i : SlotId) : (s.unlist i).inFlight = s.inFlight := rfl
@[simp] theorem unlist_attention (i : SlotId) : (s.unlist i).attention = s.attention.filter (fun e => e.slot != i) := rfl
@[simp] theorem unlist_events (i : SlotId) : (s.unlist i).events = s.events := rfl
@[simp] theorem unlist_calTable (i : SlotId) : (s.unlist i).calTable = s.calTable := rfl
@[simp] theorem unlist_calRun (i : SlotId) : (s.unlist i).calRun = s.calRun := rfl
@[simp] theorem unlist_calResults (i : SlotId) : (s.unlist i).calResults = s.calResults := rfl
@[simp] theorem unlist_bankA (i : SlotId) : (s.unlist i).bankA = s.bankA := rfl
@[simp] theorem unlist_bankB (i : SlotId) : (s.unlist i).bankB = s.bankB := rfl
@[simp] theorem unlist_pointer (i : SlotId) : (s.unlist i).pointer = s.pointer := rfl
@[simp] theorem unlist_save (i : SlotId) : (s.unlist i).save = s.save := rfl
@[simp] theorem unlist_hostPort (i : SlotId) : (s.unlist i).hostPort = s.hostPort := rfl
@[simp] theorem unlist_maintPort (i : SlotId) : (s.unlist i).maintPort = s.maintPort := rfl
@[simp] theorem unlist_lastServed (i : SlotId) : (s.unlist i).lastServed = s.lastServed := rfl
@[simp] theorem unlist_maintAddress (i : SlotId) : (s.unlist i).maintAddress = s.maintAddress := rfl
@[simp] theorem unlist_phase (i : SlotId) : (s.unlist i).phase = s.phase := rfl
@[simp] theorem unlist_freeIndex (i : SlotId) : (s.unlist i).freeIndex = s.freeIndex := rfl
@[simp] theorem unlist_pending (i : SlotId) : (s.unlist i).pending = s.pending := rfl

@[simp] theorem supersede_slots (i : SlotId) : (s.supersede i).slots = s.slots := rfl
@[simp] theorem supersede_tagIndex (i : SlotId) : (s.supersede i).tagIndex = s.tagIndex := rfl
@[simp] theorem supersede_pinClaims (i : SlotId) : (s.supersede i).pinClaims = s.pinClaims := rfl
@[simp] theorem supersede_channels (i : SlotId) : (s.supersede i).channels = s.channels := rfl
@[simp] theorem supersede_classes (i : SlotId) : (s.supersede i).classes = s.classes := rfl
@[simp] theorem supersede_queue (i : SlotId) : (s.supersede i).queue = s.queue := rfl
@[simp] theorem supersede_unit (i : SlotId) : (s.supersede i).unit = s.unit := rfl
@[simp] theorem supersede_convGrant (i : SlotId) : (s.supersede i).convGrant = s.convGrant := rfl
@[simp] theorem supersede_selection (i : SlotId) : (s.supersede i).selection = s.selection := rfl
@[simp] theorem supersede_inFlight (i : SlotId) : (s.supersede i).inFlight = s.inFlight.map (fun c => if c.slot = i then { c with superseded := true } else c) := rfl
@[simp] theorem supersede_attention (i : SlotId) : (s.supersede i).attention = s.attention := rfl
@[simp] theorem supersede_events (i : SlotId) : (s.supersede i).events = s.events := rfl
@[simp] theorem supersede_calTable (i : SlotId) : (s.supersede i).calTable = s.calTable := rfl
@[simp] theorem supersede_calRun (i : SlotId) : (s.supersede i).calRun = s.calRun := rfl
@[simp] theorem supersede_calResults (i : SlotId) : (s.supersede i).calResults = s.calResults := rfl
@[simp] theorem supersede_bankA (i : SlotId) : (s.supersede i).bankA = s.bankA := rfl
@[simp] theorem supersede_bankB (i : SlotId) : (s.supersede i).bankB = s.bankB := rfl
@[simp] theorem supersede_pointer (i : SlotId) : (s.supersede i).pointer = s.pointer := rfl
@[simp] theorem supersede_save (i : SlotId) : (s.supersede i).save = s.save := rfl
@[simp] theorem supersede_hostPort (i : SlotId) : (s.supersede i).hostPort = s.hostPort := rfl
@[simp] theorem supersede_maintPort (i : SlotId) : (s.supersede i).maintPort = s.maintPort := rfl
@[simp] theorem supersede_lastServed (i : SlotId) : (s.supersede i).lastServed = s.lastServed := rfl
@[simp] theorem supersede_maintAddress (i : SlotId) : (s.supersede i).maintAddress = s.maintAddress := rfl
@[simp] theorem supersede_phase (i : SlotId) : (s.supersede i).phase = s.phase := rfl
@[simp] theorem supersede_freeIndex (i : SlotId) : (s.supersede i).freeIndex = s.freeIndex := rfl
@[simp] theorem supersede_pending (i : SlotId) : (s.supersede i).pending = s.pending := rfl

@[simp] theorem raiseCalDone_slots (o : RunOutcome) : (s.raiseCalDone o).slots = s.slots := rfl
@[simp] theorem raiseCalDone_tagIndex (o : RunOutcome) : (s.raiseCalDone o).tagIndex = s.tagIndex := rfl
@[simp] theorem raiseCalDone_pinClaims (o : RunOutcome) : (s.raiseCalDone o).pinClaims = s.pinClaims := rfl
@[simp] theorem raiseCalDone_channels (o : RunOutcome) : (s.raiseCalDone o).channels = s.channels := rfl
@[simp] theorem raiseCalDone_classes (o : RunOutcome) : (s.raiseCalDone o).classes = s.classes := rfl
@[simp] theorem raiseCalDone_queue (o : RunOutcome) : (s.raiseCalDone o).queue = s.queue := rfl
@[simp] theorem raiseCalDone_unit (o : RunOutcome) : (s.raiseCalDone o).unit = s.unit := rfl
@[simp] theorem raiseCalDone_convGrant (o : RunOutcome) : (s.raiseCalDone o).convGrant = s.convGrant := rfl
@[simp] theorem raiseCalDone_selection (o : RunOutcome) : (s.raiseCalDone o).selection = s.selection := rfl
@[simp] theorem raiseCalDone_inFlight (o : RunOutcome) : (s.raiseCalDone o).inFlight = s.inFlight := rfl
@[simp] theorem raiseCalDone_attention (o : RunOutcome) : (s.raiseCalDone o).attention = s.attention := rfl
@[simp] theorem raiseCalDone_events (o : RunOutcome) : (s.raiseCalDone o).events = { s.events with calDone := some ⟨o, s.calResults⟩ } := rfl
@[simp] theorem raiseCalDone_calTable (o : RunOutcome) : (s.raiseCalDone o).calTable = s.calTable := rfl
@[simp] theorem raiseCalDone_calRun (o : RunOutcome) : (s.raiseCalDone o).calRun = s.calRun := rfl
@[simp] theorem raiseCalDone_calResults (o : RunOutcome) : (s.raiseCalDone o).calResults = s.calResults := rfl
@[simp] theorem raiseCalDone_bankA (o : RunOutcome) : (s.raiseCalDone o).bankA = s.bankA := rfl
@[simp] theorem raiseCalDone_bankB (o : RunOutcome) : (s.raiseCalDone o).bankB = s.bankB := rfl
@[simp] theorem raiseCalDone_pointer (o : RunOutcome) : (s.raiseCalDone o).pointer = s.pointer := rfl
@[simp] theorem raiseCalDone_save (o : RunOutcome) : (s.raiseCalDone o).save = s.save := rfl
@[simp] theorem raiseCalDone_hostPort (o : RunOutcome) : (s.raiseCalDone o).hostPort = s.hostPort := rfl
@[simp] theorem raiseCalDone_maintPort (o : RunOutcome) : (s.raiseCalDone o).maintPort = s.maintPort := rfl
@[simp] theorem raiseCalDone_lastServed (o : RunOutcome) : (s.raiseCalDone o).lastServed = s.lastServed := rfl
@[simp] theorem raiseCalDone_maintAddress (o : RunOutcome) : (s.raiseCalDone o).maintAddress = s.maintAddress := rfl
@[simp] theorem raiseCalDone_phase (o : RunOutcome) : (s.raiseCalDone o).phase = s.phase := rfl
@[simp] theorem raiseCalDone_freeIndex (o : RunOutcome) : (s.raiseCalDone o).freeIndex = s.freeIndex := rfl
@[simp] theorem raiseCalDone_pending (o : RunOutcome) : (s.raiseCalDone o).pending = s.pending := rfl

@[simp] theorem raiseSaveDone_slots (r : SaveResult) : (s.raiseSaveDone r).slots = s.slots := rfl
@[simp] theorem raiseSaveDone_tagIndex (r : SaveResult) : (s.raiseSaveDone r).tagIndex = s.tagIndex := rfl
@[simp] theorem raiseSaveDone_pinClaims (r : SaveResult) : (s.raiseSaveDone r).pinClaims = s.pinClaims := rfl
@[simp] theorem raiseSaveDone_channels (r : SaveResult) : (s.raiseSaveDone r).channels = s.channels := rfl
@[simp] theorem raiseSaveDone_classes (r : SaveResult) : (s.raiseSaveDone r).classes = s.classes := rfl
@[simp] theorem raiseSaveDone_queue (r : SaveResult) : (s.raiseSaveDone r).queue = s.queue := rfl
@[simp] theorem raiseSaveDone_unit (r : SaveResult) : (s.raiseSaveDone r).unit = s.unit := rfl
@[simp] theorem raiseSaveDone_convGrant (r : SaveResult) : (s.raiseSaveDone r).convGrant = s.convGrant := rfl
@[simp] theorem raiseSaveDone_selection (r : SaveResult) : (s.raiseSaveDone r).selection = s.selection := rfl
@[simp] theorem raiseSaveDone_inFlight (r : SaveResult) : (s.raiseSaveDone r).inFlight = s.inFlight := rfl
@[simp] theorem raiseSaveDone_attention (r : SaveResult) : (s.raiseSaveDone r).attention = s.attention := rfl
@[simp] theorem raiseSaveDone_events (r : SaveResult) : (s.raiseSaveDone r).events = { s.events with saveDone := some r } := rfl
@[simp] theorem raiseSaveDone_calTable (r : SaveResult) : (s.raiseSaveDone r).calTable = s.calTable := rfl
@[simp] theorem raiseSaveDone_calRun (r : SaveResult) : (s.raiseSaveDone r).calRun = s.calRun := rfl
@[simp] theorem raiseSaveDone_calResults (r : SaveResult) : (s.raiseSaveDone r).calResults = s.calResults := rfl
@[simp] theorem raiseSaveDone_bankA (r : SaveResult) : (s.raiseSaveDone r).bankA = s.bankA := rfl
@[simp] theorem raiseSaveDone_bankB (r : SaveResult) : (s.raiseSaveDone r).bankB = s.bankB := rfl
@[simp] theorem raiseSaveDone_pointer (r : SaveResult) : (s.raiseSaveDone r).pointer = s.pointer := rfl
@[simp] theorem raiseSaveDone_save (r : SaveResult) : (s.raiseSaveDone r).save = s.save := rfl
@[simp] theorem raiseSaveDone_hostPort (r : SaveResult) : (s.raiseSaveDone r).hostPort = s.hostPort := rfl
@[simp] theorem raiseSaveDone_maintPort (r : SaveResult) : (s.raiseSaveDone r).maintPort = s.maintPort := rfl
@[simp] theorem raiseSaveDone_lastServed (r : SaveResult) : (s.raiseSaveDone r).lastServed = s.lastServed := rfl
@[simp] theorem raiseSaveDone_maintAddress (r : SaveResult) : (s.raiseSaveDone r).maintAddress = s.maintAddress := rfl
@[simp] theorem raiseSaveDone_phase (r : SaveResult) : (s.raiseSaveDone r).phase = s.phase := rfl
@[simp] theorem raiseSaveDone_freeIndex (r : SaveResult) : (s.raiseSaveDone r).freeIndex = s.freeIndex := rfl
@[simp] theorem raiseSaveDone_pending (r : SaveResult) : (s.raiseSaveDone r).pending = s.pending := rfl

@[simp] theorem setBank_slots (n : BankName) (x : Bank) : (s.setBank n x).slots = s.slots := by cases n <;> rfl
@[simp] theorem setBank_tagIndex (n : BankName) (x : Bank) : (s.setBank n x).tagIndex = s.tagIndex := by cases n <;> rfl
@[simp] theorem setBank_pinClaims (n : BankName) (x : Bank) : (s.setBank n x).pinClaims = s.pinClaims := by cases n <;> rfl
@[simp] theorem setBank_channels (n : BankName) (x : Bank) : (s.setBank n x).channels = s.channels := by cases n <;> rfl
@[simp] theorem setBank_classes (n : BankName) (x : Bank) : (s.setBank n x).classes = s.classes := by cases n <;> rfl
@[simp] theorem setBank_queue (n : BankName) (x : Bank) : (s.setBank n x).queue = s.queue := by cases n <;> rfl
@[simp] theorem setBank_unit (n : BankName) (x : Bank) : (s.setBank n x).unit = s.unit := by cases n <;> rfl
@[simp] theorem setBank_convGrant (n : BankName) (x : Bank) : (s.setBank n x).convGrant = s.convGrant := by cases n <;> rfl
@[simp] theorem setBank_selection (n : BankName) (x : Bank) : (s.setBank n x).selection = s.selection := by cases n <;> rfl
@[simp] theorem setBank_inFlight (n : BankName) (x : Bank) : (s.setBank n x).inFlight = s.inFlight := by cases n <;> rfl
@[simp] theorem setBank_attention (n : BankName) (x : Bank) : (s.setBank n x).attention = s.attention := by cases n <;> rfl
@[simp] theorem setBank_events (n : BankName) (x : Bank) : (s.setBank n x).events = s.events := by cases n <;> rfl
@[simp] theorem setBank_calTable (n : BankName) (x : Bank) : (s.setBank n x).calTable = s.calTable := by cases n <;> rfl
@[simp] theorem setBank_calRun (n : BankName) (x : Bank) : (s.setBank n x).calRun = s.calRun := by cases n <;> rfl
@[simp] theorem setBank_calResults (n : BankName) (x : Bank) : (s.setBank n x).calResults = s.calResults := by cases n <;> rfl
@[simp] theorem setBank_pointer (n : BankName) (x : Bank) : (s.setBank n x).pointer = s.pointer := by cases n <;> rfl
@[simp] theorem setBank_save (n : BankName) (x : Bank) : (s.setBank n x).save = s.save := by cases n <;> rfl
@[simp] theorem setBank_hostPort (n : BankName) (x : Bank) : (s.setBank n x).hostPort = s.hostPort := by cases n <;> rfl
@[simp] theorem setBank_maintPort (n : BankName) (x : Bank) : (s.setBank n x).maintPort = s.maintPort := by cases n <;> rfl
@[simp] theorem setBank_lastServed (n : BankName) (x : Bank) : (s.setBank n x).lastServed = s.lastServed := by cases n <;> rfl
@[simp] theorem setBank_maintAddress (n : BankName) (x : Bank) : (s.setBank n x).maintAddress = s.maintAddress := by cases n <;> rfl
@[simp] theorem setBank_phase (n : BankName) (x : Bank) : (s.setBank n x).phase = s.phase := by cases n <;> rfl
@[simp] theorem setBank_freeIndex (n : BankName) (x : Bank) : (s.setBank n x).freeIndex = s.freeIndex := by cases n <;> rfl
@[simp] theorem setBank_pending (n : BankName) (x : Bank) : (s.setBank n x).pending = s.pending := by cases n <;> rfl

@[simp] theorem setPort_slots (p : Port) (x : PortState) : (s.setPort p x).slots = s.slots := by cases p <;> rfl
@[simp] theorem setPort_tagIndex (p : Port) (x : PortState) : (s.setPort p x).tagIndex = s.tagIndex := by cases p <;> rfl
@[simp] theorem setPort_pinClaims (p : Port) (x : PortState) : (s.setPort p x).pinClaims = s.pinClaims := by cases p <;> rfl
@[simp] theorem setPort_channels (p : Port) (x : PortState) : (s.setPort p x).channels = s.channels := by cases p <;> rfl
@[simp] theorem setPort_classes (p : Port) (x : PortState) : (s.setPort p x).classes = s.classes := by cases p <;> rfl
@[simp] theorem setPort_queue (p : Port) (x : PortState) : (s.setPort p x).queue = s.queue := by cases p <;> rfl
@[simp] theorem setPort_unit (p : Port) (x : PortState) : (s.setPort p x).unit = s.unit := by cases p <;> rfl
@[simp] theorem setPort_convGrant (p : Port) (x : PortState) : (s.setPort p x).convGrant = s.convGrant := by cases p <;> rfl
@[simp] theorem setPort_selection (p : Port) (x : PortState) : (s.setPort p x).selection = s.selection := by cases p <;> rfl
@[simp] theorem setPort_inFlight (p : Port) (x : PortState) : (s.setPort p x).inFlight = s.inFlight := by cases p <;> rfl
@[simp] theorem setPort_attention (p : Port) (x : PortState) : (s.setPort p x).attention = s.attention := by cases p <;> rfl
@[simp] theorem setPort_events (p : Port) (x : PortState) : (s.setPort p x).events = s.events := by cases p <;> rfl
@[simp] theorem setPort_calTable (p : Port) (x : PortState) : (s.setPort p x).calTable = s.calTable := by cases p <;> rfl
@[simp] theorem setPort_calRun (p : Port) (x : PortState) : (s.setPort p x).calRun = s.calRun := by cases p <;> rfl
@[simp] theorem setPort_calResults (p : Port) (x : PortState) : (s.setPort p x).calResults = s.calResults := by cases p <;> rfl
@[simp] theorem setPort_bankA (p : Port) (x : PortState) : (s.setPort p x).bankA = s.bankA := by cases p <;> rfl
@[simp] theorem setPort_bankB (p : Port) (x : PortState) : (s.setPort p x).bankB = s.bankB := by cases p <;> rfl
@[simp] theorem setPort_pointer (p : Port) (x : PortState) : (s.setPort p x).pointer = s.pointer := by cases p <;> rfl
@[simp] theorem setPort_save (p : Port) (x : PortState) : (s.setPort p x).save = s.save := by cases p <;> rfl
@[simp] theorem setPort_lastServed (p : Port) (x : PortState) : (s.setPort p x).lastServed = s.lastServed := by cases p <;> rfl
@[simp] theorem setPort_maintAddress (p : Port) (x : PortState) : (s.setPort p x).maintAddress = s.maintAddress := by cases p <;> rfl
@[simp] theorem setPort_phase (p : Port) (x : PortState) : (s.setPort p x).phase = s.phase := by cases p <;> rfl
@[simp] theorem setPort_freeIndex (p : Port) (x : PortState) : (s.setPort p x).freeIndex = s.freeIndex := by cases p <;> rfl
@[simp] theorem setPort_pending (p : Port) (x : PortState) : (s.setPort p x).pending = s.pending := by cases p <;> rfl

@[simp] theorem placeResponse_slots (p : Port) (f : List Byte) : (s.placeResponse p f).slots = s.slots := by cases p <;> rfl
@[simp] theorem placeResponse_tagIndex (p : Port) (f : List Byte) : (s.placeResponse p f).tagIndex = s.tagIndex := by cases p <;> rfl
@[simp] theorem placeResponse_pinClaims (p : Port) (f : List Byte) : (s.placeResponse p f).pinClaims = s.pinClaims := by cases p <;> rfl
@[simp] theorem placeResponse_channels (p : Port) (f : List Byte) : (s.placeResponse p f).channels = s.channels := by cases p <;> rfl
@[simp] theorem placeResponse_classes (p : Port) (f : List Byte) : (s.placeResponse p f).classes = s.classes := by cases p <;> rfl
@[simp] theorem placeResponse_queue (p : Port) (f : List Byte) : (s.placeResponse p f).queue = s.queue := by cases p <;> rfl
@[simp] theorem placeResponse_unit (p : Port) (f : List Byte) : (s.placeResponse p f).unit = s.unit := by cases p <;> rfl
@[simp] theorem placeResponse_convGrant (p : Port) (f : List Byte) : (s.placeResponse p f).convGrant = s.convGrant := by cases p <;> rfl
@[simp] theorem placeResponse_selection (p : Port) (f : List Byte) : (s.placeResponse p f).selection = s.selection := by cases p <;> rfl
@[simp] theorem placeResponse_inFlight (p : Port) (f : List Byte) : (s.placeResponse p f).inFlight = s.inFlight := by cases p <;> rfl
@[simp] theorem placeResponse_attention (p : Port) (f : List Byte) : (s.placeResponse p f).attention = s.attention := by cases p <;> rfl
@[simp] theorem placeResponse_events (p : Port) (f : List Byte) : (s.placeResponse p f).events = s.events := by cases p <;> rfl
@[simp] theorem placeResponse_calTable (p : Port) (f : List Byte) : (s.placeResponse p f).calTable = s.calTable := by cases p <;> rfl
@[simp] theorem placeResponse_calRun (p : Port) (f : List Byte) : (s.placeResponse p f).calRun = s.calRun := by cases p <;> rfl
@[simp] theorem placeResponse_calResults (p : Port) (f : List Byte) : (s.placeResponse p f).calResults = s.calResults := by cases p <;> rfl
@[simp] theorem placeResponse_bankA (p : Port) (f : List Byte) : (s.placeResponse p f).bankA = s.bankA := by cases p <;> rfl
@[simp] theorem placeResponse_bankB (p : Port) (f : List Byte) : (s.placeResponse p f).bankB = s.bankB := by cases p <;> rfl
@[simp] theorem placeResponse_pointer (p : Port) (f : List Byte) : (s.placeResponse p f).pointer = s.pointer := by cases p <;> rfl
@[simp] theorem placeResponse_save (p : Port) (f : List Byte) : (s.placeResponse p f).save = s.save := by cases p <;> rfl
@[simp] theorem placeResponse_maintAddress (p : Port) (f : List Byte) : (s.placeResponse p f).maintAddress = s.maintAddress := by cases p <;> rfl
@[simp] theorem placeResponse_phase (p : Port) (f : List Byte) : (s.placeResponse p f).phase = s.phase := by cases p <;> rfl
@[simp] theorem placeResponse_freeIndex (p : Port) (f : List Byte) : (s.placeResponse p f).freeIndex = s.freeIndex := by cases p <;> rfl
@[simp] theorem placeResponse_pending (p : Port) (f : List Byte) : (s.placeResponse p f).pending = s.pending := by cases p <;> rfl
@[simp] theorem placeResponse_lastServed (p : Port) (f : List Byte) : (s.placeResponse p f).lastServed = p := by cases p <;> rfl

@[simp] theorem raise_slots (i : SlotId) (r : Reasons) : (s.raise i r).slots = s.slots := by unfold State.raise; split <;> rfl
@[simp] theorem raise_tagIndex (i : SlotId) (r : Reasons) : (s.raise i r).tagIndex = s.tagIndex := by unfold State.raise; split <;> rfl
@[simp] theorem raise_pinClaims (i : SlotId) (r : Reasons) : (s.raise i r).pinClaims = s.pinClaims := by unfold State.raise; split <;> rfl
@[simp] theorem raise_channels (i : SlotId) (r : Reasons) : (s.raise i r).channels = s.channels := by unfold State.raise; split <;> rfl
@[simp] theorem raise_classes (i : SlotId) (r : Reasons) : (s.raise i r).classes = s.classes := by unfold State.raise; split <;> rfl
@[simp] theorem raise_queue (i : SlotId) (r : Reasons) : (s.raise i r).queue = s.queue := by unfold State.raise; split <;> rfl
@[simp] theorem raise_unit (i : SlotId) (r : Reasons) : (s.raise i r).unit = s.unit := by unfold State.raise; split <;> rfl
@[simp] theorem raise_convGrant (i : SlotId) (r : Reasons) : (s.raise i r).convGrant = s.convGrant := by unfold State.raise; split <;> rfl
@[simp] theorem raise_selection (i : SlotId) (r : Reasons) : (s.raise i r).selection = s.selection := by unfold State.raise; split <;> rfl
@[simp] theorem raise_inFlight (i : SlotId) (r : Reasons) : (s.raise i r).inFlight = s.inFlight := by unfold State.raise; split <;> rfl
@[simp] theorem raise_events (i : SlotId) (r : Reasons) : (s.raise i r).events = s.events := by unfold State.raise; split <;> rfl
@[simp] theorem raise_calTable (i : SlotId) (r : Reasons) : (s.raise i r).calTable = s.calTable := by unfold State.raise; split <;> rfl
@[simp] theorem raise_calRun (i : SlotId) (r : Reasons) : (s.raise i r).calRun = s.calRun := by unfold State.raise; split <;> rfl
@[simp] theorem raise_calResults (i : SlotId) (r : Reasons) : (s.raise i r).calResults = s.calResults := by unfold State.raise; split <;> rfl
@[simp] theorem raise_bankA (i : SlotId) (r : Reasons) : (s.raise i r).bankA = s.bankA := by unfold State.raise; split <;> rfl
@[simp] theorem raise_bankB (i : SlotId) (r : Reasons) : (s.raise i r).bankB = s.bankB := by unfold State.raise; split <;> rfl
@[simp] theorem raise_pointer (i : SlotId) (r : Reasons) : (s.raise i r).pointer = s.pointer := by unfold State.raise; split <;> rfl
@[simp] theorem raise_save (i : SlotId) (r : Reasons) : (s.raise i r).save = s.save := by unfold State.raise; split <;> rfl
@[simp] theorem raise_hostPort (i : SlotId) (r : Reasons) : (s.raise i r).hostPort = s.hostPort := by unfold State.raise; split <;> rfl
@[simp] theorem raise_maintPort (i : SlotId) (r : Reasons) : (s.raise i r).maintPort = s.maintPort := by unfold State.raise; split <;> rfl
@[simp] theorem raise_lastServed (i : SlotId) (r : Reasons) : (s.raise i r).lastServed = s.lastServed := by unfold State.raise; split <;> rfl
@[simp] theorem raise_maintAddress (i : SlotId) (r : Reasons) : (s.raise i r).maintAddress = s.maintAddress := by unfold State.raise; split <;> rfl
@[simp] theorem raise_phase (i : SlotId) (r : Reasons) : (s.raise i r).phase = s.phase := by unfold State.raise; split <;> rfl
@[simp] theorem raise_freeIndex (i : SlotId) (r : Reasons) : (s.raise i r).freeIndex = s.freeIndex := by unfold State.raise; split <;> rfl
@[simp] theorem raise_pending (i : SlotId) (r : Reasons) : (s.raise i r).pending = s.pending := by unfold State.raise; split <;> rfl

@[simp] theorem unqueue_slots (i : SlotId) : (s.unqueue i).slots = s.slots := by unfold State.unqueue; split <;> rfl
@[simp] theorem unqueue_tagIndex (i : SlotId) : (s.unqueue i).tagIndex = s.tagIndex := by unfold State.unqueue; split <;> rfl
@[simp] theorem unqueue_pinClaims (i : SlotId) : (s.unqueue i).pinClaims = s.pinClaims := by unfold State.unqueue; split <;> rfl
@[simp] theorem unqueue_channels (i : SlotId) : (s.unqueue i).channels = s.channels := by unfold State.unqueue; split <;> rfl
@[simp] theorem unqueue_unit (i : SlotId) : (s.unqueue i).unit = s.unit := by unfold State.unqueue; split <;> rfl
@[simp] theorem unqueue_convGrant (i : SlotId) : (s.unqueue i).convGrant = s.convGrant := by unfold State.unqueue; split <;> rfl
@[simp] theorem unqueue_selection (i : SlotId) : (s.unqueue i).selection = s.selection := by unfold State.unqueue; split <;> rfl
@[simp] theorem unqueue_inFlight (i : SlotId) : (s.unqueue i).inFlight = s.inFlight := by unfold State.unqueue; split <;> rfl
@[simp] theorem unqueue_attention (i : SlotId) : (s.unqueue i).attention = s.attention := by unfold State.unqueue; split <;> rfl
@[simp] theorem unqueue_events (i : SlotId) : (s.unqueue i).events = s.events := by unfold State.unqueue; split <;> rfl
@[simp] theorem unqueue_calTable (i : SlotId) : (s.unqueue i).calTable = s.calTable := by unfold State.unqueue; split <;> rfl
@[simp] theorem unqueue_calRun (i : SlotId) : (s.unqueue i).calRun = s.calRun := by unfold State.unqueue; split <;> rfl
@[simp] theorem unqueue_calResults (i : SlotId) : (s.unqueue i).calResults = s.calResults := by unfold State.unqueue; split <;> rfl
@[simp] theorem unqueue_bankA (i : SlotId) : (s.unqueue i).bankA = s.bankA := by unfold State.unqueue; split <;> rfl
@[simp] theorem unqueue_bankB (i : SlotId) : (s.unqueue i).bankB = s.bankB := by unfold State.unqueue; split <;> rfl
@[simp] theorem unqueue_pointer (i : SlotId) : (s.unqueue i).pointer = s.pointer := by unfold State.unqueue; split <;> rfl
@[simp] theorem unqueue_save (i : SlotId) : (s.unqueue i).save = s.save := by unfold State.unqueue; split <;> rfl
@[simp] theorem unqueue_hostPort (i : SlotId) : (s.unqueue i).hostPort = s.hostPort := by unfold State.unqueue; split <;> rfl
@[simp] theorem unqueue_maintPort (i : SlotId) : (s.unqueue i).maintPort = s.maintPort := by unfold State.unqueue; split <;> rfl
@[simp] theorem unqueue_lastServed (i : SlotId) : (s.unqueue i).lastServed = s.lastServed := by unfold State.unqueue; split <;> rfl
@[simp] theorem unqueue_maintAddress (i : SlotId) : (s.unqueue i).maintAddress = s.maintAddress := by unfold State.unqueue; split <;> rfl
@[simp] theorem unqueue_phase (i : SlotId) : (s.unqueue i).phase = s.phase := by unfold State.unqueue; split <;> rfl
@[simp] theorem unqueue_freeIndex (i : SlotId) : (s.unqueue i).freeIndex = s.freeIndex := by unfold State.unqueue; split <;> rfl
@[simp] theorem unqueue_pending (i : SlotId) : (s.unqueue i).pending = s.pending := by unfold State.unqueue; split <;> rfl

@[simp] theorem freeSlot_tagIndex (i : SlotId) (r : PointRecord) : (s.freeSlot i r).tagIndex = s.tagIndex := by unfold State.freeSlot; dsimp only; split <;> rfl
@[simp] theorem freeSlot_channels (i : SlotId) (r : PointRecord) : (s.freeSlot i r).channels = s.channels := by unfold State.freeSlot; dsimp only; split <;> rfl
@[simp] theorem freeSlot_classes (i : SlotId) (r : PointRecord) : (s.freeSlot i r).classes = s.classes := by unfold State.freeSlot; dsimp only; split <;> rfl
@[simp] theorem freeSlot_queue (i : SlotId) (r : PointRecord) : (s.freeSlot i r).queue = s.queue := by unfold State.freeSlot; dsimp only; split <;> rfl
@[simp] theorem freeSlot_unit (i : SlotId) (r : PointRecord) : (s.freeSlot i r).unit = s.unit := by unfold State.freeSlot; dsimp only; split <;> rfl
@[simp] theorem freeSlot_convGrant (i : SlotId) (r : PointRecord) : (s.freeSlot i r).convGrant = s.convGrant := by unfold State.freeSlot; dsimp only; split <;> rfl
@[simp] theorem freeSlot_selection (i : SlotId) (r : PointRecord) : (s.freeSlot i r).selection = s.selection := by unfold State.freeSlot; dsimp only; split <;> rfl
@[simp] theorem freeSlot_inFlight (i : SlotId) (r : PointRecord) : (s.freeSlot i r).inFlight = s.inFlight := by unfold State.freeSlot; dsimp only; split <;> rfl
@[simp] theorem freeSlot_attention (i : SlotId) (r : PointRecord) : (s.freeSlot i r).attention = s.attention := by unfold State.freeSlot; dsimp only; split <;> rfl
@[simp] theorem freeSlot_events (i : SlotId) (r : PointRecord) : (s.freeSlot i r).events = s.events := by unfold State.freeSlot; dsimp only; split <;> rfl
@[simp] theorem freeSlot_calTable (i : SlotId) (r : PointRecord) : (s.freeSlot i r).calTable = s.calTable := by unfold State.freeSlot; dsimp only; split <;> rfl
@[simp] theorem freeSlot_calRun (i : SlotId) (r : PointRecord) : (s.freeSlot i r).calRun = s.calRun := by unfold State.freeSlot; dsimp only; split <;> rfl
@[simp] theorem freeSlot_calResults (i : SlotId) (r : PointRecord) : (s.freeSlot i r).calResults = s.calResults := by unfold State.freeSlot; dsimp only; split <;> rfl
@[simp] theorem freeSlot_bankA (i : SlotId) (r : PointRecord) : (s.freeSlot i r).bankA = s.bankA := by unfold State.freeSlot; dsimp only; split <;> rfl
@[simp] theorem freeSlot_bankB (i : SlotId) (r : PointRecord) : (s.freeSlot i r).bankB = s.bankB := by unfold State.freeSlot; dsimp only; split <;> rfl
@[simp] theorem freeSlot_pointer (i : SlotId) (r : PointRecord) : (s.freeSlot i r).pointer = s.pointer := by unfold State.freeSlot; dsimp only; split <;> rfl
@[simp] theorem freeSlot_save (i : SlotId) (r : PointRecord) : (s.freeSlot i r).save = s.save := by unfold State.freeSlot; dsimp only; split <;> rfl
@[simp] theorem freeSlot_hostPort (i : SlotId) (r : PointRecord) : (s.freeSlot i r).hostPort = s.hostPort := by unfold State.freeSlot; dsimp only; split <;> rfl
@[simp] theorem freeSlot_maintPort (i : SlotId) (r : PointRecord) : (s.freeSlot i r).maintPort = s.maintPort := by unfold State.freeSlot; dsimp only; split <;> rfl
@[simp] theorem freeSlot_lastServed (i : SlotId) (r : PointRecord) : (s.freeSlot i r).lastServed = s.lastServed := by unfold State.freeSlot; dsimp only; split <;> rfl
@[simp] theorem freeSlot_maintAddress (i : SlotId) (r : PointRecord) : (s.freeSlot i r).maintAddress = s.maintAddress := by unfold State.freeSlot; dsimp only; split <;> rfl
@[simp] theorem freeSlot_phase (i : SlotId) (r : PointRecord) : (s.freeSlot i r).phase = s.phase := by unfold State.freeSlot; dsimp only; split <;> rfl
@[simp] theorem freeSlot_freeIndex (i : SlotId) (r : PointRecord) : (s.freeSlot i r).freeIndex = s.freeIndex := by unfold State.freeSlot; dsimp only; split <;> rfl
@[simp] theorem freeSlot_pending (i : SlotId) (r : PointRecord) : (s.freeSlot i r).pending = s.pending := by unfold State.freeSlot; dsimp only; split <;> rfl
@[simp] theorem freeSlot_slots (i : SlotId) (r : PointRecord) : (s.freeSlot i r).slots = put s.slots i none := by unfold State.freeSlot; dsimp only; split <;> rfl

@[simp] theorem mapRecords_tagIndex (f : PointRecord → PointRecord) : (s.mapRecords f).tagIndex = s.tagIndex := rfl
@[simp] theorem mapRecords_pinClaims (f : PointRecord → PointRecord) : (s.mapRecords f).pinClaims = s.pinClaims := rfl
@[simp] theorem mapRecords_classes (f : PointRecord → PointRecord) : (s.mapRecords f).classes = s.classes := rfl
@[simp] theorem mapRecords_queue (f : PointRecord → PointRecord) : (s.mapRecords f).queue = s.queue := rfl
@[simp] theorem mapRecords_unit (f : PointRecord → PointRecord) : (s.mapRecords f).unit = s.unit := rfl
@[simp] theorem mapRecords_convGrant (f : PointRecord → PointRecord) : (s.mapRecords f).convGrant = s.convGrant := rfl
@[simp] theorem mapRecords_selection (f : PointRecord → PointRecord) : (s.mapRecords f).selection = s.selection := rfl
@[simp] theorem mapRecords_inFlight (f : PointRecord → PointRecord) : (s.mapRecords f).inFlight = s.inFlight := rfl
@[simp] theorem mapRecords_attention (f : PointRecord → PointRecord) : (s.mapRecords f).attention = s.attention := rfl
@[simp] theorem mapRecords_events (f : PointRecord → PointRecord) : (s.mapRecords f).events = s.events := rfl
@[simp] theorem mapRecords_calTable (f : PointRecord → PointRecord) : (s.mapRecords f).calTable = s.calTable := rfl
@[simp] theorem mapRecords_calRun (f : PointRecord → PointRecord) : (s.mapRecords f).calRun = s.calRun := rfl
@[simp] theorem mapRecords_calResults (f : PointRecord → PointRecord) : (s.mapRecords f).calResults = s.calResults := rfl
@[simp] theorem mapRecords_bankA (f : PointRecord → PointRecord) : (s.mapRecords f).bankA = s.bankA := rfl
@[simp] theorem mapRecords_bankB (f : PointRecord → PointRecord) : (s.mapRecords f).bankB = s.bankB := rfl
@[simp] theorem mapRecords_pointer (f : PointRecord → PointRecord) : (s.mapRecords f).pointer = s.pointer := rfl
@[simp] theorem mapRecords_save (f : PointRecord → PointRecord) : (s.mapRecords f).save = s.save := rfl
@[simp] theorem mapRecords_hostPort (f : PointRecord → PointRecord) : (s.mapRecords f).hostPort = s.hostPort := rfl
@[simp] theorem mapRecords_maintPort (f : PointRecord → PointRecord) : (s.mapRecords f).maintPort = s.maintPort := rfl
@[simp] theorem mapRecords_lastServed (f : PointRecord → PointRecord) : (s.mapRecords f).lastServed = s.lastServed := rfl
@[simp] theorem mapRecords_maintAddress (f : PointRecord → PointRecord) : (s.mapRecords f).maintAddress = s.maintAddress := rfl
@[simp] theorem mapRecords_phase (f : PointRecord → PointRecord) : (s.mapRecords f).phase = s.phase := rfl
@[simp] theorem mapRecords_freeIndex (f : PointRecord → PointRecord) : (s.mapRecords f).freeIndex = s.freeIndex := rfl
@[simp] theorem mapRecords_pending (f : PointRecord → PointRecord) : (s.mapRecords f).pending = s.pending := rfl
@[simp] theorem mapRecords_slots (f : PointRecord → PointRecord) : (s.mapRecords f).slots = mapTable (fun x => x.map f) s.slots := rfl

@[simp] theorem writeOutput_tagIndex (i : SlotId) (r : PointRecord) (c : OutputConfig) (k : CodePart) (d : Bool) : (s.writeOutput i r c k d).tagIndex = s.tagIndex := by unfold State.writeOutput; dsimp only; split <;> rfl
@[simp] theorem writeOutput_pinClaims (i : SlotId) (r : PointRecord) (c : OutputConfig) (k : CodePart) (d : Bool) : (s.writeOutput i r c k d).pinClaims = s.pinClaims := by unfold State.writeOutput; dsimp only; split <;> rfl
@[simp] theorem writeOutput_classes (i : SlotId) (r : PointRecord) (c : OutputConfig) (k : CodePart) (d : Bool) : (s.writeOutput i r c k d).classes = s.classes := by unfold State.writeOutput; dsimp only; split <;> rfl
@[simp] theorem writeOutput_queue (i : SlotId) (r : PointRecord) (c : OutputConfig) (k : CodePart) (d : Bool) : (s.writeOutput i r c k d).queue = s.queue := by unfold State.writeOutput; dsimp only; split <;> rfl
@[simp] theorem writeOutput_unit (i : SlotId) (r : PointRecord) (c : OutputConfig) (k : CodePart) (d : Bool) : (s.writeOutput i r c k d).unit = s.unit := by unfold State.writeOutput; dsimp only; split <;> rfl
@[simp] theorem writeOutput_convGrant (i : SlotId) (r : PointRecord) (c : OutputConfig) (k : CodePart) (d : Bool) : (s.writeOutput i r c k d).convGrant = s.convGrant := by unfold State.writeOutput; dsimp only; split <;> rfl
@[simp] theorem writeOutput_selection (i : SlotId) (r : PointRecord) (c : OutputConfig) (k : CodePart) (d : Bool) : (s.writeOutput i r c k d).selection = s.selection := by unfold State.writeOutput; dsimp only; split <;> rfl
@[simp] theorem writeOutput_inFlight (i : SlotId) (r : PointRecord) (c : OutputConfig) (k : CodePart) (d : Bool) : (s.writeOutput i r c k d).inFlight = s.inFlight := by unfold State.writeOutput; dsimp only; split <;> rfl
@[simp] theorem writeOutput_attention (i : SlotId) (r : PointRecord) (c : OutputConfig) (k : CodePart) (d : Bool) : (s.writeOutput i r c k d).attention = s.attention := by unfold State.writeOutput; dsimp only; split <;> rfl
@[simp] theorem writeOutput_events (i : SlotId) (r : PointRecord) (c : OutputConfig) (k : CodePart) (d : Bool) : (s.writeOutput i r c k d).events = s.events := by unfold State.writeOutput; dsimp only; split <;> rfl
@[simp] theorem writeOutput_calTable (i : SlotId) (r : PointRecord) (c : OutputConfig) (k : CodePart) (d : Bool) : (s.writeOutput i r c k d).calTable = s.calTable := by unfold State.writeOutput; dsimp only; split <;> rfl
@[simp] theorem writeOutput_calRun (i : SlotId) (r : PointRecord) (c : OutputConfig) (k : CodePart) (d : Bool) : (s.writeOutput i r c k d).calRun = s.calRun := by unfold State.writeOutput; dsimp only; split <;> rfl
@[simp] theorem writeOutput_calResults (i : SlotId) (r : PointRecord) (c : OutputConfig) (k : CodePart) (d : Bool) : (s.writeOutput i r c k d).calResults = s.calResults := by unfold State.writeOutput; dsimp only; split <;> rfl
@[simp] theorem writeOutput_bankA (i : SlotId) (r : PointRecord) (c : OutputConfig) (k : CodePart) (d : Bool) : (s.writeOutput i r c k d).bankA = s.bankA := by unfold State.writeOutput; dsimp only; split <;> rfl
@[simp] theorem writeOutput_bankB (i : SlotId) (r : PointRecord) (c : OutputConfig) (k : CodePart) (d : Bool) : (s.writeOutput i r c k d).bankB = s.bankB := by unfold State.writeOutput; dsimp only; split <;> rfl
@[simp] theorem writeOutput_pointer (i : SlotId) (r : PointRecord) (c : OutputConfig) (k : CodePart) (d : Bool) : (s.writeOutput i r c k d).pointer = s.pointer := by unfold State.writeOutput; dsimp only; split <;> rfl
@[simp] theorem writeOutput_save (i : SlotId) (r : PointRecord) (c : OutputConfig) (k : CodePart) (d : Bool) : (s.writeOutput i r c k d).save = s.save := by unfold State.writeOutput; dsimp only; split <;> rfl
@[simp] theorem writeOutput_hostPort (i : SlotId) (r : PointRecord) (c : OutputConfig) (k : CodePart) (d : Bool) : (s.writeOutput i r c k d).hostPort = s.hostPort := by unfold State.writeOutput; dsimp only; split <;> rfl
@[simp] theorem writeOutput_maintPort (i : SlotId) (r : PointRecord) (c : OutputConfig) (k : CodePart) (d : Bool) : (s.writeOutput i r c k d).maintPort = s.maintPort := by unfold State.writeOutput; dsimp only; split <;> rfl
@[simp] theorem writeOutput_lastServed (i : SlotId) (r : PointRecord) (c : OutputConfig) (k : CodePart) (d : Bool) : (s.writeOutput i r c k d).lastServed = s.lastServed := by unfold State.writeOutput; dsimp only; split <;> rfl
@[simp] theorem writeOutput_maintAddress (i : SlotId) (r : PointRecord) (c : OutputConfig) (k : CodePart) (d : Bool) : (s.writeOutput i r c k d).maintAddress = s.maintAddress := by unfold State.writeOutput; dsimp only; split <;> rfl
@[simp] theorem writeOutput_phase (i : SlotId) (r : PointRecord) (c : OutputConfig) (k : CodePart) (d : Bool) : (s.writeOutput i r c k d).phase = s.phase := by unfold State.writeOutput; dsimp only; split <;> rfl
@[simp] theorem writeOutput_freeIndex (i : SlotId) (r : PointRecord) (c : OutputConfig) (k : CodePart) (d : Bool) : (s.writeOutput i r c k d).freeIndex = s.freeIndex := by unfold State.writeOutput; dsimp only; split <;> rfl
@[simp] theorem writeOutput_pending (i : SlotId) (r : PointRecord) (c : OutputConfig) (k : CodePart) (d : Bool) : (s.writeOutput i r c k d).pending = s.pending := by unfold State.writeOutput; dsimp only; split <;> rfl
@[simp] theorem writeOutput_slots (i : SlotId) (r : PointRecord) (c : OutputConfig) (k : CodePart) (d : Bool) : (s.writeOutput i r c k d).slots = put s.slots i (some { r with body := .output c k }) := by unfold State.writeOutput; dsimp only; split <;> rfl

/-! ## Accessors after updates of their table -/

theorem slot_setSlot (i j : SlotId) (x : Slot) : (s.setSlot i x).slot j = if i = j then x else s.slot j := get_put _ _ _ _

@[simp] theorem slot_setSlot_self (i : SlotId) (x : Slot) : (s.setSlot i x).slot i = x := get_put_self _ _ _

theorem channel_setChannel (c d : ChannelId) (x : Channel) :
    (s.setChannel c x).channel d = if c = d then x else s.channel d := get_put _ _ _ _

@[simp] theorem channel_setChannel_self (c : ChannelId) (x : Channel) : (s.setChannel c x).channel c = x :=
  get_put_self _ _ _

theorem scanClass_setClass (c d : ClassId) (x : ScanClass) :
    (s.setClass c x).scanClass d = if c = d then x else s.scanClass d := get_put _ _ _ _

@[simp] theorem scanClass_setClass_self (c : ClassId) (x : ScanClass) : (s.setClass c x).scanClass c = x :=
  get_put_self _ _ _

@[simp] theorem bank_setBank_self (n : BankName) (x : Bank) : (s.setBank n x).bank n = x := by cases n <;> rfl

theorem bank_setBank (n m : BankName) (x : Bank) : (s.setBank n x).bank m = if n = m then x else s.bank m := by
  cases n <;> cases m <;> rfl

@[simp] theorem port_setPort_self (p : Port) (x : PortState) : (s.setPort p x).port p = x := by cases p <;> rfl

theorem port_setPort (p q : Port) (x : PortState) : (s.setPort p x).port q = if p = q then x else s.port q := by
  cases p <;> cases q <;> rfl

@[simp] theorem port_placeResponse_self (p : Port) (f : List Byte) :
    (s.placeResponse p f).port p = { s.port p with mode := .responseReady f } := by cases p <;> rfl

theorem port_placeResponse_ne {p q : Port} (f : List Byte) (h : p ≠ q) : (s.placeResponse p f).port q = s.port q := by
  cases p <;> cases q <;> first | rfl | exact absurd rfl h

theorem place_injective : Function.Injective CalEntry.place := by
  intro a b h
  cases a <;> cases b <;> simp only [CalEntry.place, Fin.mk.injEq] at h <;>
    first
    | (congr 1; exact Fin.ext (by omega))
    | omega

theorem calEntry_setCalEntry (e f : CalEntry) (x : Coefficients) :
    (s.setCalEntry e x).calEntry f = if e = f then x else s.calEntry f := by
  simp [State.calEntry, State.setCalEntry, get_put, place_injective.eq_iff]

end Sys2Proof.Machine
end

