-- ==== Sys2Proof/Laws/Requests.lean ====
section
/-! SUPPORT. What a request command does once its own checks and effects are known: every request of the nineteen is one
grant of the engine around its body. -/

namespace Sys2Proof.Machine

/-- The checks and effects of a request's own chapter. -/
def requestBody (k : RequestKind) (p : Port) (payload : List Byte) : State → Answer :=
  match k with
  | .define => requestDefine payload
  | .lookup => requestLookup payload
  | .nextTag => requestNext payload
  | .modify => requestModify payload
  | .hold => requestHold payload
  | .release => requestRelease payload
  | .retire => requestRetire payload
  | .classSet => requestClass payload
  | .read => requestRead payload
  | .peek => requestPeek payload
  | .ack => requestAck payload
  | .stage => requestStage p payload
  | .commit => requestCommit payload
  | .discard => requestDiscard payload
  | .calibrate => requestCalibrate payload
  | .calAbort => requestCalAbort payload
  | .calSave => requestCalSave payload
  | .status => requestStatus payload
  | .softReset => requestSoftReset payload

variable {s s' t : State} {p : Port} {k : RequestKind} {id : Byte} {payload bytes : List Byte} {st : Status}

/-- Every request command is one grant around its body. -/
theorem exec_requestCommand (k : RequestKind) (p : Port) (id : Byte) (payload : List Byte) (s : State) :
    exec (requestCommand k p id payload) s = .next (s.grantRequest p k id payload (requestBody k p payload)) := by
  cases k <;> rfl

theorem grantRequest_of_served {own : State → Answer} (h : Served s p k id payload) :
    s.grantRequest p k id payload own = s.respond p (requestOf k id payload) (own s) := by
  simp [State.grantRequest, h.1, h.2]

theorem grantRequest_of_denied {own : State → Answer} (h : s.serves p (requestOf k id payload) = true)
    (hd : allowedOn p k = false) :
    s.grantRequest p k id payload own = s.respond p (requestOf k id payload) (.refuse .denied []) := by
  simp [State.grantRequest, h, hd]

theorem grantRequest_of_not_serves {own : State → Answer} (h : s.serves p (requestOf k id payload) = false) :
    s.grantRequest p k id payload own = s := by
  simp [State.grantRequest, h]

/-- Placing a response changes the ports only. -/
theorem placeResponse_eq_withPorts (s : State) (p : Port) (f : List Byte) :
    s.placeResponse p f = s.withPorts (s.placeResponse p f) := by
  cases p <;> rfl

/-- A response placed in a state whose ports are those of s answers s. -/
theorem answered_placeResponse (hp : ∀ p, s'.port p = s.port p) (p : Port) (q : Request) (st : Status)
    (bytes : List Byte) : Answered s (s'.placeResponse p (responseFrame q st bytes)) p q st bytes where
  port := by simp [hp]
  other p' h := by rw [port_placeResponse_ne _ _ (Ne.symm h), hp]
  served := by simp

/-- A refused request answers and leaves everything else. -/
theorem onlyAnswers_of_refuse (h : Served s p k id payload) (hb : requestBody k p payload s = .refuse st bytes) :
    OnlyAnswers (requestCommand k p id payload) s p (requestOf k id payload) st bytes := by
  refine ⟨_, exec_requestCommand _ _ _ _ _, ?_, ?_⟩ <;> rw [grantRequest_of_served h, hb]
  · exact answered_placeResponse (fun _ => rfl) _ _ _ _
  · exact placeResponse_eq_withPorts _ _ _

/-- A request answered OK with the state left alone. -/
theorem onlyAnswers_of_done (h : Served s p k id payload) (hb : requestBody k p payload s = .done s bytes) :
    OnlyAnswers (requestCommand k p id payload) s p (requestOf k id payload) .ok bytes := by
  refine ⟨_, exec_requestCommand _ _ _ _ _, ?_, ?_⟩ <;> rw [grantRequest_of_served h, hb]
  · exact answered_placeResponse (fun _ => rfl) _ _ _ _
  · exact placeResponse_eq_withPorts _ _ _

/-- A request answered OK goes to its body's state with the response placed. -/
theorem exec_of_done (h : Served s p k id payload) (hb : requestBody k p payload s = .done s' bytes) :
    exec (requestCommand k p id payload) s =
      .next (s'.placeResponse p (responseFrame (requestOf k id payload) .ok bytes)) := by
  rw [exec_requestCommand, grantRequest_of_served h, hb]; rfl

/-- The checks of a request that names one point, passed (R18, R26). -/
theorem onPoint_of_names {n : Nat} {i : SlotId} {r : PointRecord} {f : SlotId → PointRecord → Answer}
    (h : Names s payload n i r) : s.onPoint payload n f = f i r := by
  obtain ⟨hl, h1, h2, hf⟩ := h
  rw [State.onPoint, if_neg (by simp [hl]), if_neg (by omega), hf]

/-- A point found stands in its slot. -/
theorem slot_of_findPoint {tag : Nat} {i : SlotId} {r : PointRecord} (h : s.findPoint tag = some (i, r)) :
    s.slot i = some r := by
  unfold State.findPoint at h
  split at h
  · cases h
  · simp only [Option.map_eq_some_iff, Prod.mk.injEq] at h
    obtain ⟨_, h, rfl, rfl⟩ := h
    exact h

end Sys2Proof.Machine
end

