-- ==== Sys2Proof/Laws/Ops.lean ====
section
/-! SUPPORT. For each shared operation over tables, the index, the claims, the queue, the attention and the converter,
what it does, said once. -/

namespace Sys2Proof.Machine

/-! ## Pin claims (R21, R22) -/

theorem plusPin_ne_minusPin (p : PairId) : plusPin p ≠ minusPin p := by
  simp [plusPin, minusPin, Fin.ext_iff]

/-- Giving a source back lowers the count of each of its pins by 1 and frees a pin whose count reaches 0. -/
theorem get_giveClaims (claims : Vector PinClaim 16) (src : Source) (p : PinId) :
    (giveClaims claims src).get p =
      if p ∈ src.pins then
        (if (claims.get p).count ≤ 1 then ⟨none, 0⟩ else ⟨(claims.get p).mode, (claims.get p).count - 1⟩)
      else claims.get p := by
  cases src with
  | se q =>
    simp only [giveClaims, Source.pins, List.foldl, releasePin, get_put, List.mem_singleton, PinClaim.unclaimed]
    by_cases h : q = p
    · subst h; simp
    · simp [h, Ne.symm h]
  | diff q =>
    have hne := plusPin_ne_minusPin q
    simp only [giveClaims, Source.pins, List.foldl, releasePin, get_put, List.mem_cons, List.not_mem_nil, or_false,
      PinClaim.unclaimed]
    by_cases h : plusPin q = p
    · subst h; simp [hne.symm, hne]
    · by_cases h' : minusPin q = p
      · subst h'; simp [hne]
      · simp [h, h', Ne.symm h, Ne.symm h']

/-- Taking a source raises the count of each of its pins by 1 and sets its mode. -/
theorem get_takeClaims (claims : Vector PinClaim 16) (src : Source) (p : PinId) :
    (takeClaims claims src).get p =
      if p ∈ src.pins then ⟨some src.mode, (claims.get p).count + 1⟩ else claims.get p := by
  cases src with
  | se q =>
    simp only [takeClaims, Source.pins, List.foldl, claimPin, get_put, List.mem_singleton]
    by_cases h : q = p
    · subst h; simp
    · simp [h, Ne.symm h]
  | diff q =>
    have hne := plusPin_ne_minusPin q
    simp only [takeClaims, Source.pins, List.foldl, claimPin, get_put, List.mem_cons, List.not_mem_nil, or_false]
    by_cases h : plusPin q = p
    · subst h; simp [hne.symm]
    · by_cases h' : minusPin q = p
      · subst h'; simp [hne]
      · simp [h, h', Ne.symm h, Ne.symm h']

/-- A source may be claimed exactly when each of its pins is unclaimed or claimed in its mode. -/
theorem claimable_iff (claims : Vector PinClaim 16) (src : Source) :
    claimable claims src = true ↔
      ∀ p ∈ src.pins, (claims.get p).mode = none ∨ (claims.get p).mode = some src.mode := by
  simp [claimable, List.all_eq_true]

/-! ## The Tag Index (R16 to R19) -/

/-- A pair goes in before the first pair of a greater tag. -/
theorem insertPair_split (tag : Nat) (i : SlotId) (l : List IndexPair) :
    ∃ l₁ l₂, l = l₁ ++ l₂ ∧ insertPair tag i l = l₁ ++ ⟨tag, i⟩ :: l₂ ∧ (∀ e ∈ l₁, ¬ tag < e.tag) ∧
      ∀ e, l₂.head? = some e → tag < e.tag := by
  induction l with
  | nil => exact ⟨[], [], rfl, rfl, by simp, by simp⟩
  | cons a l ih =>
    by_cases h : tag < a.tag
    · exact ⟨[], a :: l, rfl, by simp [insertPair, h], by simp, by simp [h]⟩
    · obtain ⟨l₁, l₂, e, e', h₁, h₂⟩ := ih
      exact ⟨a :: l₁, l₂, by simp [e], by simp [insertPair, h, e'],
        fun x hx => (List.mem_cons.1 hx).elim (fun e => e ▸ h) (h₁ x), h₂⟩

@[simp] theorem mem_insertPair (tag : Nat) (i : SlotId) (l : List IndexPair) (e : IndexPair) :
    e ∈ insertPair tag i l ↔ e = ⟨tag, i⟩ ∨ e ∈ l := by
  obtain ⟨l₁, l₂, h, h', -, -⟩ := insertPair_split tag i l
  rw [h', h]; simp only [List.mem_append, List.mem_cons]; tauto

@[simp] theorem mem_removeTag (tag : Nat) (l : List IndexPair) (e : IndexPair) :
    e ∈ removeTag tag l ↔ e ∈ l ∧ e.tag ≠ tag := by
  simp [removeTag]

/-- Inserting a tag that is not held keeps the index sorted. -/
theorem sorted_insertPair {tag : Nat} {i : SlotId} {l : List IndexPair}
    (hs : l.Pairwise (fun a b => a.tag < b.tag)) (hn : ∀ e ∈ l, e.tag ≠ tag) :
    (insertPair tag i l).Pairwise (fun a b => a.tag < b.tag) := by
  induction l with
  | nil => simp [insertPair]
  | cons a l ih =>
    rw [List.pairwise_cons] at hs
    by_cases h : tag < a.tag
    · simp only [insertPair, h, if_true, List.pairwise_cons, List.mem_cons]
      refine ⟨?_, hs⟩
      rintro e (rfl | he)
      · exact h
      · exact h.trans (hs.1 e he)
    · have hlt : a.tag < tag := by have := hn a (by simp); omega
      simp only [insertPair, h, if_false, List.pairwise_cons]
      refine ⟨?_, ih hs.2 fun e he => hn e (by simp [he])⟩
      intro e he
      rcases (mem_insertPair _ _ _ _).1 he with rfl | he
      · exact hlt
      · exact hs.1 e he

/-- A tag that is found is paired with the slot found. -/
theorem mem_of_lookupTag {l : List IndexPair} {tag : Nat} {i : SlotId} (h : lookupTag l tag = some i) :
    ⟨tag, i⟩ ∈ l := by
  simp only [lookupTag, Option.map_eq_some_iff] at h
  obtain ⟨e, he, rfl⟩ := h
  have := List.find?_some he
  have hm := List.mem_of_find?_eq_some he
  simp only [beq_iff_eq] at this
  subst this; exact hm

/-- A tag is not found exactly when no pair carries it. -/
theorem lookupTag_eq_none {l : List IndexPair} {tag : Nat} : lookupTag l tag = none ↔ ∀ e ∈ l, e.tag ≠ tag := by
  simp [lookupTag, List.find?_eq_none]

/-- In a sorted index a pair is found by its tag. -/
theorem lookupTag_of_mem {l : List IndexPair} {e : IndexPair} (hs : l.Pairwise (fun a b => a.tag < b.tag))
    (h : e ∈ l) : lookupTag l e.tag = some e.slot := by
  induction l with
  | nil => simp at h
  | cons a l ih =>
    rw [List.pairwise_cons] at hs
    rcases List.mem_cons.1 h with rfl | h
    · simp [lookupTag]
    · have : (a.tag == e.tag) = false := by simpa using (hs.1 e h).ne
      have ih' := ih hs.2 h
      simpa [lookupTag, List.find?_cons, this] using ih'

/-- Two pairs of a sorted index with one tag are one pair. -/
theorem eq_of_tag_eq {l : List IndexPair} (hs : l.Pairwise (fun a b => a.tag < b.tag)) {a b : IndexPair}
    (ha : a ∈ l) (hb : b ∈ l) (h : a.tag = b.tag) : a = b := by
  have h1 := lookupTag_of_mem hs ha
  rw [h, lookupTag_of_mem hs hb] at h1
  cases a; cases b; simp_all

/-- The successor is a bound that no held tag greater than t lies below, and it is held or 65535 (R19). -/
theorem successor_spec (l : List IndexPair) (t : Nat) :
    (∀ e ∈ l, t < e.tag → successor l t ≤ e.tag) ∧
      (successor l t = 65535 ∨ ∃ e ∈ l, t < e.tag ∧ successor l t = e.tag) := by
  have key : ∀ (l : List IndexPair) (b : Nat),
      (∀ e ∈ l, t < e.tag → l.foldl (fun best e => if t < e.tag ∧ e.tag < best then e.tag else best) b ≤ e.tag) ∧
      l.foldl (fun best e => if t < e.tag ∧ e.tag < best then e.tag else best) b ≤ b ∧
      (l.foldl (fun best e => if t < e.tag ∧ e.tag < best then e.tag else best) b = b ∨
        ∃ e ∈ l, t < e.tag ∧
          l.foldl (fun best e => if t < e.tag ∧ e.tag < best then e.tag else best) b = e.tag) := by
    intro l
    induction l with
    | nil => intro b; simp
    | cons a l ih =>
      intro b
      simp only [List.foldl_cons, List.mem_cons, forall_eq_or_imp, exists_eq_or_imp]
      by_cases hc : t < a.tag ∧ a.tag < b
      · rw [if_pos hc]
        obtain ⟨h1, h2, h3⟩ := ih a.tag
        exact ⟨⟨fun _ => h2, h1⟩, by omega, .inr (h3.elim (fun h => .inl ⟨hc.1, h⟩) .inr)⟩
      · rw [if_neg hc]
        obtain ⟨h1, h2, h3⟩ := ih b
        exact ⟨⟨fun ha => by omega, h1⟩, h2, h3.imp id .inr⟩
  exact ⟨(key l 65535).1, (key l 65535).2.2⟩

variable (s : State)

/-- The lowest FREE slot is FREE and every slot below it holds a record (R4). -/
theorem lowestFree_eq_some {i : SlotId} :
    s.lowestFree = some i ↔ s.slot i = none ∧ ∀ j, j < i → s.slot j ≠ none := by
  unfold State.lowestFree
  rw [slotIds, List.find?_eq_some_iff_getElem]
  constructor
  · rintro ⟨h, n, hn, e, hlt⟩
    refine ⟨Option.isNone_iff_eq_none.1 h, fun j hj he => ?_⟩
    simp only [List.getElem_finRange] at e hlt
    have hjn : j.val < n := by rw [← e] at hj; simpa [Fin.lt_def] using hj
    have h' := hlt j.val hjn
    replace h' : Option.isSome (s.slot j) = true := by simpa using h'
    rw [he] at h'; cases h'
  · rintro ⟨h, hlt⟩
    refine ⟨Option.isNone_iff_eq_none.2 h, i.val, by simp, by simp, fun j hj => ?_⟩
    have h' := hlt ⟨j, by omega⟩ (by simpa [Fin.lt_def] using hj)
    cases hx : s.slot ⟨j, by omega⟩ with
    | none => exact absurd hx h'
    | some r => simp [hx]

theorem lowestFree_eq_none : s.lowestFree = none ↔ ∀ i, s.slot i ≠ none := by
  unfold State.lowestFree
  rw [List.find?_eq_none]
  exact ⟨fun h i e => h i (mem_slotIds i) (Option.isNone_iff_eq_none.2 e),
    fun h i _ e => h i (Option.isNone_iff_eq_none.1 e)⟩

/-! ## The Conversion Queue (R61 to R65) -/

theorem queueEntry_eq_none {i : SlotId} : s.queueEntry i = none ↔ ∀ e ∈ s.queue, e.slot ≠ i := by
  simp [State.queueEntry, List.find?_eq_none]

theorem mem_of_queueEntry {i : SlotId} {e : QueueEntry} (h : s.queueEntry i = some e) : e ∈ s.queue ∧ e.slot = i := by
  have := List.find?_some h
  exact ⟨List.mem_of_find?_eq_some h, by simpa using this⟩

/-- Removing a slot's entry leaves the others in order and lowers the count of its pass class. -/
theorem unqueued_unqueue (i : SlotId) : Unqueued s (s.unqueue i) i := by
  unfold Unqueued State.unqueue
  cases h : s.queueEntry i with
  | none =>
    refine ⟨?_, by simp⟩
    symm; rw [List.filter_eq_self]
    intro e he
    simpa using (queueEntry_eq_none s).1 h e he
  | some e =>
    refine ⟨rfl, fun c => ?_⟩
    simp only [Option.map_some, Option.some.injEq, State.scanClass, State.lowerOutstanding, State.setClass, get_put]
    split
    · next h => subst h; rfl
    · rfl

theorem inFlightAt_eq_true {i : SlotId} : s.inFlightAt i = true ↔ ∃ k, s.inFlight = some k ∧ k.slot = i := by
  unfold State.inFlightAt; cases s.inFlight <;> simp

theorem inFlightAt_eq_false {i : SlotId} : s.inFlightAt i = false ↔ ∀ k, s.inFlight = some k → k.slot ≠ i := by
  unfold State.inFlightAt; cases s.inFlight <;> simp

/-! ## Attention (R113 to R115) -/

/-- A raise joins the slot's entry or appends a new one, and without a reason does nothing. -/
theorem raised_raise (i : SlotId) (r : Reasons) : Raised s (s.raise i r) i r := by
  unfold Raised State.raise raiseOn Reasons.any
  rcases r with ⟨_ | _, _ | _⟩ <;> simp only [Bool.or_self, Bool.or_true, Bool.true_or, if_true,
    and_self, Bool.false_eq_true, if_false, reduceCtorEq, and_false, false_and]
  all_goals
    by_cases h : ∃ e ∈ s.attention, e.slot = i
    · rw [if_pos h, if_pos (by simpa [List.any_eq_true] using h)]
      refine List.map_congr_left fun e _ => ?_
      by_cases he : e.slot = i
      · simp only [he, if_true, AttentionEntry.join, Reasons.join, AttentionEntry.mk.injEq, true_and]
        refine ⟨by simp, ?_⟩
        split <;> split <;> omega
      · simp [he]
    · rw [if_neg h, if_neg (by simpa [List.any_eq_true] using h)]

/-! ## The engine (R175) -/

/-- R175: a grant serves the port that claims, and of two claims the port not served last. -/
theorem serves_iff (p : Port) (q : Request) : s.serves p q = true ↔
    (s.port p).mode = .executing q ∧
      ∀ p' q', p' ≠ p → (s.port p').mode = .executing q' → s.lastServed ≠ p := by
  have hp : ∀ {P : Port → Prop}, (∀ p, P p) ↔ P .host ∧ P .maintenance :=
    ⟨fun h => ⟨h _, h _⟩, fun h p => by cases p; exacts [h.1, h.2]⟩
  simp only [State.serves, State.enginePort, State.claims, Bool.and_eq_true, beq_iff_eq, hp]
  cases p <;> cases hh : (s.port .host).mode <;> cases hm : (s.port .maintenance).mode <;>
    cases hl : s.lastServed <;> simp

end Sys2Proof.Machine
end

