-- ==== Sys2Proof/Laws/Effects.lean ====
section
/-! SUPPORT. What the effects of the commands leave: for each, the fields that may change, every other one being as it
was; the contents of the slots afterwards; and the course of a calibration run. -/

namespace Sys2Proof.Machine

variable (s : State)

/-! ## Frames: the named fields may change, every other field is as before -/

theorem unqueue_frame (i : SlotId) :
    s.unqueue i = { s with queue := (s.unqueue i).queue, classes := (s.unqueue i).classes } := by
  unfold State.unqueue; split <;> rfl

theorem raise_frame (i : SlotId) (r : Reasons) : s.raise i r = { s with attention := (s.raise i r).attention } := by
  unfold State.raise; split <;> rfl

theorem setBank_frame (n : BankName) (x : Bank) :
    s.setBank n x = { s with bankA := (s.setBank n x).bankA, bankB := (s.setBank n x).bankB } := by
  cases n <;> rfl

theorem writeOutput_frame (i : SlotId) (r : PointRecord) (c : OutputConfig) (k : CodePart) (d : Bool) :
    s.writeOutput i r c k d =
      { s with
        slots := put s.slots i (some { r with body := .output c k })
        channels := if d then put s.channels c.channel { s.channel c.channel with driven := k.live } else s.channels } := by
  unfold State.writeOutput; dsimp only; split <;> rfl

theorem modifyInput_frame (i : SlotId) (r : PointRecord) (c : InputConfig) (v : ValuePart) (c' : InputConfig) :
    s.modifyInput i r c v c' =
      { s with
        slots := put s.slots i (some { r with body := .input c' (modifiedPart c c' v) })
        pinClaims := movedClaims s.pinClaims c c'
        inFlight := (s.modifyInput i r c v c').inFlight, queue := (s.modifyInput i r c v c').queue
        classes := (s.modifyInput i r c v c').classes, attention := (s.modifyInput i r c v c').attention } := by
  unfold State.modifyInput State.supersede; dsimp only
  rw [raise_frame]; split <;> split <;> first | rfl | (rw [unqueue_frame]; rfl)

theorem holdPoint_frame (i : SlotId) (r : PointRecord) :
    s.holdPoint i r = { s with slots := (s.holdPoint i r).slots, queue := (s.holdPoint i r).queue,
                               classes := (s.holdPoint i r).classes } := by
  unfold State.holdPoint; split
  · rw [unqueue_frame]; rfl
  all_goals rfl

theorem releasePoint_frame (i : SlotId) (r : PointRecord) :
    s.releasePoint i r = { s with slots := (s.releasePoint i r).slots, channels := (s.releasePoint i r).channels } := by
  unfold State.releasePoint; split
  · rfl
  · rfl
  · split
    · rfl
    · dsimp only; rw [writeOutput_frame]

theorem retirePoint_frame (i : SlotId) (r : PointRecord) :
    s.retirePoint i r =
      { s with
        slots := (s.retirePoint i r).slots, tagIndex := removeTag r.tag s.tagIndex
        attention := s.attention.filter (fun e => e.slot != i)
        queue := (s.retirePoint i r).queue, classes := (s.retirePoint i r).classes
        pinClaims := (s.retirePoint i r).pinClaims, channels := (s.retirePoint i r).channels } := by
  unfold State.retirePoint; dsimp only; split
  · rfl
  · split
    · unfold State.freeSlot State.unqueue; dsimp only; split <;> split <;> rfl
    · unfold State.freeSlot; dsimp only; split <;> rfl

theorem abortRunning_frame (m : Measurement) :
    s.abortRunning m =
      { s with
        channels := (s.abortRunning m).channels, calRun := .idle, unit := .idle, convGrant := .scan, selection := none
        events := { s.events with calDone := some ⟨.aborted, s.calResults⟩ } } := by
  unfold State.abortRunning; split <;> rfl

theorem startSave_frame :
    s.startSave =
      { s with
        bankA := s.startSave.bankA, bankB := s.startSave.bankB
        save := some ⟨targetOf s.pointer, s.saveGeneration, s.calTable, .erase⟩ } := by
  unfold State.startSave; dsimp only; rw [setBank_frame]

theorem writeRecord_frame (v : Save) (n : Fin 12) (x : Coefficients) :
    s.writeRecord v n x =
      { s with
        bankA := (s.writeRecord v n x).bankA, bankB := (s.writeRecord v n x).bankB
        save := (s.writeRecord v n x).save, events := (s.writeRecord v n x).events } := by
  unfold State.writeRecord; dsimp only; rw [setBank_frame]; split <;> rfl

theorem loadTable_frame :
    s.loadTable =
      { s with phase := .running, pointer := currentBank s.bankA s.bankB, calTable := s.loadTable.calTable,
               events := s.loadTable.events } := by
  unfold State.loadTable; dsimp only; split <;> rfl

theorem account_frame (c : ClassId) :
    s.account c =
      { s with slots := mapTable (fun x => x.map (expireRecord c)) s.slots, attention := (s.account c).attention } := by
  have h : ∀ (l : List SlotId) (t : State), l.foldl (fun t i => t.raise i (s.expiryReasons i)) t =
      { t with attention := (l.foldl (fun t i => t.raise i (s.expiryReasons i)) t).attention } := by
    intro l
    induction l with
    | nil => intro t; rfl
    | cons a l ih => intro t; rw [List.foldl_cons, ih, raise_frame]
  unfold State.account
  rw [h]

theorem takeExpiry_frame (c : ClassId) :
    s.takeExpiry c =
      { s with
        slots := mapTable (fun x => x.map (expireRecord c)) s.slots, attention := (s.takeExpiry c).attention
        classes := (s.takeExpiry c).classes, queue := (s.takeExpiry c).queue, events := (s.takeExpiry c).events } := by
  unfold State.takeExpiry State.declareOverrun State.startPass
  split <;> rw [account_frame] <;> rfl

theorem deliver_frame (i : SlotId) (b : Bool) (x : Int) (cond : Condition) :
    s.deliver i b x cond =
      { s with slots := (s.deliver i b x cond).slots, pinClaims := (s.deliver i b x cond).pinClaims,
               attention := (s.deliver i b x cond).attention } := by
  unfold State.deliver; split
  · rfl
  · split
    · unfold State.freeSlot; dsimp only; split <;> rfl
    · rfl
    · split
      · rfl
      · split
        · rfl
        · dsimp only; rw [raise_frame]; rfl

theorem complete_frame (k : Conversion) (r : RangeCode) :
    s.complete k r =
      { s with
        slots := (s.complete k r).slots, pinClaims := (s.complete k r).pinClaims
        attention := (s.complete k r).attention, inFlight := none, unit := .idle
        classes := put s.classes k.passClass
          { s.scanClass k.passClass with outstanding := (s.scanClass k.passClass).outstanding - 1 } } := by
  unfold State.complete State.lowerOutstanding State.setClass State.scanClass; dsimp only; rw [deliver_frame]

theorem beginEntries_frame (sc : Scope) (l : List CalEntry) (s : State) :
    State.beginEntries sc l s =
      { s with
        calRun := (State.beginEntries sc l s).calRun, calResults := (State.beginEntries sc l s).calResults
        channels := (State.beginEntries sc l s).channels, events := (State.beginEntries sc l s).events
        unit := (State.beginEntries sc l s).unit, convGrant := (State.beginEntries sc l s).convGrant
        selection := (State.beginEntries sc l s).selection } := by
  induction l generalizing s with
  | nil => rfl
  | cons e l ih =>
    cases e with
    | input r => rfl
    | output c =>
      unfold State.beginEntries; split
      · rw [ih]; rfl
      · rfl

theorem finishEntry_frame (sc : Scope) (e : CalEntry) (x : Coefficients) :
    s.finishEntry sc e x =
      { s with
        calTable := put s.calTable e.place x
        calRun := (s.finishEntry sc e x).calRun, calResults := (s.finishEntry sc e x).calResults
        channels := (s.finishEntry sc e x).channels, events := (s.finishEntry sc e x).events
        unit := (s.finishEntry sc e x).unit, convGrant := (s.finishEntry sc e x).convGrant
        selection := (s.finishEntry sc e x).selection } := by
  unfold State.finishEntry; dsimp only; rw [beginEntries_frame]; split <;> rfl

theorem lend_frame (sc : Scope) :
    s.lend sc =
      { s with
        calRun := (s.lend sc).calRun, calResults := (s.lend sc).calResults, channels := (s.lend sc).channels
        events := (s.lend sc).events, unit := (s.lend sc).unit, convGrant := (s.lend sc).convGrant
        selection := (s.lend sc).selection } := by
  unfold State.lend; rw [beginEntries_frame]

/-! ## The slots afterwards -/

theorem slots_modifyOutput (i : SlotId) (r : PointRecord) (c : OutputConfig) (k : CodePart) (c' : OutputConfig) :
    (s.modifyOutput i r c k c').slots =
      put s.slots i (some { r with body := .output c' (reclampedCodes (r.slotState == .active) c c' k) }) := by
  simp [State.modifyOutput]

/-- A HOLD leaves the record but for its slot state. -/
theorem slots_holdPoint {i : SlotId} {r : PointRecord} (h : s.slot i = some r) :
    (s.holdPoint i r).slots =
      put s.slots i (some { r with slotState := if r.slotState = .active then .held else r.slotState }) := by
  have hp : put s.slots i (some r) = s.slots := by rw [← h]; exact put_get_self _ _
  rcases r with ⟨tag, _ | _ | _, _ | _⟩ <;> simp [State.holdPoint, hp]

/-- A RELEASE leaves a record that is not HELD, and makes a HELD one ACTIVE. -/
theorem slots_releasePoint {i : SlotId} {r : PointRecord} (h : s.slot i = some r) :
    (s.releasePoint i r).slots = put s.slots i (some (if r.slotState = .held then
      { r with
        slotState := .active
        body := match r.body with
          | .input c v => .input c (releasedPart v)
          | .output c k => .output c { k with live := if c.slew = none then k.target else k.live } }
      else r)) := by
  have hp : put s.slots i (some r) = s.slots := by rw [← h]; exact put_get_self _ _
  rcases r with ⟨tag, _ | _ | _, ⟨c, v⟩ | ⟨c, k⟩⟩ <;> simp [State.releasePoint, hp]
  rcases k with ⟨live, target, staged⟩
  cases h1 : c.slew <;> by_cases h2 : live = target <;> first | (subst h2; simp) | simp [h2]

/-- A RETIRE empties the slot or sends it RETIRING. -/
theorem slots_retirePoint (i : SlotId) (r : PointRecord) :
    (s.retirePoint i r).slots =
      put s.slots i (if s.retirePends i r then some { r with slotState := .retiring } else none) := by
  unfold State.retirePoint; dsimp only; split
  · rfl
  · split
    · simp [State.forget]
    · simp [State.forget]

/-- A completion frees a RETIRING slot, writes a wanted result to an ACTIVE input record, and else leaves the slots. -/
theorem slots_deliver (i : SlotId) (b : Bool) (x : Int) (cond : Condition) :
    (s.deliver i b x cond).slots =
      match s.slot i with
      | some ⟨_, .retiring, _⟩ => put s.slots i none
      | some ⟨tag, .active, .input c v⟩ =>
        if b then s.slots else put s.slots i (some ⟨tag, .active, .input c (writtenPart c v x cond)⟩)
      | _ => s.slots := by
  unfold State.deliver
  rcases s.slot i with _ | ⟨tag, _ | _ | _, ⟨c, v⟩ | ⟨c, k⟩⟩ <;> simp
  split <;> simp

theorem slots_complete (k : Conversion) (r : RangeCode) :
    (s.complete k r).slots = (s.deliver k.slot k.superseded
      (correctedCode (s.calEntry (.input r)) r (rawCode k.sum k.oversample))
      (conditionOf (s.calEntry (.input r)) k.overrange)).slots := by
  simp [State.complete]

/-! ## The course of a calibration run -/

theorem CalEntry.place_injective {a b : CalEntry} (h : a.place = b.place) : a = b := by
  cases a <;> cases b <;> simp [CalEntry.place, Fin.ext_iff] at h ⊢ <;> omega

theorem Scope.entries_nodup (sc : Scope) : sc.entries.Nodup := by
  cases sc with
  | range r => simp [Scope.entries]
  | _ => decide

/-- The entries of a scope still to come are those that stand behind the entry. -/
theorem Scope.after_eq {sc : Scope} {e : CalEntry} {before rest : List CalEntry}
    (h : sc.entries = before ++ e :: rest) : sc.after e = rest := by
  have hn := sc.entries_nodup
  rw [h] at hn
  have hb : ∀ x ∈ before, x ≠ e := fun x hx => (List.nodup_append.1 hn).2.2 x hx e (by simp)
  unfold Scope.after
  rw [h, List.dropWhile_append_of_pos (by simpa using hb), List.dropWhile_cons_of_neg (by simp)]; rfl

/-- All that the coming up of a run's entries does. -/
theorem entriesBegin_beginEntries (sc : Scope) (l : List CalEntry) (s : State) :
    EntriesBegin sc l s (State.beginEntries sc l s) := by
  refine ⟨beginEntries_frame _ _ _, ?_⟩
  induction l generalizing s with
  | nil => simp [State.beginEntries, State.endRun, State.raiseCalDone]
  | cons e l ih =>
    rcases e with r | c
    · simp [State.beginEntries, skips, Measurement.start]
    · unfold State.beginEntries
      cases h : (s.channel c).owner.isSome
      · have hsk : ¬ skips s (.output c) = true := by simp [skips, h]
        rw [List.takeWhile_cons_of_neg hsk, List.dropWhile_cons_of_neg hsk]
        refine ⟨fun e => by simp, ?_⟩
        simp [State.setUnderCal, Measurement.start, State.channel]
        intro c' hc; rw [get_put_ne _ _ (Ne.symm hc)]
      · have hsk : skips s (.output c) = true := h
        have hi := ih (s.setCalResult (.output c) .skipped)
        rw [show skips (s.setCalResult (.output c) .skipped) = skips s from rfl] at hi
        simp only [if_true]
        rw [List.takeWhile_cons_of_pos hsk, List.dropWhile_cons_of_pos hsk]
        refine ⟨fun e => ?_, hi.2⟩
        rw [hi.1 e]
        simp only [State.setCalResult, get_put, List.mem_cons]
        by_cases he : e = .output c
        · subst he; simp
        · have : ¬ (CalEntry.output c).place = e.place := fun h => he (CalEntry.place_injective h).symm
          simp [he, this]

/-- A quotient rounded to nearest is within half of the exact one. -/
theorem nearest_divNearest {n d : Int} (hd : 0 < d) (hn : 0 ≤ n) : nearest (divNearest n d) n d := by
  unfold nearest divNearest
  rw [if_pos hn]
  have h1 := Int.ediv_mul_le (2 * n + d) (show 2 * d ≠ 0 by omega)
  have h2 := Int.lt_ediv_add_one_mul_self (2 * n + d) (show 0 < 2 * d by omega)
  generalize (2 * n + d) / (2 * d) = q at *
  constructor <;> nlinarith

end Sys2Proof.Machine
end

