-- ==== Sys2Proof/Laws/Moves.lean ====
section
/-! SUPPORT. Every state a command can lead to, one case per elementary effect with the conditions under which it
happens: an invariant that every case keeps is kept by every step. -/

namespace Sys2Proof.Machine

/-- What the body of a request that ends in OK does to the state. -/
inductive Edit (s : State) : State → Prop
  | none : Edit s s
  | defineInput {i tag c} (payload : List Byte) : s.lowestFree = some i → 1 ≤ tag → tag ≤ 65534 →
      lookupTag s.tagIndex tag = Option.none → inputConfigOf payload = some c →
      claimable s.pinClaims c.source = true → Edit s (s.defineInput i tag c)
  | defineOutput {i tag c} (payload : List Byte) : s.lowestFree = some i → 1 ≤ tag → tag ≤ 65534 →
      lookupTag s.tagIndex tag = Option.none → outputConfigOf payload = some c →
      (s.channel c.channel).owner = Option.none → (s.channel c.channel).underCal = false →
      Edit s (s.defineOutput i tag c)
  | modifyInput {tag i r c v c'} (items : List ModifyItem) : s.findPoint tag = some (i, r) → r.body = .input c v →
      checkItems ModifyField.ofInput setInputField [] 1 items c = .passed c' → limitsOk c' = true →
      (c'.source ≠ c.source → claimable (giveClaims s.pinClaims c.source) c'.source = true) →
      Edit s (s.modifyInput i r c v c')
  | modifyOutput {tag i r c k c'} (items : List ModifyItem) : s.findPoint tag = some (i, r) → r.body = .output c k →
      checkItems (fun f => !f.ofInput) setOutputField [] 1 items c = .passed c' → clampOk c' = true →
      Edit s (s.modifyOutput i r c k c')
  | hold {tag i r} : s.findPoint tag = some (i, r) → Edit s (s.holdPoint i r)
  | release {tag i r} : s.findPoint tag = some (i, r) → Edit s (s.releasePoint i r)
  | retire {tag i r} : s.findPoint tag = some (i, r) → Edit s (s.retirePoint i r)
  | configure (c : ClassId) (enable : Bool) {period} : 1 ≤ period → period ≤ 65535 →
      Edit s (s.setClass c ((s.scanClass c).configure enable period))
  | unlist (i : SlotId) : Edit s (s.unlist i)
  | deviceAck : Edit s s.deviceAck
  | stage {tag i r c k x} : s.findPoint tag = some (i, r) → r.body = .output c k → c.clampMin ≤ x → x ≤ c.clampMax →
      Edit s (s.writeOutput i r c { k with staged := some x } false)
  | commit (u : SetId) : Edit s (s.mapRecords (commitRecord u))
  | discard (u : SetId) : Edit s { s with slots := mapTable (fun x => x.map (discardRecord u)) s.slots }
  | calibrate (sc : Scope) : s.calRun = .idle → s.save = Option.none →
      Edit s { s with calRun := .waiting sc, calResults := Vector.replicate 12 .notRun }
  | cancel {sc} : s.calRun = .waiting sc → Edit s (State.raiseCalDone { s with calRun := .idle } .aborted)
  | abort {sc m} : s.calRun = .running sc m → Edit s (s.abortRunning m)
  | startSave : s.calRun = .idle → s.save = Option.none → Edit s s.startSave
  | softReset : Edit s { s.softResetBlocks with maintPort := s.maintPort.dropRequest }

variable {s t : State} {payload bytes : List Byte}

/-- A request that names a point goes on with the point found. -/
theorem onPoint_eq_done {n : Nat} {f : SlotId → PointRecord → Answer} (h : s.onPoint payload n f = .done t bytes) :
    ∃ i r, s.findPoint (u16 payload 0) = some (i, r) ∧ f i r = .done t bytes := by
  unfold State.onPoint at h
  split at h
  · nomatch h
  · split at h
    · nomatch h
    · split at h
      · nomatch h
      · next i r e => exact ⟨i, r, e, h⟩

theorem edit_of_define (h : requestDefine payload s = .done t bytes) : Edit s t := by
  unfold requestDefine at h
  split at h
  · nomatch h
  split at h
  · nomatch h
  next ht =>
  have hlt := u16_lt payload 0
  split at h
  · nomatch h
  next hd =>
  have hn : lookupTag s.tagIndex (u16 payload 0) = none := by simpa using hd
  split at h
  · nomatch h
  next i hi =>
  split at h
  · unfold State.defineInputChecks at h
    split at h
    · nomatch h
    next c hc =>
    split at h
    · next hcl => cases h; exact .defineInput payload hi (by omega) (by omega) hn hc hcl
    · nomatch h
  · unfold State.defineOutputChecks at h
    split at h
    · nomatch h
    next c hc =>
    split at h
    · nomatch h
    next ho =>
    split at h
    · nomatch h
    next hu =>
    cases h
    exact .defineOutput payload hi (by omega) (by omega) hn hc (by simpa using ho) (by simpa using hu)

theorem edit_of_modify (h : requestModify payload s = .done t bytes) : Edit s t := by
  unfold requestModify modifyRefusal at h
  split at h
  · nomatch h
  split at h
  · nomatch h
  split at h
  · nomatch h
  next i r hf =>
  split at h
  · next c v hb =>
    unfold State.modifyInputChecks modifyRefusal at h
    split at h
    · nomatch h
    next c' hc =>
    split at h
    · nomatch h
    next hl =>
    split at h
    · nomatch h
    next hp =>
    cases h
    exact .modifyInput _ hf hb hc (by simpa using hl) (fun hne => by simpa [hne] using hp)
  · next c k hb =>
    unfold State.modifyOutputChecks modifyRefusal at h
    split at h
    · nomatch h
    next c' hc =>
    split at h
    · nomatch h
    next hl => cases h; exact .modifyOutput _ hf hb hc (by simpa using hl)

theorem edit_of_ack (h : requestAck payload s = .done t bytes) : Edit s t := by
  unfold requestAck at h
  split at h
  · nomatch h
  split at h
  · nomatch h
  split at h
  · cases h; exact .deviceAck
  split at h
  · nomatch h
  split at h
  · nomatch h
  · cases h; exact .unlist _

theorem edit_of_class (h : requestClass payload s = .done t bytes) : Edit s t := by
  unfold requestClass at h
  have := u16_lt payload 2
  split at h
  · nomatch h
  split at h
  · split at h
    · nomatch h
    · cases h; exact .configure _ _ (by omega) (by omega)
  · nomatch h

theorem edit_of_stage {p : Port} (h : requestStage p payload s = .done t bytes) : Edit s t := by
  obtain ⟨i, r, hf, h⟩ := onPoint_eq_done h
  unfold State.stagePoint at h
  split at h
  · nomatch h
  next c k hb =>
  split at h
  · nomatch h
  split at h
  · nomatch h
  next hx => cases h; exact .stage hf hb (by omega) (by omega)

theorem edit_of_run_request (k : RequestKind) (p : Port) (hk : k ∈ [.calibrate, .calAbort, RequestKind.calSave])
    (h : requestBody k p payload s = .done t bytes) : Edit s t := by
  simp only [List.mem_cons, List.not_mem_nil, or_false] at hk
  rcases hk with rfl | rfl | rfl
  · change requestCalibrate payload s = _ at h
    unfold requestCalibrate at h
    split at h
    · nomatch h
    split at h
    · nomatch h
    split at h
    · nomatch h
    next hr =>
    split at h
    · nomatch h
    next hv => cases h; exact .calibrate _ (by simpa [State.runInProgress] using hr) (by simpa [State.saveInProgress] using hv)
  · change requestCalAbort payload s = _ at h
    unfold requestCalAbort at h
    split at h
    · nomatch h
    split at h
    · nomatch h
    · next hr => cases h; exact .cancel hr
    · next hr => cases h; exact .abort hr
  · change requestCalSave payload s = _ at h
    unfold requestCalSave at h
    split at h
    · nomatch h
    split at h
    · nomatch h
    next hr =>
    split at h
    · nomatch h
    next hv => cases h; exact .startSave (by simpa [State.runInProgress] using hr) (by simpa [State.saveInProgress] using hv)

/-- A request that ends in OK makes one of the edits. -/
theorem edit_of_done {k : RequestKind} {p : Port} (h : requestBody k p payload s = .done t bytes) : Edit s t := by
  cases k with
  | define => exact edit_of_define h
  | lookup => obtain ⟨_, _, _, h⟩ := onPoint_eq_done h; cases h; exact .none
  | nextTag =>
    change requestNext payload s = _ at h
    unfold requestNext at h
    split at h
    · nomatch h
    split at h
    · nomatch h
    · cases h; exact .none
  | modify => exact edit_of_modify h
  | hold => obtain ⟨_, _, hf, h⟩ := onPoint_eq_done h; cases h; exact .hold hf
  | release => obtain ⟨_, _, hf, h⟩ := onPoint_eq_done h; cases h; exact .release hf
  | retire => obtain ⟨_, _, hf, h⟩ := onPoint_eq_done h; cases h; exact .retire hf
  | classSet => exact edit_of_class h
  | read =>
    change requestRead payload s = _ at h
    unfold requestRead at h
    split at h
    · nomatch h
    split at h
    · nomatch h
    · cases h; exact .none
  | peek => change requestPeek payload s = _ at h; unfold requestPeek at h; split at h <;> cases h; exact .none
  | ack => exact edit_of_ack h
  | stage => exact edit_of_stage h
  | commit => change requestCommit payload s = _ at h; unfold requestCommit at h; split at h <;> cases h; exact .commit _
  | discard =>
    change requestDiscard payload s = _ at h; unfold requestDiscard at h; split at h <;> cases h; exact .discard _
  | calibrate => exact edit_of_run_request .calibrate p (by simp) h
  | calAbort => exact edit_of_run_request .calAbort p (by simp) h
  | calSave => exact edit_of_run_request .calSave p (by simp) h
  | status => change requestStatus payload s = _ at h; unfold requestStatus at h; split at h <;> cases h; exact .none
  | softReset =>
    change requestSoftReset payload s = _ at h; unfold requestSoftReset at h; split at h <;> cases h; exact .softReset

/-- The ports change and nothing else; a port leaves IDLE only while the part runs. -/
structure PortsOnly (s t : State) : Prop where
  only : t = s.withPorts t
  mode : ∀ p, (t.port p).mode ≠ .idle → s.phase = .running ∨ (s.port p).mode ≠ .idle

theorem PortsOnly.refl (s : State) : PortsOnly s s := ⟨by cases s; rfl, fun _ h => .inr h⟩

theorem PortsOnly.phase (h : PortsOnly s t) : t.phase = s.phase := by rw [h.only]; rfl

theorem PortsOnly.trans {u : State} (h : PortsOnly s t) (h' : PortsOnly t u) : PortsOnly s u where
  only := by rw [h'.only, h.only]; rfl
  mode p hu := (h'.mode p hu).elim (fun e => .inl (h.phase ▸ e)) (h.mode p)

theorem PortsOnly.setPort (s : State) (p : Port) (x : PortState)
    (h : x.mode ≠ .idle → s.phase = .running ∨ (s.port p).mode ≠ .idle) : PortsOnly s (s.setPort p x) where
  only := by cases p <;> rfl
  mode p' hm := by
    by_cases e : p = p'
    · subst e; rw [port_setPort_self] at hm; exact h hm
    · rw [port_setPort, if_neg e] at hm; exact .inr hm

/-- What a command does to the state. -/
inductive Move (s : State) : State → Prop
  /-- A transfer, or nothing. -/
  | ports {t' : State} : PortsOnly s t' → Move s t'
  /-- The engine answers a request that a port has taken. -/
  | answer {e : State} (p : Port) (frame : List Byte) : Edit s e → (s.port p).mode ≠ .idle → Move s (e.placeResponse p frame)
  /-- A hard reset or a loss of power. -/
  | reset {ph : Phase} (a : BitVec 7) (f : Nat) {table : Vector Coefficients 12} : ph ≠ .running →
      (table = s.calTable ∨ table = Vector.replicate 12 .invalid) →
      Move s { s.inHardReset ph a f with calTable := table }
  | endReset (a : BitVec 7) : s.phase = .inReset → Move s { s with phase := .loading, maintAddress := a }
  | pulse : Move s { s with freeIndex := s.freeIndex + 1 }
  | load : s.phase = .loading → Move s s.loadTable
  | classTick : Move s { s with classes := mapTable ScanClass.tick s.classes }
  | expiry {c} : (s.scanClass c).enabled = true → Move s (s.takeExpiry c)
  | lend {sc} : s.unit = .idle → s.calRun = .waiting sc → Move s (s.lend sc)
  | start {e rest tag st c v} : s.unit = .idle → (∀ sc, s.calRun ≠ .waiting sc) → s.queue = e :: rest →
      s.slot e.slot = some ⟨tag, st, .input c v⟩ → Move s (s.startConversion e rest c)
  | settled : s.unit = .settling → Move s { s with unit := .sampling }
  | sample {k sel} (input : Int) : s.unit = .sampling → s.inFlight = some k → s.selection = some sel →
      k.taken + 1 < k.oversample.samples →
      Move s { s with inFlight := some (k.addSample sel.range (converterCode sel.range input)) }
  | complete {k sel} (input : Int) : s.unit = .sampling → s.inFlight = some k → s.selection = some sel →
      k.oversample.samples ≤ k.taken + 1 →
      Move s (s.complete (k.addSample sel.range (converterCode sel.range input)) sel.range)
  | ramp : Move s (s.mapRecords rampRecord)
  | calSettled {sc m} : s.calRun = .running sc m → m.settled = false →
      Move s { s with calRun := .running sc { m with settled := true } }
  | calSample {sc m} (sum : Int) : s.calRun = .running sc m → m.settled = true → m.taken < 63 →
      Move s { s with calRun := .running sc { m with sum := sum, taken := m.taken + 1 } }
  | calSecond {sc m} (ph : CalPhase) (earlier : Int) : s.calRun = .running sc m → m.settled = true → 63 ≤ m.taken →
      (m.phase = .zero ∧ ph = .reference) ∨ (m.phase = .plus ∧ ph = .minus) →
      Move s { s with calRun := .running sc (.start m.entry ph earlier) }
  | calEnd {sc m x} : s.calRun = .running sc m → m.settled = true → 63 ≤ m.taken →
      m.phase = .reference ∨ m.phase = .minus → inLimits x → Move s (s.finishEntry sc m.entry x)
  | erased {v} : s.save = some v → v.phase = .erase →
      Move s { s.setBank v.target Bank.erased with save := some { v with phase := .write 0 } }
  | record {v} (n : Fin 12) (x : Coefficients) : s.save = some v → v.phase = .write n.val →
      Move s (s.writeRecord v n x)
  | marked {v} : s.save = some v → v.phase = .mark →
      Move s (State.endSave
        { s.setBank v.target { s.bank v.target with state := .valid, generation := v.generation } with
          pointer := some v.target } .ok)

theorem Move.refl (s : State) : Move s s := .ports (.refl s)

/-- A measured entry is INVALID or has coefficients in their ranges (R149). -/
theorem inLimits_accepted (o g : Int) : inLimits (accepted o g) := by
  unfold accepted; split
  · assumption
  · trivial

theorem inLimits_inputEntryOf (r : RangeCode) (a b : Int) : inLimits (inputEntryOf r a b) := by
  unfold inputEntryOf; dsimp only; split
  · trivial
  · exact inLimits_accepted _ _

theorem inLimits_outputEntryOf (e : Coefficients) (a b : Int) : inLimits (outputEntryOf e a b) := by
  unfold outputEntryOf; dsimp only; split
  · trivial
  · exact inLimits_accepted _ _

/-- A request command makes a move. -/
theorem move_of_request {k : RequestKind} {p : Port} {id : Byte}
    (h : exec (requestCommand k p id payload) s = .next t) : Move s t := by
  rw [exec_requestCommand] at h
  cases h
  by_cases hs : s.serves p (requestOf k id payload) = true
  · have hm : (s.port p).mode ≠ .idle := by rw [((serves_iff s p _).1 hs).1]; nofun
    unfold State.grantRequest
    rw [if_pos hs]
    split
    · cases hb : requestBody k p payload s with
      | refuse st b => exact .answer p _ .none hm
      | done e b => exact .answer p _ (edit_of_done hb) hm
    · exact .answer p _ .none hm
  · rw [grantRequest_of_not_serves (by simpa using hs)]; exact .refl s

theorem portsOnly_sendStatus (s : State) (p : Port) (k : TransferKind) : PortsOnly s (s.sendStatus p k) :=
  .setPort _ _ _ .inr

theorem portsOnly_endTransfer (s : State) (p : Port) : PortsOnly s (s.endTransfer p) := .setPort _ _ _ .inr

theorem portsOnly_passTransfer (s : State) (p : Port) : PortsOnly s (s.passTransfer p) := .setPort _ _ _ .inr

theorem portsOnly_setCheck (s : State) (p : Port) : PortsOnly s (s.setCheck p) := .setPort _ _ _ .inr

theorem portsOnly_endFrame (s : State) (l : Link) : PortsOnly s (s.endFrame l) := by
  cases l
  · exact portsOnly_passTransfer s .host
  · exact portsOnly_endTransfer s .maintenance

theorem portsOnly_startWindow (s : State) (l : Link) (k : TransferKind) : PortsOnly s (s.startWindow l k) := by
  cases l
  · unfold State.startWindow; dsimp only; split
    · exact .refl s
    · exact portsOnly_sendStatus s .host k
  · exact .refl s

/-- The bytes of a transfer change the ports only, and take a frame only while the part runs. -/
theorem portsOnly_receive (l : Link) (c : FrameCheck) (ha : s.answers l = true) : PortsOnly s (s.receive l c) := by
  have hph : s.phase = .loading ∨ s.phase = .running := by
    simpa [State.answers, State.alive] using (Bool.and_eq_true_iff.1 ha).1
  have h0 := portsOnly_startWindow s l (windowOf c)
  have h1 : PortsOnly s ((s.startWindow l (windowOf c)).endFrame l) := h0.trans (portsOnly_endFrame _ _)
  cases c with
  | empty => exact .refl s
  | fetch => exact h0
  | badLength => exact h1.trans (portsOnly_setCheck _ _)
  | short => exact h1.trans (portsOnly_setCheck _ _)
  | badCrc => exact h1.trans (portsOnly_setCheck _ _)
  | good q =>
    refine h1.trans ?_
    change PortsOnly _ (State.takeFrame _ _ _)
    unfold State.takeFrame; split
    · next h =>
      refine .setPort _ _ _ fun _ => .inl ?_
      rw [h1.phase] at h ⊢
      exact hph.resolve_left h.2
    · exact .setPort _ _ _ .inr

theorem move_of_hardReset {e : ResetEvent} (h : exec (.hardReset e) s = .next t) : Move s t := by
  cases h
  cases e with
  | begins c =>
    dsimp only; split
    · exact .reset (ph := .inReset) _ _ nofun (.inl rfl)
    · exact .refl s
  | ends a1 a0 =>
    dsimp only; split
    · next h => exact .endReset _ h
    · exact .refl s
  | whole c a1 a0 =>
    dsimp only; split
    · exact .reset (ph := .loading) _ _ nofun (.inl rfl)
    · exact .refl s
  | shortPulse a1 a0 =>
    dsimp only; split
    · split
      · exact .reset (ph := .loading) _ _ nofun (.inl rfl)
      · exact .pulse
    · exact .refl s

theorem move_of_transfer {c : Instr} (h : exec c s = .next t) :
    (∃ l b, c = .requestFrame l b) ∨ (∃ l b, c = .lengthByteCheckFail l b) ∨ (∃ l b, c = .frameAbort l b) ∨
      (∃ l b, c = .statusByte l b) ∨ (∃ l, c = .responseDelivery l) → Move s t := by
  rintro (⟨l, b, rfl⟩ | ⟨l, b, rfl⟩ | ⟨l, b, rfl⟩ | ⟨l, b, rfl⟩ | ⟨l, rfl⟩) <;> cases h
  · split
    · next ha => exact .ports (portsOnly_receive l _ ha)
    · exact .refl s
  · split
    · next ha => exact .ports (portsOnly_receive l _ (Bool.and_eq_true_iff.1 ha).1)
    · exact .refl s
  · split
    · next ha =>
      refine .ports (PortsOnly.trans ?_ (portsOnly_endTransfer _ _))
      split
      · exact .refl s
      · exact .refl s
      · split
        · exact portsOnly_setCheck _ _
        · exact .refl s
      · exact portsOnly_receive l _ ha
    · exact .refl s
  · split
    · split
      · exact .ports (portsOnly_sendStatus _ _ _)
      · exact .ports (portsOnly_endTransfer _ _)
    · exact .refl s
  · split
    · exact .ports (PortsOnly.trans (.setPort s l.port _ fun h => absurd rfl h) (portsOnly_passTransfer _ _))
    · exact .refl s

theorem move_of_sample {input : Int} (h : exec (.sample input) s = .next t) : Move s t := by
  cases h
  split
  · next hu =>
    split
    · next k sel hk hs =>
      unfold State.takeSample; dsimp only; split
      · next hn => exact .complete input hu hk hs hn
      · next hn => exact .sample input hu hk hs (by simpa [Conversion.addSample] using hn)
    · exact .refl s
  · exact .refl s

theorem move_of_calSample {input : Int} (h : exec (.calSample input) s = .next t) : Move s t := by
  cases h
  split
  · next sc m hr =>
    split
    · next hm =>
      unfold State.takeCalSample; dsimp only; split
      · next hn =>
        have hn' : 63 ≤ m.taken := by simp only [Config.calSamples] at hn; omega
        unfold State.endMeasurement; dsimp only; split
        · next hp => exact .calSecond .reference _ hr hm hn' (.inl ⟨hp, rfl⟩)
        · next hp => exact .calSecond .minus _ hr hm hn' (.inr ⟨hp, rfl⟩)
        · next hp =>
          refine .calEnd hr hm hn' (.inl hp) ?_
          split
          · exact inLimits_inputEntryOf _ _ _
          · exact inLimits_outputEntryOf _ _ _
        · next hp =>
          refine .calEnd hr hm hn' (.inr hp) ?_
          split
          · exact inLimits_inputEntryOf _ _ _
          · exact inLimits_outputEntryOf _ _ _
      · next hn => exact .calSample _ hr hm (by simp only [Config.calSamples] at hn; omega)
    · exact .refl s
  · exact .refl s
  · exact .refl s

theorem move_of_grant (h : exec .grant s = .next t) : Move s t := by
  change execGrant s = _ at h
  unfold execGrant at h
  split at h
  · cases h; exact .refl s
  next hu =>
  split at h
  · next sc _ hr => cases h; exact .lend (by simpa using hu) hr
  · cases h; exact .refl s
  · next hq hr =>
    split at h
    · next hs => cases h; exact .start (by simpa using hu) hr hq hs
    · nomatch h

/-- Every command makes a move. -/
theorem move_of_exec {c : Instr} (h : exec c s = .next t) : Move s t := by
  cases c with
  | define p id b => exact move_of_request (k := .define) h
  | lookup p id b => exact move_of_request (k := .lookup) h
  | nextTag p id b => exact move_of_request (k := .nextTag) h
  | modify p id b => exact move_of_request (k := .modify) h
  | hold p id b => exact move_of_request (k := .hold) h
  | release p id b => exact move_of_request (k := .release) h
  | retire p id b => exact move_of_request (k := .retire) h
  | classSet p id b => exact move_of_request (k := .classSet) h
  | read p id b => exact move_of_request (k := .read) h
  | peek p id b => exact move_of_request (k := .peek) h
  | ack p id b => exact move_of_request (k := .ack) h
  | stage p id b => exact move_of_request (k := .stage) h
  | commit p id b => exact move_of_request (k := .commit) h
  | discard p id b => exact move_of_request (k := .discard) h
  | calibrate p id b => exact move_of_request (k := .calibrate) h
  | calAbort p id b => exact move_of_request (k := .calAbort) h
  | calSave p id b => exact move_of_request (k := .calSave) h
  | status p id b => exact move_of_request (k := .status) h
  | softReset p id b => exact move_of_request (k := .softReset) h
  | unknownRequestCode p code id b =>
    cases h; split
    · next hs =>
      have hm := ((serves_iff s p _).1 (Bool.and_eq_true_iff.1 hs).1).1
      exact .answer p _ .none (by rw [hm]; nofun)
    · exact .refl s
  | deniedOnMaintenancePort code id b =>
    cases h; split
    · next hs =>
      have hm := ((serves_iff s _ _).1 (Bool.and_eq_true_iff.1 hs).1).1
      exact .answer _ _ .none (by rw [hm]; nofun)
    · exact .refl s
  | requestFrame l b => exact move_of_transfer h (.inl ⟨l, b, rfl⟩)
  | lengthByteCheckFail l b => exact move_of_transfer h (.inr (.inl ⟨l, b, rfl⟩))
  | frameAbort l b => exact move_of_transfer h (.inr (.inr (.inl ⟨l, b, rfl⟩)))
  | statusByte l b => exact move_of_transfer h (.inr (.inr (.inr (.inl ⟨l, b, rfl⟩))))
  | responseDelivery l => exact move_of_transfer h (.inr (.inr (.inr (.inr ⟨l, rfl⟩))))
  | hardReset e => exact move_of_hardReset h
  | tableLoad =>
    cases h; split
    · next hp => exact .load hp
    · exact .refl s
  | classTick =>
    cases h; split
    · exact .classTick
    · exact .refl s
  | classExpiry c =>
    cases h; split
    · next he => exact .expiry (Bool.and_eq_true_iff.1 he).1
    · exact .refl s
  | grant => exact move_of_grant h
  | settleEnd =>
    cases h; split
    · next hu => exact .settled hu
    · exact .refl s
  | sample input => exact move_of_sample h
  | rampTick =>
    cases h; split
    · exact .ramp
    · exact .refl s
  | calSettleEnd =>
    cases h; split
    · next hr =>
      split
      · exact .refl s
      · next hm => exact .calSettled hr (by simpa using hm)
    · exact .refl s
    · exact .refl s
  | calSample input => exact move_of_calSample h
  | eraseEnd =>
    cases h; split
    · exact .refl s
    · next hv => split <;> first | exact .refl s | (next hp => exact .erased hv hp)
  | entryRecordWrite x =>
    cases h; split
    · exact .refl s
    · next hv =>
      split
      · next n hp =>
        split
        · exact .record ⟨n, _⟩ x hv hp
        · exact .refl s
      · exact .refl s
      · exact .refl s
  | markEnd =>
    cases h; split
    · exact .refl s
    · next hv => split <;> first | exact .refl s | (next hp => exact .marked hv hp)
  | powerLoss =>
    cases h; split
    · exact .refl s
    · exact .reset (ph := .off) _ _ nofun (.inr rfl)

/-- Every step makes a move, from the state with the front command taken off the queue. -/
theorem move_of_step (h : step s = .next t) : ∃ rest, Move { s with pending := rest } t := by
  unfold step at h
  split at h
  · cases h; exact ⟨s.pending, .refl _⟩
  · exact ⟨_, move_of_exec h⟩

end Sys2Proof.Machine
end

