-- ==== Sys2Proof/Laws/Ports.lean ====
section
/-! SUPPORT. What the transfers on the ports do: every operation on a port comes to one setPort, and a command that comes
to one changes that port only. -/

namespace Sys2Proof.Machine

variable {s : State} {l : Link} {c : Instr} {x : PortState}

/-- Of two updates of a port the later one stands. -/
@[simp] theorem setPort_setPort (s : State) (p : Port) (x y : PortState) :
    (s.setPort p x).setPort p y = s.setPort p y := by cases p <;> rfl

@[simp] theorem setPort_port (s : State) (p : Port) : s.setPort p (s.port p) = s := by cases p <;> rfl

/-- A command that sets the link's port changes nothing else. -/
theorem changesPort_of_setPort (h : exec c s = .next (s.setPort l.port x)) : ChangesPort c s l x := by
  refine ⟨_, h, ?_, ?_, fun p hp => ?_, by rw [port_setPort_self]⟩
  · cases l.port <;> rfl
  · cases l.port <;> rfl
  · rw [port_setPort, if_neg (Ne.symm hp)]

/-- The window a frame falls in is that of `InWindow`. -/
theorem inWindow_startWindow {first : Byte} (hf : l = .spi → first ≠ 0) (ha : s.answers l = true) :
    InWindow s (s.startWindow l .request) l first := by
  unfold InWindow State.startWindow
  cases l with
  | i2c a => simp
  | spi =>
    dsimp only
    by_cases h : s.openKind .host = some .request
    · rw [if_neg (fun e => e.2 h), if_pos h]
    · rw [if_pos ⟨rfl, h⟩, if_neg h]
      simp only [exec, execStatusByte, ha, if_true, transferKind, if_neg (hf rfl), Link.port]

/-- Opening a window sets the link's port. -/
theorem startWindow_eq_setPort (s : State) (l : Link) (k : TransferKind) :
    s.startWindow l k = s.setPort l.port ((s.startWindow l k).port l.port) := by
  cases l with
  | i2c a => exact (setPort_port s _).symm
  | spi =>
    unfold State.startWindow; dsimp only; split
    · exact (setPort_port s _).symm
    · simp [State.sendStatus, Link.port]

/-- The port state is as before in a window that opens. -/
@[simp] theorem mode_startWindow (s : State) (l : Link) (k : TransferKind) :
    ((s.startWindow l k).port l.port).mode = (s.port l.port).mode := by
  cases l with
  | i2c a => rfl
  | spi => unfold State.startWindow; dsimp only; split <;> rfl

/-- A frame that is over leaves the transfer of `afterFrame`. -/
theorem endFrame_eq_setPort (w : State) (l : Link) :
    w.endFrame l = w.setPort l.port { w.port l.port with openTransfer := afterFrame w l } := by
  cases l <;> rfl

/-- A damaged frame sets CHECK in its window, and the frame is over. -/
theorem receive_damaged {f : FrameCheck} (h : f = .badLength ∨ f = .short ∨ f = .badCrc) :
    s.receive l f = s.setPort l.port { (s.startWindow l .request).port l.port with
      checkFlag := true, openTransfer := afterFrame (s.startWindow l .request) l } := by
  have e : s.receive l f = ((s.startWindow l .request).endFrame l).setCheck l.port := by
    rcases h with h | h | h <;> subst h <;> rfl
  rw [e, endFrame_eq_setPort, State.setCheck, setPort_setPort, port_setPort_self]
  conv_lhs => rw [startWindow_eq_setPort]
  rw [setPort_setPort, ← startWindow_eq_setPort]

/-- The byte a port sends once its transfer is closed is none. -/
theorem fetchByte_of_no_transfer {p : Port} (h : (s.port p).openTransfer = none) (n : Nat) :
    s.fetchByte p n = none := by simp [State.fetchByte, h]

end Sys2Proof.Machine
end

