-- ==== Sys2Proof/WellFormed.lean ====
section
/-! DEFINITION. Which commands are well formed: what a bus master or a block can send at all. exec gives every command
its effect, well formed or not. -/

namespace Sys2Proof

/-- A request frame is at most 64 bytes long, so a payload is at most 59 (R184). -/
def payloadFits (payload : List Byte) : Bool := payload.length ≤ 59

/-- The well-formed commands. -/
def Instr.wellFormed : Instr → Bool
  | .define _ _ p | .lookup _ _ p | .nextTag _ _ p | .modify _ _ p | .hold _ _ p | .release _ _ p
  | .retire _ _ p | .classSet _ _ p | .read _ _ p | .peek _ _ p | .ack _ _ p | .stage _ _ p
  | .commit _ _ p | .discard _ _ p | .calibrate _ _ p | .calAbort _ _ p | .calSave _ _ p
  | .status _ _ p | .softReset _ _ p => payloadFits p
  | .unknownRequestCode _ code _ p => (requestKind code).isNone && payloadFits p
  | .deniedOnMaintenancePort code _ p =>
    (match requestKind code with
     | some k => !allowedOnMaintenance k
     | none => false) && payloadFits p
  | .requestFrame _ bytes => lengthPasses (byteAt bytes 0) && bytes.length == (byteAt bytes 0).toNat
  | .lengthByteCheckFail link b => !lengthPasses b && !(link.port == .host && b == 0)
  | .frameAbort _ received =>
    received.isEmpty || lengthPasses (byteAt received 0) && decide (received.length < (byteAt received 0).toNat)
  | .statusByte _ _ | .responseDelivery _ | .hardReset _ | .tableLoad | .classTick | .classExpiry _
  | .grant | .settleEnd | .sample _ | .rampTick | .calSettleEnd | .calSample _ | .eraseEnd
  | .entryRecordWrite _ | .markEnd | .powerLoss => true

end Sys2Proof
end

