-- ==== Sys2Proof/Tests/Slice0.lean ====
section
/-! SUPPORT. Small tests: the checks of WellFormed, the manual's own figures, at most two single steps per command, and
for every statement with hypotheses a state and operands that meet them. Each expected result is the manual's; its place
is named. -/

namespace Sys2Proof.Tests

open Sys2Proof Sys2Proof.Machine

set_option Elab.async false

/-! ## States to test on -/

/-- The state a command leaves. -/
def after (c : Instr) (s : State) : State :=
  match exec c s with
  | .next t => t
  | .fault _ => s
  | .refused _ => s

/-- The part once its load is over, with an empty directory. -/
def running : State := { State.reset with phase := .running }

/-- A port that has taken a request of a kind with id 7. -/
def taken (k : RequestKind) (payload : List Byte) : PortState :=
  { PortState.initial with mode := .executing (requestOf k 7 payload) }

/-- The host port has taken a request. -/
def asked (k : RequestKind) (payload : List Byte) (s : State) : State := { s with hostPort := taken k payload }

/-- The maintenance port has taken a request. -/
def askedMaint (k : RequestKind) (payload : List Byte) (s : State) : State := { s with maintPort := taken k payload }

/-- The host asks, and the engine serves it. -/
def served (k : RequestKind) (payload : List Byte) (s : State) : State :=
  after (requestCommand k .host 7 payload) (asked k payload s)

/-- The maintenance master asks, and the engine serves it. -/
def servedMaint (k : RequestKind) (payload : List Byte) (s : State) : State :=
  after (requestCommand k .maintenance 7 payload) (askedMaint k payload s)

/-- The response frame of a status and a payload. -/
def reply (k : RequestKind) (st : Status) (payload : List Byte) : PortMode :=
  .responseReady (responseFrame (requestOf k 7 []) st payload)

/-- The response a port shows is this one. The echoes do not carry the request's payload. -/
def replied (s : State) (p : Port) (k : RequestKind) (st : Status) (payload : List Byte) : Bool :=
  (s.port p).mode == reply k st payload

/-- A plain input configuration: SE pin 0, range 0, one sample, class 0. -/
def inConfig : InputConfig := ⟨.se 0, 0, .x1, 0, none, none, none, 0⟩

/-- A value part with a value, GOOD. -/
def goodPart : ValuePart := ⟨100, 100, true, .normal, 9, 0, false, .normal⟩

/-- A plain output configuration: channel 0, clamp −1000..1000, slew 200, set 0. -/
def outConfig : OutputConfig := ⟨0, -1000, 1000, some 200, 0, false⟩

/-- The part with slots 0 and on holding these records, with their claims and their channels. -/
def place : List PointRecord → SlotId → State → State
  | [], _, s => s
  | r :: rest, i, s =>
    let s1 := s.setSlot i (some r)
    let s2 := if r.slotState = .retiring then s1 else { s1 with tagIndex := insertPair r.tag i s1.tagIndex }
    place rest (i + 1) (match r.body with
      | .input c _ => { s2 with pinClaims := takeClaims s2.pinClaims c.source }
      | .output c k => s2.setChannel c.channel ⟨some i, k.live, false⟩)

/-- The running part with these records. -/
def holding (rs : List PointRecord) : State := place rs 0 running

/-- An ACTIVE input point of tag 1. -/
def inPoint : PointRecord := ⟨1, .active, .input inConfig goodPart⟩

/-- An ACTIVE output point of tag 2. -/
def outPoint : PointRecord := ⟨2, .active, .output outConfig ⟨0, 0, none⟩⟩

/-- The converter at the last sample of a conversion of slot 0, with one entry VALID. -/
def converting (rs : List PointRecord) (c : InputConfig) (sum : Int) (e : Coefficients) : State :=
  { holding rs with
    unit := .sampling
    inFlight := some ⟨0, c.scanClass, c.oversample, c.oversample.samples - 1, sum, false, false⟩
    selection := some ⟨c.source, c.range⟩
    classes := put running.classes c.scanClass { running.scanClass c.scanClass with enabled := true, outstanding := 1 }
    calTable := put running.calTable (CalEntry.place (.input c.range)) e }

/-! ## WellFormed refuses each ill-formed command -/

theorem test_wellFormed_payload_of_59 : (Instr.read .host 0 (List.replicate 59 0)).wellFormed = true := by decide
theorem test_illFormed_payload_of_60 : (Instr.read .host 0 (List.replicate 60 0)).wellFormed = false := by decide
theorem test_illFormed_unknown_payload_of_60 :
    (Instr.unknownRequestCode .host 0xFF 0 (List.replicate 60 0)).wellFormed = false := by decide
theorem test_illFormed_unknown_with_known_code : (Instr.unknownRequestCode .host 0x10 0 []).wellFormed = false := by
  decide
theorem test_illFormed_denied_with_allowed_code : (Instr.deniedOnMaintenancePort 0x28 0 []).wellFormed = false := by
  decide
theorem test_illFormed_denied_with_unknown_code : (Instr.deniedOnMaintenancePort 0xFF 0 []).wellFormed = false := by
  decide
theorem test_illFormed_denied_payload_of_60 :
    (Instr.deniedOnMaintenancePort 0x10 0 (List.replicate 60 0)).wellFormed = false := by decide
theorem test_illFormed_frame_length_of_4 : (Instr.requestFrame .spi [4, 0, 0, 0]).wellFormed = false := by decide
theorem test_illFormed_frame_without_its_bytes : (Instr.requestFrame .spi [5, 0, 0, 0]).wellFormed = false := by decide
theorem test_illFormed_length_that_passes : (Instr.lengthByteCheckFail .spi 5).wellFormed = false := by decide
theorem test_illFormed_length_of_a_fetch : (Instr.lengthByteCheckFail .spi 0).wellFormed = false := by decide
theorem test_wellFormed_length_of_0_on_i2c : (Instr.lengthByteCheckFail (.i2c 0x62) 0).wellFormed = true := by decide
theorem test_wellFormed_end_of_a_read : (Instr.frameAbort (.i2c 0x62) []).wellFormed = true := by decide
theorem test_illFormed_abort_of_a_bad_length : (Instr.frameAbort .spi [4]).wellFormed = false := by decide
theorem test_illFormed_abort_of_a_whole_frame : (Instr.frameAbort .spi [5, 0, 0, 0, 0]).wellFormed = false := by decide

/-! ## The manual's figures -/

/-- R184: the CRC over "123456789" ends at 0x29B1. -/
theorem test_crc_check_value : crc16 [0x31, 0x32, 0x33, 0x34, 0x35, 0x36, 0x37, 0x38, 0x39] = 0x29B1 := by
  decide +kernel

/-- R9: 40 + 128 = 168 µs from another selection, 128 µs from the same. -/
theorem test_conversionTime :
    conversionTime none ⟨.diff 0, 3⟩ .x16 = 168 ∧ conversionTime (some ⟨.diff 0, 3⟩) ⟨.diff 0, 3⟩ .x16 = 128 := by
  decide

/-- R11: deadband 300 is accepted and 400 refused. -/
theorem test_limitsOk : limitsOk { inConfig with highLimit := some 1000, lowLimit := some 200, deadband := 300 } = true ∧
    limitsOk { inConfig with highLimit := some 1000, lowLimit := some 200, deadband := 400 } = false := by decide

/-- R79: means round toward negative infinity. -/
theorem test_rawCode : rawCode 21 .x2 = 10 ∧ rawCode (-21) .x2 = -11 := by decide

/-- 4.10: the unipolar corrections, clamped at both ends. -/
theorem test_correctedCode :
    correctedCode (.valid 40 32900) 5 30 = 0 ∧ correctedCode (.valid 40 32900) 5 65400 = 65535 ∧
      correctedCode (.valid 12 33000) 1 15693 = 15792 := by decide

/-- R38: 8192 scales to 3996 under gain 2048 and offset −100. -/
theorem test_scaledValue : scaledValue (some ⟨2048, -100⟩) 8192 = 3996 ∧ scaledValue none 8192 = 8192 := by decide

/-- 5.5: completions 3 to 10, each from the limit state before it. -/
theorem test_evalLimit :
    let c : InputConfig := { inConfig with highLimit := some 1000, lowLimit := some 200, deadband := 100 }
    evalLimit c .high 950 = .high ∧ evalLimit c .high 899 = .normal ∧ evalLimit c .normal 150 = .low ∧
      evalLimit c .low 250 = .low ∧ evalLimit c .low 1200 = .high ∧ evalLimit c .high 100 = .low ∧
      evalLimit c .low 301 = .normal := by decide

/-- R14: GOOD, then STALE at 3 missed passes, then UNCAL at a completion. -/
theorem test_qualityOf :
    qualityOf .active goodPart = .good ∧ qualityOf .active { goodPart with missedPasses := 3 } = .stale ∧
      qualityOf .active { goodPart with lastCondition := .uncal } = .uncal ∧ qualityOf .held goodPart = .held ∧
      qualityOf .active { goodPart with hasValue := false } = .none := by decide

/-- 7.6: the pin codes of channels 1, 2 and 3. -/
theorem test_outputCode :
    outputCode (.valid (-12) 32900) 10000 = 10028 ∧ outputCode (.valid (-12) 32900) (-10000) = -10052 ∧
      outputCode .invalid (-10000) = -10000 ∧ outputCode (.valid 5 33000) 32767 = 32767 ∧
      outputCode (.valid 5 33000) 0 = 5 := by decide

/-- 8.8: input entry 1 accepted, input entry 6 failed. -/
theorem test_inputEntryOf :
    inputEntryOf 1 730 1660000 = .valid 11 33131 ∧ inputEntryOf 6 70400 3355392 = .invalid := by decide

/-- 8.8: output entry 3, read through entry 0. -/
theorem test_outputEntryOf : outputEntryOf (.valid 10 32768) 1526400 (-1531520) = .valid 50 32919 := by decide

/-- R159: the comparison of generations, at its wrap and at its middle. -/
theorem test_currentBank :
    currentBank ⟨.valid, 65535, []⟩ ⟨.valid, 1, []⟩ = some .b ∧ currentBank ⟨.valid, 7, []⟩ ⟨.valid, 6, []⟩ = some .a ∧
      currentBank ⟨.valid, 1, []⟩ ⟨.valid, 32769, []⟩ = some .a ∧
      currentBank ⟨.valid, 1, []⟩ ⟨.valid, 32768, []⟩ = some .b := by decide

/-- R159: 1 follows 65535. -/
theorem test_nextGeneration : nextGeneration 65535 = 1 ∧ nextGeneration 4 = 5 := by decide

/-- R147: RANGE has one entry, ALL has the input ranges before the channels. -/
theorem test_scope_entries :
    Scope.entries (.range 3) = [.input 3] ∧ (Scope.entries .all).length = 12 ∧
      (Scope.entries .all).getLast? = some (.output 3) := by decide

/-! ## Commands -/

/-- 1.5: the DEFINEs of tags 100, 101 and 201. -/
def sharing : State :=
  served .define [0, 201, 1, 2, 5, 0, 1, 0, 0, 0, 0, 0, 0, 0, 0, 0, 0, 0, 0, 0, 0, 0, 0, 0, 0, 0]
    (served .define [0, 101, 1, 1, 2, 3, 1, 0, 0, 0, 0, 0, 0, 0, 0, 0, 0, 0, 0, 0, 0, 0, 0, 0, 0, 0]
      (served .define [0, 100, 1, 1, 2, 0, 1, 0, 0, 0, 0, 0, 0, 0, 0, 0, 0, 0, 0, 0, 0, 0, 0, 0, 0, 0] running))

/-- 1.5: pin 2 SE with count 2, pins 5 and 13 DIFF with count 1; the third DEFINE leaves 61 slots. -/
theorem test_define_input_claims :
    sharing.claim 2 = ⟨some .se, 2⟩ ∧ sharing.claim 5 = ⟨some .diff, 1⟩ ∧ sharing.claim 13 = ⟨some .diff, 1⟩ ∧
      replied sharing .host .define .ok [61] = true := by decide +kernel

/-- 2.2: channel 2 driven at 1200, clamp 0..1000: live 1200 with slew 50, live 1000 without slew. -/
theorem test_define_output_takes_over :
    (served .define [1, 44, 2, 2, 0, 0, 3, 232, 1, 0, 50, 1, 0]
        (running.setChannel 2 ⟨none, 1200, false⟩)).slot 0 =
      some ⟨300, .active, .output ⟨2, 0, 1000, some 50, 1, false⟩ ⟨1200, 1000, none⟩⟩ ∧
    (served .define [1, 44, 2, 2, 0, 0, 3, 232, 0, 0, 50, 1, 0]
        (running.setChannel 2 ⟨none, 1200, false⟩)).channel 2 = ⟨some 0, 1000, false⟩ := by decide +kernel

/-- R31, 11.3: the 14 bytes of an output point. -/
theorem test_lookup_output :
    replied (served .lookup [0, 2] (holding [outPoint])) .host .lookup .ok
      [0, 2, 2, 1, 0, 0xFC, 0x18, 0x03, 0xE8, 1, 0, 200, 0, 0] = true := by decide +kernel

/-- R32: past the last tag NEXT returns 65535 with NONE. -/
theorem test_next :
    replied (served .nextTag [0, 1] (holding [inPoint, outPoint])) .host .nextTag .ok [0, 2, 2, 1] = true ∧
      replied (served .nextTag [0, 2] (holding [inPoint, outPoint])) .host .nextTag .ok [255, 255, 0, 0] = true := by
  decide +kernel

/-- R40: clamp −5000..3000 takes target 4000 to 3000 and staged 4500 to 3000, and leaves live at 4000. -/
theorem test_modify_clamp :
    (served .modify [0, 2, 1, 0x21, 0x0B, 0xB8, 0, 0, 0, 0]
        (holding [⟨2, .active, .output ⟨0, -5000, 5000, some 100, 0, false⟩ ⟨4000, 4000, some 4500⟩⟩])).slot 0 =
      some ⟨2, .active, .output ⟨0, -5000, 3000, some 100, 0, false⟩ ⟨4000, 3000, some 3000⟩⟩ := by decide +kernel

/-- R186: an item of the other kind fails with WRONG_KIND at its position. -/
theorem test_modify_position :
    replied (served .modify [0, 1, 2, 0x11, 1, 0, 0, 0, 0, 0, 0x20, 0, 0, 0, 0, 0, 0] (holding [inPoint])) .host .modify
      .wrongKind [2] = true := by decide +kernel

/-- R42, 3.6: HOLD of a queued point removes its entry and lowers the count. -/
theorem test_hold :
    let s := served .hold [0, 1]
      { (holding [inPoint]).setClass 0 { running.scanClass 0 with outstanding := 1 } with queue := [⟨0, 0⟩] }
    s.slot 0 = some { inPoint with slotState := .held } ∧ s.queue = [] ∧ (s.scanClass 0).outstanding = 0 := by
  decide +kernel

/-- R43: RELEASE sets missed passes to 3 and the mark. -/
theorem test_release :
    (served .release [0, 1] (holding [{ inPoint with slotState := .held }])).slot 0 =
      some ⟨1, .active, .input inConfig { goodPart with missedPasses := 3, mark := true }⟩ := by decide +kernel

/-- 12.2: RETIRE of a point in flight answers PENDING and keeps its claim. -/
theorem test_retire_in_flight :
    let s := served .retire [0, 1] (converting [inPoint] inConfig 0 .invalid)
    replied s .host .retire .ok [2] = true ∧ s.claim 0 = ⟨some .se, 1⟩ ∧ s.tagIndex = [] := by decide +kernel

/-- R46: RETIRE of a resting point answers FREED and returns its claim. -/
theorem test_retire_at_rest :
    let s := served .retire [0, 1] (holding [inPoint])
    replied s .host .retire .ok [1] = true ∧ s.claim 0 = ⟨none, 0⟩ ∧ s.slot 0 = none := by decide +kernel

/-- R52: CLASS enables class 1 at period 300 and answers the count and the flag as it stood. -/
theorem test_class :
    let s := served .classSet [1, 1, 1, 44]
      (running.setClass 1 { running.scanClass 1 with outstanding := 2, overrun := true })
    s.scanClass 1 = ⟨true, 300, 300, 2, false, false⟩ ∧ replied s .host .classSet .ok [2, 1] = true := by
  decide +kernel

/-- R107, R108: an entry for a tag not held, and READ of 65535 refused. -/
theorem test_read :
    replied (served .read [1, 0, 9] (holding [inPoint])) .host .read .ok
        [1, 0, 9, 3, 0, 0, 0, 0, 0, 0, 0, 0, 0, 0, 0, 0, 0, 0, 0, 0] = true ∧
      replied (served .read [1, 255, 255] (holding [inPoint])) .host .read .badField [] = true := by decide +kernel

/-- R117: the head of the list with its point's grades. -/
theorem test_peek :
    replied (servedMaint .peek [] { holding [inPoint] with attention := [⟨0, ⟨true, true⟩, 5⟩] }) .maintenance .peek .ok
      [0, 0, 1, 3, 5, 1, 0, 1, 0] = true := by decide +kernel

/-- R121: ACK 0 empties the event set and clears the overrun flags. -/
theorem test_ack_device :
    let s := served .ack [0, 0] { running.setClass 2 { running.scanClass 2 with overrun := true } with
      events := ⟨none, some .ok, true, false⟩ }
    replied s .host .ack .ok [6, 0, 0, 0, 0, 0, 0, 0, 0, 0, 0, 0, 0, 0, 1, 4] = true ∧
      s.events = DeviceEvents.none ∧ (s.scanClass 2).overrun = false := by decide +kernel

/-- R118: ACK of a point returns its reasons and count and removes its entry. -/
theorem test_ack_point :
    let s := served .ack [0, 1] { holding [inPoint] with attention := [⟨0, ⟨true, false⟩, 2⟩] }
    replied s .host .ack .ok [1, 2] = true ∧ s.attention = [] := by decide +kernel

/-- R127, 12.3: STAGE 800 answers replaced false; the maintenance port may not stage this point. -/
theorem test_stage :
    replied (served .stage [0, 2, 3, 32] (holding [outPoint])) .host .stage .ok [0] = true ∧
      replied (servedMaint .stage [0, 2, 3, 32] (holding [outPoint])) .maintenance .stage .denied [] = true := by
  decide +kernel

/-- 12.3: COMMIT 0 makes staged 800 the target and answers committed 1, held-skipped 0. -/
theorem test_commit :
    let s := served .commit [0] (holding [⟨2, .active, .output outConfig ⟨0, 0, some 800⟩⟩])
    s.slot 0 = some ⟨2, .active, .output outConfig ⟨0, 800, none⟩⟩ ∧ replied s .host .commit .ok [1, 0] = true := by
  decide +kernel

/-- R133: DISCARD makes a HELD member's staged code absent and counts it. -/
theorem test_discard :
    let s := served .discard [0] (holding [⟨2, .held, .output outConfig ⟨0, 0, some 800⟩⟩])
    s.slot 0 = some ⟨2, .held, .output outConfig ⟨0, 0, none⟩⟩ ∧ replied s .host .discard .ok [1] = true := by
  decide +kernel

/-- 12.3, ticks 1 and 5: 0 toward 800 goes to 200; 300 toward 250 with slew 100 reaches 250. -/
theorem test_ramp_tick :
    (after .rampTick (holding [⟨2, .active, .output outConfig ⟨0, 800, none⟩⟩])).channel 0 = ⟨some 0, 200, false⟩ ∧
      (after .rampTick (holding [⟨2, .active, .output ⟨0, -2000, 250, some 100, 1, false⟩ ⟨300, 250, none⟩⟩])).channel 0 =
        ⟨some 0, 250, false⟩ := by decide +kernel

/-- R146: CALIBRATE ALL_INPUTS answers 8; with a save in progress it is BUSY. -/
theorem test_calibrate :
    replied (served .calibrate [1, 0] running) .host .calibrate .ok [8] = true ∧
      replied (served .calibrate [1, 0]
        { running with save := some ⟨.a, 1, running.calTable, .erase⟩ }) .host .calibrate .busy [] = true := by
  decide +kernel

/-- R155: CAL_ABORT of a RUNNING run on a channel gives it back and answers 2. -/
theorem test_cal_abort :
    let s := served .calAbort [] { running.setUnderCal 1 true with
      unit := .lent, convGrant := .cal, calRun := .running .outputs (.start (.output 1) .plus 0) }
    replied s .host .calAbort .ok [2] = true ∧ (s.channel 1).underCal = false ∧ s.unit = .idle ∧
      (s.events.calDone.map RunResult.outcome) = some .aborted := by decide +kernel

/-- 12.4: with bank A current at generation 4, CAL_SAVE answers target B, generation 5. -/
theorem test_cal_save :
    replied (served .calSave [] { running with bankA := ⟨.valid, 4, []⟩, pointer := some .a }) .host .calSave .ok
      [2, 0, 5] = true := by decide +kernel

/-- R188: STATUS begins with the part code 0x0640 and the slot counts. -/
theorem test_status :
    (statusPayload (holding [inPoint, { outPoint with slotState := .held }])).take 6 = [0x06, 0x40, 1, 1, 0, 0] ∧
      (statusPayload running).length = 47 := by decide +kernel

/-- R179, R180: SOFT_RESET clears the directory, keeps the driven code, and drops the maintenance port's request. -/
theorem test_soft_reset :
    let s := served .softReset []
      { askedMaint .peek [] (holding [⟨2, .active, .output outConfig ⟨500, 500, none⟩⟩]) with lastServed := .maintenance }
    s.slot 0 = none ∧ s.channel 0 = ⟨none, 500, false⟩ ∧ s.maintPort = { PortState.initial with refusedFlag := true } := by
  decide +kernel

/-- R176, R177: BAD_REQUEST for an unknown code, DENIED for a DEFINE on the maintenance port. -/
theorem test_unknown_and_denied :
    (after (.unknownRequestCode .host 0xFF 7 [])
      { running with hostPort := { PortState.initial with mode := .executing ⟨0xFF, 7, []⟩ } }).hostPort.mode =
        .responseReady (responseFrame ⟨0xFF, 7, []⟩ .badRequest []) ∧
    replied (after (.deniedOnMaintenancePort 0x10 7 []) (askedMaint .define [] running)) .maintenance .define .denied
      [] = true := by decide +kernel

/-- R168: a whole frame is taken into an IDLE port and refused during the load. -/
theorem test_request_frame :
    (after (.requestFrame .spi (requestFrameOf (requestOf .peek 7 []))) running).hostPort.mode =
      .executing (requestOf .peek 7 []) ∧
    (after (.requestFrame .spi (requestFrameOf (requestOf .peek 7 []))) State.reset).hostPort.refusedFlag = true := by
  decide +kernel

/-- R167, R172: a length byte of 65 sets CHECK; 0 on SPI is a fetch and sets nothing. -/
theorem test_length_byte :
    (after (.lengthByteCheckFail .spi 65) running).hostPort.checkFlag = true ∧
      (after (.requestFrame .spi [0]) running).hostPort.checkFlag = false := by decide +kernel

/-- R167: a frame cut short sets CHECK. -/
theorem test_frame_abort :
    (after (.frameAbort (.i2c 0x62) [5, 0x30]) running).maintPort.checkFlag = true := by decide +kernel

/-- R172: the host's first byte decides the window: 0 sends the response of a snapshot with RDY, 5 sends 0xFF. -/
theorem test_first_byte_decides :
    let s : State := { running with hostPort := { PortState.initial with mode := .responseReady [6] } }
    (after (.statusByte .spi (some 0)) s).fetchByte .host 0 = some 6 ∧
      (after (.statusByte .spi (some 5)) s).fetchByte .host 0 = some 0xFF := by decide +kernel

/-- R174: a read ended by a byte not acknowledged sends and delivers nothing more, and the response stays. -/
theorem test_read_ended :
    let s := after (.frameAbort (.i2c 0x62) [])
      { running with maintPort := ⟨.responseReady [6], false, false, some ⟨1, .fetch⟩⟩ }
    s.fetchByte .maintenance 0 = none ∧
      (after (.responseDelivery (.i2c 0x62)) s).maintPort = ⟨.responseReady [6], false, false, none⟩ := by
  decide +kernel

/-- R169, R170: the byte shows REFUSED and CHECK and clears them; during the load it is 0x40 and clears nothing. -/
theorem test_status_byte :
    (after (.statusByte .spi (some 0)) { running with hostPort := ⟨.idle, true, true, none⟩ }).hostPort =
      ⟨.idle, false, false, some ⟨0x0C, .fetch⟩⟩ ∧
    (after (.statusByte .spi (some 0)) { State.reset with hostPort := ⟨.idle, true, false, none⟩ }).hostPort =
      ⟨.idle, true, false, some ⟨0x40, .fetch⟩⟩ := by decide +kernel

/-- R171: the delivery leaves the port IDLE when the snapshot showed RDY, and does nothing when it did not. -/
theorem test_response_delivery :
    (after (.responseDelivery .spi)
      { running with hostPort := ⟨.responseReady [6], false, false, some ⟨0x01, .fetch⟩⟩ }).hostPort.mode = .idle ∧
    (after (.responseDelivery .spi)
      { running with hostPort := ⟨.responseReady [6], false, false, some ⟨0x02, .fetch⟩⟩ }).hostPort.mode =
        .responseReady [6] := by decide +kernel

/-- R174, R182: a hard reset with A1 high gives address 0x64 and waits for the load. -/
theorem test_hard_reset :
    (after (.hardReset (.whole .nReset true false)) (holding [inPoint])).maintAddress = 0x64 ∧
      (after (.hardReset (.whole .nReset true false)) (holding [inPoint])).slot 0 = none ∧
      (after (.hardReset (.whole .nReset true false)) (holding [inPoint])).phase = .loading := by decide +kernel

/-- R160: a load of bank B, newer by the serial comparison; a load with no VALID bank raises STORE_EMPTY. -/
theorem test_table_load :
    (after .tableLoad { State.reset with bankA := ⟨.valid, 65535, []⟩, bankB := ⟨.valid, 1, [.valid 3 32768]⟩ }).calEntry
      (.input 0) = .valid 3 32768 ∧ (after .tableLoad State.reset).events.storeEmpty = true := by decide +kernel

/-- R51: remaining 1 falls to 0 and is loaded with the period. -/
theorem test_class_tick :
    (after .classTick (running.setClass 0 ⟨true, 10, 1, 0, false, false⟩)).scanClass 0 =
      ⟨true, 10, 10, 0, false, true⟩ := by decide +kernel

/-- 3.6: the class 0 pass goes in at the head, ahead of the waiting entries of class 3. -/
theorem test_class_expiry_pass :
    (after (.classExpiry 0) { (holding [inPoint]).setClass 0 ⟨true, 10, 10, 0, false, true⟩ with
      queue := [⟨5, 3⟩] }).queue = [⟨0, 0⟩, ⟨5, 3⟩] := by decide +kernel

/-- 12.4, E4: an overrun that takes missed passes from 2 to 3 raises QUALITY. -/
theorem test_class_expiry_overrun :
    let s := after (.classExpiry 0)
      ((holding [⟨1, .active, .input inConfig { goodPart with missedPasses := 2 }⟩]).setClass 0
        ⟨true, 10, 10, 2, false, true⟩)
    s.attention = [⟨0, ⟨false, true⟩, 1⟩] ∧ s.events.classOverrun = true ∧ (s.scanClass 0).overrun = true := by
  decide +kernel

/-- 4.10, start: the head is removed and the unit settles. -/
theorem test_grant_starts :
    let s := after .grant { holding [inPoint] with queue := [⟨0, 0⟩] }
    s.unit = .settling ∧ s.queue = [] ∧ s.selection = some ⟨.se 0, 0⟩ := by decide +kernel

/-- R73: a WAITING run is served before the queue. -/
theorem test_grant_lends :
    let s := after .grant { holding [inPoint] with queue := [⟨0, 0⟩], calRun := .waiting .allInputs }
    s.unit = .lent ∧ s.calRun = .running .allInputs (.start (.input 0) .zero 0) := by decide +kernel

/-- R77: settling leads to sampling. -/
theorem test_settle_end : (after .settleEnd { running with unit := .settling }).unit = .sampling := by decide +kernel

/-- 4.10: tag 55's fourth sample writes corrected 10059 and value 4929. -/
theorem test_sample_completion :
    let c : InputConfig := ⟨.se 6, 1, .x4, 1, some ⟨2048, -100⟩, some 6000, none, 0⟩
    let s := after (.sample 10002) (converting [⟨55, .active, .input c goodPart⟩] c 30004 (.valid 12 33000))
    s.slot 0 = some ⟨55, .active, .input c ⟨10059, 4929, true, .normal, 10, 0, true, .normal⟩⟩ ∧
      (s.scanClass 1).outstanding = 0 ∧ s.unit = .idle := by decide +kernel

/-- 12.2: the completion of a RETIRING slot frees it and returns its claim. -/
theorem test_sample_of_retiring :
    let s := after (.sample 5) (converting [{ inPoint with slotState := .retiring }] inConfig 0 .invalid)
    s.slot 0 = none ∧ s.claim 0 = ⟨none, 0⟩ ∧ s.attention = [] := by decide +kernel

/-- R149: the samples of an entry begin when its settling ends. -/
theorem test_cal_settle_end :
    (after .calSettleEnd { running with calRun := .running .allInputs (.start (.input 0) .zero 0) }).calRun =
      .running .allInputs ⟨.input 0, .zero, true, 0, 0, 0⟩ := by decide +kernel

/-- 8.8: the last reference sample makes entry 1 VALID at 11, 33131 and ends a run of RANGE 1. -/
theorem test_cal_sample_ends_run :
    let s := after (.calSample 25938) { running with
      unit := .lent, convGrant := .cal,
      calRun := .running (.range 1) ⟨.input 1, .reference, true, 1634062, 63, 730⟩ }
    s.calEntry (.input 1) = .valid 11 33131 ∧ s.unit = .idle ∧
      (s.events.calDone.map RunResult.outcome) = some .completed := by decide +kernel

/-- R162, R163: erase, the twelfth record, mark. -/
theorem test_erase_end :
    (after .eraseEnd { running with save := some ⟨.b, 5, running.calTable, .erase⟩, bankB := ⟨.part, 3, [.invalid]⟩ }).bankB
      = ⟨.empty, 0, []⟩ := by decide +kernel

/-- R163: a record that reads back otherwise ends the save FAILED. -/
theorem test_entry_record_write :
    (after (.entryRecordWrite (.valid 1 32768))
      { running with save := some ⟨.b, 5, running.calTable, .write 0⟩ }).events.saveDone = some .failed := by
  decide +kernel

/-- 12.4: after MARK bank B is VALID with generation 5 and is current. -/
theorem test_mark_end :
    let s := after .markEnd { running with save := some ⟨.b, 5, running.calTable, .mark⟩, pointer := some .a }
    s.bankB.state = .valid ∧ s.bankB.generation = 5 ∧ s.pointer = some .b := by decide +kernel

/-- R164: power lost in a save's WRITE leaves its bank PARTIAL and gives no SAVE_DONE. -/
theorem test_power_loss :
    let s := after .powerLoss { running with
      save := some ⟨.b, 5, running.calTable, .write 3⟩, bankB := ⟨.part, 0, [.invalid]⟩ }
    s.save = none ∧ s.bankB.state = .part ∧ s.events.saveDone = none := by decide +kernel

/-! ## Witnesses: states and operands that meet the hypotheses of the statements -/

/-- StepRunsFrontCommand: a command waits, and none waits. -/
theorem witness_step :
    ({ running with pending := [.settleEnd, .rampTick] } : State).pending = [.settleEnd, .rampTick] ∧
      running.pending = [] := by decide

theorem test_step_takes_the_front :
    step { running with pending := [.settleEnd, .rampTick] } = .next { running with pending := [.rampTick] } := rfl

theorem test_no_row_gives_bits : decodeTableWord 16 0 = none ∧ State.withFetchWord running 16 0 = running := by
  decide +kernel

/-- EngineServesInTurn: both ports claim, and the one not served last is served; and a grant that is not due. -/
theorem witness_engine :
    (askedMaint .peek [] (asked .peek [] running)).serves .host (requestOf .peek 7 []) = true ∧
      (askedMaint .peek [] (asked .peek [] running)).serves .maintenance (requestOf .peek 7 []) = false ∧
      running.serves .host (requestOf .peek 7 []) = false ∧
      running.serves .host ⟨0xFF, 7, []⟩ = false ∧ (0x10 : Byte) = requestCode .define ∧
      running.serves .maintenance ⟨0x10, 7, []⟩ = false ∧
      (0x11 : Byte) ∉ [0x10, 0x13, 0x14, 0x15, 0x16, 0x20, 0x42, 0x50, 0x51, 0x58, (0x6F : Byte)] := by decide

/-- RefusalsChangeNothing: a NOT_FOUND, a MODIFY refused with its position, an unknown code, a denied request. -/
theorem witness_refusals :
    (exec (.lookup .host 7 [0, 1]) (asked .lookup [0, 1] running) = .next (served .lookup [0, 1] running) ∧
      ((served .lookup [0, 1] running).port .host).mode =
        .responseReady (responseFrame (requestOf .lookup 7 [0, 1]) .notFound []) ∧ Status.notFound ≠ .ok) ∧
    (exec (.modify .host 7 []) (asked .modify [] running) = .next (served .modify [] running) ∧
      ((served .modify [] running).port .host).mode =
        .responseReady (responseFrame (requestOf .modify 7 []) .badField [0])) ∧
    ({ running with maintPort := { PortState.initial with mode := .executing ⟨0x70, 0, []⟩ } } : State).serves
      .maintenance ⟨0x70, 0, []⟩ = true ∧
    (askedMaint .softReset [] running).serves .maintenance (requestOf .softReset 7 []) = true := by
  refine ⟨⟨rfl, ?_⟩, ⟨rfl, ?_⟩, ?_⟩ <;> decide +kernel

/-- FrameTakenOrRefused: a payload of 59 bytes; IDLE and running, busy, loading, and another address. -/
theorem witness_frame :
    (List.replicate 59 (0 : Byte)).length ≤ 59 ∧ running.answers .spi = true ∧
      (running.port .host).mode = .idle ∧ running.phase = .running ∧
      (asked .peek [] running).answers .spi = true ∧ ((asked .peek [] running).port .host).mode ≠ .idle ∧
      State.reset.answers (.i2c 0x62) = true ∧ State.reset.phase = .loading ∧
      running.answers (.i2c 0x63) = false := by decide

/-- DamagedFrameSetsCheck: lengths 5 and 64 with a wrong CRC, 64 cut short at 63, lengths 4, 65 and on I2C 0. -/
theorem witness_damage :
    running.answers .spi = true ∧ running.answers (.i2c 0x62) = true ∧
    (([5, 0, 0, 0, 0] : List Byte).take 5).drop 3 ≠ crcBytes (([5, 0, 0, 0, 0] : List Byte).take 3) ∧
    (let b : List Byte := 64 :: List.replicate 63 0; (byteAt b 0).toNat ≤ b.length ∧
      (b.take 64).drop 62 ≠ crcBytes (b.take 62)) ∧
    (let b : List Byte := 64 :: List.replicate 62 0; b.length < (byteAt b 0).toNat ∧ b ≠ []) ∧
    (4 : Byte).toNat < 5 ∧ 64 < (65 : Byte).toNat ∧ ((0 : Byte).toNat < 5 ∧ ¬ (Link.i2c 0x62 = .spi ∧ (0 : Byte) = 0)) := by
  decide +kernel

/-- StatusByteSnapshot: running, loading, and a part without power. -/
theorem witness_status_byte :
    (running.answers .spi = true ∧ running.phase ≠ .loading) ∧
      (State.reset.answers .spi = true ∧ State.reset.phase = .loading) ∧
      ({ running with phase := .off } : State).answers .spi = false := by decide

/-- ResponseDelivery: a fetch with RDY; a window of a frame with RDY, a fetch without RDY, one without a response; no
open transfer; and the end of a fetch. -/
theorem witness_delivery :
    let s (x : Option Transfer) : State := { running with hostPort := ⟨.responseReady [6], false, false, x⟩ }
    ((s (some ⟨1, .fetch⟩)).answers .spi = true ∧ ((s (some ⟨1, .fetch⟩)).port .host).mode = .responseReady [6] ∧
      ((s (some ⟨1, .fetch⟩)).port .host).openTransfer = some ⟨1, .fetch⟩ ∧ (1 : Byte).getLsbD 0 = true) ∧
    (((s (some ⟨1, .request⟩)).port .host).openTransfer = some ⟨1, .request⟩ ∧
      TransferKind.request ≠ .fetch) ∧
    (((s (some ⟨2, .fetch⟩)).port .host).openTransfer = some ⟨2, .fetch⟩ ∧ (2 : Byte).getLsbD 0 = false) ∧
    (∀ frame, ({ running with hostPort := ⟨.idle, false, false, some ⟨1, .fetch⟩⟩ } : State).hostPort.mode ≠
      .responseReady frame) ∧
    ((s none).port .host).openTransfer = none ∧
    (∀ b, ((s (some ⟨1, .fetch⟩)).port .host).openTransfer ≠ some ⟨b, .request⟩) := by
  refine ⟨?_, ?_, ?_, nofun, ?_, nofun⟩ <;> decide

/-- FrameRoundTrip: the longest payloads. -/
theorem witness_frame_round_trip :
    (List.replicate 59 (0 : Byte)).length ≤ 59 ∧ (List.replicate 249 (0 : Byte)).length ≤ 249 := by
  rw [List.length_replicate, List.length_replicate]; omega

/-- HardResetRestores: nRESET to a running part, power to one without, the end, a pulse in each phase, nRESET without power. -/
theorem witness_hard_reset :
    running.phase ≠ .off ∧ ({ running with phase := .inReset } : State).phase = .inReset ∧
      State.reset.phase = .loading ∧ running.phase = .running ∧ ({ running with phase := .off } : State).phase = .off := by
  decide

/-- TableLoadChoosesBank: loading with no bank, either bank and both banks VALID, at differences 32767 and 32768; and running. -/
theorem witness_table_load :
    let s (a b : BankState) (g : Nat) : State := { State.reset with bankA := ⟨a, 1, []⟩, bankB := ⟨b, g, []⟩ }
    ((s .empty .part 1).phase = .loading ∧ (s .empty .part 1).bankA.state ≠ .valid ∧
      (s .empty .part 1).bankB.state ≠ .valid) ∧
    ((s .valid .empty 1).bankA.state = .valid ∧ (s .valid .empty 1).bankB.state ≠ .valid) ∧
    ((s .part .valid 1).bankA.state ≠ .valid ∧ (s .part .valid 1).bankB.state = .valid) ∧
    ((s .valid .valid 32768).bankA.state = .valid ∧ (s .valid .valid 32768).bankB.state = .valid ∧
      (((s .valid .valid 32768).bankB.generation : Int) - ((s .valid .valid 32768).bankA.generation : Int)) % 65536 =
        32767) ∧
    (((s .valid .valid 32769).bankB.generation : Int) - ((s .valid .valid 32769).bankA.generation : Int)) % 65536 = 32768 ∧
    running.phase ≠ .loading := by decide

/-- SoftResetClearsAndKeeps: served with an empty payload while the maintenance port has a request, and with a payload. -/
theorem witness_soft_reset :
    (Served (askedMaint .peek [] (asked .softReset [] running)) .host .softReset 7 [] ∧
      (askedMaint .peek [] (asked .softReset [] running)).maintPort.mode = .executing (requestOf .peek 7 [])) ∧
    Served (asked .softReset [0] running) .host .softReset 7 [0] := by decide

/-! ### The directory -/

/-- A DEFINE payload of an input point: tag 1, SE pin 0, range 0, one sample, class 0. -/
def defineIn : List Byte := [0, 1, 1, 1, 0, 0, 1, 0, 0, 0, 0, 0, 0, 0, 0, 0, 0, 0, 0, 0, 0, 0, 0, 0, 0, 0]

/-- A DEFINE payload of an output point: tag 65534, channel 0, clamp −1000..1000, slew 200. -/
def defineOut : List Byte := [255, 254, 2, 0, 0xFC, 0x18, 0x03, 0xE8, 1, 0, 200, 0, 0]

/-- A directory with no FREE slot. -/
def full : State := { running with slots := Vector.replicate 64 (some inPoint) }

/-- DefineRefusals, one line a check: length, tags 0 and 65535, tag held, no FREE slot, fields. -/
theorem witness_define_refusals :
    (Served (asked .define [0, 1, 1] running) .host .define 7 [0, 1, 1] ∧ ([0, 1, 1] : List Byte).length ≠ 26) ∧
    (u16 ([0, 0] ++ defineIn.drop 2) 0 = 0 ∧ u16 ([255, 255] ++ defineIn.drop 2) 0 = 65535 ∧
      u8 ([0, 0] ++ defineIn.drop 2) 2 = 1 ∧ ([0, 0] ++ defineIn.drop 2).length = 26) ∧
    (∃ e ∈ (asked .define defineIn (holding [inPoint])).tagIndex, e.tag = u16 defineIn 0) ∧
    (DefinePasses full defineIn ∧ ∀ i, full.slot i ≠ none) ∧
    (DefinePasses running (defineIn.set 5 8) ∧ inputConfigOf (defineIn.set 5 8) = none) ∧
    (DefinePasses running (defineOut.set 9 128) ∧ outputConfigOf (defineOut.set 9 128) = none) := by
  refine ⟨?_, ?_, ?_, ?_, ?_, ?_⟩ <;> decide +kernel

/-- DefineRefusals, the last checks: pins held in the other mode, a channel owned, a channel under calibration. -/
theorem witness_define_conflicts :
    (let s := holding [⟨9, .active, .input { inConfig with source := .diff 0 } goodPart⟩];
      DefinePasses s defineIn ∧ (∃ i, s.slot i = none) ∧ inputConfigOf defineIn = some inConfig ∧
        ∃ p ∈ inConfig.source.pins, (s.claim p).mode ≠ none ∧ (s.claim p).mode ≠ some inConfig.source.mode) ∧
    (DefinePasses (holding [outPoint]) defineOut ∧ outputConfigOf defineOut = some outConfig ∧
      ((holding [outPoint]).channel outConfig.channel).owner ≠ none) ∧
    (DefinePasses (running.setUnderCal 0 true) defineOut ∧
      ((running.setUnderCal 0 true).channel outConfig.channel).owner = none ∧
      ((running.setUnderCal 0 true).channel outConfig.channel).underCal = true) := by decide +kernel

/-- DefineFields: payloads with every optional part present give configurations. -/
theorem witness_define_fields :
    inputConfigOf [0, 1, 1, 2, 7, 7, 16, 3, 1, 0x80, 0, 0x80, 0, 0, 1, 0, 0, 3, 232, 1, 0, 0, 0, 200, 1, 44] =
      some ⟨.diff 7, 7, .x16, 3, some ⟨-32768, -8388608⟩, some 1000, some 200, 300⟩ ∧
    outputConfigOf [0, 1, 2, 3, 0x80, 0, 0x7F, 0xFF, 1, 0x7F, 0xFF, 3, 1] =
      some ⟨3, -32768, 32767, some 32767, 3, true⟩ := by decide +kernel

/-- DefineInput: slot 1 is the lowest FREE slot, and pin 0 is held in the same mode. -/
theorem witness_define_input :
    let payload := [0, 9] ++ defineIn.drop 2
    let s := asked .define payload (holding [inPoint])
    Served s .host .define 7 payload ∧ DefinePasses s payload ∧ u8 payload 2 = 1 ∧ s.slot 1 = none ∧
      (∀ j : SlotId, j < 1 → s.slot j ≠ none) ∧ inputConfigOf payload = some inConfig ∧
      ∀ p ∈ inConfig.source.pins, (s.claim p).mode = none ∨ (s.claim p).mode = some inConfig.source.mode := by
  decide +kernel

/-- DefineOutput: channel 0 driven at 1001, above the clamp. -/
theorem witness_define_output :
    let s := asked .define defineOut (running.setChannel 0 ⟨none, 1001, false⟩)
    Served s .host .define 7 defineOut ∧ DefinePasses s defineOut ∧ u8 defineOut 2 = 2 ∧ s.slot 0 = none ∧
      (∀ j : SlotId, j < 0 → s.slot j ≠ none) ∧ outputConfigOf defineOut = some outConfig ∧
      (s.channel outConfig.channel).owner = none ∧ (s.channel outConfig.channel).underCal = false ∧
      (s.channel outConfig.channel).driven = 1001 := by decide +kernel

/-- NamedPointRefusals: a length, tags 0 and 65535, tags 1 and 65534 not held. -/
theorem witness_named_refusals :
    Served (asked .retire [0] running) .host .retire 7 [0] ∧
    Served (askedMaint .lookup [0, 0] running) .maintenance .lookup 7 [0, 0] ∧ u16 [0, 0] 0 = 0 ∧
    Served (asked .ack [255, 255] running) .host .ack 7 [255, 255] ∧ u16 [255, 255] 0 = 65535 ∧
    (Served (asked .stage [255, 254, 0, 0] running) .host .stage 7 [255, 254, 0, 0] ∧
      (asked .stage [255, 254, 0, 0] running).findPoint 65534 = none) ∧
    running.findPoint 1 = none := by decide +kernel

/-- LookupReturnsConfiguration: an input point with every optional part, and an output point. -/
theorem witness_lookup :
    let c : InputConfig := ⟨.diff 7, 7, .x16, 3, some ⟨-32768, -8388608⟩, some 1000, some 200, 65535⟩
    let r : PointRecord := ⟨1, .held, .input c goodPart⟩
    (Served (asked .lookup [0, 1] (holding [r])) .host .lookup 7 [0, 1] ∧
      Names (asked .lookup [0, 1] (holding [r])) [0, 1] 2 0 r ∧ r.tag ≤ 65534 ∧ inputInRange c) ∧
    (Names (holding [outPoint]) [0, 2] 2 0 outPoint ∧ isCode outConfig.clampMin ∧ isCode outConfig.clampMax ∧
      ∀ n, outConfig.slew = some n → n ≤ 32767) := by
  refine ⟨⟨?_, ?_, ?_, ⟨?_, ?_, ?_, ?_⟩⟩, ?_, ?_, ?_, ?_⟩
  all_goals first | decide +kernel | simp [outConfig, isCode]

/-- NextReturnsSuccessor: lengths and tags for each case. -/
theorem witness_next :
    let s := askedMaint .nextTag [0, 0] (holding [inPoint])
    Served s .maintenance .nextTag 7 [0, 0] ∧ u16 [0, 0] 0 ≤ 65534 ∧
      (∃ e ∈ s.tagIndex, u16 [0, 0] 0 < e.tag ∧ ∀ e' ∈ s.tagIndex, u16 [0, 0] 0 < e'.tag → e.tag ≤ e'.tag) ∧
      (∀ e ∈ s.tagIndex, e.tag ≤ u16 [0, 1] 0) ∧ u16 [255, 255] 0 = 65535 ∧
      Served (asked .nextTag [255, 255] running) .host .nextTag 7 [255, 255] := by decide +kernel

/-- A MODIFY payload: tag 1, two items, range 7 and deadband 300. -/
def modifyIn : List Byte := [0, 1, 2, 0x11, 7, 0, 0, 0, 0, 0, 0x17, 1, 44, 0, 0, 0, 0]

/-- A MODIFY payload: tag 2, one item, clamp max 250. -/
def modifyOut : List Byte := [0, 2, 1, 0x21, 0, 250, 0, 0, 0, 0]

/-- ModifyItems: items that pass, of each kind. -/
theorem witness_modify_items :
    checkItems ModifyField.ofInput setInputField [] 1 (itemsOf modifyIn) inConfig =
        .passed { inConfig with range := 7, deadband := 300 } ∧
      checkItems (fun f => !f.ofInput) setOutputField [] 1 (itemsOf modifyOut) outConfig =
        .passed { outConfig with clampMax := 250 } := by decide +kernel

/-- ModifyRefusals: the count, the tag, the tag not held, an item of each failure at position 2, no failure, the limits,
the pins, the clamp. -/
theorem witness_modify_refusals :
    (Served (asked .modify [0, 1, 0] running) .host .modify 7 [0, 1, 0] ∧ ¬ ModifyFits [0, 1, 0] ∧
      ¬ ModifyFits [0, 1, 9]) ∧
    (ModifyFits ([0, 0] ++ modifyIn.drop 2) ∧ u16 ([0, 0] ++ modifyIn.drop 2) 0 = 0) ∧
    (ModifyFits modifyIn ∧ 1 ≤ u16 modifyIn 0 ∧ u16 modifyIn 0 ≤ 65534 ∧ running.findPoint (u16 modifyIn 0) = none) ∧
    (holding [inPoint]).findPoint (u16 modifyIn 0) = some (0, inPoint) ∧
    (itemVerdict true modifyIn 1 = none ∧ itemVerdict true modifyIn 2 = none) ∧
    (itemVerdict true (modifyIn.set 10 0x20) 2 = some .wrongKind ∧ itemVerdict true (modifyIn.set 10 0x01) 2 = some .badField ∧
      itemVerdict true (modifyIn.set 10 0x11) 2 = some .badField ∧ itemVerdict true (modifyIn.set 4 8) 1 = some .badField) ∧
    (let c : InputConfig := { inConfig with highLimit := some 1000, lowLimit := some 400 };
      checkItems ModifyField.ofInput setInputField [] 1 (itemsOf modifyIn) c =
          .passed { c with range := 7, deadband := 300 } ∧ (1000 : Int) - 300 ≤ 400 + 300) ∧
    (let s := holding [inPoint, ⟨3, .active, .input { inConfig with source := .se 2 } goodPart⟩];
      let p : List Byte := [0, 1, 1, 0x10, 2, 2, 0, 0, 0, 0];
      checkItems ModifyField.ofInput setInputField [] 1 (itemsOf p) inConfig =
          .passed { inConfig with source := .diff 2 } ∧
        ∃ q ∈ (Source.diff 2).pins, ¬ (q ∈ (Source.se 0).pins ∧ (s.claim q).count ≤ 1) ∧ (s.claim q).mode ≠ none ∧
          (s.claim q).mode ≠ some .diff) ∧
    (checkItems (fun f => !f.ofInput) setOutputField [] 1 (itemsOf (modifyOut.set 4 0x80)) outConfig =
      .passed { outConfig with clampMax := -32518 }) := by decide +kernel

/-- ModifyInput: pair 5 to SE pin 5, which its own claims alone hold (1.5). -/
theorem witness_modify_input :
    let c : InputConfig := { inConfig with source := .diff 5 }
    let r : PointRecord := ⟨201, .active, .input c goodPart⟩
    let p : List Byte := [0, 201, 1, 0x10, 1, 5, 0, 0, 0, 0]
    let s := asked .modify p (holding [r])
    Served s .host .modify 7 p ∧ ModifyFits p ∧ 1 ≤ u16 p 0 ∧ u16 p 0 ≤ 65534 ∧ s.findPoint (u16 p 0) = some (0, r) ∧
      checkItems ModifyField.ofInput setInputField [] 1 (itemsOf p) c = .passed { inConfig with source := .se 5 } ∧
      limitsOk { inConfig with source := .se 5 } = true ∧
      (∀ q ∈ (Source.se 5).pins, (q ∈ c.source.pins ∧ (s.claim q).count ≤ 1) ∨ (s.claim q).mode = none ∨
        (s.claim q).mode = some .se) := by decide +kernel

/-- ModifyOutput: clamp max 250 under target 300. -/
theorem witness_modify_output :
    let r : PointRecord := ⟨2, .active, .output outConfig ⟨300, 300, some 300⟩⟩
    let s := asked .modify modifyOut (holding [r])
    Served s .host .modify 7 modifyOut ∧ ModifyFits modifyOut ∧ 1 ≤ u16 modifyOut 0 ∧ u16 modifyOut 0 ≤ 65534 ∧
      s.findPoint (u16 modifyOut 0) = some (0, r) ∧
      checkItems (fun f => !f.ofInput) setOutputField [] 1 (itemsOf modifyOut) outConfig =
        .passed { outConfig with clampMax := 250 } ∧
      outConfig.clampMin ≤ 250 ∧ outConfig.clampMin ≤ 300 ∧ (300 : Int) ≤ outConfig.clampMax := by decide +kernel

/-- HoldSuspends, ReleaseResumes and RetireRemoves: an ACTIVE and a HELD point of each kind, and a point in flight. -/
theorem witness_hold_release_retire :
    let a := holding [inPoint, outPoint]
    let h := holding [{ inPoint with slotState := .held }, { outPoint with slotState := .held }]
    (Served (asked .hold [0, 1] a) .host .hold 7 [0, 1] ∧ Names (asked .hold [0, 1] a) [0, 1] 2 0 inPoint ∧
      Names a [0, 2] 2 1 outPoint ∧ Names h [0, 1] 2 0 { inPoint with slotState := .held }) ∧
    (Served (asked .release [0, 2] h) .host .release 7 [0, 2] ∧
      Names (asked .release [0, 2] h) [0, 2] 2 1 { outPoint with slotState := .held }) ∧
    (Served (asked .retire [0, 1] a) .host .retire 7 [0, 1] ∧ a.inFlight = none) ∧
    (Names (converting [inPoint] inConfig 0 .invalid) [0, 1] 2 0 inPoint ∧
      ∃ k, (converting [inPoint] inConfig 0 .invalid).inFlight = some k ∧ k.slot = 0) := by
  refine ⟨?_, ?_, ?_, ?_, ⟨_, rfl, rfl⟩⟩ <;> decide +kernel

/-! ### Scan and converter -/

/-- ClassSetsTimer: the smallest and the largest period, and each refusal. -/
theorem witness_class_set :
    (Served (asked .classSet [3, 1, 255, 255] running) .host .classSet 7 [3, 1, 255, 255] ∧ u8 [3, 1, 255, 255] 0 = 3 ∧
      u8 [3, 1, 255, 255] 1 ≤ 1 ∧ 1 ≤ u16 [3, 1, 255, 255] 2 ∧ 1 ≤ u16 [0, 0, 0, 1] 2) ∧
    Served (asked .classSet [4, 0, 0, 1] running) .host .classSet 7 [4, 0, 0, 1] ∧ 4 ≤ u8 [4, 0, 0, 1] 0 ∧
      2 ≤ u8 [0, 2, 0, 1] 1 ∧ u16 [0, 1, 0, 0] 2 = 0 := by decide

/-- ClassTickCountsDown and RampTickMovesTowardTarget: each phase; a class that counts, one at 1, one disabled. -/
theorem witness_ticks :
    State.reset.phase = .loading ∧ running.phase = .running ∧ ({ running with phase := .off } : State).phase = .off ∧
      (running.scanClass 0).enabled = false ∧
      (let s := running.setClass 0 ⟨true, 10, 2, 0, false, false⟩;
        (s.scanClass 0).enabled = true ∧ 1 < (s.scanClass 0).remaining) ∧
      (let s := running.setClass 0 ⟨true, 10, 1, 0, false, false⟩;
        (s.scanClass 0).enabled = true ∧ (s.scanClass 0).remaining ≤ 1) := by decide

/-- ClassExpiryAccountsAndStartsPass: an overrun, a pass, none due. -/
theorem witness_class_expiry :
    let s (n : Nat) := (holding [inPoint]).setClass 0 ⟨true, 10, 10, n, false, true⟩
    ((s 1).scanClass 0).enabled = true ∧ ((s 1).scanClass 0).expiryDue = true ∧ 0 < ((s 1).scanClass 0).outstanding ∧
      ((s 0).scanClass 0).expiryDue = true ∧ ((s 0).scanClass 0).outstanding = 0 ∧
      (running.scanClass 0).enabled = false := by decide +kernel

/-- GrantServesClaim: a WAITING run, a head to start, and no claim. -/
theorem witness_grant :
    let s : State := { holding [inPoint] with queue := [⟨0, 0⟩] }
    (({ s with calRun := .waiting .all } : State).unit = .idle ∧
      ({ s with calRun := .waiting .all } : State).calRun = .waiting .all) ∧
    (s.unit = .idle ∧ s.queue = [⟨0, 0⟩] ∧ s.slot 0 = some ⟨1, .active, .input inConfig goodPart⟩ ∧
      ∀ sc, s.calRun ≠ .waiting sc) ∧
    (running.queue = [] ∧ ∀ sc, running.calRun ≠ .waiting sc) := by
  refine ⟨?_, ⟨?_, ?_, ?_, nofun⟩, ?_, nofun⟩ <;> decide +kernel

/-- SettleAndSample: settling, and a first sample of two, at and beyond the ends. -/
theorem witness_settle_and_sample :
    let s : State := { running with unit := .sampling, inFlight := some ⟨0, 0, .x2, 0, 0, false, false⟩,
                                    selection := some ⟨.se 0, 0⟩ }
    ({ running with unit := .settling } : State).unit = .settling ∧ running.unit ≠ .settling ∧ running.unit ≠ .sampling ∧
      s.unit = .sampling ∧ s.inFlight = some ⟨0, 0, .x2, 0, 0, false, false⟩ ∧ s.selection = some ⟨.se 0, 0⟩ ∧
      0 + 1 < Oversample.samples .x2 ∧ (if (32768 : Int) < codeMin 0 then codeMin 0 else
        if codeMax 0 < 32768 then codeMax 0 else 32768) = 32767 := by decide

/-- WrittenCompletion: 4.10's completion, with the entry VALID and with it INVALID. -/
theorem witness_written_completion :
    let c : InputConfig := ⟨.se 6, 1, .x4, 1, some ⟨2048, -100⟩, some 6000, none, 0⟩
    let s (e : Coefficients) := converting [⟨55, .active, .input c goodPart⟩] c 30004 e
    ∀ e ∈ [Coefficients.valid 12 33000, .invalid],
      (s e).unit = .sampling ∧ (s e).inFlight = some ⟨0, 1, .x4, 3, 30004, false, false⟩ ∧
        (s e).selection = some ⟨.se 6, 1⟩ ∧ Oversample.samples .x4 ≤ 3 + 1 ∧
        (s e).slot 0 = some ⟨55, .active, .input c goodPart⟩ ∧
        (10001 : Int) * Oversample.samples .x4 ≤ 30004 + 10002 ∧ (30004 : Int) + 10002 < (10001 + 1) * Oversample.samples .x4 ∧
        (s e).calEntry (.input 1) = e := by decide +kernel

/-- DiscardedCompletion: a superseded conversion, and a RETIRING point. -/
theorem witness_discarded_completion :
    let s := converting [{ inPoint with slotState := .retiring }] inConfig 0 .invalid
    s.unit = .sampling ∧ s.inFlight = some ⟨0, 0, .x1, 0, 0, false, false⟩ ∧ s.selection = some ⟨.se 0, 0⟩ ∧
      s.slot 0 = some ⟨1, .retiring, .input inConfig goodPart⟩ ∧ SlotState.retiring ≠ .active ∧
      ({ s with inFlight := some ⟨0, 0, .x1, 0, 0, false, true⟩ } : State).inFlight =
        some ⟨0, 0, .x1, 0, 0, false, true⟩ := by decide +kernel

/-- LimitStateAndQuality: values just inside and outside each comparison. -/
theorem witness_grades :
    let c : InputConfig := { inConfig with highLimit := some 1000, lowLimit := some 200, deadband := 100 }
    (∃ h, c.highLimit = some h ∧ h < 1001) ∧ (∃ l, c.lowLimit = some l ∧ (199 : Int) < l) ∧
      ¬ (∃ h, c.highLimit = some h ∧ h < 1000) ∧ ¬ (∃ l, c.lowLimit = some l ∧ (200 : Int) < l) ∧
      limitsOk c = true ∧ evalLimit c .high 899 = .normal := by
  refine ⟨⟨1000, rfl, by decide⟩, ⟨200, rfl, by decide⟩, ?_, ?_, by decide, by decide⟩
  all_goals rintro ⟨h, e, hl⟩; simp at e; subst e; revert hl; decide

/-! ### Attention, outputs, calibration, store -/

/-- PeekShowsHead, AckRemovesAndReturns and ReadReturnsEntries: payloads served, with the list empty and not. -/
theorem witness_attention :
    let s : State := { holding [inPoint] with attention := [⟨0, ⟨true, false⟩, 15⟩] }
    (Served (asked .peek [] s) .host .peek 7 [] ∧ s.attention = [⟨0, ⟨true, false⟩, 15⟩] ∧ running.attention = []) ∧
    (Served (askedMaint .ack [0, 1] s) .maintenance .ack 7 [0, 1] ∧ Names s [0, 1] 2 0 inPoint ∧
      s.attentionAt 0 = some ⟨0, ⟨true, false⟩, 15⟩ ∧ (holding [inPoint]).attentionAt 0 = none) ∧
    (Served (asked .ack [0, 0] running) .host .ack 7 [0, 0] ∧ u16 [0, 0] 0 = 0) ∧
    (let p : List Byte := [4, 0, 1, 0, 2, 0, 9, 255, 254];
      Served (asked .read p (holding [inPoint, outPoint])) .host .read 7 p ∧ p.length = 1 + 2 * u8 p 0 ∧
        (∀ m, m < u8 p 0 → 1 ≤ u16 p (1 + 2 * m) ∧ u16 p (1 + 2 * m) ≤ 65534) ∧
        (holding [inPoint, outPoint]).findPoint 1 = some (0, inPoint) ∧
        (holding [inPoint, outPoint]).findPoint 2 = some (1, outPoint) ∧ (holding [inPoint, outPoint]).findPoint 9 = none) ∧
    (u8 [1, 255, 255] 0 = 1 ∧ u16 [1, 255, 255] (1 + 2 * 0) = 65535 ∧ u8 [5] 0 = 5) := by decide +kernel

/-- StageSetsCode: an input point, a point the maintenance port may not write, codes at and beyond the clamp. -/
theorem witness_stage :
    (Served (asked .stage [0, 1, 0, 0] (holding [inPoint])) .host .stage 7 [0, 1, 0, 0] ∧
      Names (holding [inPoint]) [0, 1, 0, 0] 4 0 inPoint) ∧
    (Served (askedMaint .stage [0, 2, 0x03, 0xE8] (holding [outPoint])) .maintenance .stage 7 [0, 2, 0x03, 0xE8] ∧
      Names (holding [outPoint]) [0, 2, 0x03, 0xE8] 4 0 outPoint ∧ outConfig.operatorWritable = false) ∧
    s16 [0, 2, 0x03, 0xE8] 2 = outConfig.clampMax ∧ outConfig.clampMax < s16 [0, 2, 0x03, 0xE9] 2 ∧
      s16 [0, 2, 0xFC, 0x17] 2 < outConfig.clampMin := by decide +kernel

/-- CommitAndDiscard: set 3 is served, set 4 is refused; a staged ACTIVE and a staged HELD member. -/
theorem witness_commit_and_discard :
    let s := holding [⟨2, .active, .output outConfig ⟨0, 0, some 800⟩⟩,
      ⟨3, .held, .output { outConfig with channel := 1 } ⟨0, 0, some 5⟩⟩]
    Served (askedMaint .commit [3] s) .maintenance .commit 7 [3] ∧ u8 [3] 0 = 3 ∧ 4 ≤ u8 [4] 0 ∧
      Served (asked .discard [0] s) .host .discard 7 [0] ∧
      s.slot 0 = some ⟨2, .active, .output outConfig ⟨0, 0, some 800⟩⟩ ∧
      s.slot 1 = some ⟨3, .held, .output { outConfig with channel := 1 } ⟨0, 0, some 5⟩⟩ := by decide +kernel

/-- RampTickMovesTowardTarget: an ACTIVE point short of its target by its slew and by one more. -/
theorem witness_ramp :
    (holding [⟨2, .active, .output outConfig ⟨0, 200, none⟩⟩]).slot 0 =
        some ⟨2, .active, .output outConfig ⟨0, 200, none⟩⟩ ∧
      (0 : Int) - ((200 : Nat) : Int) ≤ 200 ∧ (200 : Int) ≤ 0 + ((200 : Nat) : Int) ∧
      ¬ (201 : Int) ≤ 0 + ((200 : Nat) : Int) := by decide +kernel

/-- A run of scope ALL that measures channel 1. -/
def measuring : State :=
  { running.setUnderCal 1 true with
    unit := .lent, convGrant := .cal, calRun := .running .all ⟨.output 1, .minus, true, -1507520, 63, 1526400⟩ }

/-- PinCodesOfChannels and FrameTakenOrRefused: a part in the load, and its address acknowledged. -/
theorem witness_lines :
    let s : State := { State.reset with maintAddress := 0x65 }
    PhaseInv s ∧ s.phase ≠ .running ∧ s.acknowledges 0x65 = true := by
  refine ⟨⟨?_, ?_, ?_, ?_, ?_⟩, ?_, ?_⟩ <;> decide +kernel

/-- PinCodesOfChannels: each phase and each kind of entry; a channel under calibration. -/
theorem witness_pin_codes :
    State.reset.phase = .loading ∧ (running.phase = .running ∧ (running.channel 0).underCal = false ∧
      running.calEntry (.output 0) = .invalid) ∧
    ({ running with calTable := put running.calTable (CalEntry.place (.output 0)) (.valid 5 33000) } : State).calEntry
      (.output 0) = .valid 5 33000 ∧
    (measuring.channel 1).underCal = true ∧
    measuring.calRun = .running .all ⟨.output 1, .minus, true, -1507520, 63, 1526400⟩ := by decide +kernel

/-- CalibrateStartsRun, CalAbortEndsRun and CalSaveStartsSave: each refusal and each acceptance. -/
theorem witness_calibrate :
    (Served (asked .calibrate [2, 7] running) .host .calibrate 7 [2, 7] ∧ u8 [2, 7] 0 = 2 ∧ u8 [2, 7] 1 = 7 ∧
      8 ≤ u8 [2, 8] 1 ∧ u8 [0, 0] 0 = 0 ∧ 4 < u8 [5, 0] 0 ∧ running.calRun = .idle ∧ running.save = none) ∧
    (Served (asked .calAbort [] measuring) .host .calAbort 7 [] ∧ measuring.calRun ≠ .idle) ∧
    ({ running with calRun := .waiting .outputs } : State).calRun = .waiting .outputs ∧
    (Served (asked .calSave [] running) .host .calSave 7 [] ∧ running.pointer = none) ∧
    (let s : State := { running with bankB := ⟨.valid, 65535, []⟩, pointer := some .b };
      s.pointer = some .b ∧ BankName.a ≠ .b ∧ 1 ≤ (s.bank .b).generation ∧ (s.bank .b).generation ≤ 65535) := by
  decide +kernel

/-- CalMeasurement: a settling measurement, the 64th sample of an entry's first measurement, and no run. -/
theorem witness_cal_measurement :
    let s (m : Measurement) : State := { running with calRun := .running (.range 1) m }
    (s ⟨.input 1, .zero, false, 0, 0, 0⟩).calRun = .running (.range 1) ⟨.input 1, .zero, false, 0, 0, 0⟩ ∧
      (s ⟨.input 1, .zero, true, 9, 63, 0⟩).calRun = .running (.range 1) ⟨.input 1, .zero, true, 9, 63, 0⟩ ∧
      (s ⟨.input 1, .zero, true, 9, 62, 0⟩).calRun = .running (.range 1) ⟨.input 1, .zero, true, 9, 62, 0⟩ ∧
      ∀ sc m, running.calRun ≠ .running sc m := ⟨rfl, rfl, rfl, nofun⟩

/-- CalEntryEnd, an input entry: 8.8's entry 1 at its last reference sample. -/
theorem witness_cal_entry_end_input :
    let m : Measurement := ⟨.input 1, .reference, true, 1634062, 63, 730⟩
    ({ running with calRun := .running (.range 1) m } : State).calRun = .running (.range 1) m ∧
      Scope.entries (.range 1) = [] ++ m.entry :: [] ∧ (11 : Int) = m.earlier.tdiv 64 ∧
      ¬ (25938 : Int) < codeMin 1 ∧ ¬ codeMax 1 < 25938 ∧ (1660000 : Int) = m.sum + 25938 ∧
      Measured 11 (32768 * (if (1 : RangeCode).val < 4 then 26214 else 52428) * 64) (1660000 - 64 * 11)
        (.valid 11 33131) := by
  refine ⟨rfl, rfl, by decide, by decide, by decide, by decide, by decide, fun g _ h => ?_⟩
  have hg : g = 33131 := by simp [nearest] at h; omega
  subst hg; decide

/-- CalEntryEnd, a channel read through an INVALID entry 0. -/
theorem witness_cal_entry_end_output :
    let m : Measurement := ⟨.output 1, .minus, true, -1507520, 63, 1526400⟩
    measuring.calRun = .running .all m ∧
      Scope.entries .all = (inputEntries ++ [.output 0]) ++ m.entry :: [.output 2, .output 3] ∧
      (-1531520 : Int) = m.sum + -24000 ∧ measuring.calEntry (.input 0) = .invalid ∧
      Measured ((-(1526400 + -1531520 : Int)).tdiv (2 * 64)) (32768 * 48000 * 64) (1526400 - -1531520)
        (.valid 40 32919) := by
  refine ⟨rfl, rfl, by decide, by decide +kernel, by decide, fun g _ h => ?_⟩
  have hg : g = 32919 := by simp only [nearest] at h; omega
  subst hg; decide

/-- SavePhases: a save in each phase, at the first and the last record. -/
theorem witness_save_phases :
    let s (ph : SavePhase) : State := { running with save := some ⟨.a, 1, running.calTable, ph⟩ }
    (s .erase).save = some ⟨.a, 1, running.calTable, .erase⟩ ∧
      (s (.write 11)).save = some ⟨.a, 1, running.calTable, .write (11 : Fin 12).val⟩ ∧
      (s .mark).save = some ⟨.a, 1, running.calTable, .mark⟩ ∧
      (∀ v, running.save = some v → v.phase ≠ .erase) := by
  refine ⟨rfl, rfl, rfl, nofun⟩

/-- StatusReport: served, with a run and without, a current bank and none. -/
theorem witness_status_report :
    Served (askedMaint .status [] running) .maintenance .status 7 [] ∧ running.queue.length ≤ 64 ∧
      running.attention.length ≤ 64 ∧
      (∀ c, (running.scanClass c).period ≤ 65535 ∧ (running.scanClass c).outstanding ≤ 64) ∧
      running.calRun = .idle ∧ running.pointer = none := by decide

/-! ### A state that meets every invariant -/

/-- The entries of a bank whose records are all VALID. -/
def twelve : List Coefficients := List.replicate 12 (.valid 3 32768)

/-- Slot 0 an ACTIVE input point, queued and listed; slot 1 an ACTIVE output point on channel 0; slot 2 a RETIRING input
point whose conversion is in flight; a save in its WRITE; the last sample waits. -/
def working : State :=
  { (holding [inPoint, outPoint, ⟨1, .retiring, .input { inConfig with scanClass := 1 } goodPart⟩]) with
    queue := [⟨0, 0⟩]
    classes := #v[⟨true, 10, 10, 1, false, false⟩, ⟨true, 100, 1, 1, true, true⟩, ScanClass.initial 2, ScanClass.initial 3]
    unit := .sampling
    selection := some ⟨.se 0, 0⟩
    inFlight := some ⟨2, 1, .x2, 1, 32767, true, false⟩
    attention := [⟨0, ⟨true, false⟩, 15⟩]
    events := ⟨none, none, true, false⟩
    bankA := ⟨.valid, 65535, twelve⟩
    bankB := ⟨.part, 0, [.invalid]⟩
    pointer := some .a
    save := some ⟨.b, 1, running.calTable, .write 1⟩
    pending := [.sample 5] }

theorem working_slot : ∀ i, working.slot i =
    if i = 0 then some inPoint else if i = 1 then some outPoint
    else if i = 2 then some ⟨1, .retiring, .input { inConfig with scanClass := 1 } goodPart⟩ else none := by
  decide +kernel

theorem working_inputs {i tag st c v} (h : working.slot i = some ⟨tag, st, .input c v⟩) :
    (i = 0 ∧ tag = 1 ∧ st = .active ∧ c = inConfig ∧ v = goodPart) ∨
      (i = 2 ∧ tag = 1 ∧ st = .retiring ∧ c = { inConfig with scanClass := 1 } ∧ v = goodPart) := by
  rw [working_slot] at h
  split at h
  · simp_all [inPoint]
  · split at h
    · simp [outPoint] at h
    · split at h <;> simp_all

theorem working_outputs {i tag st k q} (h : working.slot i = some ⟨tag, st, .output k q⟩) :
    i = 1 ∧ tag = 2 ∧ st = .active ∧ k = outConfig ∧ q = ⟨0, 0, none⟩ := by
  rw [working_slot] at h
  split at h
  · simp [inPoint] at h
  · split at h
    · simp_all [outPoint]
    · split at h <;> simp_all

theorem working_index : working.tagIndex = [⟨1, 0⟩, ⟨2, 1⟩] := by decide +kernel

theorem witness_index : IndexInv working where
  sorted := by rw [working_index]; decide
  inRange := by rw [working_index]; decide
  exact t i := by
    rw [working_index, working_slot]
    by_cases h0 : i = 0
    · subst h0; simp [inPoint, eq_comm]
    · by_cases h1 : i = 1
      · subst h1; simp [outPoint, eq_comm]
      · by_cases h2 : i = 2 <;> simp [h0, h1, h2]

theorem witness_claims : ClaimInv working where
  count := by decide +kernel
  free := by decide +kernel
  mode p i tag st c v h hp := by
    rcases working_inputs h with ⟨-, -, -, rfl, -⟩ | ⟨-, -, -, rfl, -⟩ <;>
      (simp [inConfig, Source.pins] at hp; subst hp; decide +kernel)

theorem witness_channels : ChannelInv working where
  owner c i h := by
    have : c = 0 ∧ i = 1 := by revert h; revert i c; decide +kernel
    obtain ⟨rfl, rfl⟩ := this
    exact ⟨2, .active, outConfig, ⟨0, 0, none⟩, by rw [working_slot]; rfl, nofun, rfl, by decide +kernel⟩
  owned i tag st k q h := by
    obtain ⟨rfl, -, -, rfl, -⟩ := working_outputs h; decide +kernel
  calFree := by decide +kernel

theorem witness_codes : CodeInv working where
  clamp i tag st k q h := by
    obtain ⟨-, -, -, rfl, rfl⟩ := working_outputs h; simp [isCode, outConfig]
  staged i tag st k q x h hx := by obtain ⟨-, -, -, rfl, rfl⟩ := working_outputs h; cases hx
  live i tag st k q h := by obtain ⟨-, -, -, rfl, rfl⟩ := working_outputs h; simp [isCode]
  slew i tag st k q n h hn := by
    obtain ⟨-, -, -, rfl, rfl⟩ := working_outputs h; cases hn; decide
  driven c := by revert c; unfold isCode; decide +kernel

theorem witness_converter : ConverterInv working where
  flight := by decide
  samples k h := by cases h; decide
  selected := by decide
  grant := by decide
  lent := ⟨nofun, fun ⟨_, _, h⟩ => nomatch h⟩
  unselected := nofun

theorem witness_run : RunInv working where
  inScope := nofun
  phase := nofun
  samples := nofun
  underCal c := by
    constructor
    · intro h
      have : ∀ c, (working.channel c).underCal = false := by decide +kernel
      rw [this] at h; nomatch h
    · rintro ⟨_, _, h, _⟩; nomatch h

theorem witness_queue : QueueInv working where
  nodup := by decide
  entries e h := by
    have : e = ⟨0, 0⟩ := List.mem_singleton.1 h
    subst this
    exact ⟨1, inConfig, goodPart, by rw [working_slot]; rfl, rfl⟩
  ordered := by decide
  notInFlight k e hk h := by
    have : e = ⟨0, 0⟩ := List.mem_singleton.1 h
    subst this; cases hk; decide
  outstanding := by decide
  flying k h := by cases h; exact ⟨1, .retiring, _, goodPart, by rw [working_slot]; rfl⟩
  retiring i r h hr := by
    rw [working_slot] at h
    split at h
    · cases h; nomatch hr
    · split at h
      · cases h; nomatch hr
      · split at h
        · next hi => exact ⟨_, rfl, hi.symm⟩
        · nomatch h

theorem witness_phase : PhaseInv working where
  ports h := absurd rfl h
  idle h := absurd rfl h
  classes h := absurd rfl h
  empty h := absurd rfl h
  address := by decide +kernel

theorem witness_store : StoreInv working where
  distinct := nofun
  complete n h := by
    cases n
    · decide
    · nomatch h
  current n h := by cases h; rfl
  noneValid := nofun
  target v h := by cases h; exact ⟨rfl, rfl, by decide, by decide, rfl⟩
  exclusive := by decide

theorem witness_table : TableInv working where
  table e := by
    have : working.calEntry e = .invalid := by cases e with | input r => revert r; decide +kernel | output c => revert c; decide +kernel
    rw [this]; trivial
  banks n h x hx := by
    cases n
    · have : x = .valid 3 32768 := List.eq_of_mem_replicate hx
      subst this; exact (by decide : acceptable 3 32768 = true)
    · nomatch h
  snapshot v h j := by
    cases h
    have : (running.calTable).get j = .invalid := by revert j; decide +kernel
    rw [this]; trivial
  written v h _ x hx := by
    cases h
    have : x = .invalid := List.mem_singleton.1 hx
    subst this; trivial

theorem witness_attention_list : AttentionInv working where
  nodup := by decide
  entries := by decide
  listed e h := by
    have : e = ⟨0, ⟨true, false⟩, 15⟩ := List.mem_singleton.1 h
    subst this
    exact ⟨1, .active, inConfig, goodPart, by rw [working_slot]; rfl, nofun⟩

theorem witness_classes : ClassInv working where
  period := by decide
  remaining := by decide
  due := by decide

theorem witness_values : ValueInv working where
  fields i tag st c v h := by
    rcases working_inputs h with ⟨-, -, -, rfl, -⟩ | ⟨-, -, -, rfl, -⟩ <;>
      exact ⟨nofun, nofun, nofun, by decide⟩
  limits i tag st c v h := by rcases working_inputs h with ⟨-, -, -, rfl, -⟩ | ⟨-, -, -, rfl, -⟩ <;> rfl
  codes i tag st c v h := by
    rcases working_inputs h with ⟨-, -, -, -, rfl⟩ | ⟨-, -, -, -, rfl⟩ <;> simp [goodPart]
  value i tag st c v h := by
    rcases working_inputs h with ⟨-, -, -, -, rfl⟩ | ⟨-, -, -, -, rfl⟩ <;> simp [goodPart]
  missed i tag st c v h := by
    rcases working_inputs h with ⟨-, -, -, -, rfl⟩ | ⟨-, -, -, -, rfl⟩ <;> simp [goodPart]
  noValue i tag st c v h hv := by
    rcases working_inputs h with ⟨-, -, -, -, rfl⟩ | ⟨-, -, -, -, rfl⟩ <;> rfl
  high i tag st c v h hv := by
    rcases working_inputs h with ⟨-, -, -, -, rfl⟩ | ⟨-, -, -, -, rfl⟩ <;> nomatch hv
  low i tag st c v h hv := by
    rcases working_inputs h with ⟨-, -, -, -, rfl⟩ | ⟨-, -, -, -, rfl⟩ <;> nomatch hv
  sum k sel hk hs := by cases hk; cases hs; decide

/-- The statements of what every step keeps, EveryCommandCompletes, FindPointByTag and SaveCutShort: every invariant
holds in one running state that steps and has a save in progress. -/
theorem witness_kept :
    (IndexInv working ∧ ClaimInv working ∧ ChannelInv working ∧ CodeInv working ∧ ConverterInv working ∧ RunInv working ∧
      QueueInv working ∧ PhaseInv working ∧ StoreInv working ∧ TableInv working ∧ AttentionInv working ∧
      ClassInv working ∧ ValueInv working) ∧
    step working = .next (after (.sample 5) { working with pending := [] }) ∧ working.phase = .running ∧
    working.save = some ⟨.b, 1, running.calTable, .write 1⟩ :=
  ⟨⟨witness_index, witness_claims, witness_channels, witness_codes, witness_converter, witness_run, witness_queue,
    witness_phase, witness_store, witness_table, witness_attention_list, witness_classes, witness_values⟩, rfl, rfl, rfl⟩

/-- ReadReturnsEntries, NextReturnsSuccessor and PeekShowsHead: a request served in a state that meets the invariants they take. -/
theorem witness_served_with_invariants :
    (let s := asked .read [2, 0, 1, 0, 9] working;
      Served s .host .read 7 [2, 0, 1, 0, 9] ∧ IndexInv s ∧ CodeInv s ∧ ValueInv s) ∧
    (let s := askedMaint .nextTag [0, 1] working; Served s .maintenance .nextTag 7 [0, 1] ∧ IndexInv s) ∧
    (let s := asked .peek [] working; Served s .host .peek 7 [] ∧ IndexInv s ∧ AttentionInv s) := by
  have hi {k p} : IndexInv (asked k p working) := ⟨witness_index.sorted, witness_index.inRange, witness_index.exact⟩
  refine ⟨⟨by decide, hi, ?_, ?_⟩, ⟨by decide, ?_⟩, ⟨by decide, hi, ?_⟩⟩
  · exact ⟨witness_codes.clamp, witness_codes.staged, witness_codes.live, witness_codes.slew, witness_codes.driven⟩
  · exact ⟨witness_values.fields, witness_values.limits, witness_values.codes, witness_values.value,
      witness_values.missed, witness_values.noValue, witness_values.high, witness_values.low, witness_values.sum⟩
  · exact ⟨witness_index.sorted, witness_index.inRange, witness_index.exact⟩
  · exact ⟨witness_attention_list.nodup, witness_attention_list.entries, witness_attention_list.listed⟩

/-- PinCodesOfChannels and ConverterKept: a run that measures a channel meets RunInv. -/
theorem witness_measuring : RunInv measuring ∧ ConverterInv measuring where
  left :=
    { inScope := fun sc m h => by cases h; decide
      phase := fun sc m h => by cases h; exact .inr rfl
      samples := fun sc m h => by cases h; decide
      underCal := fun c => by
        have h : ∀ c, (measuring.channel c).underCal = true ↔ CalEntry.output c = .output 1 := by decide +kernel
        rw [h]
        constructor
        · intro e; exact ⟨_, _, rfl, e.symm⟩
        · rintro ⟨_, _, e, h⟩; cases e; exact h.symm }
  right :=
    { flight := by decide
      samples := nofun
      selected := by decide
      grant := by decide
      lent := ⟨fun _ => ⟨_, _, rfl⟩, fun _ => rfl⟩
      unselected := fun _ => rfl }

end Sys2Proof.Tests
end

section
/-! PROOF. The Tag Index: every step keeps it as R16 says, and through it a tag finds its point. The slots are seen through
views, functions of one slot's contents: what a command does to a view is said once for all invariants. -/

namespace Sys2Proof.Machine

/-- What every move leads to from a condition that does not see the queue of commands, every step leads to. -/
theorem step_keeps {P Q : State → Prop} (hp : ∀ s rest, P s → P { s with pending := rest })
    (hm : ∀ s t, P s → Move s t → Q t) {s t : State} (hs : P s) (h : step s = .next t) : Q t := by
  obtain ⟨rest, hmove⟩ := move_of_step h
  exact hm _ _ (hp s rest hs) hmove

variable {s t : State} {i : SlotId} {β : Type}

/-! ## Views of the slots -/

/-- What a function of a slot's contents shows of every slot. -/
def State.view (s : State) (f : Slot → β) (i : SlotId) : β := f (s.slot i)

/-- A view of a slot that is replaced. -/
theorem view_of_put {x : Slot} (f : Slot → β) (h : t.slots = put s.slots i x) :
    t.view f = Function.update (s.view f) i (f x) := by
  funext j
  simp only [State.view, State.slot, h, get_put, Function.update_apply, eq_comm (a := j)]
  split <;> rfl

/-- A view that the new contents of a slot show as before. -/
theorem view_of_put_same {x : Slot} (f : Slot → β) (h : t.slots = put s.slots i x) (hx : f x = f (s.slot i)) :
    t.view f = s.view f := by
  rw [view_of_put f h, hx]; exact Function.update_eq_self i (s.view f)

theorem view_of_slots (f : Slot → β) (h : t.slots = s.slots) : t.view f = s.view f := by
  funext j; simp [State.view, State.slot, h]

theorem view_of_replicate {x : Slot} (f : Slot → β) (h : t.slots = Vector.replicate 64 x) :
    t.view f = fun _ => f x := by
  funext j; simp [State.view, State.slot, h]

/-- A view that a change of every record leaves as it was. -/
theorem view_of_map {g : PointRecord → PointRecord} (f : Slot → β)
    (h : t.slots = mapTable (fun x => x.map g) s.slots) (hg : ∀ r, f (some (g r)) = f (some r)) :
    t.view f = s.view f := by
  funext j
  simp only [State.view, State.slot, h, get_mapTable]
  cases s.slots.get j with
  | none => rfl
  | some r => exact hg r

/-- The record changes of the scan and of the outputs leave tag, slot state and what is not theirs of the body. -/
theorem expireRecord_cases (c : ClassId) (r : PointRecord) :
    expireRecord c r = r ∨ ∃ k v, r.body = .input k v ∧ expireRecord c r = { r with body := .input k (expiredPart v) } := by
  rcases r with ⟨tag, st, ⟨k, v⟩ | ⟨k, q⟩⟩ <;> unfold expireRecord <;> split <;> simp

theorem commitRecord_cases (u : SetId) (r : PointRecord) :
    commitRecord u r = r ∨ ∃ c k, r.body = .output c k ∧ r.slotState = .active ∧
      commitRecord u r = { r with body := .output c (committedCodes c k) } := by
  rcases r with ⟨tag, st, ⟨k, v⟩ | ⟨k, q⟩⟩ <;> unfold commitRecord
  · simp
  · by_cases h : st = .active ∧ k.updateSet = u <;> simp [h]

theorem discardRecord_cases (u : SetId) (r : PointRecord) :
    discardRecord u r = r ∨ ∃ c k, r.body = .output c k ∧
      discardRecord u r = { r with body := .output c { k with staged := none } } := by
  rcases r with ⟨tag, st, ⟨k, v⟩ | ⟨k, q⟩⟩ <;> unfold discardRecord
  · simp
  · by_cases h : k.updateSet = u ∧ st ≠ .retiring <;> simp [h]

theorem rampRecord_cases (r : PointRecord) :
    rampRecord r = r ∨ ∃ c k, r.body = .output c k ∧
      rampRecord r = { r with body := .output c { k with live := rampStep c.slew k.live k.target } } := by
  rcases r with ⟨tag, st, ⟨k, v⟩ | ⟨k, q⟩⟩ <;> unfold rampRecord
  · simp
  · by_cases h : st = .active ∧ q.live ≠ q.target <;> simp [h]

/-- What a completion does to the directory: nothing, or it frees a RETIRING slot, or it writes a wanted result to an
ACTIVE input record (R85, R93). -/
theorem complete_cases (s : State) (k : Conversion) (r : RangeCode) :
    ((s.complete k r).slots = s.slots ∧ (s.complete k r).pinClaims = s.pinClaims ∧
      ∀ rec, s.slot k.slot = some rec → rec.slotState ≠ .retiring) ∨
    (∃ rec, s.slot k.slot = some rec ∧ rec.slotState = .retiring ∧ (s.complete k r).slots = put s.slots k.slot none ∧
      (s.complete k r).pinClaims = (s.freeSlot k.slot rec).pinClaims) ∨
    ∃ tag c v, s.slot k.slot = some ⟨tag, .active, .input c v⟩ ∧ k.superseded = false ∧
      (s.complete k r).slots = put s.slots k.slot (some ⟨tag, .active, .input c (writtenPart c v
        (correctedCode (s.calEntry (.input r)) r (rawCode k.sum k.oversample))
        (conditionOf (s.calEntry (.input r)) k.overrange))⟩) ∧
      (s.complete k r).pinClaims = s.pinClaims := by
  unfold State.complete State.deliver
  rcases s.slot k.slot with _ | ⟨tag, _ | _ | _, ⟨c, v⟩ | ⟨c, q⟩⟩ <;> simp
  cases k.superseded <;> simp

/-! ## The tables after a hard reset -/

@[simp] theorem slot_reset (i : SlotId) : State.reset.slot i = none := get_replicate _ _
@[simp] theorem claim_reset (p : PinId) : State.reset.claim p = ⟨none, 0⟩ := get_replicate _ _
@[simp] theorem channel_reset (c : ChannelId) : State.reset.channel c = ⟨none, 0, false⟩ := get_replicate _ _
@[simp] theorem scanClass_reset (c : ClassId) : State.reset.scanClass c = ScanClass.initial c := by revert c; decide

theorem view_reset (f : Slot → β) : State.reset.view f = fun _ => f none := view_of_replicate f rfl

/-! ## The Tag Index -/

/-- The tag by which a slot is found: that of an ACTIVE or HELD record (R16). -/
def heldTag (x : Slot) : Option Nat := x.bind fun r => if r.slotState = .retiring then none else some r.tag

theorem heldTag_eq_some {x : Slot} {tag : Nat} :
    heldTag x = some tag ↔ ∃ r, x = some r ∧ r.tag = tag ∧ r.slotState ≠ .retiring := by
  cases x <;> simp [heldTag, and_comm]

/-- The Tag Index agrees with the tags the slots hold (R16). -/
structure IndexOk (index : List IndexPair) (held : SlotId → Option Nat) : Prop where
  sorted  : index.Pairwise (fun a b => a.tag < b.tag)
  inRange : ∀ e ∈ index, 1 ≤ e.tag ∧ e.tag ≤ 65534
  exact   : ∀ tag i, ⟨tag, i⟩ ∈ index ↔ held i = some tag

theorem indexInv_iff : IndexInv s ↔ IndexOk s.tagIndex (s.view heldTag) := by
  constructor
  · intro ⟨hs, hr, he⟩; exact ⟨hs, hr, fun tag i => (he tag i).trans heldTag_eq_some.symm⟩
  · intro ⟨hs, hr, he⟩; exact ⟨hs, hr, fun tag i => (he tag i).trans heldTag_eq_some⟩

theorem IndexOk.empty : IndexOk [] fun _ => none := ⟨.nil, by simp, by simp⟩

section
variable {index : List IndexPair} {held : SlotId → Option Nat} {tag : Nat}

/-- A new tag goes in with its slot (R17). -/
theorem IndexOk.insert (h : IndexOk index held) (hi : held i = none) (h1 : 1 ≤ tag) (h2 : tag ≤ 65534)
    (hn : lookupTag index tag = none) :
    IndexOk (insertPair tag i index) (Function.update held i (some tag)) where
  sorted := sorted_insertPair h.sorted (lookupTag_eq_none.1 hn)
  inRange e he := by
    rcases (mem_insertPair _ _ _ _).1 he with rfl | he
    · exact ⟨h1, h2⟩
    · exact h.inRange e he
  exact tag' j := by
    rw [mem_insertPair, h.exact]
    by_cases hj : j = i
    · subst hj; simp [hi, eq_comm]
    · simp [hj]

/-- A held tag goes out, and with it its slot alone (R17). -/
theorem IndexOk.remove (h : IndexOk index held) (hi : held i = some tag) :
    IndexOk (removeTag tag index) (Function.update held i none) where
  sorted := h.sorted.sublist List.filter_sublist
  inRange e he := h.inRange e ((mem_removeTag _ _ _).1 he).1
  exact tag' j := by
    rw [mem_removeTag, h.exact]
    by_cases hj : j = i
    · subst hj
      simp only [hi, Option.some.injEq, Function.update_self, reduceCtorEq, iff_false, not_and, not_not]
      exact Eq.symm
    · have hne : held j = some tag' → tag' ≠ tag := by
        rintro hj' rfl
        have he := eq_of_tag_eq h.sorted ((h.exact _ _).2 hj') ((h.exact _ _).2 hi) rfl
        cases he; exact hj rfl
      simpa [hj] using hne
end

/-- A tag finds exactly the ACTIVE or HELD slot whose record carries it (R18). -/
theorem findPoint_eq_some (hi : IndexOk s.tagIndex (s.view heldTag)) {tag : Nat} {r : PointRecord} :
    s.findPoint tag = some (i, r) ↔ s.slot i = some r ∧ r.tag = tag ∧ r.slotState ≠ .retiring := by
  constructor
  · intro h
    have hr := slot_of_findPoint h
    have hl : lookupTag s.tagIndex tag = some i := by
      unfold State.findPoint at h
      split at h
      · nomatch h
      next j hj => simp only [Option.map_eq_some_iff, Prod.mk.injEq] at h; obtain ⟨_, -, rfl, -⟩ := h; exact hj
    obtain ⟨r', hr', htag, hst⟩ := heldTag_eq_some.1 ((hi.exact _ _).1 (mem_of_lookupTag hl))
    cases hr.symm.trans hr'
    exact ⟨hr, htag, hst⟩
  · rintro ⟨hr, rfl, hst⟩
    have hm := (hi.exact r.tag i).2 (heldTag_eq_some.2 ⟨r, hr, rfl, hst⟩)
    simp [State.findPoint, lookupTag_of_mem hi.sorted hm, hr]

/-- Every edit keeps the Tag Index. -/
theorem indexOk_of_edit (h : Edit s t) (hi : IndexOk s.tagIndex (s.view heldTag)) :
    IndexOk t.tagIndex (t.view heldTag) := by
  have same : t.tagIndex = s.tagIndex → t.view heldTag = s.view heldTag → IndexOk t.tagIndex (t.view heldTag) :=
    fun ht hv => by rwa [ht, hv]
  cases h with
  | none => exact hi
  | defineInput payload hf h1 h2 hn =>
    rw [view_of_put (s := s) heldTag rfl]
    exact hi.insert (by simp [State.view, ((lowestFree_eq_some s).1 hf).1, heldTag]) h1 h2 hn
  | defineOutput payload hf h1 h2 hn =>
    rw [view_of_put (s := s) heldTag rfl]
    exact hi.insert (by simp [State.view, ((lowestFree_eq_some s).1 hf).1, heldTag]) h1 h2 hn
  | modifyInput items hf =>
    refine same (by rw [modifyInput_frame]) (view_of_put_same heldTag (by rw [modifyInput_frame]) ?_)
    simp [slot_of_findPoint hf, heldTag]
  | modifyOutput items hf =>
    refine same (by simp [State.modifyOutput]) (view_of_put_same heldTag (slots_modifyOutput ..) ?_)
    simp [slot_of_findPoint hf, heldTag]
  | @hold tag i r hf =>
    have hr := slot_of_findPoint hf
    refine same (by rw [holdPoint_frame]) (view_of_put_same heldTag (slots_holdPoint s hr) ?_)
    cases hst : r.slotState <;> simp [hr, heldTag, hst]
  | @release tag i r hf =>
    have hr := slot_of_findPoint hf
    refine same (by rw [releasePoint_frame]) (view_of_put_same heldTag (slots_releasePoint s hr) ?_)
    cases hst : r.slotState <;> simp [hr, heldTag, hst]
  | @retire tag i r hf =>
    have hr := slot_of_findPoint hf
    have hst : r.slotState ≠ .retiring := ((findPoint_eq_some hi).1 hf).2.2
    rw [view_of_put heldTag (slots_retirePoint s i r), retirePoint_frame]
    have := hi.remove (i := i) (tag := r.tag) (by simp [State.view, hr, heldTag, hst])
    split <;> exact this
  | stage hf hb =>
    refine same (by simp) (view_of_put_same heldTag (writeOutput_slots ..) ?_)
    simp [slot_of_findPoint hf, heldTag]
  | commit u =>
    refine same rfl (view_of_map heldTag rfl fun r => ?_)
    rcases commitRecord_cases u r with h | ⟨_, _, _, _, h⟩ <;> simp [h, heldTag]
  | discard u =>
    refine same rfl (view_of_map heldTag rfl fun r => ?_)
    rcases discardRecord_cases u r with h | ⟨_, _, _, h⟩ <;> simp [h, heldTag]
  | softReset => rw [view_of_replicate (x := none) heldTag rfl]; exact .empty
  | configure | unlist | deviceAck | calibrate | cancel => exact hi
  | abort => exact same (by rw [abortRunning_frame]) (view_of_slots _ (by rw [abortRunning_frame]))
  | startSave => exact same (by rw [startSave_frame]) (view_of_slots _ (by rw [startSave_frame]))

/-- A completion leaves the tags held: a slot it frees is RETIRING, and a result it writes leaves tag and slot state. -/
theorem view_heldTag_complete (s : State) (k : Conversion) (r : RangeCode) :
    (s.complete k r).view heldTag = s.view heldTag := by
  rcases complete_cases s k r with ⟨hs, -⟩ | ⟨rec, hr, hst, hs, -⟩ | ⟨tag, c, v, hr, -, hs, -⟩
  · exact view_of_slots _ hs
  · exact view_of_put_same _ hs (by simp [hr, heldTag, hst])
  · exact view_of_put_same _ hs (by simp [hr, heldTag])

/-- Every move keeps the Tag Index. -/
theorem indexOk_of_move (h : Move s t) (hi : IndexOk s.tagIndex (s.view heldTag)) :
    IndexOk t.tagIndex (t.view heldTag) := by
  have same : t.tagIndex = s.tagIndex → t.view heldTag = s.view heldTag → IndexOk t.tagIndex (t.view heldTag) :=
    fun ht hv => by rwa [ht, hv]
  cases h with
  | ports h => rw [h.only]; exact hi
  | answer p f he =>
    have := indexOk_of_edit he hi
    rwa [placeResponse_eq_withPorts]
  | reset => rw [view_of_replicate (x := none) heldTag rfl]; exact .empty
  | @expiry c =>
    refine same (by rw [takeExpiry_frame]) (view_of_map heldTag (by rw [takeExpiry_frame]) fun r => ?_)
    rcases expireRecord_cases c r with h | ⟨_, _, _, h⟩ <;> simp [h, heldTag]
  | complete => exact same (by rw [complete_frame]) (view_heldTag_complete ..)
  | ramp =>
    refine same rfl (view_of_map heldTag rfl fun r => ?_)
    rcases rampRecord_cases r with h | ⟨_, _, _, h⟩ <;> simp [h, heldTag]
  | load => exact same (by rw [loadTable_frame]) (view_of_slots _ (by rw [loadTable_frame]))
  | lend => exact same (by rw [lend_frame]) (view_of_slots _ (by rw [lend_frame]))
  | calEnd => exact same (by rw [finishEntry_frame]) (view_of_slots _ (by rw [finishEntry_frame]))
  | record => exact same (by rw [writeRecord_frame]) (view_of_slots _ (by rw [writeRecord_frame]))
  | erased => exact same (by simp) (view_of_slots _ (by simp))
  | marked => exact same (by simp [State.endSave]) (view_of_slots _ (by simp [State.endSave]))
  | endReset | pulse | classTick | start | settled | sample | calSettled | calSample | calSecond => exact hi

/-- Settles O15: the Tag Index pairs a tag with exactly the slot that holds it. -/
theorem findPointByTag : Obligations.FindPointByTag := fun _ _ _ _ h => findPoint_eq_some (indexInv_iff.1 h)

/-- Settles O52: every move keeps the Tag Index. -/
theorem indexKept : Obligations.IndexKept := fun _ _ hs h =>
  step_keeps (P := IndexInv) (fun _ _ h => ⟨h.sorted, h.inRange, h.exact⟩)
    (fun _ _ h m => indexInv_iff.2 (indexOk_of_move m (indexInv_iff.1 h))) hs h

end Sys2Proof.Machine
end

section
/-! PROOF. The Pin Claim Table: every step keeps each count equal to the users of its pin, in one mode (R20 to R22). -/

namespace Sys2Proof.Machine

variable {s t : State} {i : SlotId} {src : Source}

/-- The source that a slot claims pins for: that of an input record in any slot state (R20). -/
def sourceAt (x : Slot) : Option Source :=
  x.bind fun r => match r.body with
    | .input c _ => some c.source
    | .output _ _ => none

theorem sourceAt_eq_some {x : Slot} :
    sourceAt x = some src ↔ ∃ tag st c v, x = some ⟨tag, st, .input c v⟩ ∧ c.source = src := by
  rcases x with _ | ⟨tag, st, ⟨c, v⟩ | ⟨c, k⟩⟩ <;> simp [sourceAt]

/-- Whether a claimed source uses a pin. -/
def pinIn (p : PinId) (x : Option Source) : Bool := x.any (fun src => src.pins.contains p)

theorem pinIn_some (p : PinId) (src : Source) : pinIn p (some src) = true ↔ p ∈ src.pins := by
  simp [pinIn]

theorem usesPin_eq (p : PinId) (x : Slot) : usesPin p x = pinIn p (sourceAt x) := by
  rcases x with _ | ⟨tag, st, ⟨c, v⟩ | ⟨c, k⟩⟩ <;> rfl

/-- The Pin Claim Table agrees with the sources in use (R20). -/
structure ClaimsOk (claims : Vector PinClaim 16) (use : SlotId → Option Source) : Prop where
  count : ∀ p, (claims.get p).count = slotIds.countP (fun i => pinIn p (use i))
  free  : ∀ p, (claims.get p).mode = none ↔ (claims.get p).count = 0
  mode  : ∀ p i src, use i = some src → p ∈ src.pins → (claims.get p).mode = some src.mode

theorem claimInv_iff : ClaimInv s ↔ ClaimsOk s.pinClaims (s.view sourceAt) := by
  have hu : ∀ p, s.pinUsers p = slotIds.countP (fun i => pinIn p (s.view sourceAt i)) :=
    fun p => by simp only [State.pinUsers, usesPin_eq]; rfl
  constructor
  · intro ⟨hc, hf, hm⟩
    refine ⟨fun p => (hc p).trans (hu p), hf, fun p i src h hp => ?_⟩
    obtain ⟨tag, st, c, v, hs, rfl⟩ := sourceAt_eq_some.1 h
    exact hm p i tag st c v hs hp
  · intro ⟨hc, hf, hm⟩
    exact ⟨fun p => (hc p).trans (hu p).symm, hf,
      fun p i tag st c v hs hp => hm p i c.source (sourceAt_eq_some.2 ⟨tag, st, c, v, hs, rfl⟩) hp⟩

theorem ClaimsOk.empty : ClaimsOk (Vector.replicate 16 PinClaim.unclaimed) fun _ => none :=
  ⟨by simp [PinClaim.unclaimed, pinIn], by simp [PinClaim.unclaimed], nofun⟩

/-- Counting the slots after one of them has changed. -/
theorem countP_update {β : Type} (f : β → Bool) (g : SlotId → β) (i : SlotId) (x : β) :
    slotIds.countP (fun j => f (Function.update g i x j)) + (if f (g i) then 1 else 0) =
      slotIds.countP (fun j => f (g j)) + (if f x then 1 else 0) := by
  have hperm : slotIds.Perm (i :: slotIds.erase i) := List.perm_cons_erase (mem_slotIds i)
  have hrest : (slotIds.erase i).countP (fun j => f (Function.update g i x j)) =
      (slotIds.erase i).countP (fun j => f (g j)) := by
    refine List.countP_congr fun j hj => ?_
    have hne : j ≠ i := (slotIds_nodup.mem_erase_iff.1 hj).1
    simp [hne]
  rw [hperm.countP_eq, hperm.countP_eq, List.countP_cons, List.countP_cons, hrest, Function.update_self]
  omega

section
variable {claims : Vector PinClaim 16} {use : SlotId → Option Source}

/-- A source is given back: each of its pins has one user less, and keeps its mode for the others (R22). -/
theorem ClaimsOk.give (h : ClaimsOk claims use) (hi : use i = some src) :
    ClaimsOk (giveClaims claims src) (Function.update use i none) := by
  have hcount : ∀ p, ((giveClaims claims src).get p).count =
      slotIds.countP (fun j => pinIn p (Function.update use i none j)) := by
    intro p
    have hu := countP_update (pinIn p) use i none
    rw [hi, ← h.count p] at hu
    rw [get_giveClaims]
    by_cases hp : p ∈ src.pins
    · rw [if_pos ((pinIn_some p src).2 hp)] at hu
      simp only [pinIn, Option.any_none, Bool.false_eq_true, if_false] at hu
      simp only [hp, if_true, pinIn]
      split <;> simp only [] <;> omega
    · rw [if_neg (mt (pinIn_some p src).1 hp)] at hu
      rw [if_neg hp]
      simpa [pinIn] using hu.symm
  refine ⟨hcount, fun p => ?_, fun p j src' hj hp' => ?_⟩
  · rw [get_giveClaims]
    split
    · next hp =>
      split
      · simp
      · next hc =>
        exact (h.free p).trans (by simp only []; omega)
    · exact h.free p
  · have hne : j ≠ i := by rintro rfl; simp at hj
    rw [Function.update_of_ne hne] at hj
    have hpos : 1 ≤ ((giveClaims claims src).get p).count := by
      rw [hcount]
      exact List.countP_pos_iff.2 ⟨j, mem_slotIds j, by
        rw [Function.update_of_ne hne, hj]; exact (pinIn_some p src').2 hp'⟩
    rw [get_giveClaims] at hpos ⊢
    split
    · next hp =>
      rw [if_pos hp] at hpos
      split
      · next hc => simp [hc] at hpos
      · exact h.mode p j src' hj hp'
    · exact h.mode p j src' hj hp'

/-- A claimable source is taken: each of its pins has one user more, in the one mode (R21). -/
theorem ClaimsOk.take (h : ClaimsOk claims use) (hi : use i = none) (hc : claimable claims src = true) :
    ClaimsOk (takeClaims claims src) (Function.update use i (some src)) := by
  have hcl := (claimable_iff claims src).1 hc
  refine ⟨fun p => ?_, fun p => ?_, fun p j src' hj hp' => ?_⟩
  · have hu := countP_update (pinIn p) use i (some src)
    rw [hi, ← h.count p] at hu
    rw [get_takeClaims]
    by_cases hp : p ∈ src.pins
    · rw [if_pos ((pinIn_some p src).2 hp)] at hu
      rw [if_pos hp]
      simpa [pinIn] using hu.symm
    · rw [if_neg (mt (pinIn_some p src).1 hp)] at hu
      rw [if_neg hp]
      simpa [pinIn] using hu.symm
  · rw [get_takeClaims]
    split
    · simp
    · exact h.free p
  · rw [get_takeClaims]
    by_cases hij : j = i
    · subst hij
      rw [Function.update_self] at hj; cases hj
      rw [if_pos hp']
    · rw [Function.update_of_ne hij] at hj
      have hm := h.mode p j src' hj hp'
      split
      · next hp =>
        rcases hcl p hp with hn | hs
        · rw [hn] at hm; nomatch hm
        · rw [← hs, hm]
      · exact hm
end

/-- A record leaves its slot and its claims are given back. -/
theorem claimsOk_freeSlot (h : ClaimsOk s.pinClaims (s.view sourceAt)) {r : PointRecord} (hr : s.slot i = some r) :
    ClaimsOk (s.freeSlot i r).pinClaims ((s.freeSlot i r).view sourceAt) := by
  rw [view_of_put sourceAt (freeSlot_slots s i r)]
  rcases r with ⟨tag, st, ⟨c, v⟩ | ⟨c, k⟩⟩
  · exact h.give (sourceAt_eq_some.2 ⟨tag, st, c, v, hr, rfl⟩)
  · have : Function.update (s.view sourceAt) i none = s.view sourceAt :=
      (Function.update_eq_self_iff).2 (by simp [State.view, hr, sourceAt])
    rw [show sourceAt none = none from rfl, this]
    exact h

/-- A RETIRE gives back the claims of a slot that it frees at once; one that waits for its conversion keeps them (R46). -/
theorem claimsOk_retirePoint (h : ClaimsOk s.pinClaims (s.view sourceAt)) {r : PointRecord} (hr : s.slot i = some r) :
    ClaimsOk (s.retirePoint i r).pinClaims ((s.retirePoint i r).view sourceAt) := by
  have hslots := slots_retirePoint s i r
  split at hslots
  · next hp =>
    rw [view_of_put_same sourceAt hslots (by rw [hr]; rfl)]
    simpa [State.retirePoint, hp, State.forget] using h
  · next hp =>
    rw [view_of_put sourceAt hslots, ← view_of_put sourceAt (freeSlot_slots s i r)]
    have : (s.retirePoint i r).pinClaims = (s.freeSlot i r).pinClaims := by
      simp only [State.retirePoint, hp]
      rcases r with ⟨tag, st, ⟨c, v⟩ | ⟨c, k⟩⟩ <;> simp [State.freeSlot, State.forget]
    rw [this]; exact claimsOk_freeSlot h hr

/-- Every edit keeps the Pin Claim Table. -/
theorem claimsOk_of_edit (h : Edit s t) (hi : ClaimsOk s.pinClaims (s.view sourceAt)) :
    ClaimsOk t.pinClaims (t.view sourceAt) := by
  have same : t.pinClaims = s.pinClaims → t.view sourceAt = s.view sourceAt → ClaimsOk t.pinClaims (t.view sourceAt) :=
    fun ht hv => by rwa [ht, hv]
  cases h with
  | none => exact hi
  | defineInput payload hf _ _ _ _ hc =>
    rw [view_of_put (s := s) sourceAt rfl]
    exact hi.take (by simp [State.view, ((lowestFree_eq_some s).1 hf).1, sourceAt]) hc
  | defineOutput payload hf =>
    exact same rfl (view_of_put_same sourceAt rfl (by simp [((lowestFree_eq_some s).1 hf).1, sourceAt]))
  | @modifyInput tag i r c v c' items hf hb _ _ hc =>
    have hr := slot_of_findPoint hf
    have huse : s.view sourceAt i = some c.source := by simp [State.view, hr, sourceAt, hb]
    rw [view_of_put sourceAt (s := s) (by rw [modifyInput_frame]), modifyInput_frame]
    simp only [movedClaims]
    split
    · next he =>
      have hc' : sourceAt (some { r with body := .input c' (modifiedPart c c' v) }) = some c.source := congrArg some he
      rw [hc', (Function.update_eq_self_iff).2 huse.symm]
      exact hi
    · next he =>
      have := (hi.give huse).take (Function.update_self ..) (hc he)
      rwa [Function.update_idem] at this
  | modifyOutput items hf hb =>
    refine same (by simp [State.modifyOutput]) (view_of_put_same sourceAt (slots_modifyOutput ..) ?_)
    simp [slot_of_findPoint hf, sourceAt, hb]
  | hold hf =>
    have hr := slot_of_findPoint hf
    exact same (by rw [holdPoint_frame]) (view_of_put_same sourceAt (slots_holdPoint s hr) (by rw [hr]; rfl))
  | @release tag i r hf =>
    have hr := slot_of_findPoint hf
    refine same (by rw [releasePoint_frame]) (view_of_put_same sourceAt (slots_releasePoint s hr) ?_)
    rcases r with ⟨tag, _ | _ | _, ⟨c, v⟩ | ⟨c, k⟩⟩ <;> simp [hr, sourceAt]
  | retire hf => exact claimsOk_retirePoint hi (slot_of_findPoint hf)
  | stage hf hb =>
    refine same (by simp) (view_of_put_same sourceAt (writeOutput_slots ..) ?_)
    simp [slot_of_findPoint hf, sourceAt, hb]
  | commit u =>
    refine same rfl (view_of_map sourceAt rfl fun r => ?_)
    rcases commitRecord_cases u r with h | ⟨_, _, hb, _, h⟩ <;> simp [sourceAt, *]
  | discard u =>
    refine same rfl (view_of_map sourceAt rfl fun r => ?_)
    rcases discardRecord_cases u r with h | ⟨_, _, hb, h⟩ <;> simp [sourceAt, *]
  | softReset => rw [view_of_replicate (x := none) sourceAt rfl]; exact .empty
  | configure | unlist | deviceAck | calibrate | cancel => exact hi
  | abort => exact same (by rw [abortRunning_frame]) (view_of_slots _ (by rw [abortRunning_frame]))
  | startSave => exact same (by rw [startSave_frame]) (view_of_slots _ (by rw [startSave_frame]))

/-- Every move keeps the Pin Claim Table. -/
theorem claimsOk_of_move (h : Move s t) (hi : ClaimsOk s.pinClaims (s.view sourceAt)) :
    ClaimsOk t.pinClaims (t.view sourceAt) := by
  have same : t.pinClaims = s.pinClaims → t.view sourceAt = s.view sourceAt → ClaimsOk t.pinClaims (t.view sourceAt) :=
    fun ht hv => by rwa [ht, hv]
  cases h with
  | ports h => rw [h.only]; exact hi
  | answer p f he =>
    have := claimsOk_of_edit he hi
    rwa [placeResponse_eq_withPorts]
  | reset => rw [view_of_replicate (x := none) sourceAt rfl]; exact .empty
  | @expiry c =>
    refine same (by rw [takeExpiry_frame]) (view_of_map sourceAt (by rw [takeExpiry_frame]) fun r => ?_)
    rcases expireRecord_cases c r with h | ⟨_, _, hb, h⟩ <;> simp [sourceAt, *]
  | complete =>
    rcases complete_cases s _ _ with ⟨hs, hp, -⟩ | ⟨rec, hr, -, hs, hp⟩ | ⟨tag, c, v, hr, -, hs, hp⟩
    · exact same hp (view_of_slots _ hs)
    · rw [hp, view_of_put _ hs, ← view_of_put sourceAt (freeSlot_slots s _ rec)]
      exact claimsOk_freeSlot hi hr
    · exact same hp (view_of_put_same _ hs (by rw [hr]; rfl))
  | ramp =>
    refine same rfl (view_of_map sourceAt rfl fun r => ?_)
    rcases rampRecord_cases r with h | ⟨_, _, hb, h⟩ <;> simp [sourceAt, *]
  | load => exact same (by rw [loadTable_frame]) (view_of_slots _ (by rw [loadTable_frame]))
  | lend => exact same (by rw [lend_frame]) (view_of_slots _ (by rw [lend_frame]))
  | calEnd => exact same (by rw [finishEntry_frame]) (view_of_slots _ (by rw [finishEntry_frame]))
  | record => exact same (by rw [writeRecord_frame]) (view_of_slots _ (by rw [writeRecord_frame]))
  | erased => exact same (by simp) (view_of_slots _ (by simp))
  | marked => exact same (by simp [State.endSave]) (view_of_slots _ (by simp [State.endSave]))
  | endReset | pulse | classTick | start | settled | sample | calSettled | calSample | calSecond => exact hi

/-- Settles O53: every move keeps the Pin Claim Table. -/
theorem claimsKept : Obligations.ClaimsKept := fun _ _ hs h =>
  step_keeps (P := ClaimInv) (fun _ _ h => ⟨h.count, h.free, h.mode⟩)
    (fun _ _ h m => claimInv_iff.2 (claimsOk_of_move m (claimInv_iff.1 h))) hs h

end Sys2Proof.Machine
end

section
/-! PROOF. The fields of a DEFINE and of a MODIFY: each optional or coded field gives a value exactly for the codes in its
range, and so does the configuration they make up (R7 to R13, R183, R185, R186). -/

namespace Sys2Proof.Machine

variable {p : List Byte} {i : Nat}

theorem finOf_eq_some {n x : Nat} {a : Fin n} : finOf n x = some a ↔ x = a.val := by
  simp only [finOf, Option.dite_none_right_eq_some, Option.some.injEq, Fin.ext_iff]
  exact ⟨fun ⟨_, h⟩ => h, fun h => ⟨h ▸ a.isLt, h⟩⟩

theorem boolAt_eq_some {b : Bool} : boolAt p i = some b ↔ (u8 p i = 0 ∧ b = false) ∨ (u8 p i = 1 ∧ b = true) := by
  have h0 : byteAt p i = 0 ↔ u8 p i = 0 := by simp [u8, BitVec.toNat_eq]
  have h1 : byteAt p i = 1 ↔ u8 p i = 1 := by simp [u8, BitVec.toNat_eq]
  simp only [boolAt, h0, h1]
  split
  · next h => cases b <;> simp [h]
  · split
    · next h => cases b <;> simp [h]
    · simp [*]

theorem oversampleOf_eq_some {n : Nat} {o : Oversample} : oversampleOf n = some o ↔ n = o.samples := by
  unfold oversampleOf
  split
  case h_6 h1 h2 h4 h8 h16 =>
    refine ⟨nofun, ?_⟩
    rintro rfl
    cases o
    exacts [absurd rfl h1, absurd rfl h2, absurd rfl h4, absurd rfl h8, absurd rfl h16]
  all_goals cases o <;> simp [Oversample.samples]

theorem sourceOf_eq_some {m n : Nat} {src : Source} : sourceOf m n = some src ↔
    (m = 1 ∧ ∃ pin : PinId, n = pin.val ∧ src = .se pin) ∨ (m = 2 ∧ ∃ pair : PairId, n = pair.val ∧ src = .diff pair) := by
  unfold sourceOf
  split
  · simp only [Option.dite_none_right_eq_some, Option.some.injEq, true_and, OfNat.one_ne_ofNat, false_and, or_false]
    exact ⟨fun ⟨h, e⟩ => ⟨⟨n, h⟩, rfl, e.symm⟩, fun ⟨a, h, e⟩ => ⟨h ▸ a.isLt, by subst h; exact e.symm⟩⟩
  · simp only [Option.dite_none_right_eq_some, Option.some.injEq, true_and, OfNat.ofNat_ne_one, false_and, false_or]
    exact ⟨fun ⟨h, e⟩ => ⟨⟨n, h⟩, rfl, e.symm⟩, fun ⟨a, h, e⟩ => ⟨h ▸ a.isLt, by subst h; exact e.symm⟩⟩
  · next h1 h2 => exact ⟨nofun, fun h => h.elim (fun h => absurd h.1 h1) (fun h => absurd h.1 h2)⟩

theorem scalingAt_eq_some {x : Option Scaling} : scalingAt p i = some x ↔
    (u8 p i = 0 ∧ x = none) ∨ (u8 p i = 1 ∧ x = some ⟨s16 p (i + 1), s24 p (i + 3)⟩) := by
  simp only [scalingAt, Option.map_eq_some_iff, boolAt_eq_some, eq_comm (b := x)]
  constructor
  · rintro ⟨b, ⟨h, rfl⟩ | ⟨h, rfl⟩, hx⟩ <;> simp_all
  · rintro (⟨h, hx⟩ | ⟨h, hx⟩)
    · exact ⟨false, .inl ⟨h, rfl⟩, hx⟩
    · exact ⟨true, .inr ⟨h, rfl⟩, hx⟩

theorem limitAt_eq_some {x : Option Int} : limitAt p i = some x ↔
    (u8 p i = 0 ∧ x = none) ∨ (u8 p i = 1 ∧ x = some (s32 p (i + 1))) := by
  simp only [limitAt, Option.map_eq_some_iff, boolAt_eq_some, eq_comm (b := x)]
  constructor
  · rintro ⟨b, ⟨h, rfl⟩ | ⟨h, rfl⟩, hx⟩ <;> simp_all
  · rintro (⟨h, hx⟩ | ⟨h, hx⟩)
    · exact ⟨false, .inl ⟨h, rfl⟩, hx⟩
    · exact ⟨true, .inr ⟨h, rfl⟩, hx⟩

theorem slewAt_eq_some {x : Option Nat} : slewAt p i = some x ↔
    (u8 p i = 0 ∧ x = none) ∨
      (u8 p i = 1 ∧ 1 ≤ u16 p (i + 1) ∧ u16 p (i + 1) ≤ 32767 ∧ x = some (u16 p (i + 1))) := by
  unfold slewAt
  split
  · next h =>
    have h0 : u8 p i ≠ 0 := fun e => by rw [boolAt_eq_some.2 (.inl ⟨e, rfl⟩)] at h; nomatch h
    have h1 : u8 p i ≠ 1 := fun e => by rw [boolAt_eq_some.2 (.inr ⟨e, rfl⟩)] at h; nomatch h
    simp [h0, h1]
  · next h =>
    have h0 : u8 p i = 0 := by simpa using boolAt_eq_some.1 h
    simp [h0, eq_comm]
  · next h =>
    have h1 : u8 p i = 1 := by simpa using boolAt_eq_some.1 h
    simp [h1, and_assoc, eq_comm (b := x)]

theorem limitsOk_iff {c : InputConfig} : limitsOk c = true ↔
    ∀ h l, c.highLimit = some h → c.lowLimit = some l → l + (c.deadband : Int) < h - (c.deadband : Int) := by
  unfold limitsOk
  split
  · next h l hh hl => simp [hh, hl]
  · next hn => simp only [true_iff]; exact fun h l hh hl => absurd hl (hn h l hh)

theorem inputConfigOf_eq_some {c : InputConfig} : inputConfigOf p = some c ↔
    sourceOf (u8 p 3) (u8 p 4) = some c.source ∧ finOf 8 (u8 p 5) = some c.range ∧
    oversampleOf (u8 p 6) = some c.oversample ∧ finOf 4 (u8 p 7) = some c.scanClass ∧ scalingAt p 8 = some c.scaling ∧
    limitAt p 14 = some c.highLimit ∧ limitAt p 19 = some c.lowLimit ∧ c.deadband = u16 p 24 ∧ limitsOk c = true := by
  simp only [inputConfigOf, Option.bind_eq_bind, Option.bind_eq_some_iff, Option.ite_none_right_eq_some, Option.some.injEq]
  constructor
  · rintro ⟨_, h1, _, h2, _, h3, _, h4, _, h5, _, h6, _, h7, h8, rfl⟩
    exact ⟨h1, h2, h3, h4, h5, h6, h7, rfl, h8⟩
  · rintro ⟨h1, h2, h3, h4, h5, h6, h7, h8, h9⟩
    refine ⟨_, h1, _, h2, _, h3, _, h4, _, h5, _, h6, _, h7, ?_⟩
    rw [← h8]; exact ⟨h9, rfl⟩

theorem outputConfigOf_eq_some {c : OutputConfig} : outputConfigOf p = some c ↔
    finOf 4 (u8 p 3) = some c.channel ∧ slewAt p 8 = some c.slew ∧ finOf 4 (u8 p 11) = some c.updateSet ∧
    boolAt p 12 = some c.operatorWritable ∧ c.clampMin = s16 p 4 ∧ c.clampMax = s16 p 6 ∧ c.clampMin ≤ c.clampMax := by
  simp only [outputConfigOf, Option.bind_eq_bind, Option.bind_eq_some_iff, Option.ite_none_right_eq_some,
    Option.some.injEq, clampOk, decide_eq_true_eq]
  constructor
  · rintro ⟨_, h1, _, h2, _, h3, _, h4, h5, rfl⟩
    exact ⟨h1, h2, h3, h4, rfl, rfl, h5⟩
  · rintro ⟨h1, h2, h3, h4, h5, h6, h7⟩
    refine ⟨_, h1, _, h2, _, h3, _, h4, ?_⟩
    rw [← h5, ← h6]; exact ⟨h7, rfl⟩

/-- Settles O17: field by field, with the cross-field conditions of R11 and R13. -/
theorem defineFields : Obligations.DefineFields := by
  refine ⟨fun p c => ?_, fun p c => ?_⟩
  · simp only [inputConfigOf_eq_some, sourceOf_eq_some, finOf_eq_some, oversampleOf_eq_some, scalingAt_eq_some,
      limitAt_eq_some, limitsOk_iff]
  · simp only [outputConfigOf_eq_some, finOf_eq_some, slewAt_eq_some, boolAt_eq_some]
    tauto

end Sys2Proof.Machine
end

section
/-! PROOF. The Channel Table and the output records: every step keeps each channel with its one owner and its owner's live
code, and the codes within the clamp (R13, R23, R24, R126). -/

namespace Sys2Proof.Machine

variable {s t : State} {i : SlotId}

/-! ## The items of a MODIFY -/

/-- What each item keeps of a configuration, the items that pass keep. -/
theorem checkItems_keeps {α : Type} {P : α → Prop} {ofKind : ModifyField → Bool}
    {write : ModifyField → List Byte → α → Option α} (hw : ∀ f v c c', write f v c = some c' → P c → P c') :
    ∀ (items : List ModifyItem) (seen : List ModifyField) (n : Nat) (c c' : α),
      checkItems ofKind write seen n items c = .passed c' → P c → P c' := by
  intro items
  induction items with
  | nil => intro seen n c c' h hc; cases h; exact hc
  | cons item items ih =>
    intro seen n c c' h hc
    unfold checkItems at h
    split at h
    · nomatch h
    split at h
    · nomatch h
    split at h
    · nomatch h
    split at h
    · nomatch h
    next c1 hc1 => exact ih _ _ _ _ h (hw _ _ _ _ hc1 hc)

/-- Clamp and slew of an output configuration in their ranges (R13). -/
structure OutputFieldsOk (c : OutputConfig) : Prop where
  clampMin : isCode c.clampMin
  clampMax : isCode c.clampMax
  slew     : ∀ n, c.slew = some n → 1 ≤ n ∧ n ≤ 32767

theorem slew_range {p : List Byte} {j : Nat} {x : Option Nat} (h : slewAt p j = some x) :
    ∀ n, x = some n → 1 ≤ n ∧ n ≤ 32767 := by
  rintro n rfl
  rcases slewAt_eq_some.1 h with ⟨-, h⟩ | ⟨-, h1, h2, h⟩
  · nomatch h
  · cases h; exact ⟨h1, h2⟩

/-- A DEFINE gives an output configuration in its ranges. -/
theorem outputFieldsOk_of_define {p : List Byte} {c : OutputConfig} (h : outputConfigOf p = some c) :
    OutputFieldsOk c ∧ c.clampMin ≤ c.clampMax := by
  obtain ⟨-, hs, -, -, hmin, hmax, hle⟩ := outputConfigOf_eq_some.1 h
  exact ⟨⟨hmin ▸ s16_range p 4, hmax ▸ s16_range p 6, slew_range hs⟩, hle⟩

/-- An item of a MODIFY of an output point leaves the channel and writes a value in its range. -/
theorem setOutputField_keeps {f : ModifyField} {v : List Byte} {c c' : OutputConfig}
    (h : setOutputField f v c = some c') (hc : OutputFieldsOk c) : c'.channel = c.channel ∧ OutputFieldsOk c' := by
  cases f <;> simp only [setOutputField, Option.map_eq_some_iff, Option.some.injEq, reduceCtorEq] at h
  case clampMin => subst h; exact ⟨rfl, s16_range v 0, hc.clampMax, hc.slew⟩
  case clampMax => subst h; exact ⟨rfl, hc.clampMin, s16_range v 0, hc.slew⟩
  case slew => obtain ⟨x, hx, rfl⟩ := h; exact ⟨rfl, hc.clampMin, hc.clampMax, slew_range hx⟩
  case updateSet => obtain ⟨x, -, rfl⟩ := h; exact ⟨rfl, hc.clampMin, hc.clampMax, hc.slew⟩
  case operatorWritable => obtain ⟨x, -, rfl⟩ := h; exact ⟨rfl, hc.clampMin, hc.clampMax, hc.slew⟩

theorem outputFieldsOk_of_modify {items : List ModifyItem} {c c' : OutputConfig}
    (h : checkItems (fun f => !f.ofInput) setOutputField [] 1 items c = .passed c') (hc : OutputFieldsOk c) :
    c'.channel = c.channel ∧ OutputFieldsOk c' :=
  checkItems_keeps (P := fun x => x.channel = c.channel ∧ OutputFieldsOk x)
    (fun _ _ _ _ h hx => (setOutputField_keeps h hx.2).imp (·.trans hx.1) id) items [] 1 c c' h ⟨rfl, hc⟩

/-! ## The codes of an output record -/

/-- A code brought into a clamp lies in it. -/
theorem clampTo_range {lo hi x : Int} (h : lo ≤ hi) : lo ≤ clampTo lo hi x ∧ clampTo lo hi x ≤ hi := by
  unfold clampTo; split
  · omega
  · split <;> omega

/-- Target and staged code within the clamp, every code and the slew in their ranges (R13, R126). -/
structure CodesOk (c : OutputConfig) (k : CodePart) : Prop where
  fields : OutputFieldsOk c
  target : c.clampMin ≤ k.target ∧ k.target ≤ c.clampMax
  staged : ∀ x, k.staged = some x → c.clampMin ≤ x ∧ x ≤ c.clampMax
  live   : isCode k.live

section
variable {c c' : OutputConfig} {k : CodePart}

theorem OutputFieldsOk.isCode_of_clamp (h : OutputFieldsOk c) {x : Int} (hx : c.clampMin ≤ x ∧ x ≤ c.clampMax) :
    isCode x := ⟨h.clampMin.1.trans hx.1, hx.2.trans h.clampMax.2⟩

/-- The codes of a new output point (R30). -/
theorem CodesOk.takenOver (h : OutputFieldsOk c) (hle : c.clampMin ≤ c.clampMax) {d : Int} (hd : isCode d) :
    CodesOk c (takenOver c d) where
  fields := h
  target := clampTo_range hle
  staged := nofun
  live := by
    unfold Machine.takenOver; dsimp only; split
    · exact h.isCode_of_clamp (clampTo_range hle)
    · exact hd

/-- The codes after a change of the clamp (R40). -/
theorem CodesOk.reclamped (h : CodesOk c k) (h' : OutputFieldsOk c') (hle : c'.clampMin ≤ c'.clampMax) (active : Bool) :
    CodesOk c' (reclampedCodes active c c' k) := by
  unfold reclampedCodes; split
  · next he => exact ⟨h', he.1 ▸ he.2 ▸ h.target, fun x hx => he.1 ▸ he.2 ▸ h.staged x hx, h.live⟩
  · refine ⟨h', clampTo_range hle, fun x hx => ?_, ?_⟩
    · obtain ⟨y, -, rfl⟩ := Option.map_eq_some_iff.1 hx; exact clampTo_range hle
    · dsimp only; split
      · exact h'.isCode_of_clamp (clampTo_range hle)
      · exact h.live

/-- The codes of a committed member (R131, R132). -/
theorem CodesOk.committed (h : CodesOk c k) : CodesOk c (committedCodes c k) := by
  unfold committedCodes; split
  · exact h
  · next x hx =>
    refine ⟨h.fields, h.staged x hx, nofun, ?_⟩
    dsimp only; split
    · exact h.fields.isCode_of_clamp (h.staged x hx)
    · exact h.live

/-- A ramp step ends between the live code and the target (R135). -/
theorem rampStep_between (slew : Option Nat) (live target : Int) :
    min live target ≤ rampStep slew live target ∧ rampStep slew live target ≤ max live target := by
  unfold rampStep
  cases slew with
  | none => simp
  | some n => dsimp only; split <;> (try split) <;> omega

theorem CodesOk.ramped (h : CodesOk c k) : CodesOk c { k with live := rampStep c.slew k.live k.target } := by
  refine ⟨h.fields, h.target, h.staged, ?_⟩
  have hl := h.live
  have ht := h.fields.isCode_of_clamp h.target
  have hb := rampStep_between c.slew k.live k.target
  unfold isCode at *; dsimp only; omega

theorem CodesOk.settled (h : CodesOk c k) : CodesOk c { k with live := k.target } :=
  ⟨h.fields, h.target, h.staged, h.fields.isCode_of_clamp h.target⟩
end

/-! ## Channels and their owners -/

/-- What the outputs see of a slot: slot state, configuration and codes of an output record. -/
def outputAt (x : Slot) : Option (SlotState × OutputConfig × CodePart) :=
  x.bind fun r => match r.body with
    | .output c k => some (r.slotState, c, k)
    | .input _ _ => none

theorem outputAt_eq_some {x : Slot} {st : SlotState} {c : OutputConfig} {k : CodePart} :
    outputAt x = some (st, c, k) ↔ ∃ tag, x = some ⟨tag, st, .output c k⟩ := by
  rcases x with _ | ⟨tag, st, ⟨c, v⟩ | ⟨c, k⟩⟩ <;> simp [outputAt]

/-- The Channel Table agrees with the output records (R23, R24, R126). -/
structure OutputsOk (out : SlotId → Option (SlotState × OutputConfig × CodePart)) (chan : ChannelId → Channel) :
    Prop where
  owner   : ∀ ch i, (chan ch).owner = some i → ∃ st c k, out i = some (st, c, k) ∧ c.channel = ch
  owned   : ∀ i st c k, out i = some (st, c, k) →
              st ≠ .retiring ∧ (chan c.channel).owner = some i ∧ (chan c.channel).driven = k.live
  codes   : ∀ i st c k, out i = some (st, c, k) → CodesOk c k
  calFree : ∀ ch, (chan ch).underCal = true → (chan ch).owner = none
  driven  : ∀ ch, isCode (chan ch).driven

/-- The Channel Table and the output records of a state agree. -/
abbrev State.OutputsOk (s : State) : Prop := Machine.OutputsOk (s.view outputAt) s.channel

theorem outputsOk_iff : (ChannelInv s ∧ CodeInv s) ↔ s.OutputsOk := by
  constructor
  · intro ⟨hch, hco⟩
    have slot {j st c k} (h : s.view outputAt j = some (st, c, k)) := outputAt_eq_some.1 h
    refine ⟨fun ch j h => ?_, fun j st c k h => ?_, fun j st c k h => ?_, hch.calFree, hco.driven⟩
    · obtain ⟨tag, st, c, k, hs, -, hc, -⟩ := hch.owner ch j h
      exact ⟨st, c, k, outputAt_eq_some.2 ⟨tag, hs⟩, hc⟩
    · obtain ⟨tag, hs⟩ := slot h
      have ho := hch.owned j tag st c k hs
      obtain ⟨_, _, _, _, hs', hst, -, hl⟩ := hch.owner _ _ ho
      cases hs.symm.trans hs'
      exact ⟨hst, ho, hl.symm⟩
    · obtain ⟨tag, hs⟩ := slot h
      obtain ⟨hmin, hmax, hlo, hhi⟩ := hco.clamp j tag st c k hs
      exact ⟨⟨hmin, hmax, fun n hn => hco.slew j tag st c k n hs hn⟩, ⟨hlo, hhi⟩,
        fun x hx => hco.staged j tag st c k x hs hx, hco.live j tag st c k hs⟩
  · intro h
    have view {j tag st c k} (hs : s.slot j = some ⟨tag, st, .output c k⟩) : s.view outputAt j = some (st, c, k) :=
      outputAt_eq_some.2 ⟨tag, hs⟩
    refine ⟨⟨fun ch j ho => ?_, fun j tag st c k hs => (h.owned j st c k (view hs)).2.1, h.calFree⟩,
      fun j tag st c k hs => ?_, fun j tag st c k x hs => (h.codes j st c k (view hs)).staged x,
      fun j tag st c k hs => (h.codes j st c k (view hs)).live,
      fun j tag st c k n hs => (h.codes j st c k (view hs)).fields.slew n, h.driven⟩
    · obtain ⟨st, c, k, hv, rfl⟩ := h.owner ch j ho
      obtain ⟨tag, hs⟩ := outputAt_eq_some.1 hv
      obtain ⟨hst, -, hl⟩ := h.owned j st c k hv
      exact ⟨tag, st, c, k, hs, hst, rfl, hl.symm⟩
    · have hc := h.codes j st c k (view hs)
      exact ⟨hc.fields.clampMin, hc.fields.clampMax, hc.target⟩

section
variable {out out' : SlotId → Option (SlotState × OutputConfig × CodePart)} {chan chan' : ChannelId → Channel}
  {st st' : SlotState} {c c' : OutputConfig} {k k' : CodePart}

/-- With no output record, no channel is owned. -/
theorem OutputsOk.unowned (ho : ∀ ch, (chan ch).owner = none) (hd : ∀ ch, isCode (chan ch).driven) :
    OutputsOk (fun _ => none) chan :=
  ⟨fun ch _ h => (nomatch (ho ch).symm.trans h), nofun, nofun, fun ch _ => ho ch, hd⟩

/-- An output record is rewritten on its channel, which drives its live code. -/
theorem OutputsOk.rewrite (h : OutputsOk out chan) (hi : out i = some (st, c, k)) (hst : st' ≠ .retiring)
    (hch : c'.channel = c.channel) (hc : CodesOk c' k') :
    OutputsOk (Function.update out i (some (st', c', k')))
      (Function.update chan c.channel { chan c.channel with driven := k'.live }) := by
  obtain ⟨-, howner, -⟩ := h.owned i st c k hi
  have hown : ∀ ch,
      (Function.update chan c.channel { chan c.channel with driven := k'.live } ch).owner = (chan ch).owner := by
    intro ch; rw [Function.update_apply]; split
    · next e => rw [e]
    · rfl
  refine ⟨fun ch j ho => ?_, fun j st1 c1 k1 hj => ?_, fun j st1 c1 k1 hj => ?_, fun ch hu => ?_, fun ch => ?_⟩
  · rw [hown] at ho
    obtain ⟨st1, c1, k1, hj, hc1⟩ := h.owner ch j ho
    by_cases hij : j = i
    · subst hij; cases hi.symm.trans hj
      exact ⟨st', c', k', Function.update_self .., hch.trans hc1⟩
    · exact ⟨st1, c1, k1, by rw [Function.update_of_ne hij, hj], hc1⟩
  · rw [hown]
    by_cases hij : j = i
    · subst hij; rw [Function.update_self] at hj; cases hj
      exact ⟨hst, hch ▸ howner, by rw [hch, Function.update_self]⟩
    · rw [Function.update_of_ne hij] at hj
      obtain ⟨h1, h2, h3⟩ := h.owned j st1 c1 k1 hj
      have hne : c1.channel ≠ c.channel := by
        intro e; rw [e, howner] at h2; exact hij (Option.some.inj h2).symm
      exact ⟨h1, h2, by rw [Function.update_of_ne hne, h3]⟩
  · by_cases hij : j = i
    · subst hij; rw [Function.update_self] at hj; cases hj; exact hc
    · rw [Function.update_of_ne hij] at hj; exact h.codes j st1 c1 k1 hj
  · rw [hown]; refine h.calFree ch ?_
    rw [Function.update_apply] at hu; split at hu
    · next e => rw [e]; exact hu
    · exact hu
  · rw [Function.update_apply]; split
    · exact hc.live
    · exact h.driven ch

/-- The same with the live code left alone: so is the channel. -/
theorem OutputsOk.rewrite_live (h : OutputsOk out chan) (hi : out i = some (st, c, k)) (hst : st' ≠ .retiring)
    (hch : c'.channel = c.channel) (hc : CodesOk c' k') (hl : k'.live = k.live) :
    OutputsOk (Function.update out i (some (st', c', k'))) chan := by
  have := h.rewrite hi hst hch hc
  rwa [hl, ← (h.owned i st c k hi).2.2, Function.update_eq_self] at this

/-- A new output record takes over a free channel (R24, R30). -/
theorem OutputsOk.add (h : OutputsOk out chan) (hi : out i = none) (ho : (chan c.channel).owner = none)
    (hu : (chan c.channel).underCal = false) (hst : st ≠ .retiring) (hc : CodesOk c k) :
    OutputsOk (Function.update out i (some (st, c, k)))
      (Function.update chan c.channel { chan c.channel with owner := some i, driven := k.live }) := by
  refine ⟨fun ch j hj => ?_, fun j st1 c1 k1 hj => ?_, fun j st1 c1 k1 hj => ?_, fun ch hu' => ?_, fun ch => ?_⟩
  · by_cases he : ch = c.channel
    · subst he; rw [Function.update_self] at hj; cases hj
      exact ⟨st, c, k, Function.update_self .., rfl⟩
    · rw [Function.update_of_ne he] at hj
      obtain ⟨st1, c1, k1, hj1, hc1⟩ := h.owner ch j hj
      have hij : j ≠ i := by rintro rfl; rw [hi] at hj1; nomatch hj1
      exact ⟨st1, c1, k1, by rw [Function.update_of_ne hij, hj1], hc1⟩
  · by_cases hij : j = i
    · subst hij; rw [Function.update_self] at hj; cases hj
      rw [Function.update_self]; exact ⟨hst, rfl, rfl⟩
    · rw [Function.update_of_ne hij] at hj
      have hown := h.owned j st1 c1 k1 hj
      have hne : c1.channel ≠ c.channel := by intro e; rw [e, ho] at hown; nomatch hown.2.1
      rwa [Function.update_of_ne hne]
  · by_cases hij : j = i
    · subst hij; rw [Function.update_self] at hj; cases hj; exact hc
    · rw [Function.update_of_ne hij] at hj; exact h.codes j st1 c1 k1 hj
  · by_cases he : ch = c.channel
    · subst he; rw [Function.update_self] at hu'; exact absurd hu' (by simp [hu])
    · rw [Function.update_of_ne he] at hu' ⊢; exact h.calFree ch hu'
  · rw [Function.update_apply]; split
    · exact hc.live
    · exact h.driven ch

/-- An output record goes, and its channel is left without an owner (R46). -/
theorem OutputsOk.remove (h : OutputsOk out chan) (hi : out i = some (st, c, k)) :
    OutputsOk (Function.update out i none) (Function.update chan c.channel { chan c.channel with owner := none }) := by
  obtain ⟨-, howner, -⟩ := h.owned i st c k hi
  refine ⟨fun ch j hj => ?_, fun j st1 c1 k1 hj => ?_, fun j st1 c1 k1 hj => ?_, fun ch hu => ?_, fun ch => ?_⟩
  · by_cases he : ch = c.channel
    · subst he; rw [Function.update_self] at hj; nomatch hj
    · rw [Function.update_of_ne he] at hj
      obtain ⟨st1, c1, k1, hj1, rfl⟩ := h.owner ch j hj
      have hij : j ≠ i := by rintro rfl; rw [hi] at hj1; cases hj1; exact he rfl
      exact ⟨st1, c1, k1, by rw [Function.update_of_ne hij, hj1], rfl⟩
  · have hij : j ≠ i := by rintro rfl; rw [Function.update_self] at hj; nomatch hj
    rw [Function.update_of_ne hij] at hj
    have hown := h.owned j st1 c1 k1 hj
    have hne : c1.channel ≠ c.channel := by
      intro e; rw [e, howner] at hown; exact hij (Option.some.inj hown.2.1).symm
    rwa [Function.update_of_ne hne]
  · have hij : j ≠ i := by rintro rfl; rw [Function.update_self] at hj; nomatch hj
    rw [Function.update_of_ne hij] at hj; exact h.codes j st1 c1 k1 hj
  · by_cases he : ch = c.channel
    · subst he; rw [Function.update_self]
    · rw [Function.update_of_ne he] at hu ⊢; exact h.calFree ch hu
  · rw [Function.update_apply]; split
    · exact h.driven _
    · exact h.driven ch

/-- Every record's codes change in one act, and each owned channel follows its owner's live code (R24). -/
theorem OutputsOk.recode (h : OutputsOk out chan) (hn : ∀ i, out i = none → out' i = none)
    (hs : ∀ i st c k, out i = some (st, c, k) → ∃ k', out' i = some (st, c, k') ∧ CodesOk c k' ∧
      chan' c.channel = { chan c.channel with driven := k'.live })
    (hch : ∀ ch, (chan ch).owner = none → chan' ch = chan ch) : OutputsOk out' chan' := by
  have hback : ∀ j st c k', out' j = some (st, c, k') → ∃ k, out j = some (st, c, k) ∧ CodesOk c k' ∧
      chan' c.channel = { chan c.channel with driven := k'.live } := by
    intro j st c k' hj
    rcases ho : out j with _ | ⟨st1, c1, k1⟩
    · rw [hn j ho] at hj; nomatch hj
    · obtain ⟨k2, hk2, hc, he⟩ := hs j st1 c1 k1 ho
      rw [hk2] at hj; cases hj
      exact ⟨k1, rfl, hc, he⟩
  have hchan : ∀ ch, ∃ d, isCode d ∧ chan' ch = { chan ch with driven := d } := by
    intro ch
    rcases ho : (chan ch).owner with _ | j
    · exact ⟨(chan ch).driven, h.driven ch, by rw [hch ch ho]⟩
    · obtain ⟨st, c, k, hj, rfl⟩ := h.owner ch j ho
      obtain ⟨k', -, hc, he⟩ := hs j st c k hj
      exact ⟨k'.live, hc.live, he⟩
  refine ⟨fun ch j ho => ?_, fun j st c k' hj => ?_, fun j st c k' hj => ?_, fun ch hu => ?_, fun ch => ?_⟩
  · obtain ⟨d, -, he⟩ := hchan ch
    rw [he] at ho
    obtain ⟨st, c, k, hj, hc⟩ := h.owner ch j ho
    obtain ⟨k', hk', -⟩ := hs j st c k hj
    exact ⟨st, c, k', hk', hc⟩
  · obtain ⟨k, hk, -, he⟩ := hback j st c k' hj
    obtain ⟨hst, ho, -⟩ := h.owned j st c k hk
    rw [he]; exact ⟨hst, ho, rfl⟩
  · obtain ⟨-, -, hc, -⟩ := hback j st c k' hj
    exact hc
  · obtain ⟨d, -, he⟩ := hchan ch
    rw [he] at hu ⊢; exact h.calFree ch hu
  · obtain ⟨d, hd, he⟩ := hchan ch
    rw [he]; exact hd

/-- A channel's mark is set while it has no owner, or cleared (R23, R150). -/
theorem OutputsOk.mark (h : OutputsOk out chan) {ch : ChannelId} {b : Bool} (hb : b = true → (chan ch).owner = none) :
    OutputsOk out (Function.update chan ch { chan ch with underCal := b }) := by
  have hown : ∀ ch', (Function.update chan ch { chan ch with underCal := b } ch').owner = (chan ch').owner ∧
      (Function.update chan ch { chan ch with underCal := b } ch').driven = (chan ch').driven := by
    intro ch'; rw [Function.update_apply]; split
    · next e => rw [e]; exact ⟨rfl, rfl⟩
    · exact ⟨rfl, rfl⟩
  refine ⟨fun ch' j ho => h.owner ch' j ((hown ch').1 ▸ ho), fun j st c k hj => ?_, h.codes, fun ch' hu => ?_, fun ch' => ?_⟩
  · rw [(hown _).1, (hown _).2]; exact h.owned j st c k hj
  · rw [(hown _).1]
    by_cases he : ch' = ch
    · subst he; rw [Function.update_self] at hu; exact hb hu
    · rw [Function.update_of_ne he] at hu; exact h.calFree ch' hu
  · rw [(hown _).2]; exact h.driven ch'
end

/-! ## The effects on the outputs -/

theorem channel_of_put {ch : ChannelId} {x : Channel} (h : t.channels = put s.channels ch x) :
    t.channel = Function.update s.channel ch x := by
  funext j
  simp only [State.channel, h, get_put, Function.update_apply, eq_comm (a := j)]

/-- A command that touches neither the output records nor the channels. -/
theorem State.OutputsOk.same (h : s.OutputsOk) (hv : t.view outputAt = s.view outputAt) (hc : t.channels = s.channels) :
    t.OutputsOk := by
  have : t.channel = s.channel := by funext ch; simp [State.channel, hc]
  unfold State.OutputsOk; rwa [hv, this]

theorem outputsOk_reset : State.reset.OutputsOk := by
  unfold State.OutputsOk
  rw [view_reset]
  exact .unowned (fun ch => by rw [channel_reset]) fun ch => by rw [channel_reset]; exact ⟨by decide, by decide⟩

/-- A write of an output record that names the same channel, driven when the live code changes. -/
theorem outputsOk_writeOutput (h : s.OutputsOk) {tag : Nat} {st : SlotState} {c c' : OutputConfig} {k k' : CodePart}
    {r : PointRecord} {drive : Bool} (hs : s.slot i = some ⟨tag, st, .output c k⟩) (hst : r.slotState ≠ .retiring)
    (hch : c'.channel = c.channel) (hc : CodesOk c' k') (hl : drive = false → k'.live = k.live) :
    (s.writeOutput i r c' k' drive).OutputsOk := by
  have hi : s.view outputAt i = some (st, c, k) := outputAt_eq_some.2 ⟨tag, hs⟩
  unfold State.OutputsOk
  rw [view_of_put outputAt (writeOutput_slots ..)]
  cases drive with
  | true =>
    rw [channel_of_put (s := s) rfl, hch]
    exact h.rewrite hi hst hch hc
  | false => exact h.rewrite_live hi hst hch hc (hl rfl)

theorem outputsOk_releasePoint (h : s.OutputsOk) {r : PointRecord} (hr : s.slot i = some r) :
    (s.releasePoint i r).OutputsOk := by
  rcases r with ⟨tag, _ | _ | _, ⟨c, v⟩ | ⟨c, k⟩⟩
  case held.output =>
    have hc := h.codes i .held c k (outputAt_eq_some.2 ⟨tag, hr⟩)
    refine outputsOk_writeOutput h hr nofun rfl ?_ fun hd => ?_
    · split
      · exact hc.settled
      · exact hc
    · rw [hd]; rfl
  case held.input => exact h.same (view_of_put_same outputAt rfl (by rw [hr]; rfl)) rfl
  all_goals exact h

theorem outputsOk_retirePoint (h : s.OutputsOk) {r : PointRecord} (hr : s.slot i = some r) :
    (s.retirePoint i r).OutputsOk := by
  rcases r with ⟨tag, st, ⟨c, v⟩ | ⟨c, k⟩⟩
  · refine h.same (view_of_put_same outputAt (slots_retirePoint ..) ?_) ?_
    · rw [hr]; split <;> rfl
    · simp only [State.retirePoint, State.forget]; split <;> simp
  · unfold State.OutputsOk
    rw [view_of_put outputAt (slots_retirePoint ..), channel_of_put (s := s) rfl]
    exact h.remove (outputAt_eq_some.2 ⟨tag, hr⟩)

theorem outputsOk_setUnderCal (h : s.OutputsOk) {ch : ChannelId} {b : Bool}
    (hb : b = true → (s.channel ch).owner = none) : (s.setUnderCal ch b).OutputsOk := by
  unfold State.OutputsOk
  rw [channel_of_put (t := s.setUnderCal ch b) (s := s) rfl]
  exact h.mark hb

theorem outputsOk_abortRunning (h : s.OutputsOk) (m : Measurement) : (s.abortRunning m).OutputsOk := by
  unfold State.abortRunning
  split
  · exact h
  · exact outputsOk_setUnderCal (b := false) h nofun

/-- A run marks a channel only while it has no owner (R150). -/
theorem outputsOk_beginEntries (sc : Scope) (l : List CalEntry) (h : s.OutputsOk) :
    (State.beginEntries sc l s).OutputsOk := by
  induction l generalizing s with
  | nil => exact h
  | cons e l ih =>
    cases e with
    | input r => exact h
    | output c =>
      unfold State.beginEntries; split
      · exact ih h
      · next ho => exact outputsOk_setUnderCal (b := true) h fun _ => by simpa using ho

theorem outputsOk_finishEntry (h : s.OutputsOk) (sc : Scope) (e : CalEntry) (x : Coefficients) :
    (s.finishEntry sc e x).OutputsOk := by
  unfold State.finishEntry
  cases e with
  | input r => exact outputsOk_beginEntries sc _ h
  | output c =>
    refine outputsOk_beginEntries sc _ ?_
    exact outputsOk_setUnderCal (b := false) (s := (s.setCalEntry _ x).setCalResult _ _) h nofun

/-- A change of every record that changes the codes of output records only, with the channels driven after it. -/
theorem outputsOk_mapRecords (h : s.OutputsOk) {f : PointRecord → PointRecord}
    (hin : ∀ r c v, r.body = .input c v → f r = r)
    (hout : ∀ tag st c k, CodesOk c k → ∃ k', f ⟨tag, st, .output c k⟩ = ⟨tag, st, .output c k'⟩ ∧ CodesOk c k') :
    (s.mapRecords f).OutputsOk := by
  have hslot : ∀ j, (s.mapRecords f).slot j = (s.slot j).map f := fun j => get_mapTable _ _ j
  have hchan : ∀ ch, (s.mapRecords f).channel ch = driveOwner (s.mapRecords f).slots (s.channel ch) :=
    fun ch => get_mapTable _ _ ch
  refine OutputsOk.recode h (fun j hj => ?_) (fun j st c k hj => ?_) fun ch ho => ?_
  · unfold State.view at hj ⊢
    rw [hslot]
    rcases hs : s.slot j with _ | ⟨tag, st, ⟨c, v⟩ | ⟨c, k⟩⟩
    · rfl
    · rw [Option.map_some, hin _ c v rfl]; rfl
    · rw [hs] at hj; nomatch hj
  · obtain ⟨tag, hs⟩ := outputAt_eq_some.1 hj
    obtain ⟨k', hk', hc⟩ := hout tag st c k (h.codes j st c k hj)
    have hs' : (s.mapRecords f).slot j = some ⟨tag, st, .output c k'⟩ := by rw [hslot, hs, Option.map_some, hk']
    refine ⟨k', outputAt_eq_some.2 ⟨tag, hs'⟩, hc, ?_⟩
    have ho := (h.owned j st c k hj).2.1
    rw [hchan, driveOwner, ho]
    dsimp only
    rw [show (s.mapRecords f).slots.get j = _ from hs', ← ho]
  · rw [hchan, driveOwner, ho]

/-- The staged codes of a set are made absent, and nothing is driven anew (R133). -/
theorem outputsOk_discard (h : s.OutputsOk) {u : SetId}
    (hs : t.slots = mapTable (fun x => x.map (discardRecord u)) s.slots) (hch : t.channels = s.channels) :
    t.OutputsOk := by
  have hslot : ∀ j, t.slot j = (s.slot j).map (discardRecord u) := fun j => by
    unfold State.slot; rw [hs]; exact get_mapTable _ _ j
  have hchan : t.channel = s.channel := by funext ch; unfold State.channel; rw [hch]
  unfold State.OutputsOk
  rw [hchan]
  refine OutputsOk.recode h (fun j hj => ?_) (fun j st c k hj => ?_) fun ch ho => rfl
  all_goals
    unfold State.view at hj ⊢
    rw [hslot]
  · rcases hs : s.slot j with _ | ⟨tag, st, ⟨c, v⟩ | ⟨c, k⟩⟩
    · rfl
    · rfl
    · rw [hs] at hj; nomatch hj
  · have hc := h.codes j st c k hj
    have hown := (h.owned j st c k hj).2.2
    obtain ⟨tag, hs⟩ := outputAt_eq_some.1 hj
    have drive : s.channel c.channel = { s.channel c.channel with driven := k.live } := by rw [← hown]
    rw [hs, Option.map_some]
    rcases discardRecord_cases u ⟨tag, st, .output c k⟩ with e | ⟨_, _, hb, e⟩
    · exact ⟨k, by rw [e]; rfl, hc, drive⟩
    · cases hb
      exact ⟨{ k with staged := none }, by rw [e]; rfl, ⟨hc.fields, hc.target, nofun, hc.live⟩, drive⟩

/-- Every edit keeps the outputs. -/
theorem outputsOk_of_edit (h : Edit s t) (hi : s.OutputsOk) : t.OutputsOk := by
  cases h with
  | none => exact hi
  | defineInput payload hf =>
    exact hi.same (view_of_put_same outputAt rfl (by rw [((lowestFree_eq_some s).1 hf).1]; rfl)) rfl
  | @defineOutput i tag c payload hf _ _ _ hc ho hu =>
    obtain ⟨hfields, hle⟩ := outputFieldsOk_of_define hc
    unfold State.OutputsOk
    rw [view_of_put (s := s) outputAt rfl, channel_of_put (t := s.defineOutput i tag c) (s := s) rfl]
    exact hi.add (by simp [State.view, ((lowestFree_eq_some s).1 hf).1, outputAt]) ho hu nofun
      (.takenOver hfields hle (hi.driven _))
  | modifyInput items hf hb =>
    refine hi.same (view_of_put_same outputAt (by rw [modifyInput_frame]) ?_) (by rw [modifyInput_frame])
    simp [slot_of_findPoint hf, outputAt, hb]
  | @modifyOutput tag i r c k c' items hf hb hc hle =>
    have hr : s.slot i = some ⟨r.tag, r.slotState, .output c k⟩ := by rw [slot_of_findPoint hf, ← hb]
    have hv := outputAt_eq_some.2 ⟨_, hr⟩
    have hco := hi.codes i _ c k hv
    obtain ⟨hch, hfields⟩ := outputFieldsOk_of_modify hc hco.fields
    exact outputsOk_writeOutput hi hr (hi.owned i _ c k hv).1 hch
      (hco.reclamped hfields (by simpa [clampOk] using hle) _) (by simp)
  | @hold tag i r hf =>
    have hr := slot_of_findPoint hf
    rcases r with ⟨tag, st, ⟨c, v⟩ | ⟨c, k⟩⟩
    · exact hi.same (view_of_put_same outputAt (slots_holdPoint s hr) (by rw [hr]; rfl)) (by rw [holdPoint_frame])
    · have hv := outputAt_eq_some.2 ⟨_, hr⟩
      have hst : (if st = .active then SlotState.held else st) ≠ .retiring := by
        split
        · nofun
        · exact (hi.owned i st c k hv).1
      unfold State.OutputsOk
      rw [view_of_put outputAt (slots_holdPoint s hr), holdPoint_frame]
      exact hi.rewrite_live hv hst rfl (hi.codes i st c k hv) rfl
  | release hf => exact outputsOk_releasePoint hi (slot_of_findPoint hf)
  | retire hf => exact outputsOk_retirePoint hi (slot_of_findPoint hf)
  | @stage tag i r c k x hf hb hlo hhi =>
    have hr : s.slot i = some ⟨r.tag, r.slotState, .output c k⟩ := by rw [slot_of_findPoint hf, ← hb]
    have hv := outputAt_eq_some.2 ⟨_, hr⟩
    have hco := hi.codes i _ c k hv
    refine outputsOk_writeOutput hi hr (hi.owned i _ c k hv).1 rfl ⟨hco.fields, hco.target, fun y hy => ?_, hco.live⟩
      fun _ => rfl
    cases hy; exact ⟨hlo, hhi⟩
  | commit u =>
    refine outputsOk_mapRecords hi (fun r c v hb => ?_) fun tag st c k hc => ?_
    · rcases commitRecord_cases u r with e | ⟨_, _, hb', -⟩
      · exact e
      · rw [hb] at hb'; nomatch hb'
    · rcases commitRecord_cases u ⟨tag, st, .output c k⟩ with e | ⟨_, _, hb, -, e⟩
      · exact ⟨k, e, hc⟩
      · cases hb; exact ⟨_, e, hc.committed⟩
  | discard u => exact outputsOk_discard hi rfl rfl
  | softReset =>
    unfold State.OutputsOk
    rw [view_of_replicate (x := none) outputAt rfl]
    have hch : ∀ ch, State.channel { s.softResetBlocks with maintPort := s.maintPort.dropRequest } ch =
        (s.channel ch).softReset := fun ch => get_mapTable _ _ ch
    exact .unowned (fun ch => by rw [hch]; rfl) fun ch => by rw [hch]; exact hi.driven ch
  | configure | unlist | deviceAck | calibrate | cancel => exact hi
  | abort => exact outputsOk_abortRunning hi _
  | startSave => exact hi.same (view_of_slots _ (by rw [startSave_frame])) (by rw [startSave_frame])

/-- Every move keeps the outputs. -/
theorem outputsOk_of_move (h : Move s t) (hi : s.OutputsOk) : t.OutputsOk := by
  cases h with
  | ports h => rw [h.only]; exact hi
  | answer p f he =>
    have := outputsOk_of_edit he hi
    rwa [placeResponse_eq_withPorts]
  | reset => exact outputsOk_reset.same (view_of_slots _ rfl) rfl
  | @expiry c =>
    refine hi.same (view_of_map outputAt (by rw [takeExpiry_frame]) fun r => ?_) (by rw [takeExpiry_frame])
    rcases expireRecord_cases c r with h | ⟨_, _, hb, h⟩ <;> simp [outputAt, *]
  | complete =>
    refine hi.same ?_ (by rw [complete_frame])
    rcases complete_cases s _ _ with ⟨hs, -⟩ | ⟨rec, hr, hst, hs, -⟩ | ⟨tag, c, v, hr, -, hs, -⟩
    · exact view_of_slots _ hs
    · rcases rec with ⟨tag, st, ⟨c, v⟩ | ⟨c, k⟩⟩
      · exact view_of_put_same _ hs (by rw [hr]; rfl)
      · exact absurd hst (hi.owned _ st c k (outputAt_eq_some.2 ⟨tag, hr⟩)).1
    · exact view_of_put_same _ hs (by rw [hr]; rfl)
  | ramp =>
    refine outputsOk_mapRecords hi (fun r c v hb => ?_) fun tag st c k hc => ?_
    · rcases rampRecord_cases r with e | ⟨_, _, hb', -⟩
      · exact e
      · rw [hb] at hb'; nomatch hb'
    · rcases rampRecord_cases ⟨tag, st, .output c k⟩ with e | ⟨_, _, hb, e⟩
      · exact ⟨k, e, hc⟩
      · cases hb; exact ⟨_, e, hc.ramped⟩
  | load => exact hi.same (view_of_slots _ (by rw [loadTable_frame])) (by rw [loadTable_frame])
  | lend => exact outputsOk_beginEntries _ _ hi
  | calEnd => exact outputsOk_finishEntry hi _ _ _
  | record => exact hi.same (view_of_slots _ (by rw [writeRecord_frame])) (by rw [writeRecord_frame])
  | erased => exact hi.same (view_of_slots _ (by simp)) (by simp)
  | marked => exact hi.same (view_of_slots _ (by simp [State.endSave])) (by simp [State.endSave])
  | endReset | pulse | classTick | start | settled | sample | calSettled | calSample | calSecond => exact hi

/-- Settles O54: every move keeps the channels, their owners and the codes. -/
theorem outputsKept : Obligations.OutputsKept := fun _ _ hch hco h =>
  outputsOk_iff.2 (step_keeps (P := State.OutputsOk) (fun _ _ h => h) (fun _ _ h m => outputsOk_of_move m h)
    (outputsOk_iff.1 ⟨hch, hco⟩) h)

end Sys2Proof.Machine
end

section
/-! PROOF. The class records, the input configurations and the value parts: every step keeps them in their ranges, and the
running sum of the conversion in flight a sum of codes of its range (R10 to R12, R50, R79, R94, R98). -/

namespace Sys2Proof.Machine

variable {s t : State} {i : SlotId}

/-! ## Class records -/

/-- A class record in its ranges (R50). -/
structure ClassOk (x : ScanClass) : Prop where
  period    : 1 ≤ x.period ∧ x.period ≤ 65535
  remaining : x.enabled = true → 1 ≤ x.remaining ∧ x.remaining ≤ x.period
  due       : x.expiryDue = true → x.enabled = true

/-- Every class record of a state is in its ranges. -/
def State.ClassesOk (s : State) : Prop := ∀ c, ClassOk (s.scanClass c)

theorem classInv_iff : ClassInv s ↔ s.ClassesOk :=
  ⟨fun h c => ⟨h.period c, h.remaining c, h.due c⟩,
    fun h => ⟨fun c => (h c).period, fun c => (h c).remaining, fun c => (h c).due⟩⟩

theorem State.ClassesOk.same (h : s.ClassesOk) (hc : t.classes = s.classes) : t.ClassesOk := by
  unfold State.ClassesOk State.scanClass; rw [hc]; exact h

theorem State.ClassesOk.put (h : s.ClassesOk) {c : ClassId} {x : ScanClass} (hc : t.classes = put s.classes c x)
    (hx : ClassOk x) : t.ClassesOk := by
  intro c'
  unfold State.scanClass
  rw [hc, get_put]; split
  · exact hx
  · exact h c'

theorem State.ClassesOk.map (h : s.ClassesOk) {f : ScanClass → ScanClass} (hc : t.classes = mapTable f s.classes)
    (hf : ∀ x, ClassOk x → ClassOk (f x)) : t.ClassesOk := by
  intro c
  unfold State.scanClass
  rw [hc, get_mapTable]; exact hf _ (h c)

theorem classOk_tick {x : ScanClass} (h : ClassOk x) : ClassOk x.tick := by
  unfold ScanClass.tick
  split
  · exact h
  next he =>
  have he' : x.enabled = true := by simpa using he
  have hp := h.period
  have hr := h.remaining he'
  split
  · exact ⟨hp, fun _ => ⟨hp.1, le_refl _⟩, fun _ => he'⟩
  · exact ⟨hp, fun _ => ⟨by dsimp only; omega, by dsimp only; omega⟩, h.due⟩

theorem classOk_configure (x : ScanClass) (enable : Bool) {period : Nat} (h1 : 1 ≤ period) (h2 : period ≤ 65535) :
    ClassOk (x.configure enable period) :=
  ⟨⟨h1, h2⟩, fun he => by simp only [ScanClass.configure] at he ⊢; simp [he, h1], nofun⟩

theorem classesOk_reset : State.reset.ClassesOk := by
  intro c
  rw [scanClass_reset]
  exact ⟨by revert c; decide, nofun, nofun⟩

/-- The counts of a class record may change freely. -/
theorem classesOk_unqueue (h : s.ClassesOk) (i : SlotId) : (s.unqueue i).ClassesOk := by
  intro c
  rw [(unqueued_unqueue s i).2 c]; split
  · exact ⟨(h c).period, (h c).remaining, (h c).due⟩
  · exact h c

theorem classesOk_modifyInput (h : s.ClassesOk) (i : SlotId) (r : PointRecord) (c : InputConfig) (v : ValuePart)
    (c' : InputConfig) : (s.modifyInput i r c v c').ClassesOk := by
  unfold State.modifyInput
  refine State.ClassesOk.same ?_ (raise_classes ..)
  split
  · split <;> exact h
  · refine classesOk_unqueue ?_ i
    split <;> exact h

theorem classesOk_holdPoint (h : s.ClassesOk) (i : SlotId) (r : PointRecord) : (s.holdPoint i r).ClassesOk := by
  unfold State.holdPoint; split
  · exact classesOk_unqueue (s := s.setSlot i _) h i
  all_goals exact h

theorem classesOk_retirePoint (h : s.ClassesOk) (i : SlotId) (r : PointRecord) : (s.retirePoint i r).ClassesOk := by
  unfold State.retirePoint; dsimp only; split
  · exact h
  · split
    · exact (classesOk_unqueue (s := s.forget i r) h i).same (freeSlot_classes ..)
    · exact State.ClassesOk.same (s := s.forget i r) h (freeSlot_classes ..)

/-- An expiry that is taken changes the counts and drops the mark of its class. -/
theorem classes_takeExpiry (s : State) (c : ClassId) : ∃ n b, (s.takeExpiry c).classes =
    put s.classes c { s.scanClass c with outstanding := n, overrun := b, expiryDue := false } := by
  have ha : (s.account c).classes = s.classes := by rw [account_frame]
  unfold State.takeExpiry; split
  · exact ⟨_, _, by simp only [State.declareOverrun, setClass_classes, State.scanClass, ha]; rfl⟩
  · exact ⟨_, _, by simp only [State.startPass, setClass_classes, State.scanClass, ha]; rfl⟩

/-! ## Configurations -/

theorem scaling_range {p : List Byte} {j : Nat} {x : Option Scaling} (h : scalingAt p j = some x) :
    ∀ k, x = some k → -32768 ≤ k.gain ∧ k.gain ≤ 32767 ∧ -8388608 ≤ k.offset ∧ k.offset ≤ 8388607 := by
  rintro k rfl
  rcases scalingAt_eq_some.1 h with ⟨-, h⟩ | ⟨-, h⟩ <;> cases h
  exact ⟨(s16_range _ _).1, (s16_range _ _).2, s24_range _ _⟩

theorem limit_range {p : List Byte} {j : Nat} {x : Option Int} (h : limitAt p j = some x) :
    ∀ y, x = some y → -2147483648 ≤ y ∧ y ≤ 2147483647 := by
  rintro y rfl
  rcases limitAt_eq_some.1 h with ⟨-, h⟩ | ⟨-, h⟩ <;> cases h
  exact s32_range _ _

/-- A DEFINE gives an input configuration in its ranges. -/
theorem inputInRange_of_define {p : List Byte} {c : InputConfig} (h : inputConfigOf p = some c) :
    inputInRange c ∧ limitsOk c = true := by
  obtain ⟨-, -, -, -, hs, hh, hl, hd, hok⟩ := inputConfigOf_eq_some.1 h
  exact ⟨⟨scaling_range hs, limit_range hh, limit_range hl, by have := u16_lt p 24; omega⟩, hok⟩

/-- An item of a MODIFY of an input point writes a value in its range. -/
theorem setInputField_keeps {f : ModifyField} {v : List Byte} {c c' : InputConfig}
    (h : setInputField f v c = some c') (hc : inputInRange c) : inputInRange c' := by
  cases f <;> simp only [setInputField, Option.map_eq_some_iff, Option.some.injEq, reduceCtorEq] at h
  case scaling => obtain ⟨x, hx, rfl⟩ := h; exact ⟨scaling_range hx, hc.high, hc.low, hc.deadband⟩
  case highLimit => obtain ⟨x, hx, rfl⟩ := h; exact ⟨hc.scaling, limit_range hx, hc.low, hc.deadband⟩
  case lowLimit => obtain ⟨x, hx, rfl⟩ := h; exact ⟨hc.scaling, hc.high, limit_range hx, hc.deadband⟩
  case deadband =>
    subst h; exact ⟨hc.scaling, hc.high, hc.low, by have := u16_lt v 0; dsimp only; omega⟩
  all_goals obtain ⟨x, -, rfl⟩ := h; exact ⟨hc.scaling, hc.high, hc.low, hc.deadband⟩

/-! ## Value parts -/

/-- The value of a corrected code lies in its range (R10, R94). -/
theorem scaledValue_range {c : InputConfig} (hc : inputInRange c) {x : Int} (hlo : -32768 ≤ x) (hhi : x ≤ 65535) :
    -8912888 ≤ scaledValue c.scaling x ∧ scaledValue c.scaling x ≤ 8912887 := by
  unfold scaledValue
  split
  · omega
  · next k hk =>
    obtain ⟨hg1, hg2, ho1, ho2⟩ := hc.scaling k hk
    have h1 : -2147450880 ≤ x * k.gain := by nlinarith
    have h2 : x * k.gain ≤ 2147385345 := by nlinarith
    generalize x * k.gain = y at *
    rw [Int.tdiv_eq_ediv, show (4096 : Int).sign = 1 from rfl]
    split <;> omega

theorem aboveHigh_isSome {c : InputConfig} {v : Int} (h : aboveHigh c v = true) : c.highLimit.isSome = true := by
  cases hh : c.highLimit with
  | none => simp [aboveHigh, hh] at h
  | some _ => rfl

theorem belowLow_isSome {c : InputConfig} {v : Int} (h : belowLow c v = true) : c.lowLimit.isSome = true := by
  cases hl : c.lowLimit with
  | none => simp [belowLow, hl] at h
  | some _ => rfl

/-- An evaluation leads to HIGH only where a high limit is present. -/
theorem evalLimit_high {c : InputConfig} {st : LimitState} {v : Int} (h0 : st = .high → c.highLimit.isSome = true)
    (h : evalLimit c st v = .high) : c.highLimit.isSome = true := by
  cases ha : aboveHigh c v with
  | true => exact aboveHigh_isSome ha
  | false =>
    cases st with
    | high => exact h0 rfl
    | normal => simp only [evalLimit, ha, Bool.false_eq_true, if_false] at h; split at h <;> nomatch h
    | low => simp only [evalLimit, ha, Bool.false_eq_true, if_false] at h; split at h <;> nomatch h

/-- An evaluation leads to LOW only where a low limit is present. -/
theorem evalLimit_low {c : InputConfig} {st : LimitState} {v : Int} (h0 : st = .low → c.lowLimit.isSome = true)
    (h : evalLimit c st v = .low) : c.lowLimit.isSome = true := by
  cases hb : belowLow c v with
  | true => exact belowLow_isSome hb
  | false =>
    cases st with
    | low => exact h0 rfl
    | normal => simp only [evalLimit, hb, Bool.false_eq_true, if_false] at h; split at h <;> nomatch h
    | high => simp only [evalLimit, hb, Bool.false_eq_true, if_false] at h; split at h <;> nomatch h

/-- Configuration and value part of an input record in their ranges (R10 to R12, R94, R98). -/
structure InputOk (c : InputConfig) (v : ValuePart) : Prop where
  fields  : inputInRange c
  limits  : limitsOk c = true
  codes   : -32768 ≤ v.corrected ∧ v.corrected ≤ 65535
  value   : -8912888 ≤ v.value ∧ v.value ≤ 8912887
  missed  : v.missedPasses ≤ 255
  noValue : v.hasValue = false → v.limitState = .normal
  high    : v.limitState = .high → c.highLimit.isSome = true
  low     : v.limitState = .low → c.lowLimit.isSome = true

section
variable {c c' : InputConfig} {v : ValuePart}

theorem InputOk.initial (hf : inputInRange c) (hl : limitsOk c = true) : InputOk c .initial :=
  ⟨hf, hl, by decide, by decide, by decide, fun _ => rfl, nofun, nofun⟩

theorem InputOk.expired (h : InputOk c v) : InputOk c (expiredPart v) := by
  refine ⟨h.fields, h.limits, h.codes, h.value, ?_, h.noValue, h.high, h.low⟩
  have := h.missed
  unfold expiredPart; dsimp only; split
  · exact this
  · split <;> omega

theorem InputOk.released (h : InputOk c v) : InputOk c (releasedPart v) :=
  ⟨h.fields, h.limits, h.codes, h.value, by simp [releasedPart], h.noValue, h.high, h.low⟩

theorem InputOk.written (h : InputOk c v) {x : Int} (hx : -32768 ≤ x ∧ x ≤ 65535) (cond : Condition) :
    InputOk c (writtenPart c v x cond) :=
  ⟨h.fields, h.limits, hx, scaledValue_range h.fields hx.1 hx.2, Nat.zero_le _, nofun,
    evalLimit_high h.high, evalLimit_low h.low⟩

/-- A MODIFY clears the value, or evaluates the limits anew from NORMAL, or leaves the limits alone (R35, R38, R39). -/
theorem InputOk.modified (h : InputOk c v) (hf : inputInRange c') (hl : limitsOk c' = true) :
    InputOk c' (modifiedPart c c' v) := by
  unfold modifiedPart; dsimp only; split
  · exact ⟨hf, hl, h.codes, h.value, h.missed, fun _ => rfl, nofun, nofun⟩
  split
  · next hre =>
    have hv : v.hasValue = true := (Bool.and_eq_true_iff.1 hre).1
    refine ⟨hf, hl, h.codes, ?_, h.missed, fun hn => ?_, evalLimit_high (st := .normal) nofun,
      evalLimit_low (st := .normal) nofun⟩
    · unfold modifiedValue; dsimp only; split
      · exact scaledValue_range hf h.codes.1 h.codes.2
      · exact h.value
    · exact absurd (hv.symm.trans hn) nofun
  · next hre =>
    have hkept : v.limitState ≠ .normal → c'.highLimit = c.highLimit ∧ c'.lowLimit = c.lowLimit := by
      intro hn
      have hv : v.hasValue = true := by
        cases hv : v.hasValue
        · exact absurd (h.noValue hv) hn
        · rfl
      simp only [hv, reevaluates, Bool.true_and, Bool.or_eq_true, bne_iff_ne, ne_eq, not_or, not_not] at hre
      exact ⟨hre.1.1.2, hre.1.2⟩
    refine ⟨hf, hl, h.codes, h.value, h.missed, h.noValue, fun hh => ?_, fun hlow => ?_⟩
    · rw [(hkept (by rw [hh]; nofun)).1]; exact h.high hh
    · rw [(hkept (by rw [hlow]; nofun)).2]; exact h.low hlow
end

/-! ## Conversions -/

theorem codeMin_le_codeMax (r : RangeCode) : -32768 ≤ codeMin r ∧ codeMin r ≤ codeMax r ∧ codeMax r ≤ 65535 := by
  unfold codeMin codeMax; split <;> decide

/-- A sum of n codes of a range. -/
def sumOf (r : RangeCode) (n : Nat) (sum : Int) : Prop := codeMin r * (n : Int) ≤ sum ∧ sum ≤ codeMax r * (n : Int)

/-- One code more. -/
theorem sumOf_add {r : RangeCode} {n : Nat} {sum : Int} (h : sumOf r n sum) (input : Int) :
    sumOf r (n + 1) (sum + converterCode r input) := by
  have hc := clampTo_range (x := input) (codeMin_le_codeMax r).2.1
  unfold sumOf converterCode at *
  push_cast
  constructor <;> linarith [hc.1, hc.2]

/-- The raw code of a full sum is a code of the range (R79). -/
theorem rawCode_range {r : RangeCode} {o : Oversample} {sum : Int} (h : sumOf r o.samples sum) :
    codeMin r ≤ rawCode sum o ∧ rawCode sum o ≤ codeMax r := by
  have hpos : (0 : Int) < o.samples := by cases o <;> decide
  exact ⟨(Int.le_ediv_iff_mul_le hpos).2 h.1, Int.ediv_le_of_le_mul hpos h.2⟩

/-- A corrected code lies in the span of all ranges (R81, R82). -/
theorem correctedCode_range (e : Coefficients) {r : RangeCode} {raw : Int} (h : codeMin r ≤ raw ∧ raw ≤ codeMax r) :
    -32768 ≤ correctedCode e r raw ∧ correctedCode e r raw ≤ 65535 := by
  obtain ⟨h1, h2, h3⟩ := codeMin_le_codeMax r
  cases e with
  | invalid => exact ⟨h1.trans h.1, h.2.trans h3⟩
  | valid o g =>
    have := clampTo_range (x := ((raw - o) * g).tdiv 32768) h2
    exact ⟨h1.trans this.1, this.2.trans h3⟩

/-! ## The state's values -/

/-- What the values see of a slot: configuration and value part of an input record. -/
def inputAt (x : Slot) : Option (InputConfig × ValuePart) :=
  x.bind fun r => match r.body with
    | .input c v => some (c, v)
    | .output _ _ => none

theorem inputAt_eq_some {x : Slot} {c : InputConfig} {v : ValuePart} :
    inputAt x = some (c, v) ↔ ∃ tag st, x = some ⟨tag, st, .input c v⟩ := by
  rcases x with _ | ⟨tag, st, ⟨c, v⟩ | ⟨c, k⟩⟩ <;> simp [inputAt]

/-- Every input record in its ranges. -/
def InputsOk (inputs : SlotId → Option (InputConfig × ValuePart)) : Prop :=
  ∀ i c v, inputs i = some (c, v) → InputOk c v

theorem InputsOk.empty : InputsOk fun _ => none := fun _ _ _ h => by cases h

theorem InputsOk.update {inputs : SlotId → Option (InputConfig × ValuePart)} (h : InputsOk inputs)
    {x : Option (InputConfig × ValuePart)} (hx : ∀ c v, x = some (c, v) → InputOk c v) :
    InputsOk (Function.update inputs i x) := by
  intro j c v hj
  by_cases hij : j = i
  · subst hij; rw [Function.update_self] at hj; exact hx c v hj
  · rw [Function.update_of_ne hij] at hj; exact h j c v hj

/-- The running sum of the conversion in flight is a sum of codes of the selected range (R79). -/
def SumOk (flight : Option Conversion) (selection : Option Selection) : Prop :=
  ∀ k sel, flight = some k → selection = some sel → sumOf sel.range k.taken k.sum

/-- Class records, input records and running sum in their ranges. -/
structure State.ValuesOk (s : State) : Prop where
  classes : s.ClassesOk
  inputs  : InputsOk (s.view inputAt)
  sum     : SumOk s.inFlight s.selection

theorem valuesOk_iff : (ClassInv s ∧ ValueInv s) ↔ s.ValuesOk := by
  constructor
  · intro ⟨hc, hv⟩
    refine ⟨classInv_iff.1 hc, fun i c v h => ?_, hv.sum⟩
    obtain ⟨tag, st, hs⟩ := inputAt_eq_some.1 h
    exact ⟨hv.fields i tag st c v hs, hv.limits i tag st c v hs, hv.codes i tag st c v hs, hv.value i tag st c v hs,
      hv.missed i tag st c v hs, hv.noValue i tag st c v hs, hv.high i tag st c v hs, hv.low i tag st c v hs⟩
  · intro h
    have ok {i tag st c v} (hs : s.slot i = some ⟨tag, st, .input c v⟩) : InputOk c v :=
      h.inputs i c v (inputAt_eq_some.2 ⟨tag, st, hs⟩)
    exact ⟨classInv_iff.2 h.classes, fun _ _ _ _ _ hs => (ok hs).fields, fun _ _ _ _ _ hs => (ok hs).limits,
      fun _ _ _ _ _ hs => (ok hs).codes, fun _ _ _ _ _ hs => (ok hs).value, fun _ _ _ _ _ hs => (ok hs).missed,
      fun _ _ _ _ _ hs => (ok hs).noValue, fun _ _ _ _ _ hs => (ok hs).high, fun _ _ _ _ _ hs => (ok hs).low, h.sum⟩

/-- With classes, input records, conversion in flight and selection as before. -/
theorem State.ValuesOk.same (h : s.ValuesOk) (hc : t.classes = s.classes) (hv : t.view inputAt = s.view inputAt)
    (hf : t.inFlight = s.inFlight) (hs : t.selection = s.selection) : t.ValuesOk :=
  ⟨h.classes.same hc, hv ▸ h.inputs, by rw [hf, hs]; exact h.sum⟩

theorem SumOk.of_none {flight : Option Conversion} : SumOk flight none := nofun

theorem SumOk.none_left {selection : Option Selection} : SumOk none selection := nofun

/-- A superseded conversion keeps its sum (R88). -/
theorem SumOk.of_modifyInput (h : SumOk s.inFlight s.selection) (i : SlotId) (r : PointRecord) (c : InputConfig)
    (v : ValuePart) (c' : InputConfig) :
    SumOk (s.modifyInput i r c v c').inFlight (s.modifyInput i r c v c').selection := by
  have hsel : (s.modifyInput i r c v c').selection = s.selection := by rw [modifyInput_frame]
  have hfly : (s.modifyInput i r c v c').inFlight = s.inFlight ∨
      (s.modifyInput i r c v c').inFlight =
        s.inFlight.map (fun k => if k.slot = i then { k with superseded := true } else k) := by
    unfold State.modifyInput; dsimp only
    rw [raise_inFlight]
    split <;> split <;> simp [State.supersede]
  rw [hsel]
  rcases hfly with e | e <;> rw [e]
  · exact h
  · intro k sel hk hs
    obtain ⟨k0, hk0, rfl⟩ := Option.map_eq_some_iff.1 hk
    split
    · exact h k0 sel hk0 hs
    · exact h k0 sel hk0 hs

/-- The coming up of a run's entries leaves the selection or releases it. -/
theorem selection_beginEntries (sc : Scope) (l : List CalEntry) (s : State) :
    (State.beginEntries sc l s).selection = s.selection ∨ (State.beginEntries sc l s).selection = none := by
  induction l generalizing s with
  | nil => exact .inr rfl
  | cons e l ih =>
    cases e with
    | input r => exact .inl rfl
    | output c =>
      unfold State.beginEntries; split
      · exact ih _
      · exact .inl rfl

theorem valuesOk_beginEntries (sc : Scope) (l : List CalEntry) (h : s.ValuesOk) :
    (State.beginEntries sc l s).ValuesOk := by
  refine ⟨h.classes.same (by rw [beginEntries_frame]), ?_, ?_⟩
  · rw [view_of_slots (s := s) inputAt (by rw [beginEntries_frame])]; exact h.inputs
  · rcases selection_beginEntries sc l s with e | e <;> rw [e]
    · rw [show (State.beginEntries sc l s).inFlight = s.inFlight by rw [beginEntries_frame]]; exact h.sum
    · exact .of_none

/-- Every edit keeps the values. -/
theorem valuesOk_of_edit (h : Edit s t) (hi : s.ValuesOk) : t.ValuesOk := by
  cases h with
  | none => exact hi
  | @defineInput i tag c payload hf _ _ _ hc =>
    refine ⟨hi.classes, ?_, hi.sum⟩
    rw [view_of_put (t := s.defineInput i tag c) (s := s) inputAt rfl]
    refine hi.inputs.update fun c' v' hx => ?_
    cases hx; exact .initial (inputInRange_of_define hc).1 (inputInRange_of_define hc).2
  | defineOutput payload hf =>
    exact hi.same rfl (view_of_put_same inputAt rfl (by rw [((lowestFree_eq_some s).1 hf).1]; rfl)) rfl rfl
  | @modifyInput tag i r c v c' items hf hb hc hl =>
    have hok : InputOk c v := hi.inputs i c v (by simp [State.view, slot_of_findPoint hf, inputAt, hb])
    have hfields := checkItems_keeps (P := inputInRange) (fun _ _ _ _ => setInputField_keeps) items [] 1 c c' hc hok.fields
    refine ⟨classesOk_modifyInput hi.classes _ _ _ _ _, ?_, hi.sum.of_modifyInput _ _ _ _ _⟩
    rw [view_of_put (s := s) inputAt (by rw [modifyInput_frame])]
    refine hi.inputs.update fun c1 v1 hx => ?_
    cases hx; exact hok.modified hfields hl
  | modifyOutput items hf hb =>
    refine hi.same (by simp [State.modifyOutput]) (view_of_put_same inputAt (slots_modifyOutput ..) ?_)
      (by simp [State.modifyOutput]) (by simp [State.modifyOutput])
    simp [slot_of_findPoint hf, inputAt, hb]
  | hold hf =>
    have hr := slot_of_findPoint hf
    refine ⟨classesOk_holdPoint hi.classes _ _, ?_, by rw [holdPoint_frame]; exact hi.sum⟩
    rw [view_of_put_same inputAt (slots_holdPoint s hr) (by rw [hr]; rfl)]; exact hi.inputs
  | @release tag i r hf =>
    have hr := slot_of_findPoint hf
    refine ⟨hi.classes.same (by rw [releasePoint_frame]), ?_, by rw [releasePoint_frame]; exact hi.sum⟩
    rw [view_of_put inputAt (slots_releasePoint s hr)]
    refine hi.inputs.update fun c' v' hx => ?_
    rcases r with ⟨tag, st, ⟨c, v⟩ | ⟨c, k⟩⟩
    · have hok : InputOk c v := hi.inputs i c v (by simp [State.view, hr, inputAt])
      split at hx <;> cases hx
      · exact hok.released
      · exact hok
    · split at hx <;> cases hx
  | @retire tag i r hf =>
    have hr := slot_of_findPoint hf
    refine ⟨classesOk_retirePoint hi.classes _ _, ?_, by rw [retirePoint_frame]; exact hi.sum⟩
    rw [view_of_put inputAt (slots_retirePoint ..)]
    refine hi.inputs.update fun c v hx => ?_
    split at hx
    · exact hi.inputs i c v (by rw [State.view, hr]; exact hx)
    · nomatch hx
  | stage hf hb =>
    refine hi.same (by simp) (view_of_put_same inputAt (writeOutput_slots ..) ?_) (by simp) (by simp)
    simp [slot_of_findPoint hf, inputAt, hb]
  | commit u =>
    refine hi.same rfl (view_of_map inputAt rfl fun r => ?_) rfl rfl
    rcases commitRecord_cases u r with h | ⟨_, _, hb, _, h⟩ <;> simp [inputAt, *]
  | discard u =>
    refine hi.same rfl (view_of_map inputAt rfl fun r => ?_) rfl rfl
    rcases discardRecord_cases u r with h | ⟨_, _, hb, h⟩ <;> simp [inputAt, *]
  | configure c enable h1 h2 => exact ⟨hi.classes.put rfl (classOk_configure _ enable h1 h2), hi.inputs, hi.sum⟩
  | deviceAck => exact ⟨hi.classes.map rfl fun x hx => ⟨hx.period, hx.remaining, hx.due⟩, hi.inputs, hi.sum⟩
  | softReset =>
    refine ⟨hi.classes.map rfl fun x hx => ⟨hx.period, nofun, nofun⟩, ?_, .of_none⟩
    rw [view_of_replicate (x := none) inputAt rfl]; exact .empty
  | abort =>
    refine ⟨hi.classes.same (by rw [abortRunning_frame]), ?_, by rw [abortRunning_frame]; exact .of_none⟩
    rw [view_of_slots (s := s) inputAt (by rw [abortRunning_frame])]; exact hi.inputs
  | startSave =>
    exact hi.same (by rw [startSave_frame]) (view_of_slots _ (by rw [startSave_frame])) (by rw [startSave_frame])
      (by rw [startSave_frame])
  | unlist | calibrate | cancel => exact hi.same rfl rfl rfl rfl

/-- Every move keeps the values, and a completion has taken the samples of its sum, one by one (R79). -/
theorem valuesOk_of_move (h : Move s t) (hcv : ConverterInv s) (hi : s.ValuesOk) : t.ValuesOk := by
  cases h with
  | ports h => rw [h.only]; exact hi.same rfl rfl rfl rfl
  | answer p f he =>
    rw [placeResponse_eq_withPorts]; exact (valuesOk_of_edit he hi).same rfl rfl rfl rfl
  | reset =>
    refine ⟨classesOk_reset, ?_, .of_none⟩
    rw [view_of_replicate (x := none) inputAt rfl]; exact .empty
  | classTick => exact ⟨hi.classes.map rfl fun _ => classOk_tick, hi.inputs, hi.sum⟩
  | @expiry c he =>
    obtain ⟨n, b, hc⟩ := classes_takeExpiry s c
    have hx := hi.classes c
    refine ⟨hi.classes.put hc ⟨hx.period, hx.remaining, nofun⟩, ?_, by rw [takeExpiry_frame]; exact hi.sum⟩
    have hslot : ∀ j, (s.takeExpiry c).slot j = (s.slot j).map (expireRecord c) := fun j => by
      rw [takeExpiry_frame]; exact get_mapTable _ _ j
    intro j k v hj
    unfold State.view at hj
    rw [hslot] at hj
    rcases hs : s.slot j with _ | ⟨tag, st, ⟨k0, v0⟩ | ⟨k0, q0⟩⟩ <;> rw [hs] at hj
    · nomatch hj
    · have hok : InputOk k0 v0 := hi.inputs j k0 v0 (inputAt_eq_some.2 ⟨tag, st, hs⟩)
      rw [Option.map_some] at hj
      rcases expireRecord_cases c ⟨tag, st, .input k0 v0⟩ with e | ⟨_, _, hb, e⟩ <;> rw [e] at hj
      · cases hj; exact hok
      · cases hb; cases hj; exact hok.expired
    · rw [Option.map_some] at hj
      rcases expireRecord_cases c ⟨tag, st, .output k0 q0⟩ with e | ⟨_, _, hb, e⟩
      · rw [e] at hj; nomatch hj
      · nomatch hb
  | start _ _ hq hs =>
    refine ⟨hi.classes, hi.inputs, fun k sel hk hsel => ?_⟩
    cases hk; exact ⟨by simp, by simp⟩
  | sample input hu hk hs =>
    refine ⟨hi.classes, hi.inputs, fun k' sel' hk' hs' => ?_⟩
    cases hk'; cases hs.symm.trans hs'
    exact sumOf_add (hi.sum _ _ hk hs) input
  | @complete k sel input hu hk hs hn =>
    have htaken : k.taken + 1 = k.oversample.samples := by have := hcv.samples k hk; omega
    have hsum := sumOf_add (hi.sum k sel hk hs) input
    rw [htaken] at hsum
    have hx := hi.classes k.passClass
    refine ⟨hi.classes.put (congrArg State.classes (complete_frame ..)) ⟨hx.period, hx.remaining, hx.due⟩, ?_,
      by rw [complete_frame]; exact .none_left⟩
    rcases complete_cases s (k.addSample sel.range (converterCode sel.range input)) sel.range with
      ⟨hsl, -⟩ | ⟨rec, hr, -, hsl, -⟩ | ⟨tag, c, v, hr, -, hsl, -⟩
    · rw [view_of_slots inputAt hsl]; exact hi.inputs
    · rw [view_of_put inputAt hsl]; exact hi.inputs.update fun _ _ h => by cases h
    · rw [view_of_put inputAt hsl]
      refine hi.inputs.update fun c' v' hx => ?_
      cases hx
      exact (hi.inputs _ c v (inputAt_eq_some.2 ⟨tag, _, hr⟩)).written (correctedCode_range _ (rawCode_range hsum)) _
  | ramp =>
    refine hi.same rfl (view_of_map inputAt rfl fun r => ?_) rfl rfl
    rcases rampRecord_cases r with h | ⟨_, _, hb, h⟩ <;> simp [inputAt, *]
  | load =>
    exact hi.same (by rw [loadTable_frame]) (view_of_slots _ (by rw [loadTable_frame])) (by rw [loadTable_frame])
      (by rw [loadTable_frame])
  | lend => exact valuesOk_beginEntries _ _ ⟨hi.classes, hi.inputs, .of_none⟩
  | @calEnd sc m x =>
    unfold State.finishEntry
    refine valuesOk_beginEntries _ _ ?_
    cases m.entry with
    | input r => exact hi.same rfl rfl rfl rfl
    | output c => exact hi.same rfl rfl rfl rfl
  | record =>
    exact hi.same (by rw [writeRecord_frame]) (view_of_slots _ (by rw [writeRecord_frame])) (by rw [writeRecord_frame])
      (by rw [writeRecord_frame])
  | erased => exact hi.same (by simp) (view_of_slots _ (by simp)) (by simp) (by simp)
  | marked =>
    exact hi.same (by simp [State.endSave]) (view_of_slots _ (by simp [State.endSave])) (by simp [State.endSave])
      (by simp [State.endSave])
  | endReset | pulse | settled | calSettled | calSample | calSecond => exact hi.same rfl rfl rfl rfl

/-- Settles O59: every move keeps the class records, configurations and value parts in their ranges. -/
theorem valuesKept : Obligations.ValuesKept := fun _ _ hcv hc hv h =>
  valuesOk_iff.2 (step_keeps (P := fun s => ConverterInv s ∧ s.ValuesOk)
    (fun _ _ h => ⟨⟨h.1.flight, h.1.samples, h.1.selected, h.1.grant, h.1.lent, h.1.unselected⟩,
      h.2.classes, h.2.inputs, h.2.sum⟩)
    (fun _ _ h m => valuesOk_of_move m h.1 h.2) ⟨hcv, valuesOk_iff.1 ⟨hc, hv⟩⟩ h)

end Sys2Proof.Machine
end

section
/-! PROOF. The Conversion Queue: every step keeps its entries, their order and the outstanding counts (R5, R61, R62, R65). -/

namespace Sys2Proof.Machine

variable {s t : State} {i : SlotId}

/-- What the scan sees of a slot: the slot state, and of an input record the scan class. -/
def scanAt (x : Slot) : Option (SlotState × Option ClassId) :=
  x.map fun r => (r.slotState, match r.body with
    | .input c _ => some c.scanClass
    | .output _ _ => none)

theorem scanAt_input {x : Slot} {st : SlotState} {c : ClassId} :
    scanAt x = some (st, some c) ↔ ∃ tag k v, x = some ⟨tag, st, .input k v⟩ ∧ k.scanClass = c := by
  rcases x with _ | ⟨tag, st, ⟨k, v⟩ | ⟨k, q⟩⟩ <;> simp [scanAt]

/-- The slot and the pass class of the conversion in flight. -/
def State.flight (s : State) : Option (SlotId × ClassId) := s.inFlight.map fun k => (k.slot, k.passClass)

/-- The outstanding count of a class. -/
def State.counts (s : State) (c : ClassId) : Nat := (s.scanClass c).outstanding

/-- Queue, conversion in flight and outstanding counts agree with the slots (R5, R61, R62, R65). -/
structure QueueOk (scan : SlotId → Option (SlotState × Option ClassId)) (queue : List QueueEntry)
    (flight : Option (SlotId × ClassId)) (counts : ClassId → Nat) : Prop where
  nodup       : (queue.map QueueEntry.slot).Nodup
  entries     : ∀ e ∈ queue, scan e.slot = some (.active, some e.passClass)
  ordered     : queue.Pairwise (fun a b => a.passClass ≤ b.passClass)
  notInFlight : ∀ e ∈ queue, flight.map Prod.fst ≠ some e.slot
  counted     : ∀ c, counts c = queue.countP (fun e => e.passClass == c) + if flight.map Prod.snd = some c then 1 else 0
  flying      : ∀ i, flight.map Prod.fst = some i → ∃ st c, scan i = some (st, some c)
  retiring    : ∀ i x, scan i = some (.retiring, x) → flight.map Prod.fst = some i

/-- Queue, conversion in flight and counts of a state agree with its slots. -/
abbrev State.QueueOk (s : State) : Prop := Machine.QueueOk (s.view scanAt) s.queue s.flight s.counts

theorem queueInv_iff : QueueInv s ↔ s.QueueOk := by
  have hwork : ∀ c, s.outstandingWork c =
      s.queue.countP (fun e => e.passClass == c) + if s.flight.map Prod.snd = some c then 1 else 0 := by
    intro c; unfold State.outstandingWork State.flight; cases s.inFlight <;> simp
  have hflight : ∀ j, s.flight.map Prod.fst = some j ↔ ∃ k, s.inFlight = some k ∧ k.slot = j := by
    intro j; unfold State.flight; cases s.inFlight <;> simp
  constructor
  · intro h
    refine ⟨h.nodup, fun e he => ?_, h.ordered, fun e he hf => ?_, fun c => (h.outstanding c).trans (hwork c),
      fun j hj => ?_, fun j x hj => ?_⟩
    · obtain ⟨tag, k, v, hs, hc⟩ := h.entries e he
      exact scanAt_input.2 ⟨tag, k, v, hs, hc⟩
    · obtain ⟨k, hk, hj⟩ := (hflight _).1 hf
      exact h.notInFlight k e hk he hj.symm
    · obtain ⟨k, hk, rfl⟩ := (hflight _).1 hj
      obtain ⟨tag, st, c, v, hs⟩ := h.flying k hk
      exact ⟨st, c.scanClass, scanAt_input.2 ⟨tag, c, v, hs, rfl⟩⟩
    · obtain ⟨r, hr, hx⟩ := Option.map_eq_some_iff.1 hj
      exact (hflight j).2 (h.retiring j r hr (congrArg Prod.fst hx))
  · intro h
    refine ⟨h.nodup, fun e he => ?_, h.ordered, fun k e hk he hj => ?_, fun c => (h.counted c).trans (hwork c).symm,
      fun k hk => ?_, fun j r hr hst => ?_⟩
    · obtain ⟨tag, k, v, hs, hc⟩ := scanAt_input.1 (h.entries e he)
      exact ⟨tag, k, v, hs, hc⟩
    · exact h.notInFlight e he ((hflight _).2 ⟨k, hk, hj.symm⟩)
    · obtain ⟨st, c, hs⟩ := h.flying k.slot ((hflight _).2 ⟨k, hk, rfl⟩)
      obtain ⟨tag, k', v, hs, -⟩ := scanAt_input.1 hs
      exact ⟨tag, st, k', v, hs⟩
    · refine (hflight j).1 (h.retiring j (scanAt (some r) >>= Prod.snd) ?_)
      rw [State.view, hr, ← hst]; rfl

/-- In a queue that names each slot once, the other entries are those behind one taken off. -/
theorem perm_filter_slot {l : List QueueEntry} (hn : (l.map QueueEntry.slot).Nodup) {e : QueueEntry} (he : e ∈ l) :
    l.Perm (e :: l.filter (fun x => x.slot != e.slot)) := by
  have heq : l.filter (fun x => x.slot != e.slot) = l.erase e := by
    rw [(hn.of_map _).erase_eq_filter]
    refine List.filter_congr fun x hx => ?_
    have : x.slot = e.slot ↔ x = e := ⟨fun h => List.inj_on_of_nodup_map hn hx he h, fun h => h ▸ rfl⟩
    simp only [bne, Bool.not_eq_eq_eq_not, Bool.not_not, beq_eq_beq, this]
  rw [heq]; exact List.perm_cons_erase he

section
variable {scan : SlotId → Option (SlotState × Option ClassId)} {queue : List QueueEntry}
  {flight : Option (SlotId × ClassId)} {counts counts' : ClassId → Nat} {c : ClassId}
  {y : Option (SlotState × Option ClassId)}

theorem QueueOk.empty : QueueOk (fun _ => none) [] none fun _ => 0 :=
  ⟨.nil, by simp, .nil, by simp, by simp, by simp, by simp⟩

/-- A slot without a queue entry changes; one in flight stays an input slot, and only that becomes RETIRING. -/
theorem QueueOk.set (h : QueueOk scan queue flight counts) (hq : ∀ e ∈ queue, e.slot ≠ i)
    (hfl : flight.map Prod.fst = some i → ∃ st c, y = some (st, some c))
    (hret : ∀ x, y = some (.retiring, x) → flight.map Prod.fst = some i) :
    QueueOk (Function.update scan i y) queue flight counts where
  nodup := h.nodup
  entries e he := by rw [Function.update_of_ne (hq e he)]; exact h.entries e he
  ordered := h.ordered
  notInFlight := h.notInFlight
  counted := h.counted
  flying j hj := by
    by_cases hij : j = i
    · subst hij; rw [Function.update_self]; exact hfl hj
    · rw [Function.update_of_ne hij]; exact h.flying j hj
  retiring j x hj := by
    by_cases hij : j = i
    · subst hij; rw [Function.update_self] at hj; exact hret x hj
    · rw [Function.update_of_ne hij] at hj; exact h.retiring j x hj

/-- A slot's entry goes, and the count of its pass class with it (R64). -/
theorem QueueOk.unqueue (h : QueueOk scan queue flight counts)
    (hc : ∀ c, counts' c = if (queue.find? (fun e => e.slot == i)).map QueueEntry.passClass = some c then counts c - 1
      else counts c) : QueueOk scan (queue.filter (fun e => e.slot != i)) flight counts' where
  nodup := h.nodup.sublist (List.filter_sublist.map _)
  entries e he := h.entries e (List.mem_filter.1 he).1
  ordered := h.ordered.sublist List.filter_sublist
  notInFlight e he := h.notInFlight e (List.mem_filter.1 he).1
  counted c := by
    rw [hc c, h.counted c]
    rcases hf : queue.find? (fun e => e.slot == i) with _ | e
    · have hall : queue.filter (fun e => e.slot != i) = queue := List.filter_eq_self.2 fun e he => by
        simpa using List.find?_eq_none.1 hf e he
      simp [hf, hall]
    · have hslot : e.slot = i := by simpa using List.find?_some hf
      subst hslot
      rw [(perm_filter_slot h.nodup (List.mem_of_find?_eq_some hf)).countP_eq, List.countP_cons]
      simp only [hf, Option.map_some, Option.some.injEq, beq_iff_eq]
      split <;> omega
  flying := h.flying
  retiring := h.retiring

/-- A slot loses its entry and changes: what an edit does that takes a point out of the queue. -/
theorem QueueOk.unqueue_set (h : QueueOk scan queue flight counts)
    (hc : ∀ c, counts' c = if (queue.find? (fun e => e.slot == i)).map QueueEntry.passClass = some c then counts c - 1
      else counts c) (hfl : flight.map Prod.fst = some i → ∃ st c, y = some (st, some c))
    (hret : ∀ x, y = some (.retiring, x) → flight.map Prod.fst = some i) :
    QueueOk (Function.update scan i y) (queue.filter (fun e => e.slot != i)) flight counts' :=
  (h.unqueue hc).set (fun _ he => by simpa using (List.mem_filter.1 he).2) hfl hret

/-- The head of the queue starts (R76). -/
theorem QueueOk.start {e : QueueEntry} {rest : List QueueEntry} (h : QueueOk scan (e :: rest) none counts) :
    QueueOk scan rest (some (e.slot, e.passClass)) counts where
  nodup := (List.nodup_cons.1 h.nodup).2
  entries x hx := h.entries x (List.mem_cons_of_mem _ hx)
  ordered := (List.pairwise_cons.1 h.ordered).2
  notInFlight x hx he := by
    have hne : e.slot ∉ rest.map QueueEntry.slot := (List.nodup_cons.1 h.nodup).1
    have hslot : e.slot = x.slot := Option.some.inj he
    exact hne (hslot ▸ List.mem_map_of_mem hx)
  counted c := by rw [h.counted c, List.countP_cons]; simp
  flying j hj := by cases hj; exact ⟨_, _, h.entries e List.mem_cons_self⟩
  retiring j x hj := by cases h.retiring j x hj

/-- The conversion in flight ends: the count of its pass class is lowered, and its slot, if it was RETIRING, is freed
(R65, R85). -/
theorem QueueOk.land (h : QueueOk scan queue (some (i, c)) counts)
    (hc : ∀ c', counts' c' = if c = c' then counts c - 1 else counts c')
    (hy : ∀ x, y ≠ some (.retiring, x)) : QueueOk (Function.update scan i y) queue none counts' where
  nodup := h.nodup
  entries e he := by
    have hne : e.slot ≠ i := fun e' => h.notInFlight e he (by rw [e']; rfl)
    rw [Function.update_of_ne hne]; exact h.entries e he
  ordered := h.ordered
  notInFlight := by simp
  counted c' := by
    rw [hc]
    split
    · next e => subst e; rw [h.counted]; simp
    · next hne => rw [h.counted]; simp [hne]
  flying := by simp
  retiring j x hj := by
    by_cases hij : j = i
    · subst hij; rw [Function.update_self] at hj; exact absurd hj (hy x)
    · rw [Function.update_of_ne hij] at hj
      exact absurd (Option.some.inj (h.retiring j x hj)).symm hij

theorem insertPass_perm (c : ClassId) (pass queue : List QueueEntry) : (insertPass c pass queue).Perm (pass ++ queue) := by
  have hsplit : (queue.filter (fun e => decide (e.passClass ≤ c)) ++
      queue.filter (fun e => decide (c < e.passClass))).Perm queue := by
    have := List.filter_append_perm (fun e : QueueEntry => decide (e.passClass ≤ c)) queue
    simpa only [← not_le, decide_not] using this
  unfold insertPass
  exact (List.perm_append_comm.append_right _).trans (by rw [List.append_assoc]; exact hsplit.append_left pass)

/-- A pass of a class with nothing outstanding starts (R57, R62). -/
theorem QueueOk.pass (h : QueueOk scan queue flight counts) (h0 : counts c = 0) {pass : List QueueEntry}
    (hn : (pass.map QueueEntry.slot).Nodup)
    (hp : ∀ e ∈ pass, e.passClass = c ∧ scan e.slot = some (.active, some c) ∧ (∀ e' ∈ queue, e'.slot ≠ e.slot) ∧
      flight.map Prod.fst ≠ some e.slot)
    (hc : ∀ c', counts' c' = if c = c' then pass.length else counts c') :
    QueueOk scan (insertPass c pass queue) flight counts' where
  nodup := by
    rw [((insertPass_perm c pass queue).map _).nodup_iff, List.map_append, List.nodup_append]
    refine ⟨hn, h.nodup, fun a ha b hb e => ?_⟩
    obtain ⟨x, hx, rfl⟩ := List.mem_map.1 ha
    obtain ⟨x', hx', rfl⟩ := List.mem_map.1 hb
    exact (hp x hx).2.2.1 x' hx' e.symm
  entries e he := by
    rcases List.mem_append.1 ((insertPass_perm c pass queue).mem_iff.1 he) with he | he
    · rw [(hp e he).1]; exact (hp e he).2.1
    · exact h.entries e he
  ordered := by
    unfold insertPass
    rw [List.append_assoc, List.pairwise_append, List.pairwise_append]
    refine ⟨h.ordered.sublist List.filter_sublist, ⟨?_, h.ordered.sublist List.filter_sublist, fun a ha b hb => ?_⟩,
      fun a ha b hb => ?_⟩
    · exact List.pairwise_of_forall_mem_list fun a ha b hb => by rw [(hp a ha).1, (hp b hb).1]
    · have hb' : c < b.passClass := by simpa using (List.mem_filter.1 hb).2
      rw [(hp a ha).1]; exact hb'.le
    · have ha' : a.passClass ≤ c := by simpa using (List.mem_filter.1 ha).2
      rcases List.mem_append.1 hb with hb | hb
      · rw [(hp b hb).1]; exact ha'
      · have hb' : c < b.passClass := by simpa using (List.mem_filter.1 hb).2
        exact ha'.trans hb'.le
  notInFlight e he := by
    rcases List.mem_append.1 ((insertPass_perm c pass queue).mem_iff.1 he) with he | he
    · exact (hp e he).2.2.2
    · exact h.notInFlight e he
  counted c' := by
    have hold := h.counted c'
    rw [(insertPass_perm c pass queue).countP_eq, List.countP_append, hc c']
    split
    · next e =>
      subst e
      have hall : pass.countP (fun e => e.passClass == c) = pass.length :=
        List.countP_eq_length.2 fun e he => by simp [(hp e he).1]
      rw [hall]; omega
    · next hne =>
      have hnone : pass.countP (fun e => e.passClass == c') = 0 :=
        List.countP_eq_zero.2 fun e he => by simp [(hp e he).1, hne]
      rw [hnone]; omega
  flying := h.flying
  retiring := h.retiring
end

/-! ## The effects on the queue -/

theorem counts_of_classes (h : t.classes = s.classes) : t.counts = s.counts := by
  funext c; unfold State.counts State.scanClass; rw [h]

theorem flight_of_inFlight (h : t.inFlight = s.inFlight) : t.flight = s.flight := by
  unfold State.flight; rw [h]

/-- A command that touches nothing the scan sees. -/
theorem State.QueueOk.same (h : s.QueueOk) (hv : t.view scanAt = s.view scanAt) (hq : t.queue = s.queue)
    (hf : t.flight = s.flight) (hc : t.counts = s.counts) : t.QueueOk := by
  unfold State.QueueOk; rwa [hv, hq, hf, hc]

/-- A change of every class record that leaves the outstanding counts. -/
theorem counts_of_map {f : ScanClass → ScanClass} (h : t.classes = mapTable f s.classes)
    (hf : ∀ x, (f x).outstanding = x.outstanding) : t.counts = s.counts := by
  funext c; simp [State.counts, State.scanClass, h, hf]

/-- A change of one class record that leaves its outstanding count. -/
theorem counts_of_put {c : ClassId} {x : ScanClass} (h : t.classes = put s.classes c x)
    (hx : x.outstanding = (s.scanClass c).outstanding) : t.counts = s.counts := by
  funext c'
  simp only [State.counts, State.scanClass, h, get_put]
  split
  · next e => subst e; exact hx
  · rfl

/-- The counts after a slot's entry is taken off. -/
theorem counts_unqueue (s : State) (i : SlotId) (c : ClassId) : (s.unqueue i).counts c =
    if (s.queue.find? (fun e => e.slot == i)).map QueueEntry.passClass = some c then s.counts c - 1 else s.counts c := by
  unfold State.counts
  rw [(unqueued_unqueue s i).2 c, State.queueEntry]
  split <;> rfl

/-- A slot that is neither an ACTIVE input record nor free of the queue has no queue entry. -/
theorem no_entry_of_scan (h : s.QueueOk) (hs : ∀ c, s.view scanAt i ≠ some (.active, some c)) :
    ∀ e ∈ s.queue, e.slot ≠ i := by
  rintro e he rfl; exact hs _ (h.entries e he)

theorem view_scanAt {r : PointRecord} (hr : s.slot i = some r) : s.view scanAt i = scanAt (some r) := by
  rw [State.view, hr]

/-- The conversion in flight is not that of a slot without an input record. -/
theorem not_flying_of_scan (h : s.QueueOk) (hs : ∀ st c, s.view scanAt i ≠ some (st, some c)) :
    s.flight.map Prod.fst ≠ some i := by
  intro hf; obtain ⟨st, c, hi⟩ := h.flying i hf; exact hs st c hi

theorem flight_eq_some_iff : s.flight.map Prod.fst = some i ↔ s.inFlightAt i = true := by
  unfold State.flight State.inFlightAt; cases s.inFlight <;> simp

/-- A new ACTIVE record in a FREE slot is neither queued nor in flight. -/
theorem queueOk_define (h : s.QueueOk) {r : PointRecord} (hfree : s.slot i = none) (hst : r.slotState = .active)
    (hs : t.slots = put s.slots i (some r)) (hq : t.queue = s.queue) (hf : t.inFlight = s.inFlight)
    (hc : t.classes = s.classes) : t.QueueOk := by
  have hv : s.view scanAt i = none := by rw [State.view, hfree]; rfl
  unfold State.QueueOk
  rw [view_of_put scanAt hs, hq, flight_of_inFlight hf, counts_of_classes hc]
  refine h.set (no_entry_of_scan h (by simp [hv])) (fun hfl => ?_) fun x hx => ?_
  · exact absurd hfl (not_flying_of_scan h (by simp [hv]))
  · simp [scanAt, hst] at hx

/-- A MODIFY of the scan class takes the point out of the queue (R36, R64); any other leaves the queue as it was. -/
theorem queueOk_modifyInput (h : s.QueueOk) {r : PointRecord} {c : InputConfig} {v : ValuePart} (c' : InputConfig)
    (hr : s.slot i = some r) (hb : r.body = .input c v) : (s.modifyInput i r c v c').QueueOk := by
  have hslots : (s.modifyInput i r c v c').slots =
      put s.slots i (some { r with body := .input c' (modifiedPart c c' v) }) := by rw [modifyInput_frame]
  have hvi : s.view scanAt i = some (r.slotState, some c.scanClass) := by rw [view_scanAt hr, scanAt, Option.map_some, hb]
  -- the state before the entry is taken off, with the conversion in flight superseded or not
  obtain ⟨s', hs', hm⟩ : ∃ s' : State, (s'.queue = s.queue ∧ s'.flight = s.flight ∧ s'.classes = s.classes) ∧
      s.modifyInput i r c v c' =
        State.raise (if c'.scanClass = c.scanClass then s' else s'.unqueue i) i (modifyReasons c c' v) := by
    refine ⟨_, ?_, rfl⟩
    split
    · refine ⟨rfl, ?_, rfl⟩
      unfold State.flight State.supersede
      dsimp only [setSlot_inFlight]
      cases s.inFlight with
      | none => rfl
      | some k => simp only [Option.map_some]; split <;> rfl
    · exact ⟨rfl, rfl, rfl⟩
  obtain ⟨hq, hf, hc⟩ := hs'
  have hcounts : s'.counts = s.counts := counts_of_classes hc
  unfold State.QueueOk
  by_cases he : c'.scanClass = c.scanClass
  · rw [view_of_put_same scanAt hslots (by rw [show scanAt (s.slot i) = _ from hvi, ← he]; rfl), hm, if_pos he, raise_queue,
      flight_of_inFlight (raise_inFlight ..), counts_of_classes (raise_classes ..), hq, hf, hcounts]
    exact h
  · rw [view_of_put scanAt hslots, hm, if_neg he, raise_queue,
      flight_of_inFlight (raise_inFlight ..), counts_of_classes (raise_classes ..),
      flight_of_inFlight (unqueue_inFlight ..), hf, (unqueued_unqueue s' i).1, hq]
    refine h.unqueue_set (fun c => ?_) (fun _ => ⟨_, _, rfl⟩) fun x hx => ?_
    · rw [counts_unqueue, hq, hcounts]
    · refine h.retiring i (some c.scanClass) ?_
      have hst : r.slotState = .retiring := congrArg Prod.fst (Option.some.inj hx)
      rw [hvi, hst]

theorem queueOk_holdPoint (h : s.QueueOk) {r : PointRecord} (hr : s.slot i = some r) : (s.holdPoint i r).QueueOk := by
  have hv := view_scanAt hr
  rcases r with ⟨tag, _ | _ | _, ⟨c, v⟩ | ⟨c, k⟩⟩
  case active.input =>
    change State.QueueOk ((s.setSlot i _).unqueue i)
    unfold State.QueueOk
    rw [view_of_put scanAt (unqueue_slots ..), flight_of_inFlight (unqueue_inFlight ..), (unqueued_unqueue _ i).1]
    exact h.unqueue_set (fun c => counts_unqueue ..) (fun _ => ⟨_, _, rfl⟩) fun x hx => by simp [scanAt] at hx
  case active.output =>
    change State.QueueOk (s.setSlot i _)
    unfold State.QueueOk
    rw [view_of_put (s := s) scanAt rfl]
    refine h.set (no_entry_of_scan h (by simp [hv, scanAt])) (fun hf => ?_) fun x hx => by simp [scanAt] at hx
    exact absurd hf (not_flying_of_scan h (by simp [hv, scanAt]))
  all_goals exact h

theorem queueOk_releasePoint (h : s.QueueOk) {r : PointRecord} (hr : s.slot i = some r) :
    (s.releasePoint i r).QueueOk := by
  have hv := view_scanAt hr
  have hq : (s.releasePoint i r).queue = s.queue := by rw [releasePoint_frame]
  have hf : (s.releasePoint i r).flight = s.flight := flight_of_inFlight (by rw [releasePoint_frame])
  have hc : (s.releasePoint i r).counts = s.counts := counts_of_classes (by rw [releasePoint_frame])
  have hslots := slots_releasePoint s hr
  by_cases hst : r.slotState = .held
  · unfold State.QueueOk
    rw [view_of_put scanAt hslots, hq, hf, hc, if_pos hst]
    refine h.set (no_entry_of_scan h (by simp [hv, scanAt, hst])) (fun hfl => ?_) fun x hx => by simp [scanAt] at hx
    obtain ⟨st, cl, hcl⟩ := h.flying i hfl
    rw [hv] at hcl
    rcases r with ⟨tag, st', ⟨c, v⟩ | ⟨c, k⟩⟩
    · exact ⟨_, _, rfl⟩
    · simp [scanAt] at hcl
  · rw [if_neg hst, ← hr, State.slot, put_get_self] at hslots
    exact h.same (view_of_slots _ hslots) hq hf hc

/-- A RETIRE takes the point out of the queue, unless its conversion is in flight; then its slot waits for it (R46). -/
theorem queueOk_retirePoint (h : s.QueueOk) {r : PointRecord} (hr : s.slot i = some r) :
    (s.retirePoint i r).QueueOk := by
  have hv := view_scanAt hr
  have hslots := slots_retirePoint s i r
  have hf : (s.retirePoint i r).flight = s.flight := flight_of_inFlight (by rw [retirePoint_frame])
  unfold State.QueueOk
  rw [view_of_put scanAt hslots, hf]
  rcases r with ⟨tag, st, ⟨c, v⟩ | ⟨c, k⟩⟩
  · by_cases hp : s.inFlightAt i = true
    · have hfl := flight_eq_some_iff.2 hp
      have hkeep : (s.retirePoint i ⟨tag, st, .input c v⟩).queue = s.queue ∧
          (s.retirePoint i ⟨tag, st, .input c v⟩).classes = s.classes := by
        simp [State.retirePoint, State.retirePends, hp, State.forget]
      rw [hkeep.1, counts_of_classes hkeep.2]
      simp only [State.retirePends, hp, if_true]
      exact h.set (fun e he e' => h.notInFlight e he (by rw [e', hfl])) (fun _ => ⟨_, _, rfl⟩) fun _ _ => hfl
    · have hgone : s.retirePoint i ⟨tag, st, .input c v⟩ =
          ((s.forget i ⟨tag, st, .input c v⟩).unqueue i).freeSlot i ⟨tag, st, .input c v⟩ := by
        simp [State.retirePoint, State.retirePends, hp]
      rw [hgone, freeSlot_queue, counts_of_classes (freeSlot_classes ..), (unqueued_unqueue _ i).1]
      simp only [State.retirePends, hp]
      exact h.unqueue_set (fun c => counts_unqueue ..) (fun hfl => absurd (flight_eq_some_iff.1 hfl) hp)
        fun x hx => by simp [scanAt] at hx
  · have hkeep : (s.retirePoint i ⟨tag, st, .output c k⟩).queue = s.queue ∧
        (s.retirePoint i ⟨tag, st, .output c k⟩).classes = s.classes := by
      simp [State.retirePoint, State.retirePends, State.forget]
    rw [hkeep.1, counts_of_classes hkeep.2]
    refine h.set (no_entry_of_scan h (by simp [hv, scanAt])) (fun hfl => ?_) fun x hx => by
      simp [State.retirePends, scanAt] at hx
    exact absurd hfl (not_flying_of_scan h (by simp [hv, scanAt]))

/-- Every edit keeps the Conversion Queue. -/
theorem queueOk_of_edit (h : Edit s t) (hi : s.QueueOk) : t.QueueOk := by
  cases h with
  | none => exact hi
  | defineInput payload hf => exact queueOk_define hi ((lowestFree_eq_some s).1 hf).1 rfl rfl rfl rfl rfl
  | defineOutput payload hf => exact queueOk_define hi ((lowestFree_eq_some s).1 hf).1 rfl rfl rfl rfl rfl
  | modifyInput items hf hb => exact queueOk_modifyInput hi _ (slot_of_findPoint hf) hb
  | modifyOutput items hf hb =>
    refine hi.same (view_of_put_same scanAt (slots_modifyOutput ..) ?_) (by simp [State.modifyOutput])
      (flight_of_inFlight (by simp [State.modifyOutput])) (counts_of_classes (by simp [State.modifyOutput]))
    simp [slot_of_findPoint hf, scanAt, hb]
  | hold hf => exact queueOk_holdPoint hi (slot_of_findPoint hf)
  | release hf => exact queueOk_releasePoint hi (slot_of_findPoint hf)
  | retire hf => exact queueOk_retirePoint hi (slot_of_findPoint hf)
  | stage hf hb =>
    refine hi.same (view_of_put_same scanAt (writeOutput_slots ..) ?_) (by simp) rfl rfl
    simp [slot_of_findPoint hf, scanAt, hb]
  | commit u =>
    refine hi.same (view_of_map scanAt rfl fun r => ?_) rfl rfl rfl
    rcases commitRecord_cases u r with h | ⟨_, _, hb, _, h⟩ <;> simp [scanAt, *]
  | discard u =>
    refine hi.same (view_of_map scanAt rfl fun r => ?_) rfl rfl rfl
    rcases discardRecord_cases u r with h | ⟨_, _, hb, h⟩ <;> simp [scanAt, *]
  | configure => exact hi.same rfl rfl rfl (counts_of_put rfl rfl)
  | deviceAck => exact hi.same rfl rfl rfl (counts_of_map rfl fun _ => rfl)
  | softReset =>
    unfold State.QueueOk
    have hc : State.counts { s.softResetBlocks with maintPort := s.maintPort.dropRequest } = fun _ => 0 := by
      funext c; exact congrArg ScanClass.outstanding (get_mapTable _ _ c)
    rw [view_of_replicate (x := none) scanAt rfl, hc]; exact .empty
  | abort =>
    exact hi.same (view_of_slots _ (by rw [abortRunning_frame])) (by rw [abortRunning_frame])
      (flight_of_inFlight (by rw [abortRunning_frame])) (counts_of_classes (by rw [abortRunning_frame]))
  | startSave =>
    exact hi.same (view_of_slots _ (by rw [startSave_frame])) (by rw [startSave_frame])
      (flight_of_inFlight (by rw [startSave_frame])) (counts_of_classes (by rw [startSave_frame]))
  | unlist | calibrate | cancel => exact hi

/-- The points of a class, in tag order, are each a slot of their own. -/
theorem members_nodup (hx : IndexOk s.tagIndex (s.view heldTag)) (c : ClassId) : (s.members c).Nodup := by
  refine List.Nodup.filter _ (List.Nodup.map_on (fun a ha b hb e => ?_) (hx.sorted.imp fun h => by rintro rfl; omega))
  have ha' := (hx.exact a.tag a.slot).1 ha
  rw [e, (hx.exact b.tag b.slot).1 hb] at ha'
  exact eq_of_tag_eq hx.sorted ha hb (Option.some.inj ha').symm

/-- A point of a class is an ACTIVE input record that names it. -/
theorem scan_of_member {c : ClassId} (h : i ∈ s.members c) : s.view scanAt i = some (.active, some c) := by
  have hc := (List.mem_filter.1 h).2
  unfold State.view
  rcases hs : s.slot i with _ | ⟨tag, st, ⟨k, v⟩ | ⟨k, q⟩⟩ <;> rw [hs] at hc
  · nomatch hc
  · obtain ⟨hst, hk⟩ := Bool.and_eq_true_iff.1 hc
    have hst : st = .active := beq_iff_eq.1 hst
    simp [scanAt, hst, beq_iff_eq.1 hk]
  · nomatch hc

/-- An expiry starts a pass of its class when nothing of it is outstanding, and else leaves the queue (R56, R57). -/
theorem queueOk_takeExpiry (h : s.QueueOk) (hx : IndexOk s.tagIndex (s.view heldTag)) (c : ClassId) :
    (s.takeExpiry c).QueueOk := by
  have hv : (s.takeExpiry c).view scanAt = s.view scanAt :=
    view_of_map scanAt (by rw [takeExpiry_frame]) fun r => by
      rcases expireRecord_cases c r with e | ⟨_, _, hb, e⟩ <;> simp [scanAt, *]
  have hf : (s.takeExpiry c).flight = s.flight := flight_of_inFlight (by rw [takeExpiry_frame])
  have hcl : (s.account c).classes = s.classes := by rw [account_frame]
  have hq : (s.account c).queue = s.queue := by rw [account_frame]
  by_cases ho : 0 < (s.scanClass c).outstanding
  · have he : s.takeExpiry c = (s.account c).declareOverrun c := if_pos ho
    refine h.same hv (by rw [he]; exact hq) hf ?_
    rw [he, counts_of_put (t := (s.account c).declareOverrun c) (s := s.account c)
      (x := { (s.account c).scanClass c with overrun := true, expiryDue := false }) rfl rfl, counts_of_classes hcl]
  · have he : s.takeExpiry c = (s.account c).startPass c (s.passOf c) := if_neg ho
    unfold State.QueueOk
    rw [hv, hf, show (s.takeExpiry c).queue = insertPass c (s.passOf c) s.queue by rw [he, ← hq]; rfl]
    have hslots : (s.passOf c).map QueueEntry.slot =
        (s.members c).filter (fun i => (s.queueEntry i).isNone && !s.inFlightAt i) := by
      rw [State.passOf, List.map_map]; exact List.map_id _
    refine h.pass (c := c) (by unfold State.counts; omega) ?_ (fun e hm => ?_) fun c' => ?_
    · rw [hslots]; exact (members_nodup hx c).filter _
    · obtain ⟨j, hj, rfl⟩ := List.mem_map.1 hm
      obtain ⟨hmem, hfree⟩ := List.mem_filter.1 hj
      obtain ⟨hnq, hnf⟩ := Bool.and_eq_true_iff.1 hfree
      refine ⟨rfl, scan_of_member hmem, (queueEntry_eq_none s).1 (Option.isNone_iff_eq_none.1 hnq), fun hfl => ?_⟩
      rw [flight_eq_some_iff.1 hfl] at hnf; nomatch hnf
    · rw [he]
      unfold State.counts State.startPass
      simp only [State.scanClass, setClass_classes, get_put, hcl]
      split <;> rfl

/-- A completion takes its conversion out of flight, with its count and, if it is RETIRING, its slot (R65, R85). -/
theorem queueOk_complete (h : s.QueueOk) {k k' : Conversion} (hk : s.inFlight = some k) (hslot : k'.slot = k.slot)
    (hclass : k'.passClass = k.passClass) (r : RangeCode) : (s.complete k' r).QueueOk := by
  have hfl : s.flight = some (k.slot, k.passClass) := by rw [State.flight, hk]; rfl
  have hc : ∀ c', (s.complete k' r).counts c' = if k.passClass = c' then s.counts k.passClass - 1 else s.counts c' := by
    intro c'
    have := congrArg State.classes (complete_frame s k' r)
    simp only [State.counts, State.scanClass, this, get_put, hclass]
    split <;> rfl
  obtain ⟨y, hv, hy⟩ : ∃ y, (s.complete k' r).view scanAt = Function.update (s.view scanAt) k.slot y ∧
      ∀ x, y ≠ some (.retiring, x) := by
    rw [← hslot]
    rcases complete_cases s k' r with ⟨hs, -, hne⟩ | ⟨rec, hr, -, hs, -⟩ | ⟨tag, c, v, hr, -, hs, -⟩
    · refine ⟨s.view scanAt k'.slot, by rw [view_of_slots _ hs, Function.update_eq_self], fun x hx => ?_⟩
      obtain ⟨rec, hr, hx⟩ := Option.map_eq_some_iff.1 hx
      exact hne rec hr (congrArg Prod.fst hx)
    · exact ⟨_, view_of_put _ hs, by simp [scanAt]⟩
    · exact ⟨_, view_of_put _ hs, by simp [scanAt]⟩
  unfold State.QueueOk at h ⊢
  rw [hfl] at h
  rw [hv, show (s.complete k' r).flight = none by rw [State.flight, complete_frame]; rfl,
    show (s.complete k' r).queue = s.queue by rw [complete_frame]]
  exact h.land hc hy

/-- The counts are 0 after a reset, and nothing is queued or in flight. -/
theorem queueOk_reset : State.reset.QueueOk := by
  unfold State.QueueOk
  have hc : State.reset.counts = fun _ => 0 := by funext c; rw [State.counts, scanClass_reset]; rfl
  rw [view_reset, hc]; exact .empty

/-- Every move keeps the Conversion Queue. -/
theorem queueOk_of_move (h : Move s t) (hx : IndexOk s.tagIndex (s.view heldTag)) (hcv : ConverterInv s)
    (hi : s.QueueOk) : t.QueueOk := by
  cases h with
  | ports h => rw [h.only]; exact hi
  | answer p f he =>
    have := queueOk_of_edit he hi
    rwa [placeResponse_eq_withPorts]
  | reset => exact queueOk_reset.same (view_of_slots _ rfl) rfl rfl rfl
  | classTick =>
    refine hi.same rfl rfl rfl (counts_of_map rfl fun x => ?_)
    unfold ScanClass.tick; split
    · rfl
    · split <;> rfl
  | expiry => exact queueOk_takeExpiry hi hx _
  | @start e rest tag st c v hu _ hq hs =>
    have hnone : s.inFlight = none := by
      rw [← Option.not_isSome_iff_eq_none, hcv.flight, hu]; simp
    unfold State.QueueOk at hi
    rw [hq, State.flight, hnone] at hi
    exact hi.start
  | sample input hu hk =>
    exact hi.same (view_of_slots _ rfl) rfl (by unfold State.flight; rw [hk]; rfl) rfl
  | @complete k sel input hu hk =>
    exact queueOk_complete (k' := k.addSample sel.range (converterCode sel.range input)) hi hk rfl rfl sel.range
  | ramp =>
    refine hi.same (view_of_map scanAt rfl fun r => ?_) rfl rfl rfl
    rcases rampRecord_cases r with h | ⟨_, _, hb, h⟩ <;> simp [scanAt, *]
  | load =>
    exact hi.same (view_of_slots _ (by rw [loadTable_frame])) (by rw [loadTable_frame])
      (flight_of_inFlight (by rw [loadTable_frame])) (counts_of_classes (by rw [loadTable_frame]))
  | lend =>
    exact hi.same (view_of_slots _ (by rw [lend_frame])) (by rw [lend_frame])
      (flight_of_inFlight (by rw [lend_frame])) (counts_of_classes (by rw [lend_frame]))
  | calEnd =>
    exact hi.same (view_of_slots _ (by rw [finishEntry_frame])) (by rw [finishEntry_frame])
      (flight_of_inFlight (by rw [finishEntry_frame])) (counts_of_classes (by rw [finishEntry_frame]))
  | record =>
    exact hi.same (view_of_slots _ (by rw [writeRecord_frame])) (by rw [writeRecord_frame])
      (flight_of_inFlight (by rw [writeRecord_frame])) (counts_of_classes (by rw [writeRecord_frame]))
  | erased =>
    exact hi.same (view_of_slots _ (by simp)) (by simp) (flight_of_inFlight (by simp)) (counts_of_classes (by simp))
  | marked =>
    exact hi.same (view_of_slots _ (by simp [State.endSave])) (by simp [State.endSave])
      (flight_of_inFlight (by simp [State.endSave])) (counts_of_classes (by simp [State.endSave]))
  | endReset | pulse | settled | calSettled | calSample | calSecond => exact hi

/-- Settles O56: every move keeps the Conversion Queue and the outstanding counts. -/
theorem queueKept : Obligations.QueueKept := fun _ _ hx hcv hq h =>
  queueInv_iff.2 (step_keeps (P := fun s => IndexInv s ∧ ConverterInv s ∧ s.QueueOk)
    (fun _ _ h => ⟨⟨h.1.sorted, h.1.inRange, h.1.exact⟩,
      ⟨h.2.1.flight, h.2.1.samples, h.2.1.selected, h.2.1.grant, h.2.1.lent, h.2.1.unselected⟩, h.2.2⟩)
    (fun _ _ h m => queueOk_of_move m (indexInv_iff.1 h.1) h.2.1 h.2.2) ⟨hx, hcv, queueInv_iff.1 hq⟩ h)

end Sys2Proof.Machine
end

section
/-! PROOF. Requests that name a point, the grades of an input point, and the state after a hard reset. -/

namespace Sys2Proof.Machine

variable {s : State} {payload : List Byte} {n : Nat} {f : SlotId → PointRecord → Answer}

/-! ## Requests that name a point (R18, R26) -/

/-- A payload of another length is refused. -/
theorem onPoint_of_length_ne (h : payload.length ≠ n) : s.onPoint payload n f = .refuse .badField [] := if_pos h

/-- Tag 0 and tag 65535 are refused. -/
theorem onPoint_of_bad_tag (hl : payload.length = n) (h : u16 payload 0 = 0 ∨ u16 payload 0 = 65535) :
    s.onPoint payload n f = .refuse .badField [] := by
  rw [State.onPoint, if_neg (by simp [hl]), if_pos h]

/-- A tag that is not held is not found. -/
theorem onPoint_of_not_found (hl : payload.length = n) (h1 : 1 ≤ u16 payload 0) (h2 : u16 payload 0 ≤ 65534)
    (hf : s.findPoint (u16 payload 0) = none) : s.onPoint payload n f = .refuse .notFound [] := by
  rw [State.onPoint, if_neg (by simp [hl]), if_neg (by omega), hf]

/-- ACK's checks are those of a request that names a point, but for tag 0 (R118). -/
theorem requestAck_refusals (s : State) (payload : List Byte) :
    (payload.length ≠ 2 → requestAck payload s = .refuse .badField []) ∧
    (payload.length = 2 → u16 payload 0 = 65535 → requestAck payload s = .refuse .badField []) ∧
    (payload.length = 2 → 1 ≤ u16 payload 0 → u16 payload 0 ≤ 65534 → s.findPoint (u16 payload 0) = none →
      requestAck payload s = .refuse .notFound []) := by
  unfold requestAck
  refine ⟨fun h => if_pos h, fun hl h => ?_, fun hl h1 h2 hf => ?_⟩
  · rw [if_neg (by simp [hl]), if_pos h]
  · rw [if_neg (by simp [hl]), if_neg (by omega), if_neg (by omega), hf]

/-- Settles O20: five requests check their point alike, and ACK does but for tag 0. -/
theorem namedPointRefusals : Obligations.NamedPointRefusals := by
  intro s p k id payload n hk hs
  have named : (∃ f, requestBody k p payload s = s.onPoint payload n f) ∨ (k = .ack ∧ n = 2) := by
    simp only [List.mem_cons, Prod.mk.injEq, List.not_mem_nil, or_false] at hk
    rcases hk with ⟨rfl, rfl⟩ | ⟨rfl, rfl⟩ | ⟨rfl, rfl⟩ | ⟨rfl, rfl⟩ | ⟨rfl, rfl⟩ | ⟨rfl, rfl⟩
    case inr.inr.inr.inr.inr => exact .inr ⟨rfl, rfl⟩
    all_goals exact .inl ⟨_, rfl⟩
  rcases named with ⟨f, hf⟩ | ⟨rfl, rfl⟩
  · exact ⟨fun h => onlyAnswers_of_refuse hs (hf.trans (onPoint_of_length_ne h)),
      fun hl h => onlyAnswers_of_refuse hs (hf.trans (onPoint_of_bad_tag hl (h.imp_left And.left))),
      fun hl h1 h2 hn => onlyAnswers_of_refuse hs (hf.trans (onPoint_of_not_found hl h1 h2 hn))⟩
  · obtain ⟨hlen, htag, hnone⟩ := requestAck_refusals s payload
    exact ⟨fun h => onlyAnswers_of_refuse hs (hlen h),
      fun hl h => onlyAnswers_of_refuse hs (htag hl (h.resolve_left fun h => h.2 rfl)),
      fun hl h1 h2 hn => onlyAnswers_of_refuse hs (hnone hl h1 h2 hn)⟩

/-! ## Limit state and quality (R14, R99 to R102) -/

section
variable {c : InputConfig} {v : Int}

theorem aboveHigh_iff : aboveHigh c v = true ↔ ∃ h, c.highLimit = some h ∧ h < v := by
  unfold aboveHigh; cases c.highLimit <;> simp

theorem belowLow_iff : belowLow c v = true ↔ ∃ l, c.lowLimit = some l ∧ v < l := by
  unfold belowLow; cases c.lowLimit <;> simp

/-- Limits that meet R11 are not both passed by one value. -/
theorem not_above_and_below (hok : limitsOk c = true) : ¬ (aboveHigh c v = true ∧ belowLow c v = true) := by
  rw [aboveHigh_iff, belowLow_iff]
  rintro ⟨⟨h, hh, hv⟩, l, hl, hv'⟩
  have := limitsOk_iff.1 hok h l hh hl
  omega

/-- A value that leads to NORMAL from any limit state is not above the high and not below the low limit. -/
theorem evalLimit_normal_again {st : LimitState} (h : evalLimit c st v = .normal) : evalLimit c .normal v = .normal := by
  have hhigh : leavesHigh c v = true → aboveHigh c v = false := by
    unfold leavesHigh aboveHigh; cases c.highLimit <;> simp; omega
  have hlow : leavesLow c v = true → belowLow c v = false := by
    unfold leavesLow belowLow; cases c.lowLimit <;> simp; omega
  cases st with
  | normal => exact h
  | high =>
    unfold evalLimit at h ⊢
    dsimp only at h ⊢
    split at h
    · nomatch h
    · split at h
      · simp [*]
      · nomatch h
  | low =>
    unfold evalLimit at h ⊢
    dsimp only at h ⊢
    split at h
    · nomatch h
    · split at h
      · simp [*]
      · nomatch h
end

/-- Settles O37: each grade is the first case of its rule that holds. -/
theorem limitStateAndQuality : Obligations.LimitStateAndQuality := by
  refine ⟨fun c v above below ha hb => ?_, fun st v => ?_⟩
  · rw [← aboveHigh_iff] at ha
    rw [← belowLow_iff] at hb
    refine ⟨fun h => ?_, fun h h' => ?_, fun h h' => ?_, fun h => ?_, fun h x hx => ?_, fun h => ?_, fun h x hx => ?_,
      fun hok h => ?_, fun st => evalLimit_normal_again⟩
    · simp [evalLimit, ha.1 h]
    · simp [evalLimit, mt ha.2 h, hb.1 h']
    · simp [evalLimit, mt ha.2 h, mt hb.2 h']
    · simp [evalLimit, hb.1 h]
    · simp [evalLimit, mt hb.2 h, leavesHigh, hx]
    · simp [evalLimit, ha.1 h]
    · simp [evalLimit, mt ha.2 h, leavesLow, hx]
    · exact not_above_and_below hok ⟨ha.1 h.1, hb.1 h.2⟩
  · refine ⟨fun h => ?_, fun h hv => ?_, fun h hv hm => ?_, fun h hv hm => ?_⟩
    · simp [qualityOf, h]
    · simp [qualityOf, h, hv]
    · simp [qualityOf, h, hv, hm]
    · have hm' : ¬ 3 ≤ v.missedPasses := by omega
      refine ⟨fun hc => ?_, fun hc => ?_, fun hc => ?_⟩ <;> simp [qualityOf, h, hv, hm', hc]

/-! ## After a hard reset -/

/-- Settles O10: every block at the values of its chapter. -/
theorem resetValues : Obligations.ResetValues := by
  refine ⟨slot_reset, rfl, claim_reset, channel_reset, fun c => by simp [ScanClass.initial], rfl, rfl, rfl, rfl, rfl, rfl,
    rfl, rfl, rfl, rfl, rfl, rfl, fun e => get_replicate _ _, rfl, rfl, fun p => ?_, rfl, rfl⟩
  cases p <;> rfl

theorem converterInv_reset : ConverterInv State.reset :=
  ⟨by simp [State.reset], nofun, nofun, by simp [State.reset], by simp [State.reset], nofun⟩

theorem runInv_reset : RunInv State.reset := by
  refine ⟨nofun, nofun, nofun, fun c => ?_⟩
  rw [channel_reset]
  exact ⟨nofun, fun ⟨_, _, h, _⟩ => nomatch h⟩

theorem phaseInv_reset : PhaseInv State.reset :=
  ⟨fun _ => ⟨rfl, rfl⟩, fun _ => ⟨rfl, rfl, rfl, rfl⟩, fun _ c => by rw [scanClass_reset]; rfl,
    fun _ => ⟨rfl, rfl, rfl, slot_reset⟩, by decide⟩

theorem storeInv_reset : StoreInv State.reset where
  distinct := nofun
  complete n h := by cases n <;> nomatch h
  current := nofun
  noneValid := nofun
  target := nofun
  exclusive := nofun

theorem tableInv_reset : TableInv State.reset where
  table e := by rw [show State.reset.calEntry e = .invalid from get_replicate _ _]; trivial
  banks n h := by cases n <;> nomatch h
  snapshot := nofun
  written := nofun

theorem attentionInv_reset : AttentionInv State.reset := ⟨.nil, nofun, nofun⟩

theorem valueInv_reset : ValueInv State.reset :=
  (valuesOk_iff.2 ⟨classesOk_reset, by rw [view_reset]; exact .empty, .of_none⟩).2

/-- Settles O60: the invariants hold where every run begins. -/
theorem invariantsAtReset : Obligations.InvariantsAtReset := by
  have hindex : IndexInv State.reset := indexInv_iff.2 (by rw [view_reset]; exact .empty)
  have hclaims : ClaimInv State.reset := claimInv_iff.2 (by rw [view_reset]; exact .empty)
  obtain ⟨hchannels, hcodes⟩ := outputsOk_iff.2 outputsOk_reset
  exact ⟨hindex, hclaims, hchannels, hcodes, converterInv_reset, runInv_reset, queueInv_iff.2 queueOk_reset,
    phaseInv_reset, storeInv_reset, tableInv_reset, attentionInv_reset, classInv_iff.2 classesOk_reset, valueInv_reset⟩

end Sys2Proof.Machine
end

section
/-! PROOF. The items of a MODIFY: what a passing item list says of its items and of the fields, and the first item that
fails (R33 step 4, R186). -/

namespace Sys2Proof.Machine

/-! ## Selectors and value areas (R186) -/

/-- The selector that names a field (R186). -/
def ModifyField.selector : ModifyField → Nat
  | .source => 0x10
  | .range => 0x11
  | .oversample => 0x12
  | .scanClass => 0x13
  | .scaling => 0x14
  | .highLimit => 0x15
  | .lowLimit => 0x16
  | .deadband => 0x17
  | .clampMin => 0x20
  | .clampMax => 0x21
  | .slew => 0x22
  | .updateSet => 0x23
  | .operatorWritable => 0x24

theorem fieldOf_eq_some {n : Nat} {f : ModifyField} : fieldOf n = some f ↔ n = f.selector := by
  constructor
  · unfold fieldOf; split <;> intro h <;> cases h <;> rfl
  · rintro rfl; cases f <;> rfl

section
variable (p : List Byte) (m : Nat) {j : Nat}

theorem byteAt_itemAt_value (h : j < 6) : byteAt (itemAt p m).value j = byteAt p (4 + j + 7 * m) := by
  rw [itemAt, byteAt_take h, byteAt_drop, Nat.add_right_comm]

theorem u8_itemAt_value (h : j < 6) : u8 (itemAt p m).value j = u8 p (4 + j + 7 * m) := by
  rw [u8, byteAt_itemAt_value p m h, u8]

theorem u16_itemAt_value (h : j < 5) : u16 (itemAt p m).value j = u16 p (4 + j + 7 * m) := by
  rw [u16, u8_itemAt_value p m (by omega), u8_itemAt_value p m (by omega), u16,
    show 4 + (j + 1) + 7 * m = 4 + j + 7 * m + 1 by omega]

theorem s16_itemAt_value (h : j < 5) : s16 (itemAt p m).value j = s16 p (4 + j + 7 * m) := by
  rw [s16, u16_itemAt_value p m h, s16]

theorem s24_itemAt_value (h : j < 4) : s24 (itemAt p m).value j = s24 p (4 + j + 7 * m) := by
  rw [s24, u8_itemAt_value p m (by omega), u16_itemAt_value p m (by omega), s24,
    show 4 + (j + 1) + 7 * m = 4 + j + 7 * m + 1 by omega]

theorem s32_itemAt_value (h : j < 3) : s32 (itemAt p m).value j = s32 p (4 + j + 7 * m) := by
  rw [s32, u16_itemAt_value p m (by omega), u16_itemAt_value p m (by omega), s32,
    show 4 + (j + 2) + 7 * m = 4 + j + 7 * m + 2 by omega]

theorem itemAt_mem_itemsOf {p : List Byte} {m : Nat} (h : m < u8 p 2) : itemAt p m ∈ itemsOf p :=
  List.mem_map_of_mem (List.mem_range.2 h)
end

/-! ## Items that pass -/

section
variable {α : Type} {ofKind : ModifyField → Bool} {write : ModifyField → List Byte → α → Option α}
  {items : List ModifyItem} {seen : List ModifyField} {position : Nat} {c c' : α} {f : ModifyField}

/-- What a first item that passes says, and how the check goes on. -/
theorem checkItems_cons_passed {item : ModifyItem}
    (h : checkItems ofKind write seen position (item :: items) c = .passed c') :
    ∃ f c₁, fieldOf item.selector = some f ∧ ofKind f = true ∧ f ∉ seen ∧ write f item.value c = some c₁ ∧
      checkItems ofKind write (f :: seen) (position + 1) items c₁ = .passed c' := by
  unfold checkItems at h
  split at h
  · nomatch h
  next f hf =>
  split at h
  · nomatch h
  next hk =>
  split at h
  · nomatch h
  next hs =>
  split at h
  · nomatch h
  next c₁ hw => exact ⟨f, c₁, hf, by simpa using hk, hs, hw, h⟩

/-- Each item that passes names a field of the kind that no earlier item named. -/
theorem checkItems_field (h : checkItems ofKind write seen position items c = .passed c') {item : ModifyItem}
    (hm : item ∈ items) : ∃ f, fieldOf item.selector = some f ∧ ofKind f = true ∧ f ∉ seen := by
  induction items generalizing seen position c with
  | nil => nomatch hm
  | cons a items ih =>
    obtain ⟨f, c₁, hf, hk, hs, -, hrest⟩ := checkItems_cons_passed h
    rcases List.mem_cons.1 hm with rfl | hm
    · exact ⟨f, hf, hk, hs⟩
    · obtain ⟨g, hg, hgk, hgs⟩ := ih hrest hm
      exact ⟨g, hg, hgk, fun h => hgs (List.mem_cons_of_mem _ h)⟩

/-- A field that an earlier item named is named by none of the items that pass. -/
theorem checkItems_not_seen (h : checkItems ofKind write seen position items c = .passed c') (hs : f ∈ seen) :
    ∀ item ∈ items, fieldOf item.selector ≠ some f := by
  intro item hm hf
  obtain ⟨g, hg, -, hgs⟩ := checkItems_field h hm
  cases hf.symm.trans hg
  exact hgs hs

/-- No two items that pass name one field. -/
theorem checkItems_nodup (h : checkItems ofKind write seen position items c = .passed c') :
    (items.map fun item => fieldOf item.selector).Nodup := by
  induction items generalizing seen position c with
  | nil => exact .nil
  | cons a items ih =>
    obtain ⟨f, c₁, hf, -, -, -, hrest⟩ := checkItems_cons_passed h
    refine List.nodup_cons.2 ⟨fun hmem => ?_, ih hrest⟩
    obtain ⟨item, hm, he⟩ := List.mem_map.1 hmem
    exact checkItems_not_seen hrest (List.mem_cons_self ..) item hm (he.trans hf)

section
variable {same : ModifyField → α → α → Prop} (refl : ∀ f c, same f c c)
  (trans : ∀ f a b c, same f a b → same f b c → same f a c)
  (frame : ∀ f g v c c', write g v c = some c' → g ≠ f → same f c c')
include refl trans frame

/-- A field that no item names is kept, when every write keeps the fields it does not name. -/
theorem checkItems_keeps_field (h : checkItems ofKind write seen position items c = .passed c')
    (hn : ∀ item ∈ items, fieldOf item.selector ≠ some f) : same f c c' := by
  induction items generalizing seen position c with
  | nil => cases h; exact refl f _
  | cons a items ih =>
    obtain ⟨g, c₁, hg, -, -, hw, hrest⟩ := checkItems_cons_passed h
    have hne : g ≠ f := by rintro rfl; exact hn a (List.mem_cons_self ..) hg
    exact trans _ _ _ _ (frame f g _ _ _ hw hne) (ih hrest fun x hx => hn x (List.mem_cons_of_mem _ hx))

/-- The field an item names holds in the end what the item wrote. -/
theorem checkItems_writes_field (h : checkItems ofKind write seen position items c = .passed c') {item : ModifyItem}
    (hm : item ∈ items) (hf : fieldOf item.selector = some f) :
    ∃ c₀ c₁, write f item.value c₀ = some c₁ ∧ same f c₁ c' := by
  induction items generalizing seen position c with
  | nil => nomatch hm
  | cons a items ih =>
    obtain ⟨g, c₁, hg, -, -, hw, hrest⟩ := checkItems_cons_passed h
    rcases List.mem_cons.1 hm with rfl | hm
    · cases hf.symm.trans hg
      exact ⟨c, c₁, hw, checkItems_keeps_field refl trans frame hrest
        (checkItems_not_seen hrest (List.mem_cons_self ..))⟩
    · exact ih hrest hm
end
end

/-! ## The fields of a configuration -/

/-- Two input configurations agree in a field; every field of an output record counts as agreeing. -/
def sameInputField (f : ModifyField) (c c' : InputConfig) : Prop :=
  match f with
  | .source => c'.source = c.source
  | .range => c'.range = c.range
  | .oversample => c'.oversample = c.oversample
  | .scanClass => c'.scanClass = c.scanClass
  | .scaling => c'.scaling = c.scaling
  | .highLimit => c'.highLimit = c.highLimit
  | .lowLimit => c'.lowLimit = c.lowLimit
  | .deadband => c'.deadband = c.deadband
  | .clampMin | .clampMax | .slew | .updateSet | .operatorWritable => True

/-- Two output configurations agree in a field; every field of an input record counts as agreeing. -/
def sameOutputField (f : ModifyField) (c c' : OutputConfig) : Prop :=
  match f with
  | .clampMin => c'.clampMin = c.clampMin
  | .clampMax => c'.clampMax = c.clampMax
  | .slew => c'.slew = c.slew
  | .updateSet => c'.updateSet = c.updateSet
  | .operatorWritable => c'.operatorWritable = c.operatorWritable
  | .source | .range | .oversample | .scanClass | .scaling | .highLimit | .lowLimit | .deadband => True

theorem sameInputField_refl (f : ModifyField) (c : InputConfig) : sameInputField f c c := by
  cases f <;> trivial

theorem sameOutputField_refl (f : ModifyField) (c : OutputConfig) : sameOutputField f c c := by
  cases f <;> trivial

theorem sameInputField_trans (f : ModifyField) (a b c : InputConfig) (h : sameInputField f a b)
    (h' : sameInputField f b c) : sameInputField f a c := by
  cases f <;> first | trivial | exact h'.trans h

theorem sameOutputField_trans (f : ModifyField) (a b c : OutputConfig) (h : sameOutputField f a b)
    (h' : sameOutputField f b c) : sameOutputField f a c := by
  cases f <;> first | trivial | exact h'.trans h

/-- An item writes no input field but the one it names. -/
theorem setInputField_frame (f g : ModifyField) (v : List Byte) (c c' : InputConfig)
    (h : setInputField g v c = some c') (hne : g ≠ f) : sameInputField f c c' := by
  cases g <;> simp only [setInputField, Option.map_eq_some_iff, Option.some.injEq, reduceCtorEq] at h
  case deadband => subst h; cases f <;> trivial
  all_goals obtain ⟨x, -, rfl⟩ := h; cases f <;> trivial

/-- An item writes no output field but the one it names. -/
theorem setOutputField_frame (f g : ModifyField) (v : List Byte) (c c' : OutputConfig)
    (h : setOutputField g v c = some c') (hne : g ≠ f) : sameOutputField f c c' := by
  cases g <;> simp only [setOutputField, Option.map_eq_some_iff, Option.some.injEq, reduceCtorEq] at h
  case clampMin | clampMax => subst h; cases f <;> trivial
  all_goals obtain ⟨x, -, rfl⟩ := h; cases f <;> trivial

/-! ## What the items of a payload write -/

section
variable {α : Type} {ofKind : ModifyField → Bool} {write : ModifyField → List Byte → α → Option α}
  {p : List Byte} {c c' : α}

/-- The selectors of items that pass are those of fields of the kind. -/
theorem selector_of_passed (h : checkItems ofKind write [] 1 (itemsOf p) c = .passed c') {m : Nat} (hm : m < u8 p 2) :
    ∃ f, u8 p (3 + 7 * m) = ModifyField.selector f ∧ ofKind f = true := by
  obtain ⟨f, hf, hk, -⟩ := checkItems_field h (itemAt_mem_itemsOf hm)
  exact ⟨f, fieldOf_eq_some.1 hf, hk⟩

/-- No two items that pass carry one selector. -/
theorem selectors_distinct_of_passed (h : checkItems ofKind write [] 1 (itemsOf p) c = .passed c') {m m' : Nat}
    (hm : m < u8 p 2) (hm' : m' < u8 p 2) (he : u8 p (3 + 7 * m) = u8 p (3 + 7 * m')) : m = m' := by
  have hd := checkItems_nodup h
  rw [itemsOf, List.map_map] at hd
  exact List.inj_on_of_nodup_map hd (List.mem_range.2 hm) (List.mem_range.2 hm') (congrArg fieldOf he)
end

section
variable {p : List Byte} {f : ModifyField} {m : Nat}

theorem input_item_written {c c' : InputConfig}
    (h : checkItems ModifyField.ofInput setInputField [] 1 (itemsOf p) c = .passed c') (hm : m < u8 p 2)
    (hf : u8 p (3 + 7 * m) = f.selector) :
    ∃ c₀ c₁, setInputField f (itemAt p m).value c₀ = some c₁ ∧ sameInputField f c₁ c' :=
  checkItems_writes_field sameInputField_refl sameInputField_trans setInputField_frame h (itemAt_mem_itemsOf hm)
    (fieldOf_eq_some.2 hf)

theorem input_field_kept {c c' : InputConfig}
    (h : checkItems ModifyField.ofInput setInputField [] 1 (itemsOf p) c = .passed c')
    (hn : ∀ m, m < u8 p 2 → u8 p (3 + 7 * m) ≠ f.selector) : sameInputField f c c' := by
  refine checkItems_keeps_field sameInputField_refl sameInputField_trans setInputField_frame h fun item hm hf => ?_
  obtain ⟨m, hlt, rfl⟩ := List.mem_map.1 hm
  exact hn m (List.mem_range.1 hlt) (fieldOf_eq_some.1 hf)

theorem output_item_written {c c' : OutputConfig}
    (h : checkItems (fun f => !f.ofInput) setOutputField [] 1 (itemsOf p) c = .passed c') (hm : m < u8 p 2)
    (hf : u8 p (3 + 7 * m) = f.selector) :
    ∃ c₀ c₁, setOutputField f (itemAt p m).value c₀ = some c₁ ∧ sameOutputField f c₁ c' :=
  checkItems_writes_field sameOutputField_refl sameOutputField_trans setOutputField_frame h (itemAt_mem_itemsOf hm)
    (fieldOf_eq_some.2 hf)

theorem output_field_kept {c c' : OutputConfig}
    (h : checkItems (fun f => !f.ofInput) setOutputField [] 1 (itemsOf p) c = .passed c')
    (hn : ∀ m, m < u8 p 2 → u8 p (3 + 7 * m) ≠ f.selector) : sameOutputField f c c' := by
  refine checkItems_keeps_field sameOutputField_refl sameOutputField_trans setOutputField_frame h fun item hm hf => ?_
  obtain ⟨m, hlt, rfl⟩ := List.mem_map.1 hm
  exact hn m (List.mem_range.1 hlt) (fieldOf_eq_some.1 hf)
end

/-- The channel is no field of a MODIFY. -/
theorem channel_of_modify {items : List ModifyItem} {c c' : OutputConfig}
    (h : checkItems (fun f => !f.ofInput) setOutputField [] 1 items c = .passed c') : c'.channel = c.channel := by
  refine checkItems_keeps (P := fun x => x.channel = c.channel) (fun f v a b hw ha => ?_) items [] 1 c c' h rfl
  cases f <;> simp only [setOutputField, Option.map_eq_some_iff, Option.some.injEq, reduceCtorEq] at hw
  case clampMin | clampMax => subst hw; exact ha
  all_goals obtain ⟨x, -, rfl⟩ := hw; exact ha

section
variable {p : List Byte} {m : Nat}

/-- The values that the items of an input point carry, field by field. -/
theorem input_values_written {c c' : InputConfig}
    (h : checkItems ModifyField.ofInput setInputField [] 1 (itemsOf p) c = .passed c') (hm : m < u8 p 2) :
    (u8 p (3 + 7 * m) = 0x10 →
      (u8 p (4 + 7 * m) = 1 ∧ ∃ n : PinId, u8 p (5 + 7 * m) = n.val ∧ c'.source = .se n) ∨
      (u8 p (4 + 7 * m) = 2 ∧ ∃ n : PairId, u8 p (5 + 7 * m) = n.val ∧ c'.source = .diff n)) ∧
    (u8 p (3 + 7 * m) = 0x11 → u8 p (4 + 7 * m) = c'.range.val) ∧
    (u8 p (3 + 7 * m) = 0x12 → u8 p (4 + 7 * m) = c'.oversample.samples) ∧
    (u8 p (3 + 7 * m) = 0x13 → u8 p (4 + 7 * m) = c'.scanClass.val) ∧
    (u8 p (3 + 7 * m) = 0x14 → (u8 p (4 + 7 * m) = 0 ∧ c'.scaling = none) ∨
      (u8 p (4 + 7 * m) = 1 ∧ c'.scaling = some ⟨s16 p (5 + 7 * m), s24 p (7 + 7 * m)⟩)) ∧
    (u8 p (3 + 7 * m) = 0x15 → (u8 p (4 + 7 * m) = 0 ∧ c'.highLimit = none) ∨
      (u8 p (4 + 7 * m) = 1 ∧ c'.highLimit = some (s32 p (5 + 7 * m)))) ∧
    (u8 p (3 + 7 * m) = 0x16 → (u8 p (4 + 7 * m) = 0 ∧ c'.lowLimit = none) ∨
      (u8 p (4 + 7 * m) = 1 ∧ c'.lowLimit = some (s32 p (5 + 7 * m)))) ∧
    (u8 p (3 + 7 * m) = 0x17 → c'.deadband = u16 p (4 + 7 * m)) := by
  refine ⟨?_, ?_, ?_, ?_, ?_, ?_, ?_, ?_⟩ <;> intro hf
  case refine_8 =>
    obtain ⟨c₀, c₁, hw, hs⟩ := input_item_written (f := .deadband) h hm hf
    cases hw
    exact hs.trans (u16_itemAt_value p m (by omega))
  case' refine_1 => obtain ⟨c₀, c₁, hw, hs⟩ := input_item_written (f := .source) h hm hf
  case' refine_2 => obtain ⟨c₀, c₁, hw, hs⟩ := input_item_written (f := .range) h hm hf
  case' refine_3 => obtain ⟨c₀, c₁, hw, hs⟩ := input_item_written (f := .oversample) h hm hf
  case' refine_4 => obtain ⟨c₀, c₁, hw, hs⟩ := input_item_written (f := .scanClass) h hm hf
  case' refine_5 => obtain ⟨c₀, c₁, hw, hs⟩ := input_item_written (f := .scaling) h hm hf
  case' refine_6 => obtain ⟨c₀, c₁, hw, hs⟩ := input_item_written (f := .highLimit) h hm hf
  case' refine_7 => obtain ⟨c₀, c₁, hw, hs⟩ := input_item_written (f := .lowLimit) h hm hf
  all_goals
    obtain ⟨x, hx, rfl⟩ := Option.map_eq_some_iff.1 hw
    simp only [sameInputField] at hs
    simpa [sourceOf_eq_some, finOf_eq_some, oversampleOf_eq_some, scalingAt_eq_some, limitAt_eq_some, u8_itemAt_value,
      s16_itemAt_value, s24_itemAt_value, s32_itemAt_value, hs] using hx

/-- The values that the items of an output point carry, field by field. -/
theorem output_values_written {c c' : OutputConfig}
    (h : checkItems (fun f => !f.ofInput) setOutputField [] 1 (itemsOf p) c = .passed c') (hm : m < u8 p 2) :
    (u8 p (3 + 7 * m) = 0x20 → c'.clampMin = s16 p (4 + 7 * m)) ∧
    (u8 p (3 + 7 * m) = 0x21 → c'.clampMax = s16 p (4 + 7 * m)) ∧
    (u8 p (3 + 7 * m) = 0x22 → (u8 p (4 + 7 * m) = 0 ∧ c'.slew = none) ∨
      (u8 p (4 + 7 * m) = 1 ∧ 1 ≤ u16 p (5 + 7 * m) ∧ u16 p (5 + 7 * m) ≤ 32767 ∧
        c'.slew = some (u16 p (5 + 7 * m)))) ∧
    (u8 p (3 + 7 * m) = 0x23 → u8 p (4 + 7 * m) = c'.updateSet.val) ∧
    (u8 p (3 + 7 * m) = 0x24 → u8 p (4 + 7 * m) = (if c'.operatorWritable then 1 else 0)) := by
  refine ⟨fun hf => ?_, fun hf => ?_, fun hf => ?_, fun hf => ?_, fun hf => ?_⟩
  · obtain ⟨c₀, c₁, hw, hs⟩ := output_item_written (f := .clampMin) h hm hf
    cases hw
    exact hs.trans (s16_itemAt_value p m (by omega))
  · obtain ⟨c₀, c₁, hw, hs⟩ := output_item_written (f := .clampMax) h hm hf
    cases hw
    exact hs.trans (s16_itemAt_value p m (by omega))
  · obtain ⟨c₀, c₁, hw, hs⟩ := output_item_written (f := .slew) h hm hf
    obtain ⟨x, hx, rfl⟩ := Option.map_eq_some_iff.1 hw
    simp only [sameOutputField] at hs
    simpa [slewAt_eq_some, u8_itemAt_value, u16_itemAt_value, hs] using hx
  · obtain ⟨c₀, c₁, hw, hs⟩ := output_item_written (f := .updateSet) h hm hf
    obtain ⟨x, hx, rfl⟩ := Option.map_eq_some_iff.1 hw
    simp only [sameOutputField] at hs
    simpa [finOf_eq_some, u8_itemAt_value, hs] using hx
  · obtain ⟨c₀, c₁, hw, hs⟩ := output_item_written (f := .operatorWritable) h hm hf
    obtain ⟨x, hx, rfl⟩ := Option.map_eq_some_iff.1 hw
    rw [boolAt_eq_some, u8_itemAt_value p m (by omega)] at hx
    rcases hx with ⟨hx, rfl⟩ | ⟨hx, rfl⟩ <;> simp [hx, show c'.operatorWritable = _ from hs]
end

/-- Settles O23: each item that passes names a field of its own and leaves its value in it; the others are kept. -/
theorem modifyItems : Obligations.ModifyItems := by
  refine ⟨fun p c c' h => ⟨fun m hm => ?_, fun m m' hm hm' => selectors_distinct_of_passed h hm hm',
      fun m hm => input_values_written h hm, input_field_kept (f := .source) h, input_field_kept (f := .range) h,
      input_field_kept (f := .oversample) h, input_field_kept (f := .scanClass) h, input_field_kept (f := .scaling) h,
      input_field_kept (f := .highLimit) h, input_field_kept (f := .lowLimit) h, input_field_kept (f := .deadband) h⟩,
    fun p c c' h => ⟨fun m hm => ?_, fun m m' hm hm' => selectors_distinct_of_passed h hm hm',
      fun m hm => output_values_written h hm, channel_of_modify h, output_field_kept (f := .clampMin) h,
      output_field_kept (f := .clampMax) h, output_field_kept (f := .slew) h, output_field_kept (f := .updateSet) h,
      output_field_kept (f := .operatorWritable) h⟩⟩
  · obtain ⟨f, hf, hk⟩ := selector_of_passed h hm
    rw [hf]; cases f <;> first | decide | nomatch hk
  · obtain ⟨f, hf, hk⟩ := selector_of_passed h hm
    rw [hf]; cases f <;> first | decide | nomatch hk

end Sys2Proof.Machine
end

section
/-! PROOF. The checks of a MODIFY in their order, each with its status and position (R33, R186). -/

namespace Sys2Proof.Machine

/-! ## Values in range -/

@[simp] theorem isSome_finOf (n x : Nat) : (finOf n x).isSome = decide (x < n) := by
  unfold finOf; split <;> simp [*]

@[simp] theorem isSome_sourceOf (m n : Nat) :
    (sourceOf m n).isSome = ((m == 1 && decide (n < 16)) || (m == 2 && decide (n < 8))) := by
  unfold sourceOf
  split
  · split <;> simp [*]
  · split <;> simp [*]
  · next h1 h2 => simp [show m ≠ 1 from h1, show m ≠ 2 from h2]

@[simp] theorem isSome_oversampleOf (n : Nat) : (oversampleOf n).isSome = [1, 2, 4, 8, 16].contains n := by
  unfold oversampleOf
  split
  case h_6 h1 h2 h4 h8 h16 =>
    simp [show n ≠ 1 from h1, show n ≠ 2 from h2, show n ≠ 4 from h4, show n ≠ 8 from h8, show n ≠ 16 from h16]
  all_goals rfl

@[simp] theorem isSome_boolAt (p : List Byte) (i : Nat) : (boolAt p i).isSome = decide (u8 p i ≤ 1) := by
  rw [Bool.eq_iff_iff, Option.isSome_iff_exists, decide_eq_true_iff]
  simp only [boolAt_eq_some]
  constructor
  · rintro ⟨b, h | h⟩ <;> omega
  · intro h
    rcases Nat.le_one_iff_eq_zero_or_eq_one.1 h with h | h <;> simp [h]

@[simp] theorem isSome_slewAt (p : List Byte) (i : Nat) : (slewAt p i).isSome =
    (u8 p i == 0 || (u8 p i == 1 && decide (1 ≤ u16 p (i + 1) ∧ u16 p (i + 1) ≤ 32767))) := by
  rw [Bool.eq_iff_iff, Option.isSome_iff_exists]
  simp only [slewAt_eq_some, Bool.or_eq_true, Bool.and_eq_true, beq_iff_eq, decide_eq_true_iff]
  constructor
  · rintro ⟨x, ⟨h, -⟩ | ⟨h, h1, h2, -⟩⟩
    · exact .inl h
    · exact .inr ⟨h, h1, h2⟩
  · rintro (h | ⟨h, h1, h2⟩)
    · exact ⟨_, .inl ⟨h, rfl⟩⟩
    · exact ⟨_, .inr ⟨h, h1, h2, rfl⟩⟩

/-- A field of an input record is written exactly with the values in its range. -/
theorem isSome_setInputField {f : ModifyField} (h : f.ofInput = true) (v : List Byte) (c : InputConfig) :
    (setInputField f v c).isSome = valueFits f v := by
  cases f
  case clampMin | clampMax | slew | updateSet | operatorWritable => nomatch h
  all_goals simp [setInputField, valueFits, scalingAt, limitAt]

/-- A field of an output record is written exactly with the values in its range. -/
theorem isSome_setOutputField {f : ModifyField} (h : f.ofInput = false) (v : List Byte) (c : OutputConfig) :
    (setOutputField f v c).isSome = valueFits f v := by
  cases f
  case clampMin | clampMax | slew | updateSet | operatorWritable => simp [setOutputField, valueFits]
  all_goals nomatch h

/-! ## The first item that fails -/

/-- The fields that the first k items of a payload name. -/
def NamedBefore (p : List Byte) (k : Nat) (f : ModifyField) : Prop := ∃ j < k, fieldOf (itemAt p j).selector = some f

theorem namedBefore_succ {p : List Byte} {k : Nat} {f g : ModifyField} (hf : fieldOf (itemAt p k).selector = some f) :
    NamedBefore p (k + 1) g ↔ g = f ∨ NamedBefore p k g := by
  simp only [NamedBefore, Nat.lt_succ_iff_lt_or_eq, or_and_right, exists_or, exists_eq_left, hf, Option.some.injEq]
  rw [or_comm, eq_comm]

section
variable {α : Type} {input : Bool} {ofKind : ModifyField → Bool} {write : ModifyField → List Byte → α → Option α}
  {p : List Byte} {k : Nat} {seen : List ModifyField} {rest : List ModifyItem} {c : α}

/-- The verdict on an item, with the repeated field told by the fields the earlier items name. -/
theorem itemVerdict_eq (hseen : ∀ f, f ∈ seen ↔ NamedBefore p k f) : itemVerdict input p (k + 1) =
    match fieldOf (itemAt p k).selector with
    | none => some .badField
    | some f =>
      if f.ofInput ≠ input then some .wrongKind
      else if f ∈ seen then some .badField
      else if valueFits f (itemAt p k).value then none
      else some .badField := by
  unfold itemVerdict
  have hany : ∀ f, ((List.range k).any fun j => fieldOf (selectorAt p (j + 1)) == some f) = true ↔ f ∈ seen := by
    intro f
    simp [hseen, NamedBefore, selectorAt, itemAt]
  simp only [Nat.add_sub_cancel, hany]
  rfl

variable (hkind : ∀ f, ofKind f = (f.ofInput == input))
  (hwrite : ∀ f v c, f.ofInput = input → (write f v c).isSome = valueFits f v)
include hkind hwrite

/-- An item with a verdict is refused with it, at its position. -/
theorem checkItems_of_verdict (hseen : ∀ f, f ∈ seen ↔ NamedBefore p k f) {st : Status}
    (hv : itemVerdict input p (k + 1) = some st) :
    checkItems ofKind write seen (k + 1) (itemAt p k :: rest) c = .refused (k + 1) st := by
  rw [itemVerdict_eq hseen] at hv
  unfold checkItems
  cases hf : fieldOf (itemAt p k).selector with
  | none => rw [hf] at hv; cases hv; rfl
  | some f =>
    simp only [hf] at hv
    dsimp only
    split at hv
    · next hne => cases hv; rw [if_pos (by simpa [hkind] using hne)]
    next hin =>
    have hin : f.ofInput = input := by simpa using hin
    rw [if_neg (by simp [hkind, hin])]
    split at hv
    · next hs => cases hv; rw [if_pos hs]
    next hs =>
    rw [if_neg hs]
    split at hv
    · nomatch hv
    next hfit =>
    cases hv
    have hw : write f (itemAt p k).value c = none := by
      rw [← Option.not_isSome_iff_eq_none, hwrite _ _ _ hin]; exact hfit
    rw [hw]

/-- An item without a verdict is taken, and the next item is checked with its field named. -/
theorem checkItems_of_no_verdict (hseen : ∀ f, f ∈ seen ↔ NamedBefore p k f)
    (hv : itemVerdict input p (k + 1) = none) :
    ∃ f c₁, (∀ g, g ∈ f :: seen ↔ NamedBefore p (k + 1) g) ∧
      checkItems ofKind write seen (k + 1) (itemAt p k :: rest) c =
        checkItems ofKind write (f :: seen) (k + 2) rest c₁ := by
  rw [itemVerdict_eq hseen] at hv
  cases hf : fieldOf (itemAt p k).selector with
  | none => rw [hf] at hv; nomatch hv
  | some f =>
    simp only [hf] at hv
    split at hv
    · nomatch hv
    next hin =>
    have hin : f.ofInput = input := by simpa using hin
    split at hv
    · nomatch hv
    next hs =>
    split at hv
    · next hfit =>
      obtain ⟨c₁, hw⟩ := Option.isSome_iff_exists.1 ((hwrite f (itemAt p k).value c hin).trans hfit)
      refine ⟨f, c₁, fun g => by rw [List.mem_cons, namedBefore_succ hf, hseen], ?_⟩
      rw [checkItems, hf]
      simp [hkind, hin, hs, hw]
    · nomatch hv

/-- The item checks from item k on: the first item with a verdict gives the refusal, and without one all pass. -/
theorem checkItems_from (len : Nat) (hseen : ∀ f, f ∈ seen ↔ NamedBefore p k f) :
    (∀ m st, k < m → m ≤ k + len → itemVerdict input p m = some st →
      (∀ m', k < m' → m' < m → itemVerdict input p m' = none) →
      checkItems ofKind write seen (k + 1) ((List.range' k len).map (itemAt p)) c = .refused m st) ∧
    ((∀ m, k < m → m ≤ k + len → itemVerdict input p m = none) →
      ∃ c', checkItems ofKind write seen (k + 1) ((List.range' k len).map (itemAt p)) c = .passed c') := by
  induction len generalizing k seen c with
  | zero => exact ⟨fun m st h1 h2 => absurd h2 (by omega), fun _ => ⟨c, rfl⟩⟩
  | succ len ih =>
    rw [List.range'_succ, List.map_cons]
    constructor
    · intro m st h1 h2 hv hbefore
      by_cases hm : m = k + 1
      · subst hm; exact checkItems_of_verdict hkind hwrite hseen hv
      · obtain ⟨f, c₁, hseen', hstep⟩ :=
          checkItems_of_no_verdict (c := c) hkind hwrite hseen (hbefore (k + 1) (by omega) (by omega))
        rw [hstep]
        exact (ih hseen').1 m st (by omega) (by omega) hv fun m' h h' => hbefore m' (by omega) h'
    · intro hnone
      obtain ⟨f, c₁, hseen', hstep⟩ :=
        checkItems_of_no_verdict (c := c) hkind hwrite hseen (hnone (k + 1) (by omega) (by omega))
      rw [hstep]
      exact (ih hseen').2 fun m h h' => hnone m (by omega) (by omega)

/-- The item checks of a payload give the first verdict, with its position. -/
theorem checkItems_first_verdict {m : Nat} {st : Status} (h1 : 1 ≤ m) (h2 : m ≤ u8 p 2)
    (hv : itemVerdict input p m = some st) (hbefore : ∀ m', 1 ≤ m' → m' < m → itemVerdict input p m' = none) :
    checkItems ofKind write [] 1 (itemsOf p) c = .refused m st := by
  rw [itemsOf, List.range_eq_range']
  exact (checkItems_from (k := 0) hkind hwrite (u8 p 2) (by simp [NamedBefore])).1 m st (by omega) (by omega) hv
    fun m' h h' => hbefore m' (by omega) h'

/-- A payload whose items have no verdict passes the item checks. -/
theorem checkItems_of_no_verdicts (h : ∀ m, 1 ≤ m → m ≤ u8 p 2 → itemVerdict input p m = none) :
    ∃ c', checkItems ofKind write [] 1 (itemsOf p) c = .passed c' := by
  rw [itemsOf, List.range_eq_range']
  exact (checkItems_from (k := 0) hkind hwrite (u8 p 2) (by simp [NamedBefore])).2
    fun m h1 h2 => h m (by omega) (by omega)
end

/-! ## The request -/

/-- A source may be claimed after another is given back exactly when each of its pins is unclaimed, claimed in its mode,
or held by the other source alone (R21, R33). -/
theorem claimable_giveClaims_iff (claims : Vector PinClaim 16) (src src' : Source) :
    claimable (giveClaims claims src) src' = true ↔
      ∀ p ∈ src'.pins, (p ∈ src.pins ∧ (claims.get p).count ≤ 1) ∨ (claims.get p).mode = none ∨
        (claims.get p).mode = some src'.mode := by
  rw [claimable_iff]
  refine forall₂_congr fun p _ => ?_
  rw [get_giveClaims]
  by_cases hp : p ∈ src.pins <;> by_cases hc : (claims.get p).count ≤ 1 <;> simp [hp, hc]

section
variable {s : State} {payload : List Byte} {i : SlotId} {r : PointRecord}

theorem requestModify_of_not_fits (h : ¬ ModifyFits payload) : requestModify payload s = .refuse .badField [0] :=
  if_pos (by unfold ModifyFits at h; omega)

theorem requestModify_of_bad_tag (hfits : ModifyFits payload) (h : u16 payload 0 = 0 ∨ u16 payload 0 = 65535) :
    requestModify payload s = .refuse .badField [0] := by
  obtain ⟨h1, h8, hl⟩ := hfits
  rw [requestModify, if_neg (by omega), if_pos h]; rfl

theorem requestModify_of_not_found (hfits : ModifyFits payload) (h1 : 1 ≤ u16 payload 0) (h2 : u16 payload 0 ≤ 65534)
    (hf : s.findPoint (u16 payload 0) = none) : requestModify payload s = .refuse .notFound [0] := by
  obtain ⟨hc1, hc8, hl⟩ := hfits
  rw [requestModify, if_neg (by omega), if_neg (by omega), hf]; rfl

section
variable (hfits : ModifyFits payload) (h1 : 1 ≤ u16 payload 0) (h2 : u16 payload 0 ≤ 65534)
  (hf : s.findPoint (u16 payload 0) = some (i, r))
include hfits h1 h2 hf

/-- Past its first three checks a MODIFY of an input point goes on with the items. -/
theorem requestModify_input {c : InputConfig} {v : ValuePart} (hb : r.body = .input c v) :
    requestModify payload s = s.modifyInputChecks i r c v (itemsOf payload) := by
  obtain ⟨hc1, hc8, hl⟩ := hfits
  rw [requestModify, if_neg (by omega), if_neg (by omega), hf]
  simp only [hb]

/-- Past its first three checks a MODIFY of an output point goes on with the items. -/
theorem requestModify_output {c : OutputConfig} {k : CodePart} (hb : r.body = .output c k) :
    requestModify payload s = s.modifyOutputChecks i r c k (itemsOf payload) := by
  obtain ⟨hc1, hc8, hl⟩ := hfits
  rw [requestModify, if_neg (by omega), if_neg (by omega), hf]
  simp only [hb]

/-- The first item with a verdict refuses the MODIFY with its status and position. -/
theorem requestModify_of_verdict {m : Nat} {st : Status} (hm1 : 1 ≤ m) (hm : m ≤ u8 payload 2)
    (hv : itemVerdict (r.body.kindCode == 1) payload m = some st)
    (hbefore : ∀ m', 1 ≤ m' → m' < m → itemVerdict (r.body.kindCode == 1) payload m' = none) :
    requestModify payload s = .refuse st [BitVec.ofNat 8 m] := by
  cases hb : r.body with
  | input c v =>
    rw [hb] at hv hbefore
    rw [requestModify_input hfits h1 h2 hf hb, State.modifyInputChecks,
      checkItems_first_verdict (fun f => (by simp)) (fun f v c h => isSome_setInputField h v c) hm1 hm hv hbefore]
    rfl
  | output c k =>
    rw [hb] at hv hbefore
    rw [requestModify_output hfits h1 h2 hf hb, State.modifyOutputChecks,
      checkItems_first_verdict (fun f => (by simp)) (fun f v c h => isSome_setOutputField h v c) hm1 hm hv hbefore]
    rfl
end

/-- Limits or deadband that do not meet R11 refuse the MODIFY. -/
theorem modifyInputChecks_of_limits {c c' : InputConfig} {v : ValuePart} {items : List ModifyItem}
    (hc : checkItems ModifyField.ofInput setInputField [] 1 items c = .passed c') (hl : limitsOk c' = false) :
    s.modifyInputChecks i r c v items = .refuse .badField [0] := by
  rw [State.modifyInputChecks, hc]; exact if_pos hl

/-- A new source that may not be claimed refuses the MODIFY. -/
theorem modifyInputChecks_of_conflict {c c' : InputConfig} {v : ValuePart} {items : List ModifyItem}
    (hc : checkItems ModifyField.ofInput setInputField [] 1 items c = .passed c') (hl : limitsOk c' = true)
    (hne : c'.source ≠ c.source) (hp : claimable (giveClaims s.pinClaims c.source) c'.source = false) :
    s.modifyInputChecks i r c v items = .refuse .pinConflict [0] := by
  rw [State.modifyInputChecks, hc]
  simp only [hl, Bool.true_eq_false, if_false]
  exact if_pos ⟨hne, hp⟩

/-- A clamp min above the clamp max refuses the MODIFY. -/
theorem modifyOutputChecks_of_clamp {c c' : OutputConfig} {k : CodePart} {items : List ModifyItem}
    (hc : checkItems (fun f => !f.ofInput) setOutputField [] 1 items c = .passed c') (hlt : c'.clampMax < c'.clampMin) :
    s.modifyOutputChecks i r c k items = .refuse .badField [0] := by
  rw [State.modifyOutputChecks, hc]
  exact if_pos (by simpa [clampOk] using hlt)
end

/-- Settles O24: each check refuses with its status and position once the checks before it have passed. -/
theorem modifyRefusals : Obligations.ModifyRefusals := by
  intro s id payload hs
  have refused : ∀ {st : Status} {b : List Byte}, requestModify payload s = .refuse st b →
      OnlyAnswers (.modify .host id payload) s .host (requestOf .modify id payload) st b :=
    onlyAnswers_of_refuse (k := .modify) hs
  refine ⟨fun h => refused (requestModify_of_not_fits h), fun hfits h => refused (requestModify_of_bad_tag hfits h),
    fun hfits h1 h2 hf => refused (requestModify_of_not_found hfits h1 h2 hf), fun i r hfits h1 h2 hf =>
    ⟨fun m st hm1 hm hv hbefore => refused (requestModify_of_verdict hfits h1 h2 hf hm1 hm hv hbefore),
      fun hnone => ⟨fun c v hb => ?_, fun c k hb => ?_⟩,
      fun c v c' hb hc => ⟨fun hlim => refused ?_, fun hl hne hpin => refused ?_⟩,
      fun c k c' hb hc hlt => refused ?_⟩⟩
  · rw [hb] at hnone
    exact checkItems_of_no_verdicts (fun f => (by simp)) (fun f v c h => isSome_setInputField h v c) hnone
  · rw [hb] at hnone
    exact checkItems_of_no_verdicts (fun f => (by simp)) (fun f v c h => isSome_setOutputField h v c) hnone
  · obtain ⟨hi, lo, hhi, hlo, hle⟩ := hlim
    rw [requestModify_input hfits h1 h2 hf hb]
    refine modifyInputChecks_of_limits hc (Bool.eq_false_iff.2 fun hok => ?_)
    have := limitsOk_iff.1 hok hi lo hhi hlo
    omega
  · obtain ⟨p, hp, hown, hnone, hmode⟩ := hpin
    rw [requestModify_input hfits h1 h2 hf hb]
    refine modifyInputChecks_of_conflict hc hl hne (Bool.eq_false_iff.2 fun hok => ?_)
    rcases (claimable_giveClaims_iff _ _ _).1 hok p hp with h | h | h
    exacts [hown h, hnone h, hmode h]
  · rw [requestModify_output hfits h1 h2 hf hb]
    exact modifyOutputChecks_of_clamp hc hlt

end Sys2Proof.Machine
end

section
/-! PROOF. A request answered OK, and what shows that one slot, one channel, the queue or the attention changed: the
parts from which the effects of the requests of chapter 2 are put together. -/

namespace Sys2Proof.Machine

variable {s t : State} {payload : List Byte} {i : SlotId}

/-- A request answered OK whose effects leave the ports alone goes to their state with the response placed. -/
theorem exec_answers {s' : State} {p : Port} {k : RequestKind} {id : Byte} {bytes : List Byte}
    (h : Served s p k id payload) (hb : requestBody k p payload s = .done s' bytes)
    (hhost : s'.hostPort = s.hostPort) (hmaint : s'.maintPort = s.maintPort) :
    ∃ f, exec (requestCommand k p id payload) s = .next (s'.placeResponse p f) ∧
      Answered s (s'.placeResponse p f) p (requestOf k id payload) .ok bytes := by
  refine ⟨_, exec_of_done h hb, answered_placeResponse (fun q => ?_) _ _ _ _⟩
  cases q
  exacts [hhost, hmaint]

/-- Writing one slot sets it and leaves the others. -/
theorem slotSet_of_put {x : Slot} (h : t.slots = put s.slots i x) : SlotSet s t i x := by
  unfold SlotSet State.slot
  rw [h]
  exact ⟨get_put_self _ _ _, fun j hj => get_put_ne _ _ (Ne.symm hj)⟩

/-- Writing one channel sets it and leaves the others. -/
theorem channelSet_of_put {c : ChannelId} {x : Channel} (h : t.channels = put s.channels c x) :
    t.channel c = x ∧ ∀ ch, ch ≠ c → t.channel ch = s.channel ch := by
  rw [channel_of_put h]
  exact ⟨Function.update_self .., fun ch hch => Function.update_of_ne hch ..⟩

/-- A removal from the queue is seen in the queue and the classes alone. -/
theorem Unqueued.congr {s' t' : State} (h : Unqueued s t i) (hq : s'.queue = s.queue) (hc : s'.classes = s.classes)
    (hq' : t'.queue = t.queue) (hc' : t'.classes = t.classes) : Unqueued s' t' i := by
  unfold Unqueued State.queueEntry State.scanClass at *
  rw [hq, hc, hq', hc']
  exact h

theorem Unqueued.placeResponse (h : Unqueued s t i) (p : Port) (f : List Byte) :
    Unqueued s (t.placeResponse p f) i := by
  cases p <;> exact h.congr rfl rfl rfl rfl

/-- A raise is seen in the attention alone. -/
theorem Raised.congr {s' t' : State} {x : Reasons} (h : Raised s t i x) (ha : s'.attention = s.attention)
    (ha' : t'.attention = t.attention) : Raised s' t' i x := by
  unfold Raised at *
  rw [ha, ha']
  exact h

/-- A raise without a reason leaves the attention. -/
theorem attention_of_raised (h : Raised s t i ⟨false, false⟩) : t.attention = s.attention := by
  simpa [Raised] using h

end Sys2Proof.Machine
end

section
/-! PROOF. DEFINE: its checks in their order and what it does to the directory (R27 to R30). -/

namespace Sys2Proof.Machine

variable {s : State} {payload : List Byte} {i : SlotId}

/-! ## The checks (R27) -/

theorem defineLength_eq_iff : defineLength payload = some payload.length ↔
    (u8 payload 2 = 1 ∧ payload.length = 26) ∨ (u8 payload 2 = 2 ∧ payload.length = 13) := by
  unfold defineLength
  split
  · next h => simp [h, eq_comm]
  · next h => simp [h, eq_comm]
  · next h1 h2 => exact ⟨nofun, fun h => h.elim (fun h => absurd h.1 h1) (fun h => absurd h.1 h2)⟩

theorem requestDefine_of_bad_length
    (h : ¬ ((u8 payload 2 = 1 ∧ payload.length = 26) ∨ (u8 payload 2 = 2 ∧ payload.length = 13))) :
    requestDefine payload s = .refuse .badField [] := if_pos (mt defineLength_eq_iff.1 h)

section
variable (hl : (u8 payload 2 = 1 ∧ payload.length = 26) ∨ (u8 payload 2 = 2 ∧ payload.length = 13))
include hl

theorem requestDefine_of_bad_tag (h : u16 payload 0 = 0 ∨ u16 payload 0 = 65535) :
    requestDefine payload s = .refuse .badField [] := by
  rw [requestDefine, if_neg (not_not.2 (defineLength_eq_iff.2 hl)), if_pos h]

theorem requestDefine_of_held (h1 : 1 ≤ u16 payload 0) (h2 : u16 payload 0 ≤ 65534)
    (h : ∃ e ∈ s.tagIndex, e.tag = u16 payload 0) : requestDefine payload s = .refuse .duplicateTag [] := by
  have hsome : (lookupTag s.tagIndex (u16 payload 0)).isSome = true := by
    obtain ⟨e, he, htag⟩ := h
    exact Option.isSome_iff_ne_none.2 fun hn => lookupTag_eq_none.1 hn e he htag
  rw [requestDefine, if_neg (not_not.2 (defineLength_eq_iff.2 hl)), if_neg (by omega), if_pos hsome]
end

section
variable (h : DefinePasses s payload)
include h

/-- Past its first three checks a DEFINE with no FREE slot is refused. -/
theorem requestDefine_of_full (hfull : ∀ i, s.slot i ≠ none) : requestDefine payload s = .refuse .tableFull [] := by
  obtain ⟨hl, h1, h2, hn⟩ := h
  rw [requestDefine, if_neg (not_not.2 (defineLength_eq_iff.2 hl)), if_neg (by omega),
    if_neg (by simp [lookupTag_eq_none.2 hn]), (lowestFree_eq_none s).2 hfull]

/-- With a FREE slot a DEFINE goes on with its last checks, by kind. -/
theorem requestDefine_of_free (hi : s.lowestFree = some i) : requestDefine payload s =
    if u8 payload 2 = 1 then s.defineInputChecks i (u16 payload 0) payload
    else s.defineOutputChecks i (u16 payload 0) payload := by
  obtain ⟨hl, h1, h2, hn⟩ := h
  rw [requestDefine, if_neg (not_not.2 (defineLength_eq_iff.2 hl)), if_neg (by omega),
    if_neg (by simp [lookupTag_eq_none.2 hn]), hi]

theorem requestDefine_input (hi : s.lowestFree = some i) (hk : u8 payload 2 = 1) :
    requestDefine payload s = s.defineInputChecks i (u16 payload 0) payload := by
  rw [requestDefine_of_free h hi, if_pos hk]

theorem requestDefine_output (hi : s.lowestFree = some i) (hk : u8 payload 2 = 2) :
    requestDefine payload s = s.defineOutputChecks i (u16 payload 0) payload := by
  rw [requestDefine_of_free h hi, if_neg (by omega)]
end

section
variable {tag : Nat} {c : InputConfig}

theorem defineInputChecks_of_bad_fields (h : inputConfigOf payload = none) :
    s.defineInputChecks i tag payload = .refuse .badField [] := by
  rw [State.defineInputChecks, h]

theorem defineInputChecks_of_conflict (h : inputConfigOf payload = some c)
    (hp : claimable s.pinClaims c.source = false) : s.defineInputChecks i tag payload = .refuse .pinConflict [] := by
  rw [State.defineInputChecks, h]; simp [hp]

theorem defineInputChecks_of_passed (h : inputConfigOf payload = some c) (hp : claimable s.pinClaims c.source = true) :
    s.defineInputChecks i tag payload = .done (s.defineInput i tag c) (put8 (s.defineInput i tag c).freeCount) := by
  rw [State.defineInputChecks, h]; simp [hp, definedAnswer]
end

section
variable {tag : Nat} {c : OutputConfig}

theorem defineOutputChecks_of_bad_fields (h : outputConfigOf payload = none) :
    s.defineOutputChecks i tag payload = .refuse .badField [] := by
  rw [State.defineOutputChecks, h]

theorem defineOutputChecks_of_owned (h : outputConfigOf payload = some c) (ho : (s.channel c.channel).owner ≠ none) :
    s.defineOutputChecks i tag payload = .refuse .channelTaken [] := by
  rw [State.defineOutputChecks, h]; exact if_pos (Option.isSome_iff_ne_none.2 ho)

theorem defineOutputChecks_of_calibrated (h : outputConfigOf payload = some c)
    (ho : (s.channel c.channel).owner = none) (hu : (s.channel c.channel).underCal = true) :
    s.defineOutputChecks i tag payload = .refuse .busy [] := by
  rw [State.defineOutputChecks, h]; simp [ho, hu]

theorem defineOutputChecks_of_passed (h : outputConfigOf payload = some c)
    (ho : (s.channel c.channel).owner = none) (hu : (s.channel c.channel).underCal = false) :
    s.defineOutputChecks i tag payload = .done (s.defineOutput i tag c) (put8 (s.defineOutput i tag c).freeCount) := by
  rw [State.defineOutputChecks, h]; simp [ho, hu, definedAnswer]
end

/-- A directory with a FREE slot has a lowest one. -/
theorem exists_lowestFree (h : ∃ i, s.slot i = none) : ∃ i, s.lowestFree = some i := by
  obtain ⟨i, hi⟩ := h
  exact Option.ne_none_iff_exists'.1 fun hn => (lowestFree_eq_none s).1 hn i hi

/-- Settles O16: each check refuses with its status once the checks before it have passed. -/
theorem defineRefusals : Obligations.DefineRefusals := by
  intro s id payload hs
  have refused : ∀ {st : Status}, requestDefine payload s = .refuse st [] →
      OnlyAnswers (.define .host id payload) s .host (requestOf .define id payload) st [] :=
    onlyAnswers_of_refuse (k := .define) hs
  refine ⟨fun h => refused (requestDefine_of_bad_length h), fun hl h => refused (requestDefine_of_bad_tag hl h),
    fun hl h1 h2 h => refused (requestDefine_of_held hl h1 h2 h),
    fun h hfull => refused (requestDefine_of_full h hfull), fun h hfree => ?_⟩
  obtain ⟨i, hi⟩ := exists_lowestFree hfree
  refine ⟨fun hk hc => refused ((requestDefine_input h hi hk).trans (defineInputChecks_of_bad_fields hc)),
    fun hk hc => refused ((requestDefine_output h hi hk).trans (defineOutputChecks_of_bad_fields hc)),
    fun c hk hc hpin => refused ((requestDefine_input h hi hk).trans (defineInputChecks_of_conflict hc ?_)),
    fun c hk hc => ⟨fun ho => refused ((requestDefine_output h hi hk).trans (defineOutputChecks_of_owned hc ho)),
      fun ho hu => refused ((requestDefine_output h hi hk).trans (defineOutputChecks_of_calibrated hc ho hu))⟩⟩
  obtain ⟨p, hp, hnone, hmode⟩ := hpin
  exact Bool.eq_false_iff.2 fun hok => ((claimable_iff _ _).1 hok p hp).elim hnone hmode

/-! ## The effects (R28, R30) -/

/-- A tag that is not held goes in between the smaller and the greater tags (R17). -/
theorem insertPair_between {tag : Nat} {index : List IndexPair} (hn : ∀ e ∈ index, e.tag ≠ tag) :
    ∃ l₁ l₂, index = l₁ ++ l₂ ∧ insertPair tag i index = l₁ ++ ⟨tag, i⟩ :: l₂ ∧ (∀ e ∈ l₁, e.tag < tag) ∧
      ∀ e, l₂.head? = some e → tag < e.tag := by
  obtain ⟨l₁, l₂, hsplit, hins, hsmall, hgreat⟩ := insertPair_split tag i index
  refine ⟨l₁, l₂, hsplit, hins, fun e he => ?_, hgreat⟩
  have hne := hn e (by simp [hsplit, he])
  have hle := hsmall e he
  omega

/-- Settles O18: the new record, its pair and its claims. -/
theorem defineInput : Obligations.DefineInput := by
  intro s id payload i c hs h hk hi hlow hc hpins
  have hfree := (lowestFree_eq_some s).2 ⟨hi, hlow⟩
  have hb : requestBody .define .host payload s =
      .done (s.defineInput i (u16 payload 0) c) (put8 (s.defineInput i (u16 payload 0) c).freeCount) :=
    (requestDefine_input h hfree hk).trans (defineInputChecks_of_passed hc ((claimable_iff _ _).2 hpins))
  obtain ⟨f, hexec, hanswered⟩ := exec_answers hs hb rfl rfl
  refine ⟨_, hexec, hanswered, rfl, slotSet_of_put rfl,
    insertPair_between h.2.2.2, fun p => get_takeClaims _ _ _⟩

/-- The codes of a new output point, written out (R30). -/
theorem takenOver_eq (c : OutputConfig) {d target live : Int}
    (ht : target = if d < c.clampMin then c.clampMin else if c.clampMax < d then c.clampMax else d)
    (hl : live = if c.slew = none then target else d) : takenOver c d = ⟨live, target, none⟩ := by
  rw [hl, ht]
  simp [takenOver, clampTo]

/-- Settles O19: the new record with its codes, its pair, and its channel taken over. -/
theorem defineOutput : Obligations.DefineOutput := by
  intro s id payload i c d target live hs h hk hi hlow hc ho hu hd ht hl
  have hfree := (lowestFree_eq_some s).2 ⟨hi, hlow⟩
  have hb : requestBody .define .host payload s =
      .done (s.defineOutput i (u16 payload 0) c) (put8 (s.defineOutput i (u16 payload 0) c).freeCount) :=
    (requestDefine_output h hfree hk).trans (defineOutputChecks_of_passed hc ho hu)
  have hcodes : takenOver c (s.channel c.channel).driven = ⟨live, target, none⟩ := takenOver_eq c (hd ▸ ht) (hd ▸ hl)
  obtain ⟨f, hexec, hanswered⟩ := exec_answers hs hb rfl rfl
  have hslots : (s.defineOutput i (u16 payload 0) c).slots =
      put s.slots i (some ⟨u16 payload 0, .active, .output c ⟨live, target, none⟩⟩) := by rw [← hcodes]; rfl
  have hchannels : (s.defineOutput i (u16 payload 0) c).channels = put s.channels c.channel ⟨some i, live, false⟩ := by
    rw [← hu, show live = (takenOver c (s.channel c.channel).driven).live by rw [hcodes]]; rfl
  exact ⟨_, hexec, hanswered, rfl, slotSet_of_put hslots, insertPair_between h.2.2.2, channelSet_of_put hchannels⟩

end Sys2Proof.Machine
end

section
/-! PROOF. LOOKUP and NEXT: the bytes they return, read at their offsets, and that they change nothing (R31, R32). -/

namespace Sys2Proof

/-- A number below 65536 is read back. -/
theorem u16_put16_nat {n : Nat} (h : n ≤ 65535) : u16 (put16 n) 0 = n := by
  have := u16_put16 (x := n) (by omega) (by omega)
  omega

namespace Machine

/-! ## LOOKUP (R31) -/

/-- An optional scaling part with its bytes in their places, present or absent. -/
theorem putScaling_eq (x : Option Scaling) :
    putScaling x = putBool x.isSome ++ (put16 (x.elim 0 Scaling.gain) ++ put24 (x.elim 0 Scaling.offset)) := by
  cases x <;> rfl

/-- A scaling part read back; an absent one carries zeros (R31). -/
theorem putScaling_fields (x : Option Scaling) :
    (∀ k, x = some k → -32768 ≤ k.gain ∧ k.gain ≤ 32767 ∧ -8388608 ≤ k.offset ∧ k.offset ≤ 8388607) →
    (u8 (putBool x.isSome) 0, s16 (put16 (x.elim 0 Scaling.gain)) 0, s24 (put24 (x.elim 0 Scaling.offset)) 0) =
      match x with
      | none => (0, 0, 0)
      | some k => (1, k.gain, k.offset) := by
  intro h
  cases x with
  | none => decide
  | some k =>
    obtain ⟨hg, hg', ho, ho'⟩ := h k rfl
    exact Prod.ext rfl (Prod.ext (s16_put16 hg hg') (s24_put24 ho ho'))

/-- A limit read back; an absent one carries zeros (R31). -/
theorem putLimit_fields (x : Option Int) : (∀ v, x = some v → -2147483648 ≤ v ∧ v ≤ 2147483647) →
    (u8 (putBool x.isSome) 0, s32 (put32 (x.getD 0)) 0) =
      match x with
      | none => (0, 0)
      | some v => (1, v) := by
  intro h
  cases x with
  | none => decide
  | some v =>
    obtain ⟨hlo, hhi⟩ := h v rfl
    exact Prod.ext rfl (s32_put32 hlo hhi)

/-- A slew read back; an absent one carries zeros (R31). -/
theorem putSlew_fields (x : Option Nat) : (∀ n, x = some n → n ≤ 32767) →
    (u8 (putBool x.isSome) 0, u16 (put16 (x.getD 0 : Nat)) 0) =
      match x with
      | none => (0, 0)
      | some n => (1, n) := by
  intro h
  cases x with
  | none => rfl
  | some n =>
    have := h n rfl
    exact Prod.ext rfl (u16_put16_nat (by simp; omega))

theorem kindCode_lt (b : Body) : b.kindCode < 256 := by cases b <;> simp [Body.kindCode]

theorem slotStateCode_lt (st : SlotState) : st.code < 256 := by cases st <;> decide

theorem qualityCode_lt (q : Quality) : q.code < 256 := by cases q <;> decide

theorem samples_lt (o : Oversample) : o.samples < 256 := by cases o <;> decide

theorem sourceCodes_eq (src : Source) : src.codes =
    match src with
    | .se n => (1, n.val)
    | .diff n => (2, n.val) := by
  cases src <;> rfl

theorem sourceCodes_lt (src : Source) : src.codes.1 < 256 ∧ src.codes.2 < 256 := by
  cases src <;> simp only [Source.codes] <;> omega

theorem fin_lt_256 {n : Nat} (h : n ≤ 256) (i : Fin n) : i.val < 256 := i.isLt.trans_le h

/-- LOOKUP's payload of an input point, field by field (11.3). -/
theorem lookupPayload_input {r : PointRecord} {c : InputConfig} {v : ValuePart} (hb : r.body = .input c v) :
    lookupPayload r = put16 r.tag ++ (put8 1 ++ (put8 r.slotState.code ++ (put8 c.source.codes.1 ++
      (put8 c.source.codes.2 ++ (put8 c.range.val ++ (put8 c.oversample.samples ++ (put8 c.scanClass.val ++
      (putBool c.scaling.isSome ++ (put16 (c.scaling.elim 0 Scaling.gain) ++ (put24 (c.scaling.elim 0 Scaling.offset) ++
      (putBool c.highLimit.isSome ++ (put32 (c.highLimit.getD 0) ++ (putBool c.lowLimit.isSome ++
      (put32 (c.lowLimit.getD 0) ++ (put16 c.deadband ++ put8 (qualityOf r.slotState v).code))))))))))))))) := by
  simp only [lookupPayload, hb, Body.kindCode, putScaling_eq, putLimit, List.append_assoc]

/-- LOOKUP's payload of an output point, field by field (11.3). -/
theorem lookupPayload_output {r : PointRecord} {c : OutputConfig} {k : CodePart} (hb : r.body = .output c k) :
    lookupPayload r = put16 r.tag ++ (put8 2 ++ (put8 r.slotState.code ++ (put8 c.channel.val ++
      (put16 c.clampMin ++ (put16 c.clampMax ++ (putBool c.slew.isSome ++ (put16 (c.slew.getD 0 : Nat) ++
      (put8 c.updateSet.val ++ putBool c.operatorWritable)))))))) := by
  simp only [lookupPayload, hb, Body.kindCode, List.append_assoc]

/-- Settles O21: each field is read at its offset as it was put. -/
theorem lookupReturnsConfiguration : Obligations.LookupReturnsConfiguration := by
  intro s p id payload i r hs hn htag
  have answers : OnlyAnswers (.lookup p id payload) s p (requestOf .lookup id payload) .ok (lookupPayload r) :=
    onlyAnswers_of_done (k := .lookup) hs (onPoint_of_names hn)
  refine ⟨fun c v hb hc => ⟨_, answers, ?_⟩, fun c k hb hmin hmax hslew => ⟨_, answers, ?_⟩⟩
  · rw [lookupPayload_input hb]
    exact ⟨rfl, u16_put16_nat (n := r.tag) (by omega), rfl, u8_put8 (slotStateCode_lt _),
      (Prod.ext (u8_put8 (sourceCodes_lt _).1) (u8_put8 (sourceCodes_lt _).2)).trans (sourceCodes_eq c.source),
      u8_put8 (fin_lt_256 (by decide) c.range), u8_put8 (samples_lt _), u8_put8 (fin_lt_256 (by decide) c.scanClass),
      putScaling_fields _ hc.scaling, putLimit_fields _ hc.high, putLimit_fields _ hc.low,
      u16_put16_nat hc.deadband, u8_put8 (qualityCode_lt _)⟩
  · rw [lookupPayload_output hb]
    exact ⟨rfl, u16_put16_nat (n := r.tag) (by omega), rfl, u8_put8 (slotStateCode_lt _),
      u8_put8 (fin_lt_256 (by decide) c.channel), s16_put16 hmin.1 hmin.2, s16_put16 hmax.1 hmax.2,
      putSlew_fields _ hslew, u8_put8 (fin_lt_256 (by decide) c.updateSet), u8_putBool _⟩

/-! ## NEXT (R32) -/

section
variable {s : State} {t : Nat}

/-- Past the greatest held tag the successor is 65535 (R19). -/
theorem successor_of_last {index : List IndexPair} (h : ∀ e ∈ index, e.tag ≤ t) : successor index t = 65535 := by
  rcases (successor_spec index t).2 with h' | ⟨e, he, hlt, -⟩
  · exact h'
  · have := h e he; omega

/-- The successor is the smallest held tag greater than t (R19). -/
theorem successor_of_least {index : List IndexPair} {e : IndexPair} (he : e ∈ index) (h : t < e.tag)
    (hr : e.tag ≤ 65534) (hle : ∀ e' ∈ index, t < e'.tag → e.tag ≤ e'.tag) : successor index t = e.tag := by
  obtain ⟨hbound, heq⟩ := successor_spec index t
  have := hbound e he h
  rcases heq with h' | ⟨e', he', hlt, h'⟩
  · omega
  · have := hle e' he' hlt; omega

theorem findPoint_of_not_held {tag : Nat} (h : ∀ e ∈ s.tagIndex, e.tag ≠ tag) : s.findPoint tag = none := by
  rw [State.findPoint, lookupTag_eq_none.2 h]

/-- A pair of the Tag Index leads to the record that carries its tag. -/
theorem findPoint_of_pair (hx : IndexInv s) {e : IndexPair} (he : e ∈ s.tagIndex) :
    ∃ r, s.slot e.slot = some r ∧ s.findPoint e.tag = some (e.slot, r) := by
  obtain ⟨r, hr, htag, hst⟩ := (hx.exact e.tag e.slot).1 he
  exact ⟨r, hr, (findPoint_eq_some (indexInv_iff.1 hx)).2 ⟨hr, htag, hst⟩⟩

theorem nextPayload_of_none (h : s.findPoint (successor s.tagIndex t) = none) :
    nextPayload s t = put16 (successor s.tagIndex t) ++ (put8 0 ++ put8 0) := by
  simp only [nextPayload, h]

theorem nextPayload_of_some {i : SlotId} {r : PointRecord} (h : s.findPoint (successor s.tagIndex t) = some (i, r)) :
    nextPayload s t = put16 (successor s.tagIndex t) ++ (put8 r.body.kindCode ++ put8 r.slotState.code) := by
  simp only [nextPayload, h]

theorem length_nextPayload (s : State) (t : Nat) : (nextPayload s t).length = 4 := by
  cases h : s.findPoint (successor s.tagIndex t) with
  | none => rw [nextPayload_of_none h]; rfl
  | some x => rw [nextPayload_of_some (i := x.1) (r := x.2) h]; rfl
end

/-- Settles O22: the successor's bytes, and the refusals. -/
theorem nextReturnsSuccessor : Obligations.NextReturnsSuccessor := by
  intro s p id payload hs hx
  refine ⟨fun h => onlyAnswers_of_refuse (k := .nextTag) hs ?_, fun hl ht =>
    ⟨_, onlyAnswers_of_done (k := .nextTag) hs ?_, length_nextPayload s (u16 payload 0), fun hlast => ?_,
      fun e he hlt hle => ?_⟩⟩
  · change requestNext payload s = _
    unfold requestNext
    split
    · rfl
    · next hl => exact if_pos (h.resolve_left hl)
  · change requestNext payload s = _
    rw [requestNext, if_neg (not_not.2 hl), if_neg (by omega)]
  · have hnone : s.findPoint 65535 = none :=
      findPoint_of_not_held fun e he => by have := (hx.inRange e he).2; omega
    have hsucc := successor_of_last hlast
    rw [nextPayload_of_none (by rw [hsucc]; exact hnone), hsucc]
    exact ⟨rfl, rfl, rfl⟩
  · have htag := (hx.inRange e he).2
    have hsucc := successor_of_least he hlt htag hle
    obtain ⟨r, hr, hfind⟩ := findPoint_of_pair hx he
    rw [nextPayload_of_some (by rw [hsucc]; exact hfind), hsucc]
    exact ⟨r, hr, u16_put16_nat (n := e.tag) (by omega), u8_put8 (kindCode_lt _), u8_put8 (slotStateCode_lt _)⟩

end Machine
end Sys2Proof
end

section
/-! PROOF. The effects of a MODIFY: on an input point its value part, claims, conversion, queue entry and attention; on
an output point its codes and its channel (R34 to R41). -/

namespace Sys2Proof.Machine

variable {s t : State} {i : SlotId} {r : PointRecord}

/-! ## What the changes of a configuration decide -/

theorem bne_eq_decide_ne {α : Type} [DecidableEq α] (a b : α) : (a != b) = decide (a ≠ b) := by
  rw [Bool.eq_iff_iff, bne_iff_ne, decide_eq_true_iff]

section
variable {c c' : InputConfig} {v : ValuePart}

theorem supersedes_iff : supersedes c c' = true ↔
    c'.source ≠ c.source ∨ c'.range ≠ c.range ∨ c'.oversample ≠ c.oversample := by
  simp [supersedes, or_assoc]

theorem clearsValue_iff : clearsValue c c' = true ↔ c'.source ≠ c.source ∨ c'.range ≠ c.range := by
  simp [clearsValue]

theorem clearsValue_eq_false_iff : clearsValue c c' = false ↔ c'.source = c.source ∧ c'.range = c.range := by
  simp [clearsValue]

theorem reevaluates_iff : reevaluates c c' = true ↔ c'.scaling ≠ c.scaling ∨ c'.highLimit ≠ c.highLimit ∨
    c'.lowLimit ≠ c.lowLimit ∨ c'.deadband ≠ c.deadband := by
  simp [reevaluates, or_assoc]

/-! ## The value part (R34, R35, R37 to R39) -/

/-- A MODIFY leaves how the value was obtained, and sets the mark when it changes the class. -/
theorem modifiedPart_kept (c c' : InputConfig) (v : ValuePart) :
    (modifiedPart c c' v).corrected = v.corrected ∧ (modifiedPart c c' v).lastCondition = v.lastCondition ∧
    (modifiedPart c c' v).updateCount = v.updateCount ∧ (modifiedPart c c' v).missedPasses = v.missedPasses ∧
    (modifiedPart c c' v).mark = (v.mark || decide (c'.scanClass ≠ c.scanClass)) := by
  unfold modifiedPart
  rw [bne_eq_decide_ne]
  split
  · exact ⟨rfl, rfl, rfl, rfl, rfl⟩
  · split <;> exact ⟨rfl, rfl, rfl, rfl, rfl⟩

/-- A change of source or range clears has-value and returns the limit state to NORMAL (R35). -/
theorem modifiedPart_of_clears (h : clearsValue c c' = true) :
    (modifiedPart c c' v).hasValue = false ∧ (modifiedPart c c' v).limitState = .normal ∧
      (modifiedPart c c' v).value = v.value := by
  unfold modifiedPart
  rw [if_pos h]
  exact ⟨rfl, rfl, rfl⟩

/-- A point with a value is re-evaluated from NORMAL when its scaling, limits or deadband change (R38, R39). -/
theorem modifiedPart_of_reevaluates (h : clearsValue c c' = false) (hv : v.hasValue = true)
    (hr : reevaluates c c' = true) :
    (modifiedPart c c' v).hasValue = v.hasValue ∧ (modifiedPart c c' v).value = modifiedValue c c' v ∧
      (modifiedPart c c' v).limitState = evalLimit c' .normal (modifiedValue c c' v) := by
  simp [modifiedPart, h, hv, hr]

/-- Without a value, or without such a change, value and limit state are left. -/
theorem modifiedPart_of_not_reevaluates (h : clearsValue c c' = false)
    (hr : v.hasValue = false ∨ reevaluates c c' = false) :
    (modifiedPart c c' v).hasValue = v.hasValue ∧ (modifiedPart c c' v).value = v.value ∧
      (modifiedPart c c' v).limitState = v.limitState := by
  rcases hr with hr | hr <;> simp [modifiedPart, h, hr]

theorem modifiedValue_of_scaling (h : c'.scaling ≠ c.scaling) :
    modifiedValue c c' v = scaledValue c'.scaling v.corrected := by
  simp [modifiedValue, h]

theorem modifiedValue_of_same_scaling (h : c'.scaling = c.scaling) : modifiedValue c c' v = v.value := by
  simp [modifiedValue, h]

/-- Either a re-evaluation takes place, or there is no value, or no change asks for one. -/
theorem reevaluation_cases (c c' : InputConfig) (v : ValuePart) :
    (v.hasValue = true ∧ reevaluates c c' = true) ∨ (v.hasValue = false ∨ reevaluates c c' = false) := by
  cases v.hasValue <;> cases reevaluates c c' <;> simp

/-- A cleared value raises nothing (R35). -/
theorem modifyReasons_of_clears (h : clearsValue c c' = true) : modifyReasons c c' v = ⟨false, false⟩ := by
  simp [modifyReasons, h]

/-- A re-evaluation raises LIMIT exactly when it changes the limit state (R39). -/
theorem modifyReasons_of_not_clears (h : clearsValue c c' = false) :
    modifyReasons c c' v = ⟨decide ((modifiedPart c c' v).limitState ≠ v.limitState), false⟩ := by
  rcases reevaluation_cases c c' v with ⟨hv, hr⟩ | hr
  · obtain ⟨-, -, hlimit⟩ := modifiedPart_of_reevaluates h hv hr
    simp [modifyReasons, hlimit, h, hv, hr, bne_eq_decide_ne]
  · obtain ⟨-, -, hlimit⟩ := modifiedPart_of_not_reevaluates h hr
    rcases hr with hr | hr <;> simp [modifyReasons, hlimit, hr]

/-- The value part after a MODIFY that keeps source and range, case by case as R38 and R39 give it. -/
theorem modifiedPart_of_same_source (h : clearsValue c c' = false) :
    (modifiedPart c c' v).hasValue = v.hasValue ∧
    (v.hasValue = true → c'.scaling ≠ c.scaling →
      (modifiedPart c c' v).value = scaledValue c'.scaling v.corrected) ∧
    (v.hasValue = false ∨ c'.scaling = c.scaling → (modifiedPart c c' v).value = v.value) ∧
    (v.hasValue = true → reevaluates c c' = true →
      (modifiedPart c c' v).limitState = evalLimit c' .normal (modifiedPart c c' v).value) ∧
    (v.hasValue = false ∨ reevaluates c c' = false → (modifiedPart c c' v).limitState = v.limitState) := by
  rcases reevaluation_cases c c' v with ⟨hv, hr⟩ | hr
  · obtain ⟨hhas, hvalue, hlimit⟩ := modifiedPart_of_reevaluates h hv hr
    rw [hhas, hvalue, hlimit]
    exact ⟨rfl, fun _ hs => modifiedValue_of_scaling hs,
      fun hs => modifiedValue_of_same_scaling (hs.resolve_left (by simp [hv])), fun _ _ => rfl, by simp [hv, hr]⟩
  · obtain ⟨hhas, hvalue, hlimit⟩ := modifiedPart_of_not_reevaluates h hr
    have hno : v.hasValue = true → reevaluates c c' ≠ true := fun hv he => by simp [hv, he] at hr
    rw [hhas, hvalue, hlimit]
    exact ⟨rfl, fun hv hs => absurd (reevaluates_iff.2 (.inl hs)) (hno hv), fun _ => rfl,
      fun hv he => absurd he (hno hv), fun _ => rfl⟩

/-! ## The state (R21, R36, R64, R88) -/

/-- The state after a MODIFY of an input point but for its queue entry and its raise. -/
def State.reconfigured (s : State) (i : SlotId) (r : PointRecord) (c : InputConfig) (v : ValuePart)
    (c' : InputConfig) : State :=
  { s with
    slots := put s.slots i (some { r with body := .input c' (modifiedPart c c' v) })
    pinClaims := movedClaims s.pinClaims c c'
    inFlight := s.inFlight.map fun k =>
      if k.slot = i ∧ (c'.source ≠ c.source ∨ c'.range ≠ c.range ∨ c'.oversample ≠ c.oversample) then
        { k with superseded := true }
      else k }

theorem modifyInput_eq (s : State) (i : SlotId) (r : PointRecord) (c : InputConfig) (v : ValuePart)
    (c' : InputConfig) :
    s.modifyInput i r c v c' =
      (if c'.scanClass = c.scanClass then s.reconfigured i r c v c' else (s.reconfigured i r c v c').unqueue i).raise i
        (modifyReasons c c' v) := by
  have hrec : (if supersedes c c' = true then
        State.supersede
          { s.setSlot i (some { r with body := .input c' (modifiedPart c c' v) }) with
            pinClaims := movedClaims s.pinClaims c c' } i
      else
        { s.setSlot i (some { r with body := .input c' (modifiedPart c c' v) }) with
          pinClaims := movedClaims s.pinClaims c c' }) = s.reconfigured i r c v c' := by
    unfold State.reconfigured
    by_cases h : supersedes c c' = true
    · rw [if_pos h]
      simp only [supersedes_iff.1 h, and_true]
      rfl
    · rw [if_neg h]
      simp only [mt supersedes_iff.2 h, and_false, if_false, Option.map_id']
      rfl
  simp only [State.modifyInput, hrec]

theorem modifyInput_inFlight : (s.modifyInput i r c v c').inFlight = s.inFlight.map fun k =>
    if k.slot = i ∧ (c'.source ≠ c.source ∨ c'.range ≠ c.range ∨ c'.oversample ≠ c.oversample) then
      { k with superseded := true }
    else k := by
  rw [modifyInput_eq, raise_inFlight]
  split
  · rfl
  · rw [unqueue_inFlight]; rfl

/-- A change of class takes the point out of the queue (R64). -/
theorem unqueued_modifyInput (h : c'.scanClass ≠ c.scanClass) : Unqueued s (s.modifyInput i r c v c') i := by
  rw [modifyInput_eq, if_neg h]
  exact (unqueued_unqueue (s.reconfigured i r c v c') i).congr rfl rfl (raise_queue ..) (raise_classes ..)

/-- Without a change of class the queue is left. -/
theorem modifyInput_queue (h : c'.scanClass = c.scanClass) :
    (s.modifyInput i r c v c').queue = s.queue ∧ (s.modifyInput i r c v c').classes = s.classes := by
  rw [modifyInput_eq, if_pos h, raise_queue, raise_classes]
  exact ⟨rfl, rfl⟩

theorem raised_modifyInput : Raised s (s.modifyInput i r c v c') i (modifyReasons c c' v) := by
  rw [modifyInput_eq]
  refine (raised_raise _ i _).congr ?_ rfl
  split
  · rfl
  · rw [unqueue_attention]; rfl

/-- The claims of a changed source move: given back and taken, pin by pin (R21). -/
theorem get_movedClaims (claims : Vector PinClaim 16) (h : c'.source ≠ c.source) (p : PinId) :
    (movedClaims claims c c').get p =
      (let given : PinClaim := if p ∈ c.source.pins then
          (if (claims.get p).count ≤ 1 then ⟨none, 0⟩ else ⟨(claims.get p).mode, (claims.get p).count - 1⟩)
        else claims.get p
      if p ∈ c'.source.pins then ⟨some c'.source.mode, given.count + 1⟩ else given) := by
  rw [movedClaims, if_neg h, get_takeClaims, get_giveClaims]

/-- A MODIFY of an input point that passes its checks has its effects. -/
theorem modifyInputChecks_of_passed {items : List ModifyItem}
    (hc : checkItems ModifyField.ofInput setInputField [] 1 items c = .passed c') (hl : limitsOk c' = true)
    (hp : c'.source ≠ c.source → claimable (giveClaims s.pinClaims c.source) c'.source = true) :
    s.modifyInputChecks i r c v items = .done (s.modifyInput i r c v c') [] := by
  rw [State.modifyInputChecks, hc]
  simp only [hl, Bool.true_eq_false, if_false]
  exact if_neg fun h => by simp [hp h.1] at h
end

/-- Settles O25: the value part, the claims, the conversion in flight, the queue entry and the raise. -/
theorem modifyInput : Obligations.ModifyInput := by
  intro s id payload i r c c' v hs hfits h1 h2 hf hb hc hl hpins
  have hbody : requestBody .modify .host payload s = .done (s.modifyInput i r c v c') [] :=
    (requestModify_input hfits h1 h2 hf hb).trans
      (modifyInputChecks_of_passed hc hl fun hne => (claimable_giveClaims_iff _ _ _).2 (hpins hne))
  obtain ⟨f, hexec, hanswered⟩ := exec_answers hs hbody (by rw [modifyInput_frame]) (by rw [modifyInput_frame])
  have hframe := modifyInput_frame s i r c v c'
  have hflight := modifyInput_inFlight (s := s) (i := i) (r := r) (c := c) (c' := c') (v := v)
  have hraised := raised_modifyInput (s := s) (i := i) (r := r) (c := c) (c' := c') (v := v)
  have hunqueued := unqueued_modifyInput (s := s) (i := i) (r := r) (c := c) (c' := c') (v := v)
  have hqueue := modifyInput_queue (s := s) (i := i) (r := r) (c := c) (c' := c') (v := v)
  generalize s.modifyInput i r c v c' = e at *
  have hslots : e.slots = put s.slots i (some { r with body := .input c' (modifiedPart c c' v) }) :=
    congrArg State.slots hframe
  have hclaims : e.pinClaims = movedClaims s.pinClaims c c' := congrArg State.pinClaims hframe
  obtain ⟨hcorr, hcond, hcount, hmissed, hmark⟩ := modifiedPart_kept c c' v
  refine ⟨_, modifiedPart c c' v, hexec, hanswered, ?_, slotSet_of_put hslots, hcorr, hcond, hcount, hmissed, hmark,
    fun h => ?_, fun h => ?_, fun h => ?_, fun h p => ?_, hflight, fun h => (hunqueued h).placeResponse _ _, hqueue⟩
  · rw [hframe]; rfl
  · have hclears := clearsValue_iff.2 h
    obtain ⟨hhas, hlimit, hvalue⟩ := modifiedPart_of_clears (v := v) hclears
    rw [modifyReasons_of_clears hclears] at hraised
    exact ⟨hhas, hlimit, hvalue, attention_of_raised hraised⟩
  · have hkeeps := clearsValue_eq_false_iff.2 h
    obtain ⟨hhas, hscaled, hvalue, hlimit, hlimit'⟩ := modifiedPart_of_same_source (v := v) hkeeps
    rw [modifyReasons_of_not_clears hkeeps] at hraised
    refine ⟨hhas, hraised, hscaled, hvalue, fun hv hr => hlimit hv (reevaluates_iff.2 hr), fun hr => hlimit' ?_⟩
    refine hr.imp_right fun ⟨h1, h2, h3, h4⟩ => Bool.eq_false_iff.2 fun he => ?_
    rcases reevaluates_iff.1 he with h | h | h | h
    exacts [h h1, h h2, h h3, h h4]
  · exact hclaims.trans (if_pos h)
  · exact (congrArg (Vector.get · p) hclaims).trans (get_movedClaims s.pinClaims h p)

/-! ## Output points (R24, R40, R41) -/

section
variable {c c' : OutputConfig} {k : CodePart}

/-- The channels after codes are written: the channel's driven code follows a live code that is driven (R24). -/
theorem writeOutput_channels (s : State) (i : SlotId) (r : PointRecord) (c : OutputConfig) (k : CodePart) (d : Bool) :
    (s.writeOutput i r c k d).channels = put s.channels c.channel
      { s.channel c.channel with driven := if d then k.live else (s.channel c.channel).driven } := by
  rw [writeOutput_frame]
  cases d with
  | true => rfl
  | false => exact (put_get_self s.channels c.channel).symm

/-- A code within a clamp is left by it. -/
theorem clampTo_of_mem {lo hi x : Int} (hlo : lo ≤ x) (hhi : x ≤ hi) : clampTo lo hi x = x := by
  rw [clampTo, if_neg (by omega), if_neg (by omega)]

/-- The codes a MODIFY leaves are the old ones clamped, and the live code steps to a target that moved: with the clamp
as it was nothing moves, since target and staged code lie in it (R40, R41). -/
theorem reclampedCodes_eq (active : Bool) (hlo : c.clampMin ≤ k.target) (hhi : k.target ≤ c.clampMax)
    (hstaged : ∀ x, k.staged = some x → c.clampMin ≤ x ∧ x ≤ c.clampMax) :
    reclampedCodes active c c' k =
      ⟨if active = true ∧ c.slew = none ∧ clampTo c'.clampMin c'.clampMax k.target ≠ k.target then
          clampTo c'.clampMin c'.clampMax k.target else k.live,
        clampTo c'.clampMin c'.clampMax k.target, k.staged.map (clampTo c'.clampMin c'.clampMax)⟩ := by
  unfold reclampedCodes
  split
  · next h =>
    have hmap : k.staged.map (clampTo c.clampMin c.clampMax) = k.staged := by
      cases hk : k.staged with
      | none => rfl
      | some x => obtain ⟨h1, h2⟩ := hstaged x hk; rw [Option.map_some, clampTo_of_mem h1 h2]
    rw [h.1, h.2, clampTo_of_mem hlo hhi, hmap]
    simp
  · simp [and_assoc]

theorem modifyOutputChecks_of_passed {items : List ModifyItem}
    (hc : checkItems (fun f => !f.ofInput) setOutputField [] 1 items c = .passed c') (hle : c'.clampMin ≤ c'.clampMax) :
    s.modifyOutputChecks i r c k items = .done (s.modifyOutput i r c k c') [] := by
  rw [State.modifyOutputChecks, hc]
  exact if_neg (by simpa [clampOk] using hle)

theorem modifyOutput_frame (s : State) (i : SlotId) (r : PointRecord) (c : OutputConfig) (k : CodePart)
    (c' : OutputConfig) :
    s.modifyOutput i r c k c' =
      { s with slots := (s.modifyOutput i r c k c').slots, channels := (s.modifyOutput i r c k c').channels } := by
  unfold State.modifyOutput; dsimp only; rw [writeOutput_frame]
end

/-- Settles O26: the codes clamped, and the channel following a live code that moved. -/
theorem modifyOutput : Obligations.ModifyOutput := by
  intro s id payload i r c c' k target live hs hfits h1 h2 hf hb hc hle hlo hhi hstaged htarget hlive
  have hbody : requestBody .modify .host payload s = .done (s.modifyOutput i r c k c') [] :=
    (requestModify_output hfits h1 h2 hf hb).trans (modifyOutputChecks_of_passed hc hle)
  have hch := channel_of_modify hc
  have hcodes : reclampedCodes (r.slotState == .active) c c' k =
      ⟨live, target, k.staged.map (clampTo c'.clampMin c'.clampMax)⟩ := by
    rw [reclampedCodes_eq _ hlo hhi hstaged, hlive, htarget]
    simp only [clampTo, beq_iff_eq]
  have hslots := slots_modifyOutput s i r c k c'
  have hchannels : (s.modifyOutput i r c k c').channels = put s.channels c.channel { s.channel c.channel with
      driven := if live = k.live then (s.channel c.channel).driven else live } := by
    unfold State.modifyOutput
    dsimp only
    rw [writeOutput_channels, hcodes, hch]
    by_cases h : live = k.live <;> simp [h]
  rw [hcodes] at hslots
  obtain ⟨f, hexec, hanswered⟩ := exec_answers hs hbody (by rw [modifyOutput_frame]) (by rw [modifyOutput_frame])
  have hframe := modifyOutput_frame s i r c k c'
  generalize s.modifyOutput i r c k c' = e at *
  obtain ⟨hown, hothers⟩ := channelSet_of_put hchannels
  refine ⟨_, hexec, hanswered, ?_, slotSet_of_put hslots, hch, hown, hothers⟩
  rw [hframe]; rfl

end Sys2Proof.Machine
end

section
/-! PROOF. HOLD, RELEASE and RETIRE of a point: what each does to the slot, the queue, the channel and the directory,
and that it leaves the rest (R42 to R48). -/

namespace Sys2Proof.Machine

variable {s : State} {i : SlotId} {r : PointRecord}

/-! ## HOLD (R42, R44) -/

theorem holdPoint_of_not_active (h : r.slotState ≠ .active) : s.holdPoint i r = s := by
  unfold State.holdPoint
  split
  case h_1 | h_2 => exact absurd ‹r.slotState = .active› h
  all_goals rfl

theorem holdPoint_input {c : InputConfig} {v : ValuePart} (h : r.slotState = .active) (hb : r.body = .input c v) :
    s.holdPoint i r = (s.setSlot i (some { r with slotState := .held })).unqueue i := by
  simp only [State.holdPoint, h, hb]

theorem holdPoint_output {c : OutputConfig} {k : CodePart} (h : r.slotState = .active) (hb : r.body = .output c k) :
    s.holdPoint i r = s.setSlot i (some { r with slotState := .held }) := by
  simp only [State.holdPoint, h, hb]

/-- Settles O27: the slot HELD, an input point out of the queue, and nothing else. -/
theorem holdSuspends : Obligations.HoldSuspends := by
  intro s id payload i r hs hn
  have hbody : requestBody .hold .host payload s = .done (s.holdPoint i r) [] := onPoint_of_names hn
  have hslots := slots_holdPoint s (slot_of_findPoint hn.2.2.2)
  obtain ⟨f, hexec, hanswered⟩ := exec_answers hs hbody (by rw [holdPoint_frame]) (by rw [holdPoint_frame])
  refine ⟨_, hexec, hanswered, fun h => ?_, fun h => ⟨?_, ?_, fun c v hb => ?_, fun c k hb => ?_⟩⟩
  · rw [holdPoint_of_not_active h]; exact placeResponse_eq_withPorts _ _ _
  · rw [holdPoint_frame]; rfl
  · rw [if_pos h] at hslots; exact slotSet_of_put hslots
  · rw [holdPoint_input h hb]
    have hunqueued := unqueued_unqueue (s.setSlot i (some { r with slotState := .held })) i
    exact (hunqueued.congr (s' := s) rfl rfl rfl rfl).placeResponse _ _
  · rw [holdPoint_output h hb]; exact ⟨rfl, rfl⟩

/-! ## RELEASE (R43, R45) -/

theorem releasePoint_of_not_held (h : r.slotState ≠ .held) : s.releasePoint i r = s := by
  unfold State.releasePoint
  split
  case h_3 => exact absurd ‹r.slotState = .held› h
  all_goals rfl

theorem releasePoint_input {c : InputConfig} {v : ValuePart} (h : r.slotState = .held) (hb : r.body = .input c v) :
    s.releasePoint i r = s.setSlot i (some ⟨r.tag, .active, .input c (releasedPart v)⟩) := by
  simp only [State.releasePoint, h, hb]

/-- A RELEASE with slew absent takes the channel to a target the live code is not at (R45). -/
theorem releasePoint_channels {c : OutputConfig} {k : CodePart} (h : r.slotState = .held) (hb : r.body = .output c k) :
    (s.releasePoint i r).channels = put s.channels c.channel { s.channel c.channel with
      driven := if c.slew = none ∧ k.live ≠ k.target then k.target else (s.channel c.channel).driven } := by
  simp only [State.releasePoint, h, hb, writeOutput_channels]
  by_cases hstep : c.slew = none ∧ k.live ≠ k.target
  · simp [hstep]
  · have hstep' : (c.slew.isNone && k.live != k.target) = false := by
      rw [Bool.eq_false_iff]; simpa using hstep
    simp [hstep, hstep']

/-- A point with missed passes 3 is STALE, or NONE without a value (R14, R43). -/
theorem qualityOf_released (v : ValuePart) :
    qualityOf .active { v with missedPasses := 3, mark := true } = if v.hasValue then .stale else .none := by
  cases v.hasValue <;> simp [qualityOf]

/-- Settles O28: the slot ACTIVE, an input point's missed passes and mark, an output point's step with its channel. -/
theorem releaseResumes : Obligations.ReleaseResumes := by
  intro s id payload i r hs hn
  have hbody : requestBody .release .host payload s = .done (s.releasePoint i r) [] := onPoint_of_names hn
  have hslots := slots_releasePoint s (slot_of_findPoint hn.2.2.2)
  obtain ⟨f, hexec, hanswered⟩ := exec_answers hs hbody (by rw [releasePoint_frame]) (by rw [releasePoint_frame])
  refine ⟨_, hexec, hanswered, fun h => ?_, fun h => ⟨fun c v hb => ⟨?_, ?_, qualityOf_released v⟩, fun c k hb => ?_⟩⟩
  · rw [releasePoint_of_not_held h]; exact placeResponse_eq_withPorts _ _ _
  · rw [releasePoint_input h hb]; rfl
  · rw [releasePoint_input h hb]; exact slotSet_of_put rfl
  · rw [if_pos h, hb] at hslots
    refine ⟨?_, slotSet_of_put hslots, channelSet_of_put (releasePoint_channels h hb)⟩
    rw [releasePoint_frame]; rfl

/-! ## RETIRE (R46 to R48) -/

theorem retirePoint_of_pends (h : s.retirePends i r = true) :
    s.retirePoint i r = (s.forget i r).setSlot i (some { r with slotState := .retiring }) := if_pos h

theorem retirePends_input {c : InputConfig} {v : ValuePart} (hb : r.body = .input c v) :
    s.retirePends i r = s.inFlightAt i := by
  simp only [State.retirePends, hb]

theorem retirePends_output {c : OutputConfig} {k : CodePart} (hb : r.body = .output c k) :
    s.retirePends i r = false := by
  simp only [State.retirePends, hb]

/-- An input point that is not in flight loses its queue entry, its slot and its claims (R46, R47). -/
theorem retirePoint_input {c : InputConfig} {v : ValuePart} (hb : r.body = .input c v)
    (h : s.retirePends i r = false) : s.retirePoint i r =
      { ((s.forget i r).unqueue i).setSlot i none with pinClaims := giveClaims s.pinClaims c.source } := by
  simp only [State.retirePoint, h, hb, Bool.false_eq_true, if_false, State.freeSlot, unqueue_pinClaims]
  rfl

/-- An output point loses its slot and its channel (R46, R48). -/
theorem retirePoint_output {c : OutputConfig} {k : CodePart} (hb : r.body = .output c k) : s.retirePoint i r =
    ((s.forget i r).setSlot i none).setChannel c.channel { s.channel c.channel with owner := none } := by
  simp only [State.retirePoint, retirePends_output hb, hb, Bool.false_eq_true, if_false, State.freeSlot]

/-- Settles O29: the tag and the attention entry gone, and the slot RETIRING or FREE by the point's kind and the
conversion in flight. -/
theorem retireRemoves : Obligations.RetireRemoves := by
  intro s id payload i r hs hn
  have hbody : requestBody .retire .host payload s =
      .done (s.retirePoint i r) (put8 (if s.retirePends i r then 2 else 1)) := onPoint_of_names hn
  have hslots := slots_retirePoint s i r
  obtain ⟨f, hexec, hanswered⟩ := exec_answers hs hbody (by rw [retirePoint_frame]) (by rw [retirePoint_frame])
  refine ⟨_, _, hexec, hanswered, ?_, ?_, ?_, fun c v hb => ⟨?_, fun hflight => ?_, fun hflight => ?_⟩,
    fun c k hb => ?_⟩
  · rw [retirePoint_frame]; rfl
  · rw [retirePoint_frame]; rfl
  · rw [retirePoint_frame]; rfl
  · cases hp : s.retirePends i r with
    | false => rw [retirePoint_input hb hp]; exact unqueue_channels ..
    | true => rw [retirePoint_of_pends hp]; rfl
  · have hp : s.retirePends i r = true := (retirePends_input hb).trans ((inFlightAt_eq_true s).2 hflight)
    rw [hp, if_pos rfl] at hslots
    refine ⟨by rw [hp]; rfl, slotSet_of_put hslots, ?_⟩
    rw [retirePoint_of_pends hp]
    exact ⟨rfl, rfl, rfl⟩
  · have hp : s.retirePends i r = false := (retirePends_input hb).trans ((inFlightAt_eq_false s).2 hflight)
    rw [hp, if_neg Bool.false_ne_true] at hslots
    refine ⟨by rw [hp]; rfl, slotSet_of_put hslots, ?_, fun p => ?_⟩
    · rw [retirePoint_input hb hp]
      exact (unqueued_unqueue (s.forget i r) i).congr rfl rfl rfl rfl
    · rw [retirePoint_input hb hp]; exact get_giveClaims s.pinClaims c.source p
  · have hp := retirePends_output (s := s) (i := i) hb
    rw [hp, if_neg Bool.false_ne_true] at hslots
    refine ⟨by rw [hp]; rfl, slotSet_of_put hslots, ?_⟩
    rw [retirePoint_output hb]
    exact ⟨rfl, rfl, rfl, channelSet_of_put rfl⟩

end Sys2Proof.Machine
end

section
/-! PROOF. Every command ends in a next state, GRANT by the well-formed Conversion Queue, and no command touches the
queue of commands. -/

namespace Sys2Proof.Machine

variable {s t : State}

/-! ## The queue of commands is left alone -/

/-- The body of a request leaves the queue of commands alone. -/
theorem pending_of_edit (h : Edit s t) : t.pending = s.pending := by
  cases h with
  | modifyInput => rw [modifyInput_frame]
  | modifyOutput => simp [State.modifyOutput]
  | hold => rw [holdPoint_frame]
  | release => rw [releasePoint_frame]
  | retire => rw [retirePoint_frame]
  | stage => simp
  | abort => rw [abortRunning_frame]
  | startSave => rw [startSave_frame]
  | none | defineInput | defineOutput | configure | unlist | deviceAck | commit | discard | calibrate | cancel
  | softReset => rfl

/-- Every move leaves the queue of commands alone. -/
theorem pending_of_move (h : Move s t) : t.pending = s.pending := by
  cases h with
  | ports h => rw [h.only]; rfl
  | answer p frame he => rw [placeResponse_pending, pending_of_edit he]
  | load => rw [loadTable_frame]
  | expiry => rw [takeExpiry_frame]
  | lend => rw [lend_frame]
  | complete => rw [complete_frame]
  | calEnd => rw [finishEntry_frame]
  | erased => simp
  | record => rw [writeRecord_frame]
  | marked => simp [State.endSave]
  | reset | endReset | pulse | classTick | start | settled | sample | ramp | calSettled | calSample
  | calSecond => rfl

/-! ## Every command completes (R61, R73) -/

/-- GRANT finds an input record at the head of a well-formed queue, so it does not fault (R61, log 16). -/
theorem execGrant_completes (hq : QueueInv s) : ∃ t, execGrant s = .next t := by
  unfold execGrant
  split
  · exact ⟨_, rfl⟩
  split
  · exact ⟨_, rfl⟩
  · exact ⟨_, rfl⟩
  next e rest hqueue _ =>
  obtain ⟨tag, c, v, hslot, -⟩ := hq.entries e (by rw [hqueue]; exact List.mem_cons_self)
  rw [hslot]
  exact ⟨_, rfl⟩

/-- Of all commands only GRANT can fail to reach a next state. -/
theorem exec_completes (c : Instr) (hq : QueueInv s) : ∃ t, exec c s = .next t := by
  cases c
  case grant => exact execGrant_completes hq
  all_goals exact ⟨_, rfl⟩

/-- Settles O2: GRANT completes by the well-formed queue, and every move leaves the queue of commands. -/
theorem everyCommandCompletes : Obligations.EveryCommandCompletes := by
  intro c s hq
  obtain ⟨t, ht⟩ := exec_completes c hq
  exact ⟨t, ht, pending_of_move (move_of_exec ht)⟩

end Sys2Proof.Machine
end

section
/-! PROOF. The scan classes: CLASS with its refusals, the class tick, and the class expiry with its accounting and its
pass (R51 to R62). -/

namespace Sys2Proof.Machine

variable {s t : State} {c : ClassId} {payload : List Byte}

/-- Writing one class record sets it and leaves the others. -/
theorem classSet_of_put {x : ScanClass} (h : t.classes = put s.classes c x) :
    t.scanClass c = x ∧ ∀ c', c' ≠ c → t.scanClass c' = s.scanClass c' := by
  unfold State.scanClass
  rw [h]
  exact ⟨get_put_self _ _ _, fun c' hc => get_put_ne _ _ (Ne.symm hc)⟩

/-! ## CLASS (R52, R53) -/

/-- A wrong length, class, enable or period refuses a CLASS (R52). -/
theorem requestClass_refuses (s : State)
    (h : payload.length ≠ 4 ∨ 4 ≤ u8 payload 0 ∨ 2 ≤ u8 payload 1 ∨ u16 payload 2 = 0) :
    requestClass payload s = .refuse .badField [] := by
  unfold requestClass
  split
  · rfl
  next hlength =>
  split
  · next c enable hc he =>
    have hclass := finOf_eq_some.1 hc
    have henable := boolAt_eq_some.1 he
    exact if_pos (by omega)
  · rfl

/-- A CLASS that passes its checks configures its class and answers with count and flag as they stood (R52, R53). -/
theorem requestClass_configures (s : State) (hlength : payload.length = 4) (hclass : u8 payload 0 = c.val)
    (henable : u8 payload 1 ≤ 1) (hperiod : 1 ≤ u16 payload 2) :
    requestClass payload s =
      .done (s.setClass c ((s.scanClass c).configure (u8 payload 1 == 1) (u16 payload 2)))
        (put8 (s.scanClass c).outstanding ++ putBool (s.scanClass c).overrun) := by
  have hc : finOf 4 (u8 payload 0) = some c := finOf_eq_some.2 hclass
  have he : boolAt payload 1 = some (u8 payload 1 == 1) := by
    rw [boolAt_eq_some]
    rcases Nat.le_one_iff_eq_zero_or_eq_one.1 henable with h | h <;> simp [h]
  unfold requestClass
  rw [if_neg (by simp [hlength]), hc, he]
  exact if_neg (by omega)

/-- What CLASS makes of a class record, its enable being a byte (R52, R53). -/
theorem configure_eq (x : ScanClass) (enable period : Nat) :
    x.configure (enable == 1) period =
      { x with
        enabled := enable == 1, period := period, remaining := if enable = 1 then period else x.remaining
        overrun := false, expiryDue := false } := by
  simp [ScanClass.configure]

/-- Settles O30: the four refusals, and the class record as CLASS configures it. -/
theorem classSetsTimer : Obligations.ClassSetsTimer := by
  intro s id payload hs
  refine ⟨fun h => onlyAnswers_of_refuse hs (requestClass_refuses s h), fun c hlength hclass henable hperiod => ?_⟩
  obtain ⟨f, hexec, hanswered⟩ :=
    exec_answers hs (requestClass_configures s hlength hclass henable hperiod) rfl rfl
  refine ⟨_, hexec, hanswered, rfl, ?_⟩
  rw [configure_eq]
  exact classSet_of_put rfl

/-! ## The class tick (R51) -/

theorem tick_of_disabled {x : ScanClass} (h : x.enabled = false) : x.tick = x := if_pos h

theorem tick_counts {x : ScanClass} (h : x.enabled = true) (hr : 1 < x.remaining) :
    x.tick = { x with remaining := x.remaining - 1 } := by
  rw [ScanClass.tick, if_neg (by simp [h]), if_neg (by omega)]

theorem tick_reloads {x : ScanClass} (h : x.enabled = true) (hr : x.remaining ≤ 1) :
    x.tick = { x with remaining := x.period, expiryDue := true } := by
  rw [ScanClass.tick, if_neg (by simp [h]), if_pos hr]

/-- The part answers, and its ticks run, from the end of a hard reset (R181). -/
theorem alive_iff : s.alive = true ↔ s.phase = .loading ∨ s.phase = .running := by simp [State.alive]

theorem exec_classTick (s : State) :
    exec .classTick s = .next (if s.alive then { s with classes := mapTable ScanClass.tick s.classes } else s) := rfl

/-- Settles O31: every record ticks from the end of reset, none before. -/
theorem classTickCountsDown : Obligations.ClassTickCountsDown := by
  intro s
  refine ⟨fun hphase => ?_, fun hphase => ?_⟩
  · rw [exec_classTick, if_pos (alive_iff.2 hphase)]
    refine ⟨_, rfl, rfl, fun c => ?_⟩
    have htick : State.scanClass { s with classes := mapTable ScanClass.tick s.classes } c = (s.scanClass c).tick :=
      get_mapTable _ _ _
    rw [htick]
    exact ⟨tick_of_disabled, tick_counts, tick_reloads⟩
  · rw [exec_classTick, if_neg (by rw [alive_iff]; rcases hphase with h | h <;> simp [h])]

/-! ## The accounting of an expiry (R54, R55) -/

/-- A point of a class is an ACTIVE input record that names it. -/
theorem inClass_iff {r : PointRecord} :
    inClass c r = true ↔ ∃ tag k v, r = ⟨tag, .active, .input k v⟩ ∧ k.scanClass = c := by
  rcases r with ⟨tag, st, ⟨k, v⟩ | ⟨k, q⟩⟩ <;> simp [inClass]

theorem expireRecord_of_inClass {tag : Nat} {k : InputConfig} (v : ValuePart) (h : k.scanClass = c) :
    expireRecord c ⟨tag, .active, .input k v⟩ = ⟨tag, .active, .input k (expiredPart v)⟩ :=
  if_pos (inClass_iff.2 ⟨tag, k, v, rfl, h⟩)

theorem expireRecord_of_not_inClass {r : PointRecord} (h : inClass c r ≠ true) : expireRecord c r = r := if_neg h

/-- A clear mark raises missed passes up to 255 (R55). -/
theorem expiredPart_eq (v : ValuePart) :
    expiredPart v =
      { v with
        missedPasses := if v.mark = false ∧ v.missedPasses < 255 then v.missedPasses + 1 else v.missedPasses
        mark := false } := by
  unfold expiredPart
  congr 1
  cases v.mark
  · simp only [Bool.false_eq_true, if_false, true_and, ← Nat.not_lt, ite_not]
  · simp

/-- An expiry raises QUALITY exactly for a point that misses its third pass with a value: then it enters STALE (R14,
R15, R55). -/
theorem reasonsOf_expiredPart (v : ValuePart) :
    reasonsOf .active v (expiredPart v) = ⟨false, !v.mark && v.missedPasses == 2 && v.hasValue⟩ := by
  have hlimit : (v.limitState != (expiredPart v).limitState) = false := by simp [expiredPart]
  unfold reasonsOf
  rw [hlimit, Reasons.mk.injEq]
  refine ⟨rfl, ?_⟩
  rcases v with ⟨x, y, hasValue, cond, n, missed, mark, lim⟩
  cases hasValue
  · simp [qualityRaises, qualityOf, expiredPart]
  cases mark
  · by_cases h2 : missed = 2
    · subst h2
      cases cond <;> rfl
    · have hgrade : 3 ≤ (if 255 ≤ missed then missed else missed + 1) ↔ 3 ≤ missed := by split <;> omega
      simp [qualityRaises, qualityOf, expiredPart, hgrade, h2]
  · simp [qualityRaises, qualityOf, expiredPart]

/-- Raises for a list of slots come, in order, from those whose raise carries a reason. -/
theorem attention_foldl_raise (f : SlotId → Reasons) (l : List SlotId) (s : State) :
    (l.foldl (fun t i => t.raise i (f i)) s).attention =
      (l.filter (fun i => (f i).any)).foldl (fun a i => raiseOn a i (f i)) s.attention := by
  induction l generalizing s with
  | nil => rfl
  | cons i l ih =>
    rw [List.foldl_cons, ih, State.raise, List.filter_cons]
    split <;> rfl

/-- Slot i holds an ACTIVE input point of the class (R54). -/
def State.Scanned (s : State) (c : ClassId) (i : SlotId) : Prop :=
  ∃ tag k v, s.slot i = some ⟨tag, .active, .input k v⟩ ∧ k.scanClass = c

/-- Slot i holds a point of the class that enters STALE at the class's expiry (R14, R55). -/
def State.EntersStale (s : State) (c : ClassId) (i : SlotId) : Prop :=
  ∃ tag k v, s.slot i = some ⟨tag, .active, .input k v⟩ ∧ k.scanClass = c ∧ v.mark = false ∧ v.missedPasses = 2 ∧
    v.hasValue = true

theorem State.EntersStale.scanned {i : SlotId} (h : s.EntersStale c i) : s.Scanned c i := by
  obtain ⟨tag, k, v, hslot, hk, -⟩ := h
  exact ⟨tag, k, v, hslot, hk⟩

/-- The points of a class are those the Tag Index leads to, by any test for them. -/
theorem members_eq_filter {p : SlotId → Bool} (hp : ∀ i, p i = true ↔ s.Scanned c i) :
    s.members c = (s.tagIndex.map IndexPair.slot).filter p := by
  refine List.filter_congr fun i _ => ?_
  rw [Bool.eq_iff_iff, hp, State.Scanned]
  cases s.slot i with
  | none => simp
  | some r => simp [inClass_iff]

/-- Of the points of a class, an expiry raises for those that enter STALE, and raises QUALITY (R55). -/
theorem expiryReasons_of_scanned {i : SlotId} (h : s.Scanned c i) :
    s.expiryReasons i = ⟨false, (s.expiryReasons i).any⟩ ∧ ((s.expiryReasons i).any = true ↔ s.EntersStale c i) := by
  obtain ⟨tag, k, v, hslot, hk⟩ := h
  have hreasons : s.expiryReasons i = ⟨false, !v.mark && v.missedPasses == 2 && v.hasValue⟩ := by
    rw [State.expiryReasons, hslot]
    exact reasonsOf_expiredPart v
  rw [hreasons]
  simp [Reasons.any, State.EntersStale, hslot, hk, and_assoc]

/-- An expiry raises QUALITY for the points that enter STALE, in tag order (R55). -/
theorem attention_account {p : SlotId → Bool} (hp : ∀ i, p i = true ↔ s.EntersStale c i) :
    (s.account c).attention =
      ((s.tagIndex.map IndexPair.slot).filter p).foldl (fun l i => raiseOn l i ⟨false, true⟩) s.attention := by
  have hraised : (s.members c).filter (fun i => (s.expiryReasons i).any) =
      (s.tagIndex.map IndexPair.slot).filter p := by
    classical
    rw [members_eq_filter (p := fun i => decide (s.Scanned c i)) (by simp), List.filter_filter]
    refine List.filter_congr fun i _ => ?_
    rw [Bool.eq_iff_iff, hp, Bool.and_eq_true, decide_eq_true_iff]
    refine ⟨fun ⟨hany, hs⟩ => (expiryReasons_of_scanned hs).2.1 hany, fun hstale => ?_⟩
    exact ⟨(expiryReasons_of_scanned hstale.scanned).2.2 hstale, hstale.scanned⟩
  rw [State.account, attention_foldl_raise, hraised]
  refine List.foldl_ext _ _ _ fun l i hi => ?_
  have hstale := (hp i).1 (List.mem_filter.1 hi).2
  obtain ⟨hreasons, hany⟩ := expiryReasons_of_scanned hstale.scanned
  rw [hreasons, hany.2 hstale]

/-- The accounting of an expiry is all that happens to the slots and the attention (R54, R55). -/
theorem accounted_of_account (hslots : t.slots = (s.account c).slots) (hatt : t.attention = (s.account c).attention) :
    Accounted s t c := by
  have hslot : ∀ i, t.slot i = (s.slot i).map (expireRecord c) := fun i => by
    rw [State.slot, hslots, account_frame]; exact get_mapTable _ _ _
  refine ⟨fun i tag k v hi hk => ?_, fun i hi => ?_, ?_⟩
  · rw [hslot, hi, Option.map_some, expireRecord_of_inClass v hk, expiredPart_eq]
  · rw [hslot]
    cases hs : s.slot i with
    | none => rfl
    | some r =>
      rw [Option.map_some, expireRecord_of_not_inClass]
      intro hr
      obtain ⟨tag, k, v, rfl, hk⟩ := inClass_iff.1 hr
      exact hi tag k v hs hk
  · rw [hatt]
    refine attention_account fun i => ?_
    rcases hs : s.slot i with _ | ⟨tag, _ | _ | _, ⟨k, v⟩ | ⟨k, q⟩⟩ <;> simp [State.EntersStale, hs, and_assoc]

/-! ## The pass and the overrun (R56, R57, R62) -/

theorem exec_classExpiry_of_due (he : (s.scanClass c).enabled = true) (hd : (s.scanClass c).expiryDue = true) :
    exec (.classExpiry c) s = .next (s.takeExpiry c) := by
  change execClassExpiry c s = _
  rw [execClassExpiry, he, hd]; rfl

theorem exec_classExpiry_of_not_due (h : (s.scanClass c).enabled = false ∨ (s.scanClass c).expiryDue = false) :
    exec (.classExpiry c) s = .next s := by
  change execClassExpiry c s = _
  rcases h with h | h <;> simp [execClassExpiry, h]

/-- With conversions outstanding an expiry accounts and declares an overrun (R56). -/
theorem takeExpiry_overruns (h : 0 < (s.scanClass c).outstanding) : s.takeExpiry c =
    { s with
      slots := (s.account c).slots, attention := (s.account c).attention
      classes := put s.classes c { s.scanClass c with overrun := true, expiryDue := false }
      events := { s.events with classOverrun := true } } := by
  rw [State.takeExpiry, if_pos h, account_frame]; rfl

/-- With none outstanding an expiry accounts and starts a pass (R57, R62). -/
theorem takeExpiry_starts (h : (s.scanClass c).outstanding = 0) : s.takeExpiry c =
    { s with
      slots := (s.account c).slots, attention := (s.account c).attention
      classes := put s.classes c { s.scanClass c with outstanding := (s.passOf c).length, expiryDue := false }
      queue := insertPass c (s.passOf c) s.queue } := by
  rw [State.takeExpiry, if_neg (by omega), account_frame]; rfl

/-- A pass takes the points of the class that are neither queued nor in flight, in tag order (R57). -/
theorem passOf_eq_filter {p : SlotId → Bool} (hp : ∀ i, p i = true ↔
      s.Scanned c i ∧ (∀ e ∈ s.queue, e.slot ≠ i) ∧ ∀ k, s.inFlight = some k → k.slot ≠ i) :
    s.passOf c = ((s.tagIndex.map IndexPair.slot).filter p).map (fun i => ⟨i, c⟩) := by
  classical
  rw [State.passOf, members_eq_filter (p := fun i => decide (s.Scanned c i)) (by simp), List.filter_filter]
  congr 1
  refine List.filter_congr fun i _ => ?_
  rw [Bool.eq_iff_iff, hp, ← queueEntry_eq_none, ← inFlightAt_eq_false]
  simp [and_comm]

/-- Settles O32: an expiry that is due accounts for its points, then by the outstanding count declares an overrun or
starts a pass. -/
theorem classExpiryAccountsAndStartsPass : Obligations.ClassExpiryAccountsAndStartsPass := by
  intro s c
  refine ⟨fun he hd ho => ?_, fun he hd ho => ?_, exec_classExpiry_of_not_due⟩
  · rw [exec_classExpiry_of_due he hd, takeExpiry_overruns ho]
    exact ⟨_, rfl, rfl, accounted_of_account rfl rfl, rfl, classSet_of_put rfl⟩
  · rw [exec_classExpiry_of_due he hd, takeExpiry_starts ho]
    refine ⟨_, s.passOf c, rfl, rfl, accounted_of_account rfl rfl, passOf_eq_filter fun i => ?_, rfl,
      classSet_of_put rfl⟩
    rcases hs : s.slot i with _ | ⟨tag, _ | _ | _, ⟨k, v⟩ | ⟨k, q⟩⟩ <;>
      simp [State.Scanned, hs, Option.all_eq_true, and_assoc]

end Sys2Proof.Machine
end

section
/-! PROOF. The converter: every step keeps unit, grant, selection, conversion in flight and calibration run of one
accord, and a channel's mark with its measurement (R71, R73, R145, R150). -/

namespace Sys2Proof.Machine

variable {s t : State} {ch : ChannelId}

/-! ## What the converter sees of a state -/

/-- The under calibration marks of the channels. -/
def State.marks (s : State) (ch : ChannelId) : Bool := (s.channel ch).underCal

/-- The part of a state that decides who has the converter: the Acquisition Unit, the run, and the channels' marks. -/
structure ConverterView where
  unit      : UnitState
  grant     : ConvGrant
  selection : Option Selection
  flight    : Option Conversion
  run       : CalRun
  marks     : ChannelId → Bool

/-- What the converter sees of a state. -/
def State.converter (s : State) : ConverterView := ⟨s.unit, s.convGrant, s.selection, s.inFlight, s.calRun, s.marks⟩

theorem marks_of_put {x : Channel} (h : t.channels = put s.channels ch x) (hx : x.underCal = s.marks ch) :
    t.marks = s.marks := by
  funext c
  unfold State.marks
  rw [channel_of_put h, Function.update_apply]
  split
  · next e => rw [e]; exact hx
  · rfl

theorem marks_of_map {f : Channel → Channel} (h : t.channels = mapTable f s.channels)
    (hf : ∀ x, (f x).underCal = x.underCal) : t.marks = s.marks := by
  funext c; simp [State.marks, State.channel, h, hf]

/-- Writing a channel's mark changes that mark alone. -/
theorem marks_setUnderCal (s : State) (ch : ChannelId) (b : Bool) :
    (s.setUnderCal ch b).marks = Function.update s.marks ch b := by
  funext c
  unfold State.marks
  rw [channel_of_put (t := s.setUnderCal ch b) (s := s) rfl, Function.update_apply, Function.update_apply]
  split <;> rfl

theorem converter_setUnderCal (s : State) (ch : ChannelId) (b : Bool) :
    (s.setUnderCal ch b).converter = { s.converter with marks := Function.update s.converter.marks ch b } := by
  rw [State.converter, marks_setUnderCal]; rfl

/-- Of what the converter sees a command changes at most the channels, and it keeps their marks. -/
theorem converter_of_marks (h : t.converter = { s.converter with marks := t.marks }) (hm : t.marks = s.marks) :
    t.converter = s.converter := by
  rw [h, hm]; rfl

/-- A channel that follows its owner's live code keeps its mark (R24). -/
theorem underCal_driveOwner (slots : Vector Slot 64) (x : Channel) : (driveOwner slots x).underCal = x.underCal := by
  unfold driveOwner
  split
  · rfl
  · split <;> rfl

theorem converter_mapRecords (s : State) (f : PointRecord → PointRecord) : (s.mapRecords f).converter = s.converter :=
  converter_of_marks rfl (marks_of_map rfl (underCal_driveOwner _))

theorem converter_writeOutput (s : State) (i : SlotId) (r : PointRecord) (c : OutputConfig) (k : CodePart) (d : Bool) :
    (s.writeOutput i r c k d).converter = s.converter := by
  rw [writeOutput_frame]
  refine converter_of_marks rfl ?_
  cases d
  · rfl
  · exact marks_of_put rfl rfl

theorem converter_releasePoint (s : State) (i : SlotId) (r : PointRecord) :
    (s.releasePoint i r).converter = s.converter := by
  rcases r with ⟨tag, _ | _ | _, ⟨c, v⟩ | ⟨c, k⟩⟩
  case held.output => exact converter_writeOutput ..
  all_goals rfl

/-- A RETIRE takes a channel's owner, not its mark (R48). -/
theorem converter_retirePoint (s : State) (i : SlotId) (r : PointRecord) :
    (s.retirePoint i r).converter = s.converter := by
  refine converter_of_marks (by rw [retirePoint_frame]; rfl) ?_
  rcases r with ⟨tag, st, ⟨c, v⟩ | ⟨c, k⟩⟩
  · unfold State.marks State.channel State.retirePoint
    dsimp only
    split
    · rfl
    · simp only [freeSlot_channels, unqueue_channels]; rfl
  · rw [retirePoint_output rfl]
    exact marks_of_put (ch := c.channel) (x := { s.channel c.channel with owner := none }) rfl rfl

/-! ## The accord -/

/-- No measurement is in progress: the run is IDLE or WAITING (R145). -/
abbrev CalRun.NotRunning (r : CalRun) : Prop := ∀ sc m, r ≠ .running sc m

/-- The phases in which an entry is measured (R149, R151). -/
def CalEntry.hasPhase (e : CalEntry) (ph : CalPhase) : Prop :=
  match e with
  | .input _ => ph = .zero ∨ ph = .reference
  | .output _ => ph = .plus ∨ ph = .minus

/-- The measurement is of an entry of the scope, in a phase of its kind, with samples still to take (R145). -/
structure MeasurementOk (sc : Scope) (m : Measurement) : Prop where
  inScope : m.entry ∈ sc.entries
  phase   : m.entry.hasPhase m.phase
  samples : m.taken < 64
  settles : m.settled = false → m.taken = 0

/-- The marks while an entry is measured: that of its channel alone (R150, R152). -/
def CalEntry.mark (e : CalEntry) (ch : ChannelId) : Bool := decide (e = .output ch)

/-- No channel is under calibration. -/
def unmarked (_ : ChannelId) : Bool := false

/-- Who has the converter: nobody, a conversion in flight, or a run that measures (R71, R73, R145). -/
inductive ConverterOk : ConverterView → Prop
  | idle (sel : Option Selection) {run : CalRun} : run.NotRunning →
      ConverterOk ⟨.idle, .scan, sel, none, run, unmarked⟩
  | converting {u : UnitState} (sel : Selection) {k : Conversion} {run : CalRun} : u = .settling ∨ u = .sampling →
      k.taken < k.oversample.samples → run.NotRunning → ConverterOk ⟨u, .scan, some sel, some k, run, unmarked⟩
  | measuring {sc : Scope} {m : Measurement} : MeasurementOk sc m →
      ConverterOk ⟨.lent, .cal, none, none, .running sc m, m.entry.mark⟩

/-- The converter of a state and its run are of one accord. -/
abbrev State.ConverterOk (s : State) : Prop := Machine.ConverterOk s.converter

theorem runInv_iff_of_running {sc : Scope} {m : Measurement} (hr : s.calRun = .running sc m) :
    RunInv s ↔ MeasurementOk sc m ∧ s.marks = m.entry.mark := by
  have hrun {sc' m'} (h : s.calRun = .running sc' m') : sc' = sc ∧ m' = m := by
    cases hr.symm.trans h
    exact ⟨rfl, rfl⟩
  have hmeasures (c : ChannelId) : measures s (.output c) ↔ m.entry.mark c = true := by
    simp [measures, hr, CalEntry.mark]
  constructor
  · intro h
    have hsamples := h.samples sc m hr
    refine ⟨⟨h.inScope sc m hr, h.phase sc m hr, hsamples.1, hsamples.2⟩, ?_⟩
    funext c
    exact Bool.eq_iff_iff.2 ((h.underCal c).trans (hmeasures c))
  · intro ⟨hm, hmarks⟩
    refine ⟨fun sc' m' h => ?_, fun sc' m' h => ?_, fun sc' m' h => ?_, fun c => ?_⟩
    · obtain ⟨rfl, rfl⟩ := hrun h; exact hm.inScope
    · obtain ⟨rfl, rfl⟩ := hrun h; exact hm.phase
    · obtain ⟨rfl, rfl⟩ := hrun h; exact ⟨hm.samples, hm.settles⟩
    · rw [hmeasures, ← hmarks]; rfl

theorem runInv_iff_of_not_running (hr : s.calRun.NotRunning) : RunInv s ↔ s.marks = unmarked := by
  have hmeasures (e : CalEntry) : ¬ measures s e := fun ⟨sc, m, h, _⟩ => hr sc m h
  constructor
  · intro h
    funext c
    exact Bool.eq_false_iff.2 fun hc => hmeasures _ ((h.underCal c).1 hc)
  · intro h
    refine ⟨fun sc m e => absurd e (hr sc m), fun sc m e => absurd e (hr sc m), fun sc m e => absurd e (hr sc m),
      fun c => ⟨fun hc => ?_, fun hc => absurd hc (hmeasures _)⟩⟩
    have hc' : s.marks c = true := hc
    rw [h] at hc'; nomatch hc'

/-- Who has the converter says all that ConverterInv and RunInv say. -/
theorem converterOk_iff : (ConverterInv s ∧ RunInv s) ↔ s.ConverterOk := by
  constructor
  · intro ⟨hc, hr⟩
    have hgrant : s.unit ≠ .lent → s.convGrant = .scan := fun hu => by
      cases hg : s.convGrant with
      | scan => rfl
      | cal => exact absurd (hc.grant.1 hg) hu
    have hrun : s.unit ≠ .lent → s.calRun.NotRunning := fun hu sc m e => hu (hc.lent.2 ⟨sc, m, e⟩)
    have hflight : ¬ (s.unit = .settling ∨ s.unit = .sampling) → s.inFlight = none := fun hu =>
      Option.not_isSome_iff_eq_none.1 fun hf => hu (hc.flight.1 hf)
    unfold State.ConverterOk State.converter
    cases hu : s.unit with
    | idle =>
      rw [hgrant (by simp [hu]), hflight (by simp [hu]),
        (runInv_iff_of_not_running (hrun (by simp [hu]))).1 hr]
      exact .idle _ (hrun (by simp [hu]))
    | lent =>
      obtain ⟨sc, m, hrunning⟩ := hc.lent.1 hu
      obtain ⟨hm, hmarks⟩ := (runInv_iff_of_running hrunning).1 hr
      rw [hc.grant.2 hu, hc.unselected hu, hflight (by simp [hu]), hrunning, hmarks]
      exact .measuring hm
    | settling | sampling =>
      obtain ⟨k, hk⟩ := Option.isSome_iff_exists.1 (hc.flight.2 (by simp [hu]))
      obtain ⟨sel, hsel⟩ := Option.isSome_iff_exists.1 (hc.selected (by simp [hk]))
      rw [hgrant (by simp [hu]), hk, hsel, (runInv_iff_of_not_running (hrun (by simp [hu]))).1 hr]
      exact .converting sel (by simp) (hc.samples k hk) (hrun (by simp [hu]))
  · unfold State.ConverterOk
    generalize hv : s.converter = v
    intro h
    cases h with
    | idle sel hrun =>
      obtain ⟨hu, hg, -, hf, hr, hm⟩ := ConverterView.mk.inj hv
      rw [← hr] at hrun
      refine ⟨⟨?_, ?_, ?_, ?_, ?_, ?_⟩, (runInv_iff_of_not_running hrun).2 hm⟩ <;> simp [hu, hg, hf, hrun]
    | converting sel hunit htaken hrun =>
      obtain ⟨hu, hg, hs, hf, hr, hm⟩ := ConverterView.mk.inj hv
      rw [← hr] at hrun
      rw [← hu] at hunit
      have hlent : s.unit ≠ .lent := by rcases hunit with h | h <;> rw [h] <;> nofun
      refine ⟨⟨?_, ?_, ?_, ?_, ?_, ?_⟩, (runInv_iff_of_not_running hrun).2 hm⟩ <;>
        simp [hunit, hlent, hg, hf, hs, hrun, htaken]
    | measuring hmeas =>
      obtain ⟨hu, hg, hs, hf, hr, hm⟩ := ConverterView.mk.inj hv
      refine ⟨⟨?_, ?_, ?_, ?_, ?_, ?_⟩, (runInv_iff_of_running hr).2 ⟨hmeas, hm⟩⟩ <;> simp [hu, hg, hf, hs, hr]

/-! ## Moves of the converter -/

theorem samples_pos (o : Oversample) : 0 < o.samples := by cases o <;> decide

section
variable {v : ConverterView}

/-- With the unit IDLE nothing is in flight, no run measures and no channel is marked. -/
theorem ConverterOk.of_idle (h : ConverterOk v) (hu : v.unit = .idle) :
    v.run.NotRunning ∧ v = ⟨.idle, .scan, v.selection, none, v.run, unmarked⟩ := by
  cases h with
  | idle sel hrun => exact ⟨hrun, rfl⟩
  | converting sel hunit => rcases hunit with rfl | rfl <;> nomatch hu
  | measuring => nomatch hu

/-- While a run measures, the converter is lent to it and its entry alone is marked. -/
theorem ConverterOk.of_running {sc : Scope} {m : Measurement} (h : ConverterOk v) (hr : v.run = .running sc m) :
    MeasurementOk sc m ∧ v = ⟨.lent, .cal, none, none, .running sc m, m.entry.mark⟩ := by
  cases h with
  | measuring hm => cases hr; exact ⟨hm, rfl⟩
  | idle sel hrun => exact absurd hr (hrun sc m)
  | converting sel hunit htaken hrun => exact absurd hr (hrun sc m)

/-- A run that does not measure is requested or given up without the converter (R146, R155). -/
theorem ConverterOk.rerun {run : CalRun} (h : ConverterOk v) (hv : v.run.NotRunning) (hr : run.NotRunning) :
    ConverterOk { v with run := run } := by
  cases h with
  | idle sel hrun => exact .idle sel hr
  | converting sel hunit htaken hrun => exact .converting sel hunit htaken hr
  | measuring => exact absurd rfl (hv _ _)

/-- The conversion in flight changes in what the converter does not see of it, as when it is superseded (R88). -/
theorem ConverterOk.reflight {f : Conversion → Conversion} (h : ConverterOk v)
    (hf : ∀ k, (f k).taken = k.taken ∧ (f k).oversample = k.oversample) :
    ConverterOk { v with flight := v.flight.map f } := by
  cases h with
  | idle sel hrun => exact .idle sel hrun
  | @converting u sel k run hunit htaken hrun =>
    obtain ⟨htaken', hover⟩ := hf k
    exact .converting sel hunit (by rw [htaken', hover]; exact htaken) hrun
  | measuring hm => exact .measuring hm

/-- A conversion starts on the idle unit (R76, R77). -/
theorem ConverterOk.start {u : UnitState} {k : Conversion} (h : ConverterOk v) (hv : v.unit = .idle)
    (hu : u = .settling ∨ u = .sampling) (sel : Selection) (hk : k.taken < k.oversample.samples) :
    ConverterOk { v with unit := u, selection := some sel, flight := some k } := by
  obtain ⟨hrun, hv⟩ := h.of_idle hv
  rw [hv]
  exact .converting sel hu hk hrun

/-- The settling ends (R77). -/
theorem ConverterOk.settle (h : ConverterOk v) (hu : v.unit = .settling) :
    ConverterOk { v with unit := .sampling } := by
  cases h with
  | converting sel hunit htaken hrun => exact .converting sel (.inr rfl) htaken hrun
  | idle | measuring => nomatch hu

/-- A sample is taken with samples still to come (R79). -/
theorem ConverterOk.sample {k k' : Conversion} (h : ConverterOk v) (hk : v.flight = some k)
    (hk' : k'.taken < k'.oversample.samples) : ConverterOk { v with flight := some k' } := by
  cases h with
  | converting sel hunit htaken hrun => exact .converting sel hunit hk' hrun
  | idle | measuring => nomatch hk

/-- A conversion completes (R84). -/
theorem ConverterOk.land {k : Conversion} (h : ConverterOk v) (hk : v.flight = some k) :
    ConverterOk { v with unit := .idle, flight := none } := by
  cases h with
  | converting sel hunit htaken hrun => exact .idle _ hrun
  | idle | measuring => nomatch hk

/-- The measurement of an entry goes on (R149, R151). -/
theorem ConverterOk.remeasure {sc : Scope} {m m' : Measurement} (h : ConverterOk v) (hr : v.run = .running sc m)
    (he : m'.entry = m.entry) (hm : MeasurementOk sc m') : ConverterOk { v with run := .running sc m' } := by
  obtain ⟨-, hv⟩ := h.of_running hr
  rw [hv, ← he]
  exact .measuring hm
end

/-- The converter released: nothing in flight, no run measuring, no channel marked. -/
theorem converterOk_of_released {sel : Option Selection} {run : CalRun} {marks : ChannelId → Bool}
    (h : s.converter = ⟨.idle, .scan, sel, none, run, marks⟩) (hr : run.NotRunning) (hm : marks = unmarked) :
    s.ConverterOk := by
  unfold State.ConverterOk
  rw [h, hm]
  exact .idle sel hr

/-- Nothing that the converter sees changes. -/
theorem State.ConverterOk.same (h : s.ConverterOk) (hc : t.converter = s.converter) : t.ConverterOk := by
  unfold State.ConverterOk; rwa [hc]

theorem MeasurementOk.start {sc : Scope} {e : CalEntry} {ph : CalPhase} (earlier : Int) (he : e ∈ sc.entries)
    (hp : e.hasPhase ph) : MeasurementOk sc (.start e ph earlier) :=
  ⟨he, hp, Nat.zero_lt_succ 63, fun _ => rfl⟩

/-- The second measurement of an entry follows on the first one of its kind (R149, R151). -/
theorem CalEntry.hasPhase.second {e : CalEntry} {ph ph' : CalPhase} (h : e.hasPhase ph)
    (hph : (ph = .zero ∧ ph' = .reference) ∨ (ph = .plus ∧ ph' = .minus)) : e.hasPhase ph' := by
  rcases hph with ⟨rfl, rfl⟩ | ⟨rfl, rfl⟩ <;> cases e
  · exact .inr rfl
  · rcases h with h | h <;> nomatch h
  · rcases h with h | h <;> nomatch h
  · exact .inr rfl

/-- The mark of an output channel goes up alone (R150). -/
theorem update_unmarked (ch : ChannelId) : Function.update unmarked ch true = (CalEntry.output ch).mark := by
  funext c; simp [Function.update_apply, CalEntry.mark, unmarked, eq_comm]

/-- The mark of the entry measured is the only one, and taken down it leaves none (R152, R155). -/
theorem update_mark (ch : ChannelId) : Function.update (CalEntry.output ch).mark ch false = unmarked := by
  funext c
  by_cases h : c = ch
  · rw [h, Function.update_self]; rfl
  · rw [Function.update_of_ne h]; simp [CalEntry.mark, unmarked, Ne.symm h]

theorem mark_input (r : RangeCode) : (CalEntry.input r).mark = unmarked := by funext c; simp [CalEntry.mark, unmarked]

/-- The entries that come up find the converter lent and no channel marked: one of them is measured, or the run ends and
the converter is released (R148, R150, R153). -/
theorem converterOk_beginEntries {sc : Scope} {l : List CalEntry} {run : CalRun} (hl : ∀ e ∈ l, e ∈ sc.entries)
    (h : s.converter = ⟨.lent, .cal, none, none, run, unmarked⟩) : (State.beginEntries sc l s).ConverterOk := by
  induction l generalizing s with
  | nil =>
    obtain ⟨-, -, -, hf, -, hm⟩ := ConverterView.mk.inj h
    have hended : (State.beginEntries sc [] s).converter = ⟨.idle, .scan, none, s.inFlight, .idle, s.marks⟩ := rfl
    exact converterOk_of_released (run := .idle) (hended.trans (by rw [hf])) nofun hm
  | cons e l ih =>
    have he : e ∈ sc.entries := hl e List.mem_cons_self
    cases e with
    | input r =>
      have hbegun : (State.beginEntries sc (.input r :: l) s).converter =
          { s.converter with run := .running sc (.start (.input r) .zero 0) } := rfl
      unfold State.ConverterOk
      rw [hbegun, h, ← mark_input r]
      exact .measuring (.start 0 he (.inl rfl))
    | output c =>
      unfold State.beginEntries
      split
      · exact ih (fun e he => hl e (List.mem_cons_of_mem _ he)) h
      · have hbegun : State.converter { s.setUnderCal c true with calRun := .running sc (.start (.output c) .plus 0) } =
            { (s.setUnderCal c true).converter with run := .running sc (.start (.output c) .plus 0) } := rfl
        unfold State.ConverterOk
        rw [hbegun, converter_setUnderCal, h, update_unmarked]
        exact .measuring (.start 0 he (.inl rfl))

/-- The entries behind one of a scope are entries of the scope. -/
theorem mem_entries_of_mem_after {sc : Scope} {e x : CalEntry} (h : x ∈ sc.after e) : x ∈ sc.entries :=
  (List.dropWhile_sublist _).subset (List.mem_of_mem_tail h)

/-- An entry's end takes its mark down and lets the entries behind it come up (R149, R152). -/
theorem converterOk_finishEntry {sc : Scope} {m : Measurement} (h : s.ConverterOk) (hr : s.calRun = .running sc m)
    (x : Coefficients) : (s.finishEntry sc m.entry x).ConverterOk := by
  obtain ⟨-, hv⟩ := h.of_running hr
  have hafter : ∀ e ∈ sc.after m.entry, e ∈ sc.entries := fun e => mem_entries_of_mem_after
  unfold State.finishEntry
  cases he : m.entry with
  | input r =>
    rw [he] at hafter hv
    exact converterOk_beginEntries (run := s.calRun) hafter (hv.trans (by rw [mark_input, hr]))
  | output c =>
    rw [he] at hafter hv
    refine converterOk_beginEntries (run := s.calRun) hafter ?_
    have hentered : ((s.setCalEntry (.output c) x).setCalResult (.output c) (measuredResult x)).converter =
        s.converter := rfl
    rw [converter_setUnderCal, hentered, hv, hr, update_mark]

/-- An abort takes the entry's mark down and releases the converter (R155). -/
theorem converterOk_abortRunning {sc : Scope} {m : Measurement} (h : s.ConverterOk) (hr : s.calRun = .running sc m) :
    (s.abortRunning m).ConverterOk := by
  obtain ⟨-, hv⟩ := h.of_running hr
  obtain ⟨-, -, -, hf, -, hm⟩ := ConverterView.mk.inj hv
  have hended : (s.abortRunning m).converter = ⟨.idle, .scan, none, s.inFlight, .idle, (s.abortRunning m).marks⟩ := by
    rw [abortRunning_frame]; rfl
  have hmarks : (s.abortRunning m).marks = unmarked := by
    unfold State.abortRunning
    cases he : m.entry with
    | input r => rw [he] at hm; exact hm.trans (mark_input r)
    | output c =>
      rw [he] at hm
      exact (marks_setUnderCal s c false).trans (by rw [hm, update_mark])
  exact converterOk_of_released (run := .idle) (hended.trans (by rw [hf])) nofun hmarks

/-- A MODIFY leaves the converter, but that it may supersede the conversion in flight (R88). -/
theorem converterOk_modifyInput (h : s.ConverterOk) (i : SlotId) (r : PointRecord) (c : InputConfig) (v : ValuePart)
    (c' : InputConfig) : (s.modifyInput i r c v c').ConverterOk := by
  have hv : (s.modifyInput i r c v c').converter =
      { s.converter with flight := (s.modifyInput i r c v c').inFlight } := by
    rw [modifyInput_frame]; rfl
  have hflight : ∃ f : Conversion → Conversion, (∀ k, (f k).taken = k.taken ∧ (f k).oversample = k.oversample) ∧
      (s.modifyInput i r c v c').inFlight = s.inFlight.map f := by
    unfold State.modifyInput
    dsimp only
    simp only [raise_inFlight, apply_ite State.inFlight, unqueue_inFlight, ite_self]
    split
    · refine ⟨_, fun k => ?_, rfl⟩
      split <;> exact ⟨rfl, rfl⟩
    · exact ⟨id, fun k => ⟨rfl, rfl⟩, (Option.map_id_apply ..).symm⟩
  obtain ⟨f, hf, he⟩ := hflight
  unfold State.ConverterOk
  rw [hv, he]
  exact h.reflight hf

/-- Every edit keeps the accord. -/
theorem converterOk_of_edit (h : Edit s t) (hi : s.ConverterOk) : t.ConverterOk := by
  cases h with
  | defineOutput => exact hi.same (converter_of_marks rfl (marks_of_put rfl rfl))
  | modifyInput => exact converterOk_modifyInput hi ..
  | modifyOutput => exact hi.same (converter_writeOutput ..)
  | hold => exact hi.same (by rw [holdPoint_frame]; rfl)
  | release => exact hi.same (converter_releasePoint ..)
  | retire => exact hi.same (converter_retirePoint ..)
  | stage => exact hi.same (converter_writeOutput ..)
  | commit => exact hi.same (converter_mapRecords ..)
  | calibrate sc hr => exact hi.rerun (run := .waiting sc) (by rw [State.converter, hr]; nofun) nofun
  | cancel hr => exact hi.rerun (run := .idle) (by rw [State.converter, hr]; nofun) nofun
  | abort hr => exact converterOk_abortRunning hi hr
  | startSave => exact hi.same (by rw [startSave_frame]; rfl)
  | softReset =>
    refine converterOk_of_released (run := .idle) rfl nofun ?_
    funext c
    exact congrArg Channel.underCal (get_mapTable Channel.softReset s.channels c)
  | none | defineInput | configure | unlist | deviceAck | discard => exact hi

/-- Every move keeps the accord. -/
theorem converterOk_of_move (h : Move s t) (hi : s.ConverterOk) : t.ConverterOk := by
  cases h with
  | ports h => exact hi.same (by rw [h.only]; rfl)
  | answer p f he => exact (converterOk_of_edit he hi).same (by rw [placeResponse_eq_withPorts]; rfl)
  | reset =>
    refine converterOk_of_released (run := .idle) rfl nofun ?_
    funext c
    exact congrArg Channel.underCal (channel_reset c)
  | @lend sc hu hr =>
    obtain ⟨-, hv⟩ := hi.of_idle hu
    have hlent : State.converter { s with unit := .lent, convGrant := .cal, selection := none } =
        { s.converter with unit := .lent, grant := .cal, selection := none } := rfl
    exact converterOk_beginEntries (fun _ => id) (hlent.trans (by rw [hv]))
  | @start e rest tag st c v hu =>
    refine ConverterOk.start hi hu ?_ ⟨c.source, c.range⟩ (samples_pos c.oversample)
    unfold State.startConversion
    dsimp only
    split
    · exact .inr rfl
    · exact .inl rfl
  | settled hu => exact ConverterOk.settle hi hu
  | @sample k sel input hu hk hsel hn => exact ConverterOk.sample hi hk hn
  | @complete k sel input hu hk =>
    have hlanded : (s.complete (k.addSample sel.range (converterCode sel.range input)) sel.range).converter =
        { s.converter with unit := .idle, flight := none } := by
      rw [complete_frame]; rfl
    unfold State.ConverterOk
    rw [hlanded]
    exact hi.land hk
  | ramp => exact hi.same (converter_mapRecords ..)
  | load => exact hi.same (by rw [loadTable_frame]; rfl)
  | expiry => exact hi.same (by rw [takeExpiry_frame]; rfl)
  | calSettled hr =>
    obtain ⟨hm, -⟩ := hi.of_running hr
    exact hi.remeasure hr rfl ⟨hm.inScope, hm.phase, hm.samples, nofun⟩
  | @calSample sc m sum hr hset hn =>
    obtain ⟨hm, -⟩ := hi.of_running hr
    exact hi.remeasure hr rfl ⟨hm.inScope, hm.phase, Nat.succ_lt_succ hn, fun h => nomatch hset.symm.trans h⟩
  | @calSecond sc m ph earlier hr _ _ hph =>
    obtain ⟨hm, -⟩ := hi.of_running hr
    exact hi.remeasure hr rfl (.start earlier hm.inScope (hm.phase.second hph))
  | calEnd hr => exact converterOk_finishEntry hi hr _
  | erased => exact hi.same (by rw [setBank_frame]; rfl)
  | record => exact hi.same (by rw [writeRecord_frame]; rfl)
  | marked => exact hi.same (by rw [setBank_frame]; rfl)
  | endReset | pulse | classTick => exact hi

/-- Settles O55: every move keeps the converter, the run and the marks of one accord. -/
theorem converterKept : Obligations.ConverterKept := fun _ _ hc hr h =>
  converterOk_iff.2 (step_keeps (P := State.ConverterOk) (fun _ _ h => h) (fun _ _ h m => converterOk_of_move m h)
    (converterOk_iff.1 ⟨hc, hr⟩) h)

end Sys2Proof.Machine
end

section
/-! PROOF. The converter at work: whom a grant serves, the end of settling, a sample below the last, and the last sample
with its result written, discarded, or freeing a RETIRING slot (R73 to R86). -/

namespace Sys2Proof.Machine

variable {s : State} {k : Conversion} {sel : Selection} {r : RangeCode} {c : InputConfig} {v : ValuePart}

/-! ## The grant (R73, R76, R148) -/

theorem exec_grant_lends {sc : Scope} (hu : s.unit = .idle) (hr : s.calRun = .waiting sc) :
    exec .grant s = .next (s.lend sc) := by
  change execGrant s = _
  rw [execGrant, if_neg (by simp [hu]), hr]

theorem exec_grant_starts {e : QueueEntry} {rest : List QueueEntry} {tag : Nat} {st : SlotState}
    (hu : s.unit = .idle) (hr : ∀ sc, s.calRun ≠ .waiting sc) (hq : s.queue = e :: rest)
    (hs : s.slot e.slot = some ⟨tag, st, .input c v⟩) :
    exec .grant s = .next (s.startConversion e rest c) := by
  change execGrant s = _
  rw [execGrant, if_neg (by simp [hu]), hq]
  cases h : s.calRun with
  | idle | running => simp only [hs]
  | waiting sc => exact absurd h (hr sc)

theorem exec_grant_of_no_claim (h : s.unit ≠ .idle ∨ (s.queue = [] ∧ ∀ sc, s.calRun ≠ .waiting sc)) :
    exec .grant s = .next s := by
  change execGrant s = _
  unfold execGrant
  split
  · rfl
  next hu =>
  obtain ⟨hq, hr⟩ := h.resolve_left hu
  rw [hq]
  cases h : s.calRun with
  | idle | running => rfl
  | waiting sc => exact absurd h (hr sc)

/-- Settles O33: a WAITING run is lent the converter, else the head of the queue starts, else nothing happens. -/
theorem grantServesClaim : Obligations.GrantServesClaim := by
  intro s
  refine ⟨fun sc hu hr => ?_, fun e rest tag st c v hu hr hq hs => ?_, exec_grant_of_no_claim⟩
  · exact ⟨_, exec_grant_lends hu hr, entriesBegin_beginEntries _ _ _⟩
  · exact exec_grant_starts hu hr hq hs

/-! ## Samples (R77, R79, R80) -/

/-- A saturation code is an end of the range, the lower end of a unipolar range excepted (R80). -/
theorem saturates_iff {code : Int} : saturates r code = true ↔ code = codeMax r ∨ (r.val < 4 ∧ code = -32768) := by
  by_cases h : r.val < 4
  · simp [saturates, codeMax, bipolar, h, or_comm]
  · simp [saturates, codeMax, bipolar, h]

theorem exec_sample (input : Int) (hu : s.unit = .sampling) (hk : s.inFlight = some k) (hsel : s.selection = some sel) :
    exec (.sample input) s = .next (s.takeSample k sel.range input) := by
  change execSample input s = _
  rw [execSample, if_pos hu, hk, hsel]

theorem exec_sample_of_not_sampling (input : Int) (hu : s.unit ≠ .sampling) : exec (.sample input) s = .next s := by
  change execSample input s = _
  rw [execSample, if_neg hu]

theorem exec_settleEnd (s : State) :
    exec .settleEnd s = .next (if s.unit = .settling then { s with unit := .sampling } else s) := rfl

/-- A sample below the N-th is added (R79). -/
theorem takeSample_adds {input : Int} (h : k.taken + 1 < k.oversample.samples) :
    s.takeSample k r input = { s with inFlight := some (k.addSample r (converterCode r input)) } :=
  if_neg (Nat.not_le.2 h)

/-- The N-th sample completes the conversion (R84). -/
theorem takeSample_completes {input : Int} (h : k.oversample.samples ≤ k.taken + 1) :
    s.takeSample k r input = s.complete (k.addSample r (converterCode r input)) r := if_pos h

/-- Settles O34: settling ends in SAMPLING, and a sample below the last is added with its saturation marked. -/
theorem settleAndSample : Obligations.SettleAndSample := by
  intro s input code
  refine ⟨fun hu => ?_, fun hu => ?_, exec_sample_of_not_sampling input, fun k sel hu hk hsel hn hcode => ?_⟩
  · rw [exec_settleEnd, if_pos hu]
  · rw [exec_settleEnd, if_neg hu]
  · have hconverted : converterCode sel.range input = code := hcode.symm
    have hmark : saturates sel.range code =
        decide (code = codeMax sel.range ∨ (sel.range.val < 4 ∧ code = -32768)) := by
      rw [Bool.eq_iff_iff, decide_eq_true_iff, saturates_iff]
    rw [exec_sample input hu hk hsel, takeSample_adds hn, hconverted, Conversion.addSample, hmark]

/-! ## What a completion hands over (R79, R81, R82, R93, R104) -/

/-- The mean rounded toward negative infinity is the raw code between whose multiples the sum lies (R79). -/
theorem rawCode_eq {sum raw : Int} {o : Oversample} (hlo : raw * o.samples ≤ sum) (hhi : sum < (raw + 1) * o.samples) :
    rawCode sum o = raw := by
  have hpos : (0 : Int) < o.samples := by exact_mod_cast samples_pos o
  exact le_antisymm (Int.lt_add_one_iff.1 (Int.ediv_lt_of_lt_mul hpos hhi)) (Int.le_ediv_of_mul_le hpos hlo)

/-- A VALID entry corrects the raw code within the range, an INVALID one leaves it (R81, R82). -/
theorem correctedCode_eq {e : Coefficients} {raw corrected : Int}
    (hvalid : ∀ o g x, e = .valid o g → x = ((raw - o) * g).tdiv 32768 →
      corrected = (if x < codeMin r then codeMin r else if codeMax r < x then codeMax r else x))
    (hinvalid : e = .invalid → corrected = raw) : correctedCode e r raw = corrected := by
  cases e with
  | invalid => exact (hinvalid rfl).symm
  | valid o g => exact (hvalid o g _ rfl rfl).symm

theorem conditionOf_eq (e : Coefficients) (b : Bool) :
    conditionOf e b = if e = .invalid then .uncal else if b = true then .overrange else .normal := by
  cases e <;> rfl

/-- A written result has the quality of its condition: it has a value and missed no pass (R14, R93). -/
theorem qualityOf_writtenPart (x : Int) (cond : Condition) :
    (cond = .uncal → qualityOf .active (writtenPart c v x cond) = .uncal) ∧
    (cond = .overrange → qualityOf .active (writtenPart c v x cond) = .overrange) ∧
    (cond = .normal → qualityOf .active (writtenPart c v x cond) = .good) := by
  refine ⟨?_, ?_, ?_⟩ <;> rintro rfl <;> rfl

/-- A written result raises LIMIT when the limit state moves, and QUALITY when the point enters UNCAL or OVERRANGE
(R15, R104). -/
theorem reasonsOf_writtenPart (x : Int) (cond : Condition) :
    reasonsOf .active v (writtenPart c v x cond) =
      ⟨decide (evalLimit c v.limitState (scaledValue c.scaling x) ≠ v.limitState),
        decide ((cond = .uncal ∧ qualityOf .active v ≠ .uncal) ∨
          (cond = .overrange ∧ qualityOf .active v ≠ .overrange))⟩ := by
  obtain ⟨huncal, hover, hgood⟩ := qualityOf_writtenPart (c := c) (v := v) x cond
  unfold reasonsOf
  congr 1
  · rw [Bool.eq_iff_iff, decide_eq_true_iff, bne_iff_ne]
    exact ne_comm
  · rw [Bool.eq_iff_iff, decide_eq_true_iff]
    cases cond with
    | uncal => rw [huncal rfl]; simp [qualityRaises]
    | overrange => rw [hover rfl]; simp [qualityRaises]
    | normal => rw [hgood rfl]; simp [qualityRaises]

/-! ## Completions (R84, R85, R93) -/

/-- A wanted result for an ACTIVE point is written, with one raise (R93, R105). -/
theorem deliver_writes {i : SlotId} {tag : Nat} (hs : s.slot i = some ⟨tag, .active, .input c v⟩) (x : Int)
    (cond : Condition) :
    s.deliver i false x cond =
      { s with
        slots := put s.slots i (some ⟨tag, .active, .input c (writtenPart c v x cond)⟩)
        attention := (s.raise i (reasonsOf .active v (writtenPart c v x cond))).attention } := by
  simp only [State.deliver, hs, Bool.false_eq_true, if_false, State.raise]
  split <;> rfl

/-- A result for a HELD point, or of a superseded conversion of a point that stays, is discarded (R85). -/
theorem deliver_discards {i : SlotId} {tag : Nat} {st : SlotState} {b : Bool}
    (hs : s.slot i = some ⟨tag, st, .input c v⟩) (hst : st ≠ .retiring) (h : b = true ∨ st ≠ .active) (x : Int)
    (cond : Condition) : s.deliver i b x cond = s := by
  cases st with
  | active => simp only [State.deliver, hs, h.resolve_right (· rfl), if_true]
  | held => simp only [State.deliver, hs]
  | retiring => exact absurd rfl hst

/-- The completion of a RETIRING point frees its slot and gives back its claims (R5, R22, R85). -/
theorem deliver_frees {i : SlotId} {tag : Nat} (hs : s.slot i = some ⟨tag, .retiring, .input c v⟩) (b : Bool)
    (x : Int) (cond : Condition) :
    s.deliver i b x cond =
      { s with slots := put s.slots i none, pinClaims := giveClaims s.pinClaims c.source } := by
  simp only [State.deliver, hs]
  rfl

/-- A completion hands over the corrected code with its condition, lowers the count of its class and leaves the unit
IDLE (R84). -/
theorem complete_eq {corrected : Int} {cond : Condition}
    (hcorrected : correctedCode (s.calEntry (.input r)) r (rawCode k.sum k.oversample) = corrected)
    (hcond : conditionOf (s.calEntry (.input r)) k.overrange = cond) :
    s.complete k r =
      { (s.deliver k.slot k.superseded corrected cond).lowerOutstanding k.passClass with
        inFlight := none, unit := .idle } := by
  subst hcorrected hcond
  rfl

/-- Settles O35: the result written with its condition, one raise with the reasons, the class's count and the unit. -/
theorem writtenCompletion : Obligations.WrittenCompletion := by
  intro s input code raw corrected value k sel tag c v cond hu hk hsel hn hwanted hs hcode hlo hhi hvalid hinvalid hcond
    hvalue
  have hconverted : converterCode sel.range input = code := hcode.symm
  have hoverrange : (k.overrange || saturates sel.range code) = true ↔
      k.overrange = true ∨ code = codeMax sel.range ∨ (sel.range.val < 4 ∧ code = -32768) := by
    rw [Bool.or_eq_true, saturates_iff]
  have hcorrected : correctedCode (s.calEntry (.input sel.range)) sel.range (rawCode (k.sum + code) k.oversample) =
      corrected := by
    rw [rawCode_eq hlo hhi]; exact correctedCode_eq hvalid hinvalid
  have hcondition : conditionOf (s.calEntry (.input sel.range)) (k.overrange || saturates sel.range code) = cond := by
    rw [conditionOf_eq, hcond]; simp only [hoverrange]
  have hscaled : scaledValue c.scaling corrected = value := hvalue.symm
  rw [exec_sample input hu hk hsel, takeSample_completes hn, hconverted,
    complete_eq (k := k.addSample sel.range code) hcorrected hcondition, Conversion.addSample, hwanted,
    deliver_writes hs, reasonsOf_writtenPart, hscaled]
  refine ⟨_, rfl, rfl, ?_, (raised_raise s k.slot _).congr rfl rfl, classSet_of_put rfl⟩
  rw [← hscaled]
  exact slotSet_of_put rfl

/-- Settles O36: nothing written and nothing raised, a RETIRING slot freed with its claims, the class's count and the
unit. -/
theorem discardedCompletion : Obligations.DiscardedCompletion := by
  intro s input k sel tag st c v hu hk hsel hn hs hunwanted
  rw [exec_sample input hu hk hsel, takeSample_completes hn, complete_eq rfl rfl, Conversion.addSample]
  by_cases hst : st = .retiring
  · subst hst
    rw [deliver_frees hs]
    exact ⟨_, rfl, rfl, fun h => absurd rfl h, fun _ => ⟨slotSet_of_put rfl, get_giveClaims s.pinClaims c.source⟩,
      classSet_of_put rfl⟩
  · rw [deliver_discards hs hst hunwanted]
    exact ⟨_, rfl, rfl, fun _ => ⟨rfl, rfl⟩, fun h => absurd h hst, classSet_of_put rfl⟩

end Sys2Proof.Machine
end

section
/-! PROOF. The Attention List: every step keeps each slot in it once, only ACTIVE or HELD input points, each entry with a
reason and a change count of 1..15 (R112 to R116). -/

namespace Sys2Proof.Machine

variable {s t : State} {i : SlotId}

/-! ## The list and the slots that may stand in it -/

/-- A slot that may stand in the Attention List: an input record that is not RETIRING (R112). -/
def listable (x : Slot) : Bool :=
  x.any fun r => r.slotState != .retiring && match r.body with
    | .input _ _ => true
    | .output _ _ => false

theorem listable_iff {x : Slot} :
    listable x = true ↔ ∃ tag st c v, x = some ⟨tag, st, .input c v⟩ ∧ st ≠ .retiring := by
  rcases x with _ | ⟨tag, st, ⟨c, v⟩ | ⟨c, k⟩⟩ <;> simp [listable]

/-- The Attention List over the slots that may stand in it (R112, R113). -/
structure ListOk (list : List AttentionEntry) (may : SlotId → Bool) : Prop where
  nodup   : (list.map AttentionEntry.slot).Nodup
  entries : ∀ e ∈ list, e.reasons.any = true ∧ 1 ≤ e.count ∧ e.count ≤ 15
  listed  : ∀ e ∈ list, may e.slot = true

/-- The Attention List of a state is in order. -/
abbrev State.ListOk (s : State) : Prop := Machine.ListOk s.attention (s.view listable)

theorem attentionInv_iff : AttentionInv s ↔ s.ListOk := by
  constructor
  · intro ⟨hn, he, hl⟩; exact ⟨hn, he, fun e hm => listable_iff.2 (hl e hm)⟩
  · intro ⟨hn, he, hl⟩; exact ⟨hn, he, fun e hm => listable_iff.1 (hl e hm)⟩

section
variable {list : List AttentionEntry} {may may' : SlotId → Bool}

theorem ListOk.empty : ListOk [] may := ⟨.nil, nofun, nofun⟩

/-- Slots that still may stand in the list stay in it. -/
theorem ListOk.mono (h : ListOk list may) (hm : ∀ j, may j = true → may' j = true) : ListOk list may' :=
  ⟨h.nodup, h.entries, fun e he => hm _ (h.listed e he)⟩

theorem Reasons.any_join {a : Reasons} (b : Reasons) (h : a.any = true) : (a.join b).any = true := by
  rcases a with ⟨_ | _, _ | _⟩ <;> simp_all [Reasons.any, Reasons.join]

/-- A joined entry keeps a reason, and its change count stops at 15 (R115). -/
theorem AttentionEntry.join_ok {e : AttentionEntry} (r : Reasons) (h : e.reasons.any = true ∧ 1 ≤ e.count ∧ e.count ≤ 15) :
    (e.join r).reasons.any = true ∧ 1 ≤ (e.join r).count ∧ (e.join r).count ≤ 15 := by
  obtain ⟨hany, hlo, hhi⟩ := h
  refine ⟨Reasons.any_join r hany, ?_⟩
  have hcount : (e.join r).count = if 15 ≤ e.count then e.count else e.count + 1 := rfl
  rw [hcount]; split <;> omega

/-- A raise for a slot that may stand in the list joins its entry, or appends the one entry of the slot (R114, R115). -/
theorem ListOk.raise (h : ListOk list may) (hi : may i = true) {r : Reasons} (hr : r.any = true) :
    ListOk (raiseOn list i r) may := by
  unfold raiseOn
  split
  · have hslot : ∀ e : AttentionEntry, (if e.slot = i then e.join r else e).slot = e.slot := fun e => by split <;> rfl
    refine ⟨?_, fun x hx => ?_, fun x hx => ?_⟩
    · rw [List.map_map, show AttentionEntry.slot ∘ _ = AttentionEntry.slot from funext hslot]
      exact h.nodup
    · obtain ⟨e, he, rfl⟩ := List.mem_map.1 hx
      split
      · exact AttentionEntry.join_ok r (h.entries e he)
      · exact h.entries e he
    · obtain ⟨e, he, rfl⟩ := List.mem_map.1 hx
      rw [hslot]; exact h.listed e he
  · next hnone =>
    have hfresh : i ∉ list.map AttentionEntry.slot := by simpa using hnone
    refine ⟨?_, fun x hx => ?_, fun x hx => ?_⟩
    · rw [List.map_append, List.map_singleton]; simpa using h.nodup.concat hfresh
    · rcases List.mem_append.1 hx with he | he
      · exact h.entries x he
      · cases List.mem_singleton.1 he; exact ⟨hr, le_rfl, by simp⟩
    · rcases List.mem_append.1 hx with he | he
      · exact h.listed x he
      · cases List.mem_singleton.1 he; exact hi

/-- A slot taken out of the list may change as it likes (R116). -/
theorem ListOk.unlist (h : ListOk list may) (hm : ∀ j, j ≠ i → may j = true → may' j = true) :
    ListOk (list.filter fun e => e.slot != i) may' where
  nodup := h.nodup.sublist (List.filter_sublist.map _)
  entries e he := h.entries e (List.mem_filter.1 he).1
  listed e he := by
    obtain ⟨hmem, hne⟩ := List.mem_filter.1 he
    exact hm _ (bne_iff_ne.1 hne) (h.listed e hmem)
end

/-! ## The effects on the list -/

/-- The list depends on the attention and on the slots alone. -/
theorem State.ListOk.same (h : s.ListOk) (ha : t.attention = s.attention) (hv : t.view listable = s.view listable) :
    t.ListOk := by
  unfold State.ListOk; rwa [ha, hv]

/-- A slot rewritten may stand in the list if it might before. -/
theorem State.ListOk.put (h : s.ListOk) {x : Slot} (ha : t.attention = s.attention) (hs : t.slots = put s.slots i x)
    (hx : listable (s.slot i) = true → listable x = true) : t.ListOk := by
  unfold State.ListOk
  rw [ha, view_of_put listable hs]
  refine h.mono fun j hj => ?_
  by_cases hij : j = i
  · subst hij; rw [Function.update_self]; exact hx hj
  · rwa [Function.update_of_ne hij]

/-- A change of the records that leaves slot states and kinds leaves the list. -/
theorem State.ListOk.map (h : s.ListOk) {f : PointRecord → PointRecord} (ha : t.attention = s.attention)
    (hs : t.slots = mapTable (fun x => x.map f) s.slots) (hf : ∀ r, listable (some (f r)) = listable (some r)) :
    t.ListOk := h.same ha (view_of_map listable hs hf)

theorem State.ListOk.raise (h : s.ListOk) (hi : listable (s.slot i) = true) (r : Reasons) : (s.raise i r).ListOk := by
  have hv : (s.raise i r).view listable = s.view listable := view_of_slots _ (raise_slots ..)
  unfold State.ListOk
  rw [hv, State.raise]
  split
  · next hr => exact Machine.ListOk.raise h hi hr
  · exact h

/-- Raises for slots that may stand in the list. -/
theorem State.ListOk.raises (f : SlotId → Reasons) {l : List SlotId} (h : s.ListOk)
    (hl : ∀ i ∈ l, listable (s.slot i) = true) : (l.foldl (fun t i => t.raise i (f i)) s).ListOk := by
  induction l generalizing s with
  | nil => exact h
  | cons i l ih =>
    refine ih (h.raise (hl i (by simp)) _) fun j hj => ?_
    rw [State.slot, raise_slots]
    exact hl j (by simp [hj])

theorem listable_expireRecord (c : ClassId) (r : PointRecord) : listable (some (expireRecord c r)) = listable (some r) := by
  rcases expireRecord_cases c r with e | ⟨_, _, hb, e⟩ <;> simp [listable, *]

/-- The points of a class may stand in the list. -/
theorem listable_of_member {c : ClassId} (h : i ∈ s.members c) : listable (s.slot i) = true := by
  obtain ⟨tag, k, v, hs, -⟩ := scanAt_input.1 (scan_of_member h)
  exact listable_iff.2 ⟨tag, .active, k, v, hs, nofun⟩

/-- An expiry raises for points of its class (R55). -/
theorem listOk_takeExpiry (h : s.ListOk) (c : ClassId) : (s.takeExpiry c).ListOk := by
  have haccount : (s.account c).ListOk := by
    refine State.ListOk.raises _ (h.map rfl rfl (listable_expireRecord c)) fun i hi => ?_
    have hslot : State.slot { s with slots := mapTable (fun x => x.map (expireRecord c)) s.slots } i =
        (s.slot i).map (expireRecord c) := get_mapTable _ _ i
    obtain ⟨tag, st, k, v, hs, -⟩ := listable_iff.1 (listable_of_member hi)
    rw [hslot, hs, Option.map_some, listable_expireRecord, ← hs]
    exact listable_of_member hi
  unfold State.takeExpiry
  split
  · exact haccount.same rfl rfl
  · exact haccount.same rfl rfl

/-- A completion frees a RETIRING slot, which is not listed, or raises for an ACTIVE input point (R85, R93). -/
theorem listOk_deliver (h : s.ListOk) (i : SlotId) (b : Bool) (x : Int) (cond : Condition) :
    (s.deliver i b x cond).ListOk := by
  rcases hs : s.slot i with _ | ⟨tag, st, body⟩
  · simpa only [State.deliver, hs] using h
  cases st with
  | held => simpa only [State.deliver, hs] using h
  | retiring =>
    simp only [State.deliver, hs]
    exact h.put (freeSlot_attention ..) (freeSlot_slots ..) (by simp [hs, listable])
  | active =>
    cases body with
    | output c k => simpa only [State.deliver, hs] using h
    | input c v =>
      simp only [State.deliver, hs]
      split
      · exact h
      · exact (h.put (i := i) (setSlot_attention ..) (setSlot_slots ..) fun _ => rfl).raise
          (by rw [slot_setSlot_self]; rfl) _

/-- A MODIFY raises for the input point that it names (R39). -/
theorem listOk_modifyInput (h : s.ListOk) {r : PointRecord} {c : InputConfig} {v : ValuePart}
    (hst : r.slotState ≠ .retiring) (c' : InputConfig) : (s.modifyInput i r c v c').ListOk := by
  have hx : listable (some { r with body := .input c' (modifiedPart c c' v) }) = true := by simp [listable, hst]
  have hbase : (s.reconfigured i r c v c').ListOk := h.put rfl rfl fun _ => hx
  have hslot : (s.reconfigured i r c v c').slot i = some { r with body := .input c' (modifiedPart c c' v) } :=
    get_put_self _ _ _
  rw [modifyInput_eq]
  split
  · exact hbase.raise (by rw [hslot, hx]) _
  · refine State.ListOk.raise (hbase.same (unqueue_attention ..) (view_of_slots _ (unqueue_slots ..))) ?_ _
    rw [State.slot, unqueue_slots]
    exact (congrArg listable hslot).trans hx

/-! ## Every edit and every move -/

theorem listOk_of_edit (h : Edit s t) (hx : IndexOk s.tagIndex (s.view heldTag)) (hi : s.ListOk) : t.ListOk := by
  cases h with
  | none => exact hi
  | defineInput payload hf | defineOutput payload hf =>
    exact hi.put rfl rfl (by simp [((lowestFree_eq_some s).1 hf).1, listable])
  | modifyInput items hf =>
    obtain ⟨-, -, hst⟩ := (findPoint_eq_some hx).1 hf
    exact listOk_modifyInput hi hst _
  | modifyOutput items hf hb =>
    exact hi.put (by simp [State.modifyOutput]) (slots_modifyOutput ..) (by simp [slot_of_findPoint hf, listable, hb])
  | @hold tag i r hf =>
    have hr := slot_of_findPoint hf
    refine hi.put (by rw [holdPoint_frame]) (slots_holdPoint s hr) ?_
    rcases r with ⟨tag, _ | _ | _, ⟨c, v⟩ | ⟨c, k⟩⟩ <;> simp [hr, listable]
  | @release tag i r hf =>
    have hr := slot_of_findPoint hf
    refine hi.put (by rw [releasePoint_frame]) (slots_releasePoint s hr) ?_
    rcases r with ⟨tag, _ | _ | _, ⟨c, v⟩ | ⟨c, k⟩⟩ <;> simp [hr, listable]
  | @retire tag i r hf =>
    unfold State.ListOk
    rw [view_of_put listable (slots_retirePoint s i r), retirePoint_frame]
    exact hi.unlist fun j hj => by rw [Function.update_of_ne hj]; exact id
  | stage hf hb =>
    exact hi.put (by simp) (writeOutput_slots ..) (by simp [slot_of_findPoint hf, listable, hb])
  | commit u =>
    refine hi.map rfl rfl fun r => ?_
    rcases commitRecord_cases u r with e | ⟨_, _, hb, _, e⟩ <;> simp [listable, *]
  | discard u =>
    refine hi.map rfl rfl fun r => ?_
    rcases discardRecord_cases u r with e | ⟨_, _, hb, e⟩ <;> simp [listable, *]
  | unlist i => exact Machine.ListOk.unlist hi fun _ _ => id
  | softReset => exact .empty
  | configure | deviceAck | calibrate | cancel => exact hi
  | abort => exact hi.same (by rw [abortRunning_frame]) (view_of_slots _ (by rw [abortRunning_frame]))
  | startSave => exact hi.same (by rw [startSave_frame]) (view_of_slots _ (by rw [startSave_frame]))

theorem listOk_of_move (h : Move s t) (hx : IndexOk s.tagIndex (s.view heldTag)) (hi : s.ListOk) : t.ListOk := by
  cases h with
  | ports h => rw [h.only]; exact hi
  | answer p f he =>
    have := listOk_of_edit he hx hi
    rwa [placeResponse_eq_withPorts]
  | reset => exact .empty
  | expiry => exact listOk_takeExpiry hi _
  | complete => exact (listOk_deliver hi _ _ _ _).same rfl rfl
  | ramp =>
    refine hi.map rfl rfl fun r => ?_
    rcases rampRecord_cases r with e | ⟨_, _, hb, e⟩ <;> simp [listable, *]
  | load => exact hi.same (by rw [loadTable_frame]) (view_of_slots _ (by rw [loadTable_frame]))
  | lend => exact hi.same (by rw [lend_frame]) (view_of_slots _ (by rw [lend_frame]))
  | calEnd => exact hi.same (by rw [finishEntry_frame]) (view_of_slots _ (by rw [finishEntry_frame]))
  | record => exact hi.same (by rw [writeRecord_frame]) (view_of_slots _ (by rw [writeRecord_frame]))
  | erased => exact hi.same (by simp) (view_of_slots _ (by simp))
  | marked => exact hi.same (by simp [State.endSave]) (view_of_slots _ (by simp [State.endSave]))
  | endReset | pulse | classTick | start | settled | sample | calSettled | calSample | calSecond => exact hi

/-- Settles O58: every move keeps the Attention List, where the Tag Index leads to no RETIRING slot. -/
theorem attentionKept : Obligations.AttentionKept := fun _ _ hx ha h =>
  step_keeps (P := fun s => IndexInv s ∧ AttentionInv s)
    (fun _ _ ⟨hx, ha⟩ => ⟨⟨hx.sorted, hx.inRange, hx.exact⟩, ha.nodup, ha.entries, ha.listed⟩)
    (fun _ _ ⟨hx, ha⟩ m => attentionInv_iff.2 (listOk_of_move m (indexInv_iff.1 hx) (attentionInv_iff.1 ha)))
    ⟨hx, ha⟩ h

end Sys2Proof.Machine
end

section
/-! PROOF. PEEK and ACK: the bytes they return, read at their offsets, and what an acknowledgement removes (R117 to R121). -/

namespace Sys2Proof

/-- Four flags in a byte, read back bit by bit. -/
theorem getLsbD_flags (a b c d : Bool) :
    let x : Byte := BitVec.ofNat 8 ((if a then 1 else 0) + (if b then 2 else 0) + (if c then 4 else 0) + (if d then 8 else 0))
    x.toNat < 16 ∧ x.getLsbD 0 = a ∧ x.getLsbD 1 = b ∧ x.getLsbD 2 = c ∧ x.getLsbD 3 = d := by
  revert a b c d; decide

namespace Machine

variable {s : State} {payload : List Byte}

/-- The device events byte shows exactly the members of the set (11.4). -/
theorem eventBits_code (e : DeviceEvents) : EventBits (BitVec.ofNat 8 e.code) e := getLsbD_flags ..

theorem reasonsCode_lt (r : Reasons) : r.code < 256 := by rcases r with ⟨_ | _, _ | _⟩ <;> decide

theorem limitStateCode_lt (x : LimitState) : x.code < 256 := by cases x <;> decide

/-! ## PEEK (R117) -/

/-- The list holds at most one entry for each of the 64 slots. -/
theorem attention_length_le (h : AttentionInv s) : s.attention.length ≤ 64 := by
  simpa using h.nodup.length_le_card

theorem peekPayload_of_empty (h : s.attention = []) :
    peekPayload s = putBool true ++ (put16 0 ++ (put8 0 ++ (put8 0 ++ (put8 0 ++ (put8 0 ++ (put8 0 ++
      put8 s.events.code)))))) := by
  simp only [peekPayload, h, List.append_assoc]

theorem peekPayload_of_head {e : AttentionEntry} {rest : List AttentionEntry} {tag : Nat} {st : SlotState}
    {c : InputConfig} {v : ValuePart} (h : s.attention = e :: rest) (hs : s.slot e.slot = some ⟨tag, st, .input c v⟩) :
    peekPayload s = putBool false ++ (put16 tag ++ (put8 e.reasons.code ++ (put8 e.count ++
      (put8 (qualityOf st v).code ++ (put8 v.limitState.code ++ (put8 (rest.length + 1) ++ put8 s.events.code)))))) := by
  simp only [peekPayload, h, hs, peekPoint, List.length_cons, List.append_assoc]

/-- A listed point's tag is one that the Tag Index holds, so it lies in 1..65534 (R16). -/
theorem tag_le_of_held (hx : IndexInv s) {i : SlotId} {r : PointRecord} (hr : s.slot i = some r)
    (hst : r.slotState ≠ .retiring) : r.tag ≤ 65534 :=
  (hx.inRange ⟨r.tag, i⟩ ((hx.exact r.tag i).2 ⟨r, hr, rfl, hst⟩)).2

/-- Settles O39: each field is read at its offset as it was put, of an empty list and of the head entry. -/
theorem peekShowsHead : Obligations.PeekShowsHead := by
  intro s p id payload hs hx ha
  refine ⟨fun h => onlyAnswers_of_refuse (k := .peek) hs (if_pos (mt List.length_eq_zero_iff.1 h)), ?_⟩
  rintro rfl
  refine ⟨peekPayload s, onlyAnswers_of_done (k := .peek) hs rfl, ?_⟩
  rcases hlist : s.attention with _ | ⟨e, rest⟩
  · rw [peekPayload_of_empty hlist]
    exact ⟨rfl, eventBits_code _, fun _ => ⟨rfl, u16_put16_nat (n := 0) (by decide), rfl, rfl, rfl, rfl, rfl⟩, nofun⟩
  · have hmem : e ∈ s.attention := by rw [hlist]; exact List.mem_cons_self
    obtain ⟨tag, st, c, v, hslot, hst⟩ := ha.listed e hmem
    obtain ⟨-, -, hcount⟩ := ha.entries e hmem
    have hlength : rest.length + 1 ≤ 64 := by simpa [hlist] using attention_length_le ha
    have htag : tag ≤ 65534 := tag_le_of_held hx hslot hst
    rw [peekPayload_of_head hlist hslot]
    refine ⟨rfl, eventBits_code _, nofun, ?_⟩
    rintro _ _ ⟨⟩
    exact ⟨rfl, u8_put8 (reasonsCode_lt _), u8_put8 (by omega), u8_put8 (by omega), tag, st, c, v, hslot,
      u16_put16_nat (by omega), u8_put8 (qualityCode_lt _), u8_put8 (limitStateCode_lt _)⟩

/-! ## ACK of a point (R118) -/

section
variable {i : SlotId} {r : PointRecord}

theorem requestAck_of_not_listed (hn : Names s payload 2 i r) (h : s.attentionAt i = none) :
    requestAck payload s = .refuse .notPending [] := by
  obtain ⟨hl, h1, h2, hf⟩ := hn
  rw [requestAck, if_neg (by simp [hl]), if_neg (by omega), if_neg (by omega), hf]
  simp only [h]

theorem requestAck_of_listed (hn : Names s payload 2 i r) {e : AttentionEntry} (h : s.attentionAt i = some e) :
    requestAck payload s = .done (s.unlist i) (put8 e.reasons.code ++ put8 e.count) := by
  obtain ⟨hl, h1, h2, hf⟩ := hn
  rw [requestAck, if_neg (by simp [hl]), if_neg (by omega), if_neg (by omega), hf]
  simp only [h]
end

/-! ## ACK of the device (R121) -/

theorem requestAck_of_device (hl : payload.length = 2) (h : u16 payload 0 = 0) :
    requestAck payload s = .done s.deviceAck (deviceAckPayload s) := by
  rw [requestAck, if_neg (by simp [hl]), if_neg (by omega), if_pos h]

theorem scanClass_deviceAck (s : State) (c : ClassId) :
    s.deviceAck.scanClass c = { s.scanClass c with overrun := false } := get_mapTable _ _ _

/-- The overrun flags byte shows the flag of class c at bit c. -/
theorem overrunFlags_bits (s : State) :
    (BitVec.ofNat 8 (overrunFlags s)).toNat < 16 ∧
      ∀ c : ClassId, (BitVec.ofNat 8 (overrunFlags s)).getLsbD c.val = (s.scanClass c).overrun := by
  obtain ⟨hlt, h0, h1, h2, h3⟩ := getLsbD_flags (s.scanClass 0).overrun (s.scanClass 1).overrun (s.scanClass 2).overrun
    (s.scanClass 3).overrun
  refine ⟨hlt, fun c => ?_⟩
  match c with
  | 0 => exact h0
  | 1 => exact h1
  | 2 => exact h2
  | 3 => exact h3

theorem putResults_eq (v : Vector EntryResult 12) : putResults v = v.toList.map fun r => BitVec.ofNat 8 r.code :=
  List.map_eq_flatMap.symm

@[simp] theorem length_putResults (v : Vector EntryResult 12) : (putResults v).length = 12 := by simp [putResults_eq]

theorem entryResultCode_lt (r : EntryResult) : r.code < 256 := by cases r <;> decide

/-- The result of entry e stands at byte e. -/
theorem u8_putResults (v : Vector EntryResult 12) (e : Fin 12) : u8 (putResults v) e.val = (v.get e).code := by
  simp [u8, byteAt, putResults_eq, Nat.mod_eq_of_lt (entryResultCode_lt _), Vector.get]

@[simp] theorem length_putCalDone (x : Option RunResult) : (putCalDone x).length = 13 := by
  cases x <;> simp [putCalDone]

@[simp] theorem length_putSaveDone (x : Option SaveResult) : (putSaveDone x).length = 1 := by cases x <;> rfl

theorem deviceAckPayload_eq (s : State) : deviceAckPayload s = put8 s.events.code ++ (putCalDone s.events.calDone ++
    (putSaveDone s.events.saveDone ++ put8 (overrunFlags s))) := by
  simp only [deviceAckPayload, List.append_assoc]

/-- The fields of CAL_DONE stand at bytes 1 to 13. -/
theorem u8_deviceAckPayload_calDone (s : State) {j : Nat} (h : j < 13) :
    u8 (deviceAckPayload s) (1 + j) = u8 (putCalDone s.events.calDone) j := by
  rw [deviceAckPayload_eq, u8_append_right (by simp), length_put8, Nat.add_sub_cancel_left, u8_append_left (by simpa)]

/-- The field of SAVE_DONE stands at byte 14. -/
theorem u8_deviceAckPayload_saveDone (s : State) :
    u8 (deviceAckPayload s) 14 = u8 (putSaveDone s.events.saveDone) 0 := by
  rw [deviceAckPayload_eq, u8_append_right (by simp), u8_append_right (by simp), u8_append_left (by simp)]
  simp

/-- The overrun flags stand at byte 15. -/
theorem byteAt_deviceAckPayload_overrun (s : State) :
    byteAt (deviceAckPayload s) 15 = BitVec.ofNat 8 (overrunFlags s) := by
  rw [deviceAckPayload_eq, byteAt_append_right (by simp), byteAt_append_right (by simp), byteAt_append_right (by simp)]
  simp [byteAt, put8]

/-- An absent CAL_DONE carries zeros. -/
theorem u8_putCalDone_none (j : Nat) : u8 (putCalDone none) j = 0 := by
  change u8 (List.replicate 13 0) j = 0
  rw [u8, byteAt, List.getD_eq_getElem?_getD, List.getElem?_replicate]
  split <;> rfl

/-- CAL_DONE carries the outcome and the twelve results in table order. -/
theorem u8_putCalDone_some (r : RunResult) : u8 (putCalDone (some r)) 0 = r.outcome.code ∧
    ∀ e : Fin 12, u8 (putCalDone (some r)) (1 + e.val) = (r.results.get e).code := by
  have hcode : r.outcome.code < 256 := by cases r.outcome <;> decide
  refine ⟨(u8_append_left (by simp)).trans (u8_put8 hcode), fun e => ?_⟩
  rw [putCalDone, u8_append_right (by simp), length_put8, Nat.add_sub_cancel_left, u8_putResults]

/-- Settles O40: the point's entry is filtered out, or the device event set is emptied, with the bytes returned. -/
theorem ackRemovesAndReturns : Obligations.AckRemovesAndReturns := by
  intro s p id payload hs
  refine ⟨fun i r hn => ⟨fun h => onlyAnswers_of_refuse (k := .ack) hs (requestAck_of_not_listed hn h), fun e h => ?_⟩,
    fun hl h => ?_⟩
  · obtain ⟨f, hexec, hanswered⟩ := exec_answers (k := .ack) hs (requestAck_of_listed hn h) rfl rfl
    exact ⟨_, hexec, hanswered, by cases p <;> rfl, by rw [placeResponse_attention]; rfl⟩
  · obtain ⟨f, hexec, hanswered⟩ := exec_answers (k := .ack) hs (requestAck_of_device hl h) rfl rfl
    obtain ⟨hlt, hflags⟩ := overrunFlags_bits s
    refine ⟨_, _, hexec, hanswered, by cases p <;> rfl, fun c => ?_, by simp [deviceAckPayload_eq],
      by rw [deviceAckPayload_eq]; exact eventBits_code _, fun hnone j h1 hj => ?_, fun r hr => ⟨?_, fun e => ?_⟩,
      fun hnone => ?_, fun r hr => ?_, fun c => ?_, ?_⟩
    · rw [State.scanClass, placeResponse_classes]; exact scanClass_deviceAck s c
    · obtain ⟨k, rfl⟩ := Nat.exists_eq_add_of_le h1
      rw [u8_deviceAckPayload_calDone s (by omega), hnone, u8_putCalDone_none]
    · rw [u8_deviceAckPayload_calDone s (j := 0) (by omega), hr]; exact (u8_putCalDone_some r).1
    · rw [show 2 + e.val = 1 + (1 + e.val) by omega, u8_deviceAckPayload_calDone s (by omega), hr]
      exact (u8_putCalDone_some r).2 e
    · rw [u8_deviceAckPayload_saveDone, hnone]; rfl
    · rw [u8_deviceAckPayload_saveDone, hr]; cases r <;> rfl
    · rw [byteAt_deviceAckPayload_overrun]; exact hflags c
    · rw [u8, byteAt_deviceAckPayload_overrun]; exact hlt

end Machine
end Sys2Proof
end

section
/-! PROOF. What the outside sees: RDY, nATTN and the code on each output pin (R123, R139 to R141, R151, R173). -/

namespace Sys2Proof.Machine

variable {s : State} {c : ChannelId}

theorem rdy_iff : s.rdy = true ↔ ∃ frame, s.hostPort.mode = .responseReady frame := by
  unfold State.rdy
  cases s.hostPort.mode <;> simp

theorem nAttnLow_iff : s.nAttnLow = true ↔ s.attention ≠ [] ∨ s.events ≠ ⟨none, none, false, false⟩ := by
  simp [State.nAttnLow, State.attn, DeviceEvents.none]

/-- Until the part runs no response waits and nothing calls for attention (R160, R181). -/
theorem lines_of_not_running (h : PhaseInv s) (hp : s.phase ≠ .running) : s.rdy = false ∧ s.nAttnLow = false := by
  obtain ⟨hmode, -⟩ := h.ports hp
  obtain ⟨hlist, hevents, -⟩ := h.empty hp
  simp [State.rdy, State.nAttnLow, State.attn, hmode, hlist, hevents]

theorem pinCode_of_reset_or_load (h : s.phase = .inReset ∨ s.phase = .loading) : s.pinCode c = some 0 := by
  rcases h with h | h <;> simp only [State.pinCode, h]

theorem pinCode_of_driven (hp : s.phase = .running) (hu : (s.channel c).underCal = false) :
    s.pinCode c = some (outputCode (s.calEntry (.output c)) (s.channel c).driven) := by
  simp only [State.pinCode, hp, hu, Bool.false_eq_true, if_false]

/-- A channel under calibration is the one whose entry is measured, in PLUS or in MINUS (R23, R151). -/
theorem measured_of_underCal {sc : Scope} {m : Measurement} (h : RunInv s) (hu : (s.channel c).underCal = true)
    (hr : s.calRun = .running sc m) : m.entry = .output c ∧ (m.phase = .plus ∨ m.phase = .minus) := by
  obtain ⟨sc', m', hr', he⟩ := (h.underCal c).1 hu
  cases hr.symm.trans hr'
  have hphase := h.phase sc m hr
  rw [he] at hphase
  exact ⟨he, hphase⟩

theorem pinCode_of_measured {sc : Scope} {m : Measurement} (hp : s.phase = .running)
    (hu : (s.channel c).underCal = true) (hr : s.calRun = .running sc m) (he : m.entry = .output c) :
    s.pinCode c = some (if m.phase = .minus then -24000 else 24000) := by
  simp only [State.pinCode, hp, hu, if_true, hr, CalRun.drives, he, Config.loopbackCode]

/-- Settles O44: by the phase of the part, and in a running part by the mark of the channel. -/
theorem pinCodesOfChannels : Obligations.PinCodesOfChannels := by
  refine ⟨fun s => ⟨rdy_iff, nAttnLow_iff, lines_of_not_running⟩, fun s c => ⟨pinCode_of_reset_or_load, fun hp hu => ?_,
    fun sc m hrun hp hu hr => ?_⟩⟩
  · rw [pinCode_of_driven hp hu]
    refine ⟨fun he => by rw [he]; rfl, fun o g x he hx => ?_⟩
    subst hx
    rw [he]; rfl
  · obtain ⟨he, hphase⟩ := measured_of_underCal hrun hu hr
    rw [pinCode_of_measured hp hu hr he]
    rcases hphase with h | h <;> simp [h]

end Sys2Proof.Machine
end

section
/-! PROOF. The Output Unit: STAGE of a point found, COMMIT and DISCARD of an update set, and the ramp tick (R24, R127 to
R135). -/

namespace Sys2Proof.Machine

variable {s t : State} {i : SlotId} {payload : List Byte}

/-! ## STAGE (R127, R128) -/

section
variable {p : Port} {x : Int} {r : PointRecord} {c : OutputConfig} {k : CodePart}

theorem stagePoint_input {c : InputConfig} {v : ValuePart} (hb : r.body = .input c v) :
    s.stagePoint p x i r = .refuse .wrongKind [] := by
  simp only [State.stagePoint, hb]

theorem stagePoint_of_denied (hb : r.body = .output c k) (hp : p = .maintenance) (hw : c.operatorWritable = false) :
    s.stagePoint p x i r = .refuse .denied [] := by
  simp only [State.stagePoint, hb]
  exact if_pos ⟨hp, hw⟩

section
variable (hb : r.body = .output c k) (hw : p = .host ∨ c.operatorWritable = true)
include hb hw

/-- On a port that may write the point, the clamp alone decides a STAGE (R127). -/
theorem stagePoint_of_writable : s.stagePoint p x i r =
    if x < c.clampMin ∨ c.clampMax < x then .refuse .range []
    else .done (s.setSlot i (some { r with body := .output c { k with staged := some x } }))
      (putBool k.staged.isSome) := by
  simp only [State.stagePoint, hb]
  exact if_neg (by rcases hw with h | h <;> simp [h])

theorem stagePoint_of_range (h : x < c.clampMin ∨ c.clampMax < x) : s.stagePoint p x i r = .refuse .range [] := by
  rw [stagePoint_of_writable hb hw, if_pos h]

theorem stagePoint_of_passed (hlo : c.clampMin ≤ x) (hhi : x ≤ c.clampMax) : s.stagePoint p x i r =
    .done (s.setSlot i (some { r with body := .output c { k with staged := some x } }))
      [if k.staged = none then 0 else 1] := by
  rw [stagePoint_of_writable hb hw, if_neg (by omega)]
  cases k.staged <;> rfl
end
end

/-- Settles O41: the kind, the port's right and the clamp refuse in this order, and past them only the slot is
written. -/
theorem stageSetsCode : Obligations.StageSetsCode := by
  intro s p id payload i r hs hn
  have hbody : requestBody .stage p payload s = s.stagePoint p (s16 payload 2) i r := onPoint_of_names hn
  have refused : ∀ {st : Status}, s.stagePoint p (s16 payload 2) i r = .refuse st [] →
      OnlyAnswers (.stage p id payload) s p (requestOf .stage id payload) st [] :=
    fun h => onlyAnswers_of_refuse (k := .stage) hs (hbody.trans h)
  refine ⟨fun c v hb => refused (stagePoint_input hb), fun c k hb =>
    ⟨fun hp hw => refused (stagePoint_of_denied hb hp hw), fun hw =>
      ⟨fun h => refused (stagePoint_of_range hb hw h), fun hlo hhi => ?_⟩⟩⟩
  obtain ⟨f, hexec, hanswered⟩ := exec_answers hs (hbody.trans (stagePoint_of_passed hb hw hlo hhi)) rfl rfl
  exact ⟨_, hexec, hanswered, by cases p <;> rfl, slotSet_of_put (placeResponse_slots _ _ _)⟩

/-! ## Every record changed in one act, and the channels after it (R24) -/

section
variable {f : PointRecord → PointRecord} (h : t.slots = mapTable (fun x => x.map f) s.slots)
include h

theorem slot_of_mapTable (i : SlotId) : t.slot i = (s.slot i).map f := by
  rw [State.slot, h]
  exact get_mapTable _ _ _

theorem slot_of_mapTable_some {r r' : PointRecord} (hs : s.slot i = some r) (hf : f r = r') : t.slot i = some r' := by
  rw [slot_of_mapTable h, hs, Option.map_some, hf]

/-- A slot whose record, if it holds one, the change leaves as it is. -/
theorem slot_of_mapTable_kept (hf : ∀ r, s.slot i = some r → f r = r) : t.slot i = s.slot i := by
  cases hs : s.slot i with
  | none => rw [slot_of_mapTable h, hs, Option.map_none]
  | some r => exact slot_of_mapTable_some h hs (hf r hs)
end

/-- An owned channel is driven at its owner's live code (R24). -/
theorem driveOwner_of_owned {slots : Vector Slot 64} {ch : Channel} {tag : Nat} {st : SlotState} {c : OutputConfig}
    {k : CodePart} (ho : ch.owner = some i) (hs : slots.get i = some ⟨tag, st, .output c k⟩) :
    driveOwner slots ch = { ch with driven := k.live } := by
  simp only [driveOwner, ho, hs]

/-- Each channel drives its owner's live code, and one without an owner keeps its entry (R24). -/
theorem channelsFollow_of_driveOwner (h : t.channels = mapTable (driveOwner t.slots) s.channels) :
    ChannelsFollow s t := by
  intro ch
  have hch : t.channel ch = driveOwner t.slots (s.channel ch) := by
    rw [State.channel, h]
    exact get_mapTable _ _ _
  rw [hch]
  exact ⟨fun hnone => by rw [driveOwner, hnone], fun i tag st c k howner hslot => driveOwner_of_owned howner hslot⟩

/-! ## COMMIT and DISCARD (R130 to R133) -/

theorem updateSetOf_eq_some {u : SetId} :
    updateSetOf payload = some u ↔ payload.length = 1 ∧ u8 payload 0 = u.val := by
  simp [updateSetOf, finOf_eq_some]

/-- A wrong length and a number from 4 on name no update set (R130). -/
theorem updateSetOf_eq_none (h : payload.length ≠ 1 ∨ 4 ≤ u8 payload 0) : updateSetOf payload = none := by
  refine Option.eq_none_iff_forall_ne_some.2 fun u hu => ?_
  obtain ⟨hl, hn⟩ := updateSetOf_eq_some.1 hu
  omega

theorem countRecords_stagedMember (s : State) (u : SetId) (st : SlotState) :
    s.countRecords (stagedMember u st) = stagedIn s u st := by
  refine List.countP_congr fun i _ => ?_
  rcases s.slot i with _ | ⟨tag, st', ⟨c, v⟩ | ⟨c, k⟩⟩ <;> simp [stagedMember]

section
variable {u : SetId} {tag : Nat} {st : SlotState} {c : OutputConfig} {k : CodePart} {x : Int} {r : PointRecord}

/-- A committed member takes its staged code as its target, and with slew absent steps to it (R131, R132). -/
theorem commitRecord_of_staged (hu : c.updateSet = u) (hx : k.staged = some x) :
    commitRecord u ⟨tag, .active, .output c k⟩ =
      ⟨tag, .active, .output c ⟨if c.slew = none then x else k.live, x, none⟩⟩ := by
  simp [commitRecord, committedCodes, hu, hx]

/-- A COMMIT leaves a record that is no ACTIVE member of the set with a staged code (R131). -/
theorem commitRecord_eq_self
    (h : ∀ tag c k x, r = ⟨tag, .active, .output c k⟩ → c.updateSet = u → k.staged ≠ some x) :
    commitRecord u r = r := by
  rcases r with ⟨tag, st, ⟨c, v⟩ | ⟨c, k⟩⟩
  · rfl
  by_cases hmember : st = .active ∧ c.updateSet = u
  · obtain ⟨rfl, hu⟩ := hmember
    have hnone : k.staged = none := Option.eq_none_iff_forall_ne_some.2 fun x => h tag c k x rfl hu
    simp [commitRecord, committedCodes, hu, hnone]
  · exact if_neg hmember

theorem discardRecord_of_member (hu : c.updateSet = u) (hst : st ≠ .retiring) :
    discardRecord u ⟨tag, st, .output c k⟩ = ⟨tag, st, .output c { k with staged := none }⟩ := if_pos ⟨hu, hst⟩

/-- A DISCARD leaves a record that is no member of the set, or is RETIRING (R133). -/
theorem discardRecord_eq_self
    (h : ∀ tag st c k, r = ⟨tag, st, .output c k⟩ → c.updateSet = u → st = .retiring) : discardRecord u r = r := by
  rcases r with ⟨tag, st, ⟨c, v⟩ | ⟨c, k⟩⟩
  · rfl
  · exact if_neg fun ⟨hu, hst⟩ => hst (h tag st c k rfl hu)
end

theorem requestCommit_of_set {u : SetId} (h : updateSetOf payload = some u) (s : State) :
    requestCommit payload s = .done (s.mapRecords (commitRecord u))
      [BitVec.ofNat 8 (stagedIn s u .active), BitVec.ofNat 8 (stagedIn s u .held)] := by
  simp only [requestCommit, h, countRecords_stagedMember]
  rfl

theorem requestDiscard_of_set {u : SetId} (h : updateSetOf payload = some u) (s : State) :
    requestDiscard payload s = .done { s with slots := mapTable (fun x => x.map (discardRecord u)) s.slots }
      [BitVec.ofNat 8 (stagedIn s u .active + stagedIn s u .held)] := by
  simp only [requestDiscard, h, countRecords_stagedMember]
  rfl

theorem requestCommit_of_no_set (h : updateSetOf payload = none) (s : State) :
    requestCommit payload s = .refuse .badField [] := by
  simp only [requestCommit, h]

theorem requestDiscard_of_no_set (h : updateSetOf payload = none) (s : State) :
    requestDiscard payload s = .refuse .badField [] := by
  simp only [requestDiscard, h]

/-- Settles O42: one change of every record, under COMMIT with the channels after it. -/
theorem commitAndDiscard : Obligations.CommitAndDiscard := by
  refine ⟨fun s p id payload hs => ⟨fun h => ?_, fun u hl hu => ?_⟩,
    fun s id payload hs => ⟨fun h => ?_, fun u hl hu => ?_⟩⟩
  · exact onlyAnswers_of_refuse (k := .commit) hs (requestCommit_of_no_set (updateSetOf_eq_none h) s)
  · have hset := updateSetOf_eq_some.2 ⟨hl, hu⟩
    obtain ⟨f, hexec, hanswered⟩ := exec_answers (k := .commit) hs (requestCommit_of_set hset s) rfl rfl
    have hslots := placeResponse_slots (s.mapRecords (commitRecord u)) p f
    refine ⟨_, hexec, hanswered, by cases p <;> rfl, fun i tag c k x hi hc hx => ?_, fun i hi => ?_, ?_⟩
    · exact slot_of_mapTable_some hslots hi (commitRecord_of_staged hc hx)
    · exact slot_of_mapTable_kept hslots fun r hr =>
        commitRecord_eq_self fun tag c k x e => hi tag c k x (e ▸ hr)
    · refine channelsFollow_of_driveOwner ?_
      rw [placeResponse_channels, hslots]
      rfl
  · exact onlyAnswers_of_refuse (k := .discard) hs (requestDiscard_of_no_set (updateSetOf_eq_none h) s)
  · have hset := updateSetOf_eq_some.2 ⟨hl, hu⟩
    obtain ⟨f, hexec, hanswered⟩ := exec_answers (k := .discard) hs (requestDiscard_of_set hset s) rfl rfl
    refine ⟨_, hexec, hanswered, rfl, fun i tag st c k hi hc hst => ?_, fun i hi => ?_⟩
    · exact slot_of_mapTable_some rfl hi (discardRecord_of_member hc hst)
    · exact slot_of_mapTable_kept rfl fun r hr =>
        discardRecord_eq_self fun tag st c k e => hi tag st c k (e ▸ hr)

/-! ## The ramp tick (R134, R135) -/

/-- A ramp step with slew present: to a target within reach, else by the slew toward it (R135). -/
theorem rampStep_some (n : Nat) (live target : Int) : rampStep (some n) live target =
    if live - (n : Int) ≤ target ∧ target ≤ live + (n : Int) then target
    else if live < target then live + (n : Int) else live - (n : Int) := by
  have hreach : (target - live).natAbs ≤ n ↔ live - (n : Int) ≤ target ∧ target ≤ live + (n : Int) := by omega
  simp only [rampStep, hreach]

section
variable {tag : Nat} {c : OutputConfig} {k : CodePart} {r : PointRecord}

theorem rampRecord_of_moving (h : k.live ≠ k.target) : rampRecord ⟨tag, .active, .output c k⟩ =
    ⟨tag, .active, .output c { k with live := rampStep c.slew k.live k.target }⟩ := if_pos ⟨rfl, h⟩

/-- A ramp tick leaves a record that is no ACTIVE output point away from its target (R135). -/
theorem rampRecord_eq_self (h : ∀ tag c k, r = ⟨tag, .active, .output c k⟩ → k.live = k.target) :
    rampRecord r = r := by
  rcases r with ⟨tag, st, ⟨c, v⟩ | ⟨c, k⟩⟩
  · rfl
  · exact if_neg fun ⟨hst, hne⟩ => hne (h tag c k (by rw [show st = .active from hst]))
end

theorem exec_rampTick (s : State) : exec .rampTick s = .next (if s.alive then s.mapRecords rampRecord else s) := rfl

/-- Settles O43: one change of every record with the channels after it from the end of reset, nothing before. -/
theorem rampTickMovesTowardTarget : Obligations.RampTickMovesTowardTarget := by
  refine fun s => ⟨fun hphase => ?_, fun hphase => ?_⟩
  · rw [exec_rampTick, if_pos (alive_iff.2 hphase)]
    refine ⟨_, rfl, rfl, fun i tag c k live hi hne hstep hslew => ?_, fun i hi => ?_,
      channelsFollow_of_driveOwner rfl⟩
    · have hlive : rampStep c.slew k.live k.target = live := by
        cases hs : c.slew with
        | none => exact (hstep hs).symm
        | some n => rw [rampStep_some, hslew n hs]
      exact slot_of_mapTable_some rfl hi (hlive ▸ rampRecord_of_moving hne)
    · exact slot_of_mapTable_kept rfl fun r hr => rampRecord_eq_self fun tag c k e => hi tag c k (e ▸ hr)
  · rw [exec_rampTick, if_neg (by rw [alive_iff]; rcases hphase with h | h <;> simp [h])]

end Sys2Proof.Machine
end

section
/-! PROOF. The Calibration Store: every step keeps the banks, the pointer, the save, the coefficients and the idle blocks of
a part that does not run (R144, R146, R158 to R162). The store is seen through a view with the banks as a function. -/

namespace Sys2Proof.Machine

variable {s t : State}

/-! ## What the store sees of a state -/

/-- The part of a state that decides what the banks hold and which of them is current, with whether a run is in progress
and whether the part runs. -/
structure StoreView where
  bank    : BankName → Bank
  pointer : Option BankName
  save    : Option Save
  table   : Vector Coefficients 12
  busy    : Bool
  running : Bool

/-- What the store sees of a state. -/
def State.store (s : State) : StoreView :=
  ⟨s.bank, s.pointer, s.save, s.calTable, s.runInProgress, decide (s.phase = .running)⟩

/-- Writing a bank changes that bank alone. -/
theorem bank_setBank_eq_update (s : State) (n : BankName) (x : Bank) :
    (s.setBank n x).bank = Function.update s.bank n x := by
  funext m
  rw [bank_setBank, Function.update_apply]
  simp only [eq_comm]

/-- A command that writes a bank, and else at most the save, the pointer and the device events. -/
theorem store_of_setBank {n : BankName} {x : Bank} {save : Option Save} {pointer : Option BankName}
    (h : t = { s.setBank n x with save := t.save, pointer := t.pointer, events := t.events }) (hw : t.save = save)
    (hp : t.pointer = pointer) :
    t.store = { s.store with bank := Function.update s.bank n x, save := save, pointer := pointer } := by
  have hbank : t.bank = Function.update s.bank n x := by
    rw [← bank_setBank_eq_update, h]; rfl
  rw [State.store, hbank, hw, hp, h]
  cases n <;> rfl

/-! ## The banks -/

/-- A complete bank with a generation that is used and coefficients in their ranges (R144, R158, R159). -/
structure Bank.Whole (b : Bank) : Prop where
  used     : 1 ≤ b.generation ∧ b.generation ≤ 65535
  complete : b.entries.length = 12
  limits   : ∀ x ∈ b.entries, inLimits x

/-- The VALID banks are whole, and two VALID banks have different generations (R158, R159). -/
structure BanksOk (bank : BankName → Bank) : Prop where
  whole    : ∀ n, (bank n).state = .valid → (bank n).Whole
  distinct : ∀ m n, m ≠ n → (bank m).state = .valid → (bank n).state = .valid →
               (bank m).generation ≠ (bank n).generation

/-- The generation that follows the current bank's, 1 when there is none (R161). -/
def followingGeneration (bank : BankName → Bank) (pointer : Option BankName) : Nat :=
  match pointer with
  | none => 1
  | some n => nextGeneration (bank n).generation

theorem nextGeneration_used (g : Nat) : 1 ≤ nextGeneration g ∧ nextGeneration g ≤ 65535 := by
  unfold nextGeneration; split <;> omega

theorem nextGeneration_ne (g : Nat) : nextGeneration g ≠ g := by
  unfold nextGeneration; split <;> omega

theorem targetOf_ne {pointer : Option BankName} {n : BankName} (h : pointer = some n) : n ≠ targetOf pointer := by
  subst h; cases n <;> nofun

/-- The bank that is not the target is current, where there is a current bank. -/
theorem eq_of_ne_targetOf {pointer : Option BankName} {m n : BankName} (h : pointer = some n)
    (hm : m ≠ targetOf pointer) : m = n := by
  subst h
  cases m <;> cases n <;> first | rfl | exact absurd rfl hm

section
variable {bank : BankName → Bank} {pointer : Option BankName} {n : BankName} {x : Bank}

theorem followingGeneration_used (bank : BankName → Bank) (pointer : Option BankName) :
    1 ≤ followingGeneration bank pointer ∧ followingGeneration bank pointer ≤ 65535 := by
  cases pointer with
  | none => exact ⟨le_rfl, by simp [followingGeneration]⟩
  | some n => exact nextGeneration_used _

/-- What is written to the target leaves the generation to be written (R161). -/
theorem followingGeneration_update (x : Bank) :
    followingGeneration (Function.update bank (targetOf pointer) x) pointer = followingGeneration bank pointer := by
  cases pointer with
  | none => rfl
  | some n => exact congrArg (fun b : Bank => nextGeneration b.generation) (Function.update_of_ne (targetOf_ne rfl) ..)

/-- A bank is written: VALID only when it is whole and its generation is not the other bank's. -/
theorem BanksOk.update (h : BanksOk bank) (n : BankName) (hx : x.state = .valid → x.Whole)
    (hg : x.state = .valid → ∀ m, m ≠ n → (bank m).state = .valid → (bank m).generation ≠ x.generation) :
    BanksOk (Function.update bank n x) where
  whole m hm := by
    by_cases e : m = n
    · subst e; rw [Function.update_self] at hm ⊢; exact hx hm
    · rw [Function.update_of_ne e] at hm ⊢; exact h.whole m hm
  distinct m k hmk hm hk := by
    by_cases em : m = n
    · subst em
      rw [Function.update_self] at hm ⊢
      rw [Function.update_of_ne hmk.symm] at hk ⊢
      exact (hg hm k hmk.symm hk).symm
    · rw [Function.update_of_ne em] at hm ⊢
      by_cases ek : k = n
      · subst ek; rw [Function.update_self] at hk ⊢; exact hg hk m em hm
      · rw [Function.update_of_ne ek] at hk ⊢; exact h.distinct m k hmk hm hk

/-- The current bank is VALID, and with none current none is (R159). -/
theorem currentBank_spec (a b : Bank) :
    (currentBank a b = some .a → a.state = .valid) ∧ (currentBank a b = some .b → b.state = .valid) ∧
      (currentBank a b = none → a.state ≠ .valid ∧ b.state ≠ .valid) := by
  unfold currentBank
  by_cases ha : a.state = .valid <;> by_cases hb : b.state = .valid <;> simp [ha, hb]
  split <;> nofun

end

/-! ## The accord of the store -/

/-- A save in progress: the target is not current, the generation follows the current one, the snapshot is in its
ranges, and the target holds what the phase says (R161, R162). -/
structure SaveOk (bank : BankName → Bank) (pointer : Option BankName) (w : Save) : Prop where
  target     : w.target = targetOf pointer
  generation : w.generation = followingGeneration bank pointer
  phase      : savePhaseOk w (bank w.target)
  snapshot   : ∀ j, inLimits (w.snapshot.get j)

/-- The banks, the pointer, the save and the table of one accord (R144, R146, R158 to R162). -/
structure StoreOk (v : StoreView) : Prop where
  banks   : BanksOk v.bank
  table   : ∀ i, inLimits (v.table.get i)
  current : ∀ n, v.pointer = some n → (v.bank n).state = .valid
  found   : v.running = true → v.pointer = none → ∀ n, (v.bank n).state ≠ .valid
  save    : ∀ w, v.save = some w → SaveOk v.bank v.pointer w ∧ v.busy = false
  stopped : v.running = false → v.pointer = none ∧ v.save = none ∧ v.busy = false

/-- The store of a state is of one accord. -/
abbrev State.StoreOk (s : State) : Prop := Machine.StoreOk s.store

/-- Every place of the table is that of an entry (R144). -/
theorem place_surjective : Function.Surjective CalEntry.place := by
  intro i
  by_cases h : i.val < 8
  · exact ⟨.input ⟨i.val, h⟩, rfl⟩
  · refine ⟨.output ⟨i.val - 8, by omega⟩, Fin.ext ?_⟩
    simp only [CalEntry.place]; omega

/-- In WRITE the target holds the first records of the snapshot (R162). -/
theorem entries_of_write {w : Save} {b : Bank} {n : Nat} (h : savePhaseOk w b) (hp : w.phase = .write n) :
    b.entries = w.snapshot.toList.take n := by
  unfold savePhaseOk at h
  rw [hp] at h
  obtain ⟨-, he, -⟩ := h
  exact he

/-- In MARK the target holds the whole snapshot (R162). -/
theorem entries_of_mark {w : Save} {b : Bank} (h : savePhaseOk w b) (hp : w.phase = .mark) :
    b.entries = w.snapshot.toList := by
  unfold savePhaseOk at h
  rw [hp] at h
  obtain ⟨he, -⟩ := h
  exact he

/-- The records that a save has written are in their ranges: they are the snapshot's. -/
theorem inLimits_written {w : Save} {b : Bank} (h : savePhaseOk w b) (hs : ∀ j, inLimits (w.snapshot.get j))
    (hp : w.phase ≠ .erase) : ∀ x ∈ b.entries, inLimits x := by
  have hall : ∀ x ∈ w.snapshot.toList, inLimits x := by
    intro x hx
    obtain ⟨i, hi, rfl⟩ := List.getElem_of_mem hx
    exact hs ⟨i, by simpa using hi⟩
  cases hph : w.phase with
  | erase => exact absurd hph hp
  | write n => rw [entries_of_write h hph]; exact fun x hx => hall x (List.mem_of_mem_take hx)
  | mark => rw [entries_of_mark h hph]; exact hall

/-- With record n of the snapshot written, the next one or MARK follows (R162). -/
theorem savePhaseOk_written (w : Save) (n : Fin 12) (g : Nat) :
    savePhaseOk { w with phase := if n.val = 11 then .mark else .write (n.val + 1) }
      ⟨.part, g, w.snapshot.toList.take n.val ++ [w.snapshot.get n]⟩ := by
  have hlen : n.val < w.snapshot.toList.length := by simp
  have htake : w.snapshot.toList.take n.val ++ [w.snapshot.get n] = w.snapshot.toList.take (n.val + 1) :=
    List.take_append_getElem hlen
  rw [htake]
  by_cases hn : n.val = 11
  · simp only [savePhaseOk, hn]
    exact ⟨List.take_of_length_le (by simp), trivial⟩
  · simp only [if_neg hn, savePhaseOk]
    exact ⟨by omega, trivial, rfl⟩

/-- In a part that does not run nothing is in progress and no bank is current (R160, R165). -/
def State.StoreStopped (s : State) : Prop := s.calRun = .idle ∧ s.save = none ∧ s.pointer = none

theorem storeOk_of_inv (hp : s.phase ≠ .running → s.StoreStopped) (hs : StoreInv s) (ht : TableInv s) :
    s.StoreOk where
  banks := by
    refine ⟨fun n hn => ?_, fun m n hmn hm hn => ?_⟩
    · obtain ⟨hone, htop, hcomplete⟩ := hs.complete n hn
      exact ⟨⟨hone, htop⟩, hcomplete, ht.banks n hn⟩
    · cases m <;> cases n
      · exact absurd rfl hmn
      · exact hs.distinct hm hn
      · exact (hs.distinct hn hm).symm
      · exact absurd rfl hmn
  table i := by
    obtain ⟨e, rfl⟩ := place_surjective i
    exact ht.table e
  current := hs.current
  found hr := hs.noneValid (of_decide_eq_true hr)
  save w hw := by
    obtain ⟨htarget, hgen, hphase⟩ := hs.target w hw
    refine ⟨⟨htarget, hgen, hphase, ht.snapshot w hw⟩, Bool.eq_false_iff.2 fun hb => ?_⟩
    have hsaving : s.save.isSome = false := hs.exclusive hb
    rw [show s.save = some w from hw] at hsaving
    nomatch hsaving
  stopped hr := by
    obtain ⟨hrun, hsave, hpointer⟩ := hp (of_decide_eq_false hr)
    exact ⟨hpointer, hsave, by simp [State.store, State.runInProgress, hrun]⟩

theorem inv_of_storeOk (h : s.StoreOk) : StoreInv s ∧ TableInv s := by
  refine ⟨⟨h.banks.distinct .a .b nofun, fun n hn => ?_, h.current, fun hr => h.found (decide_eq_true hr),
    fun w hw => ?_, fun hb => ?_⟩, ⟨fun e => h.table _, fun n hn => (h.banks.whole n hn).limits,
    fun w hw => (h.save w hw).1.snapshot, fun w hw he => ?_⟩⟩
  · obtain ⟨⟨hone, htop⟩, hcomplete, -⟩ := h.banks.whole n hn
    exact ⟨hone, htop, hcomplete⟩
  · obtain ⟨⟨htarget, hgen, hphase, -⟩, -⟩ := h.save w hw
    exact ⟨htarget, hgen, hphase⟩
  · cases hw : s.save with
    | none => simp [State.saveInProgress, hw]
    | some w => exact nomatch hb.symm.trans (h.save w hw).2
  · obtain ⟨hsave, -⟩ := h.save w hw
    exact inLimits_written hsave.phase hsave.snapshot he

/-! ## Changes of the store -/

section
variable {v : StoreView}

/-- While a run or a save is in progress the part runs, and a run excludes a save (R146). -/
theorem StoreOk.of_busy (h : StoreOk v) (hb : v.busy = true) : v.running = true ∧ v.save = none := by
  refine ⟨?_, ?_⟩
  · cases hr : v.running with
    | true => rfl
    | false => exact nomatch hb.symm.trans (h.stopped hr).2.2
  · cases hw : v.save with
    | none => rfl
    | some w => exact nomatch hb.symm.trans (h.save w hw).2

theorem StoreOk.running_of_save (h : StoreOk v) {w : Save} (hw : v.save = some w) : v.running = true := by
  cases hr : v.running with
  | true => rfl
  | false => exact nomatch hw.symm.trans (h.stopped hr).2.1

/-- A run begins, goes on or ends (R146, R153, R155). -/
theorem StoreOk.rerun (h : StoreOk v) {b : Bool} (hb : b = true → v.running = true ∧ v.save = none) :
    StoreOk { v with busy := b } := by
  cases b with
  | false =>
    refine { h with save w hw := ⟨(h.save w hw).1, rfl⟩, stopped hr := ?_ }
    obtain ⟨hpointer, hsave, -⟩ := h.stopped hr
    exact ⟨hpointer, hsave, rfl⟩
  | true =>
    obtain ⟨hr, hw⟩ := hb rfl
    exact { h with save w hw' := (nomatch hw.symm.trans hw'), stopped hr' := (nomatch hr.symm.trans hr') }

/-- An entry of the table is replaced (R149, R152). -/
theorem StoreOk.retable (h : StoreOk v) (i : Fin 12) {x : Coefficients} (hx : inLimits x) :
    StoreOk { v with table := put v.table i x } := by
  refine { h with table j := ?_ }
  rw [get_put]
  split
  · exact hx
  · exact h.table j

/-- The target bank is written, and the save goes on or ends without it becoming VALID (R161, R162, R163). -/
theorem StoreOk.write (h : StoreOk v) {x : Bank} (hx : x.state ≠ .valid) {save : Option Save} (hr : v.running = true)
    (hs : ∀ w, save = some w → SaveOk (Function.update v.bank (targetOf v.pointer) x) v.pointer w ∧ v.busy = false) :
    StoreOk { v with bank := Function.update v.bank (targetOf v.pointer) x, save := save } where
  banks := h.banks.update _ (absurd · hx) (absurd · hx)
  table := h.table
  current n hn := by
    dsimp only
    rw [Function.update_of_ne (targetOf_ne hn)]; exact h.current n hn
  found _ hp n := by
    dsimp only
    rw [Function.update_apply]; split
    · exact hx
    · exact h.found hr hp n
  save := hs
  stopped hr' := nomatch hr.symm.trans hr'

/-- A save that has written x to its target (R162). -/
theorem SaveOk.written {bank : BankName → Bank} {pointer : Option BankName} {w : Save} {ph : SavePhase} {x : Bank}
    (h : SaveOk bank pointer w) (hx : savePhaseOk { w with phase := ph } x) :
    SaveOk (Function.update bank (targetOf pointer) x) pointer { w with phase := ph } where
  target := h.target
  generation := by rw [followingGeneration_update]; exact h.generation
  phase := by
    dsimp only
    rw [h.target, Function.update_self]; exact hx
  snapshot := h.snapshot

/-- A save begins: the bank that is not current becomes PARTIAL (R161). -/
theorem StoreOk.start (h : StoreOk v) (hr : v.running = true) (hb : v.busy = false) :
    StoreOk { v with
      bank := Function.update v.bank (targetOf v.pointer) { v.bank (targetOf v.pointer) with state := .part }
      save := some ⟨targetOf v.pointer, followingGeneration v.bank v.pointer, v.table, .erase⟩ } := by
  refine h.write (show BankState.part ≠ .valid from nofun) hr fun w hw => ?_
  cases hw
  refine ⟨⟨rfl, (followingGeneration_update _).symm, ?_, h.table⟩, hb⟩
  dsimp only
  rw [Function.update_self]
  rfl

/-- A save writes its target and goes on (R162). -/
theorem StoreOk.advance (h : StoreOk v) {w : Save} (hw : v.save = some w) {ph : SavePhase} {x : Bank}
    (hx : x.state ≠ .valid) (hok : savePhaseOk { w with phase := ph } x) :
    StoreOk { v with bank := Function.update v.bank w.target x, save := some { w with phase := ph } } := by
  obtain ⟨hsave, hb⟩ := h.save w hw
  rw [hsave.target]
  refine h.write hx (h.running_of_save hw) fun w' hw' => ?_
  cases hw'
  have hwritten := hsave.written hok
  rw [hsave.target] at hwritten
  exact ⟨hwritten, hb⟩

/-- A save ends FAILED with its target as it was written (R163). -/
theorem StoreOk.fail (h : StoreOk v) {w : Save} (hw : v.save = some w) {x : Bank} (hx : x.state ≠ .valid) :
    StoreOk { v with bank := Function.update v.bank w.target x, save := none } := by
  rw [(h.save w hw).1.target]
  exact h.write hx (h.running_of_save hw) nofun

/-- A save ends OK: its target is VALID and current, with a generation that the other bank does not have (R163). -/
theorem StoreOk.mark (h : StoreOk v) {w : Save} (hw : v.save = some w) (hph : w.phase = .mark) :
    StoreOk { v with
      bank := Function.update v.bank w.target
        { v.bank w.target with state := .valid, generation := w.generation }
      pointer := some w.target, save := none } := by
  have hsave := (h.save w hw).1
  have hr := h.running_of_save hw
  have hentries := entries_of_mark hsave.phase hph
  have hlimits := inLimits_written hsave.phase hsave.snapshot (by rw [hph]; nofun)
  have hused : 1 ≤ w.generation ∧ w.generation ≤ 65535 := hsave.generation ▸ followingGeneration_used _ _
  refine ⟨h.banks.update _ (fun _ => ⟨hused, by simp [hentries], hlimits⟩) (fun _ m hm hv => ?_), h.table, ?_, nofun,
    nofun, fun hr' => nomatch hr.symm.trans hr'⟩
  · rw [hsave.target] at hm
    dsimp only
    rw [hsave.generation]
    cases hp : v.pointer with
    | none => exact absurd hv (h.found hr hp m)
    | some n =>
      rw [eq_of_ne_targetOf hp hm]
      exact (nextGeneration_ne _).symm
  · rintro n ⟨⟩
    dsimp only
    rw [Function.update_self]

/-- A hard reset, or a loss of power: the banks stay (R164, R165). -/
theorem StoreOk.reset (h : StoreOk v) {table : Vector Coefficients 12} (ht : ∀ i, inLimits (table.get i)) :
    StoreOk ⟨v.bank, none, none, table, false, false⟩ :=
  ⟨h.banks, ht, nofun, nofun, nofun, fun _ => ⟨rfl, rfl, rfl⟩⟩

/-- The records of a whole bank make a table in its ranges (R160). -/
theorem inLimits_tableOf {l : List Coefficients} (h : ∀ x ∈ l, inLimits x) (i : Fin 12) :
    inLimits ((tableOf l).get i) := by
  have hget : (tableOf l).get i = l.getD i.val .invalid := Vector.get_ofFn ..
  rw [hget, List.getD_eq_getElem?_getD]
  cases hx : l[i.val]? with
  | none => trivial
  | some x => exact h x (List.mem_of_getElem? hx)

/-- The load takes the current bank, or finds none VALID (R160). -/
theorem StoreOk.load (h : StoreOk v) (hr : v.running = false) {pointer : Option BankName}
    (hp : pointer = currentBank (v.bank .a) (v.bank .b)) {table : Vector Coefficients 12}
    (ht : ∀ i, inLimits (table.get i)) : StoreOk { v with pointer := pointer, table := table, running := true } := by
  obtain ⟨ha, hb, hnone⟩ := currentBank_spec (v.bank .a) (v.bank .b)
  obtain ⟨-, hsave, -⟩ := h.stopped hr
  refine ⟨h.banks, ht, fun n hn => ?_, fun _ hn n => ?_, fun w hw => (nomatch hsave.symm.trans hw), nofun⟩
  · cases n
    exacts [ha (hp ▸ hn), hb (hp ▸ hn)]
  · obtain ⟨ha', hb'⟩ := hnone (hp ▸ hn)
    cases n
    exacts [ha', hb']
end

/-! ## Edits and moves -/

/-- The accord is that of what the store sees. -/
theorem StoreOk.seen {v : StoreView} (h : StoreOk v) (hs : t.store = v) : t.StoreOk := by
  subst hs; exact h

/-- Of what the store sees, a run that was in progress at most ends. -/
theorem State.StoreOk.ofRun (h : s.StoreOk) {run : CalRun} (hr : s.calRun = run) (hb : run ≠ .idle)
    (ht : t.store = { s.store with busy := t.runInProgress }) : t.StoreOk :=
  (h.rerun fun _ => h.of_busy (by simp [State.store, State.runInProgress, hr, hb])).seen ht

/-- A request is carried out only while the part runs, and then every edit keeps the accord. -/
theorem storeOk_of_edit (h : Edit s t) (hrun : s.phase = .running) (hi : s.StoreOk) : t.StoreOk := by
  have hr : s.store.running = true := decide_eq_true hrun
  cases h with
  | modifyInput => exact hi.seen (by rw [modifyInput_frame]; rfl)
  | modifyOutput => exact hi.seen (by rw [State.modifyOutput, writeOutput_frame]; rfl)
  | hold => exact hi.seen (by rw [holdPoint_frame]; rfl)
  | release => exact hi.seen (by rw [releasePoint_frame]; rfl)
  | retire => exact hi.seen (by rw [retirePoint_frame]; rfl)
  | stage => exact hi.seen (by rw [writeOutput_frame]; rfl)
  | calibrate sc _ hsave => exact hi.rerun (b := true) fun _ => ⟨hr, hsave⟩
  | cancel hrun => exact hi.ofRun hrun nofun rfl
  | abort hrun => exact hi.ofRun hrun nofun (by rw [abortRunning_frame]; rfl)
  | startSave hidle hsave =>
    have hbusy : s.store.busy = false := by simp [State.store, State.runInProgress, hidle]
    exact (StoreOk.start hi hr hbusy).seen (store_of_setBank rfl rfl (setBank_pointer ..))
  | softReset => exact hi.rerun (b := false) nofun
  | none | defineInput | defineOutput | configure | unlist | deviceAck | commit | discard => exact hi

/-- What the table of a load holds lies in its ranges (R160). -/
theorem inLimits_loadTable (hi : s.StoreOk) (i : Fin 12) : inLimits (s.loadTable.calTable.get i) := by
  obtain ⟨ha, hb, -⟩ := currentBank_spec s.bankA s.bankB
  unfold State.loadTable
  dsimp only
  split
  · next n hn =>
    refine inLimits_tableOf (hi.banks.whole n ?_).limits i
    cases n
    exacts [ha hn, hb hn]
  · rw [get_replicate]; trivial

/-- A record joins the target: one that reads back as written is the snapshot's next, any other ends the save (R162,
R163). -/
theorem storeOk_writeRecord (hi : s.StoreOk) {w : Save} {n : Fin 12} (hw : s.save = some w)
    (hph : w.phase = .write n.val) (x : Coefficients) : (s.writeRecord w n x).StoreOk := by
  have hwritten : (s.bank w.target).entries = _ := entries_of_write (hi.save w hw).1.phase hph
  have hpart : BankState.part ≠ .valid := nofun
  unfold State.writeRecord
  dsimp only
  split
  · next hx =>
    refine (StoreOk.advance hi hw hpart ?_).seen (store_of_setBank rfl rfl (setBank_pointer ..))
    rw [hwritten, hx]
    exact savePhaseOk_written ..
  · exact (StoreOk.fail hi hw hpart).seen (store_of_setBank rfl rfl (setBank_pointer ..))

/-- Every move keeps the accord. -/
theorem storeOk_of_move (h : Move s t) (hrun : ∀ p, (s.port p).mode ≠ .idle → s.phase = .running) (hi : s.StoreOk) :
    t.StoreOk := by
  cases h with
  | ports h => exact hi.seen (by rw [h.only]; rfl)
  | answer p f he hm => exact (storeOk_of_edit he (hrun p hm) hi).seen (by rw [placeResponse_eq_withPorts]; rfl)
  | @reset ph a f table hph htable =>
    have hlimits : ∀ i, inLimits (table.get i) := by
      rcases htable with rfl | rfl
      · exact hi.table
      · intro i; rw [get_replicate]; trivial
    have hstore : State.store { s.inHardReset ph a f with calTable := table } =
        ⟨s.bank, none, none, table, false, decide (ph = .running)⟩ := rfl
    exact (StoreOk.reset hi hlimits).seen (by rw [hstore, decide_eq_false hph]; rfl)
  | endReset a hp => exact hi.seen (by simp only [State.store, hp]; rfl)
  | load hp =>
    have hstopped : s.store.running = false := by simp [State.store, hp]
    have hload := StoreOk.load hi hstopped rfl (inLimits_loadTable hi)
    exact hload.seen (by rw [loadTable_frame]; rfl)
  | expiry => exact hi.seen (by rw [takeExpiry_frame]; rfl)
  | lend hu hr => exact hi.ofRun hr nofun (by rw [lend_frame]; rfl)
  | complete => exact hi.seen (by rw [complete_frame]; rfl)
  | calSettled hr => exact hi.ofRun hr nofun rfl
  | calSample _ hr => exact hi.ofRun hr nofun rfl
  | calSecond _ _ hr => exact hi.ofRun hr nofun rfl
  | @calEnd sc m x hr _ _ _ hx =>
    have htable : State.StoreOk { s with calTable := put s.calTable m.entry.place x } := StoreOk.retable hi _ hx
    exact htable.ofRun hr nofun (by rw [finishEntry_frame]; rfl)
  | @erased w hw hph =>
    have hok : savePhaseOk { w with phase := .write 0 } Bank.erased := ⟨by omega, rfl, rfl⟩
    have hempty : BankState.empty ≠ .valid := nofun
    exact (StoreOk.advance hi hw hempty hok).seen (store_of_setBank rfl rfl (setBank_pointer ..))
  | @record w n x hw hph => exact storeOk_writeRecord hi hw hph x
  | @marked w hw hph =>
    exact (StoreOk.mark hi hw hph).seen (store_of_setBank rfl rfl rfl)
  | pulse | classTick | start | settled | sample | ramp => exact hi

/-! ## Phase and address -/

/-- The phase and the I2C address are as before. -/
def State.Stays (s t : State) : Prop := t.phase = s.phase ∧ t.maintAddress = s.maintAddress

theorem State.Stays.refl (s : State) : s.Stays s := ⟨rfl, rfl⟩

theorem PortsOnly.stays (h : PortsOnly s t) : s.Stays t := by rw [h.only]; exact ⟨rfl, rfl⟩

theorem stays_placeResponse (h : s.Stays t) (p : Port) (f : List Byte) : s.Stays (t.placeResponse p f) := by
  cases p <;> exact h

theorem stays_of_edit (h : Edit s t) : s.Stays t := by
  cases h with
  | modifyInput => rw [modifyInput_frame]; exact ⟨rfl, rfl⟩
  | modifyOutput => rw [State.modifyOutput, writeOutput_frame]; exact ⟨rfl, rfl⟩
  | hold => rw [holdPoint_frame]; exact ⟨rfl, rfl⟩
  | release => rw [releasePoint_frame]; exact ⟨rfl, rfl⟩
  | retire => rw [retirePoint_frame]; exact ⟨rfl, rfl⟩
  | stage => rw [writeOutput_frame]; exact ⟨rfl, rfl⟩
  | abort => rw [abortRunning_frame]; exact ⟨rfl, rfl⟩
  | startSave => rw [startSave_frame]; exact ⟨rfl, rfl⟩
  | none | defineInput | defineOutput | configure | unlist | deviceAck | commit | discard | calibrate | cancel
  | softReset => exact ⟨rfl, rfl⟩

/-- A request leaves phase and address, whatever it comes to. -/
theorem stays_grantRequest (s : State) (p : Port) (k : RequestKind) (id : Byte) (payload : List Byte) :
    s.Stays (s.grantRequest p k id payload (requestBody k p payload)) := by
  unfold State.grantRequest
  split
  · split
    · cases hb : requestBody k p payload s with
      | refuse st b => exact stays_placeResponse (.refl s) ..
      | done e b => exact stays_placeResponse (stays_of_edit (edit_of_done hb)) ..
    · exact stays_placeResponse (.refl s) ..
  · exact .refl s

/-- A sample leaves phase and address, also when it completes the conversion. -/
theorem stays_takeSample (k : Conversion) (r : RangeCode) (input : Int) : s.Stays (s.takeSample k r input) := by
  unfold State.takeSample
  dsimp only
  split
  · rw [complete_frame]; exact ⟨rfl, rfl⟩
  · exact ⟨rfl, rfl⟩

theorem stays_takeCalSample (sc : Scope) (m : Measurement) (input : Int) : s.Stays (s.takeCalSample sc m input) := by
  unfold State.takeCalSample
  dsimp only
  split
  · unfold State.endMeasurement
    split
    · exact ⟨rfl, rfl⟩
    · exact ⟨rfl, rfl⟩
    · rw [finishEntry_frame]; exact ⟨rfl, rfl⟩
    · rw [finishEntry_frame]; exact ⟨rfl, rfl⟩
  · exact ⟨rfl, rfl⟩

/-- The I2C addresses that A1 and A0 give (R174). -/
def maintAddresses : List (BitVec 7) := [0x62, 0x63, 0x64, 0x65]

theorem mem_maintAddresses (a1 a0 : Bool) :
    Config.maintenanceBase + BitVec.ofNat 7 ((if a1 then 2 else 0) + (if a0 then 1 else 0)) ∈ maintAddresses := by
  revert a1 a0; decide

/-- Where a command takes the part: it stays, the load ends, a hard reset or a loss of power, or the end of a reset held
(R160, R164, R174, R181). -/
inductive Course (s : State) : State → Prop
  | stays {t' : State} : s.Stays t' → Course s t'
  | loads : Course s s.loadTable
  | resets {ph : Phase} (a : BitVec 7) (f : Nat) (table : Vector Coefficients 12) :
      a = s.maintAddress ∨ a ∈ maintAddresses → Course s { s.inHardReset ph a f with calTable := table }
  | wakes (a : BitVec 7) : s.phase = .inReset → a ∈ maintAddresses →
      Course s { s with phase := .loading, maintAddress := a }

theorem Course.refl (s : State) : Course s s := .stays (.refl s)

theorem course_of_hardReset {e : ResetEvent} (h : exec (.hardReset e) s = .next t) : Course s t := by
  cases h
  cases e with
  | begins c =>
    dsimp only; split
    · exact .resets (ph := .inReset) _ _ _ (.inl rfl)
    · exact .refl s
  | ends a1 a0 =>
    dsimp only; split
    · next h => exact .wakes _ h (mem_maintAddresses a1 a0)
    · exact .refl s
  | whole c a1 a0 =>
    dsimp only; split
    · exact .resets (ph := .loading) _ _ _ (.inr (mem_maintAddresses a1 a0))
    · exact .refl s
  | shortPulse a1 a0 =>
    dsimp only; split
    · split
      · exact .resets (ph := .loading) _ _ _ (.inr (mem_maintAddresses a1 a0))
      · exact .stays ⟨rfl, rfl⟩
    · exact .refl s

/-- The bytes of a transfer and its end leave phase and address. -/
theorem stays_frameAbort (l : Link) (received : List Byte) (ha : s.answers l = true) :
    s.Stays (State.endTransfer
      (match frameCheck l.port received with
        | .good _ | .badCrc => s
        | .empty => if s.openKind l.port = some .request then s.setCheck l.port else s
        | c => s.receive l c)
      l.port) := by
  refine PortsOnly.stays (PortsOnly.trans ?_ (portsOnly_endTransfer _ _))
  split
  · exact .refl s
  · exact .refl s
  · split
    · exact portsOnly_setCheck _ _
    · exact .refl s
  · exact portsOnly_receive l _ ha

/-- GRANT leaves phase and address, whom it serves. -/
theorem stays_of_grant (h : execGrant s = .next t) : s.Stays t := by
  unfold execGrant at h
  split at h
  · cases h; exact .refl s
  split at h
  · cases h; rw [lend_frame]; exact ⟨rfl, rfl⟩
  · cases h; exact .refl s
  · split at h
    · cases h; exact ⟨rfl, rfl⟩
    · nomatch h

/-- Every command takes its course. -/
theorem course_of_exec {c : Instr} (h : exec c s = .next t) : Course s t := by
  cases c with
  | define | lookup | nextTag | modify | hold | release | retire | classSet | read | peek | ack | stage | commit
  | discard | calibrate | calAbort | calSave | status | softReset => cases h; exact .stays (stays_grantRequest ..)
  | unknownRequestCode | deniedOnMaintenancePort =>
    cases h; split
    · exact .stays (stays_placeResponse (.refl s) ..)
    · exact .refl s
  | requestFrame l =>
    cases h; split
    · next ha => exact .stays (portsOnly_receive l _ ha).stays
    · exact .refl s
  | lengthByteCheckFail l =>
    cases h; split
    · next ha => exact .stays (portsOnly_receive l _ (Bool.and_eq_true_iff.1 ha).1).stays
    · exact .refl s
  | frameAbort l received =>
    cases h; split
    · next ha => exact .stays (stays_frameAbort l received ha)
    · exact .refl s
  | statusByte =>
    cases h; split
    · split
      · exact .stays (portsOnly_sendStatus ..).stays
      · exact .stays (portsOnly_endTransfer ..).stays
    · exact .refl s
  | responseDelivery =>
    cases h; split
    · exact .stays ⟨by simp [State.passTransfer], by simp [State.passTransfer]⟩
    · exact .refl s
  | hardReset => exact course_of_hardReset h
  | tableLoad =>
    cases h; split
    · exact .loads
    · exact .refl s
  | classTick | settleEnd | rampTick =>
    cases h; split
    · exact .stays ⟨rfl, rfl⟩
    · exact .refl s
  | classExpiry =>
    cases h; split
    · rw [takeExpiry_frame]; exact .stays ⟨rfl, rfl⟩
    · exact .refl s
  | grant => exact .stays (stays_of_grant h)
  | sample =>
    cases h; split
    · split
      · exact .stays (stays_takeSample ..)
      · exact .refl s
    · exact .refl s
  | calSettleEnd =>
    cases h; split
    · split
      · exact .refl s
      · exact .stays ⟨rfl, rfl⟩
    · exact .refl s
    · exact .refl s
  | calSample =>
    cases h; split
    · split
      · exact .stays (stays_takeCalSample ..)
      · exact .refl s
    · exact .refl s
    · exact .refl s
  | eraseEnd =>
    cases h; split
    · exact .refl s
    · split
      · exact .stays ⟨setBank_phase .., setBank_maintAddress ..⟩
      · exact .refl s
      · exact .refl s
  | entryRecordWrite =>
    cases h; split
    · exact .refl s
    · split
      · split
        · rw [writeRecord_frame]; exact .stays ⟨rfl, rfl⟩
        · exact .refl s
      · exact .refl s
      · exact .refl s
  | markEnd =>
    cases h; split
    · exact .refl s
    · split
      · exact .stays ⟨setBank_phase .., setBank_maintAddress ..⟩
      · exact .refl s
      · exact .refl s
  | powerLoss =>
    cases h; split
    · exact .refl s
    · exact .resets (ph := .off) _ _ _ (.inl rfl)

/-! ## A part that does not run -/

/-- The ports are IDLE, nothing is in progress and the directory is empty (R160, R169, R181). -/
structure State.Dormant (s : State) : Prop where
  ports   : s.hostPort.mode = .idle ∧ s.maintPort.mode = .idle
  idle    : s.calRun = .idle ∧ s.save = none ∧ s.unit = .idle ∧ s.pointer = none
  classes : ∀ c, (s.scanClass c).enabled = false
  empty   : s.attention = [] ∧ s.events = DeviceEvents.none ∧ s.queue = [] ∧ ∀ i, s.slot i = none

theorem phaseInv_iff : PhaseInv s ↔ (s.phase ≠ .running → s.Dormant) ∧ s.maintAddress ∈ maintAddresses := by
  constructor
  · intro h
    exact ⟨fun hp => ⟨h.ports hp, h.idle hp, h.classes hp, h.empty hp⟩, h.address⟩
  · intro ⟨hd, ha⟩
    exact ⟨fun hp => (hd hp).ports, fun hp => (hd hp).idle, fun hp => (hd hp).classes, fun hp => (hd hp).empty, ha⟩

/-- After a hard reset or a loss of power nothing is in progress (R25, R70, R124, R157, R165, R181). -/
theorem dormant_inHardReset (s : State) (ph : Phase) (a : BitVec 7) (f : Nat) (table : Vector Coefficients 12) :
    State.Dormant { s.inHardReset ph a f with calTable := table } where
  ports := ⟨rfl, rfl⟩
  idle := ⟨rfl, rfl, rfl, rfl⟩
  classes c := congrArg ScanClass.enabled (scanClass_reset c)
  empty := ⟨rfl, rfl, rfl, slot_reset⟩

/-- A port of a part that does not run is IDLE. -/
theorem State.Dormant.port_idle (h : s.Dormant) (p : Port) : (s.port p).mode = .idle := by
  obtain ⟨hhost, hmaint⟩ := h.ports
  cases p
  exacts [hhost, hmaint]

/-- What happens to a part that does not run leaves it so, but for the end of the load. -/
theorem dormant_of_move (h : Move s t) (hd : s.Dormant) (hp : s.phase ≠ .running) (ht : t.phase ≠ .running) :
    t.Dormant := by
  obtain ⟨hrun, hsave, hunit, -⟩ := hd.idle
  obtain ⟨hattention, hevents, hqueue, hslots⟩ := hd.empty
  cases h with
  | ports h =>
    have hidle (p : Port) : (t.port p).mode = .idle := by
      by_contra hm
      exact (h.mode p hm).elim hp (absurd (hd.port_idle p))
    refine ⟨⟨hidle .host, hidle .maintenance⟩, ?_, ?_, ?_⟩ <;> rw [h.only]
    exacts [hd.idle, hd.classes, hd.empty]
  | answer p f he hm => exact absurd (hd.port_idle p) hm
  | reset => exact dormant_inHardReset ..
  | load => exact absurd (by rw [loadTable_frame]) ht
  | classTick =>
    refine ⟨hd.ports, hd.idle, fun c => ?_, hd.empty⟩
    have hc : (s.classes.get c).enabled = false := hd.classes c
    rw [State.scanClass, get_mapTable, tick_of_disabled hc]
    exact hc
  | @expiry c he => exact nomatch he.symm.trans (hd.classes c)
  | lend _ hr => exact nomatch hr.symm.trans hrun
  | start _ _ hq => exact nomatch hq.symm.trans hqueue
  | settled hu => exact nomatch hu.symm.trans hunit
  | sample _ hu => exact nomatch hu.symm.trans hunit
  | complete _ hu => exact nomatch hu.symm.trans hunit
  | ramp =>
    refine ⟨hd.ports, hd.idle, hd.classes, hattention, hevents, hqueue, fun i => ?_⟩
    have hi : s.slots.get i = none := hslots i
    simp [State.slot, hi]
  | calSettled hr => exact nomatch hr.symm.trans hrun
  | calSample _ hr => exact nomatch hr.symm.trans hrun
  | calSecond _ _ hr => exact nomatch hr.symm.trans hrun
  | calEnd hr => exact nomatch hr.symm.trans hrun
  | erased hw => exact nomatch hw.symm.trans hsave
  | record _ _ hw => exact nomatch hw.symm.trans hsave
  | marked hw => exact nomatch hw.symm.trans hsave
  | endReset | pulse => exact ⟨hd.ports, hd.idle, hd.classes, hd.empty⟩

/-- Every command keeps the blocks of a part that does not run, and the address (R160, R174, R181). -/
theorem phaseInv_of_exec {c : Instr} (hi : PhaseInv s) (h : exec c s = .next t) : PhaseInv t := by
  obtain ⟨hdormant, haddress⟩ := phaseInv_iff.1 hi
  have hmove := move_of_exec h
  refine phaseInv_iff.2 ?_
  cases course_of_exec h with
  | stays hs =>
    obtain ⟨hp, ha⟩ := hs
    refine ⟨fun ht => ?_, ha ▸ haddress⟩
    have hs : s.phase ≠ .running := hp ▸ ht
    exact dormant_of_move hmove (hdormant hs) hs ht
  | loads => rw [loadTable_frame]; exact ⟨fun ht => absurd rfl ht, haddress⟩
  | resets a f table ha =>
    refine ⟨fun _ => dormant_inHardReset .., ?_⟩
    rcases ha with rfl | ha
    exacts [haddress, ha]
  | wakes a hp ha =>
    have hd := hdormant (by rw [hp]; nofun)
    exact ⟨fun _ => ⟨hd.ports, hd.idle, hd.classes, hd.empty⟩, ha⟩

/-- Every command keeps the phase, the store and the table. -/
theorem storeKept_of_exec {c : Instr} (hp : PhaseInv s) (hs : StoreInv s) (ht : TableInv s)
    (h : exec c s = .next t) : PhaseInv t ∧ StoreInv t ∧ TableInv t := by
  have hstopped (hph : s.phase ≠ .running) : s.StoreStopped := by
    obtain ⟨hrun, hsave, -, hpointer⟩ := hp.idle hph
    exact ⟨hrun, hsave, hpointer⟩
  have hrunning (p : Port) (hm : (s.port p).mode ≠ .idle) : s.phase = .running := by
    by_contra hph
    exact hm (((phaseInv_iff.1 hp).1 hph).port_idle p)
  exact ⟨phaseInv_of_exec hp h,
    inv_of_storeOk (storeOk_of_move (move_of_exec h) hrunning (storeOk_of_inv hstopped hs ht))⟩

/-- Settles O57: the store of one accord with its banks, pointer and save, and the idle blocks of a part that does not
run. -/
theorem storeKept : Obligations.StoreKept := by
  intro s t hp hs ht h
  unfold step at h
  split at h
  · cases h; exact ⟨hp, hs, ht⟩
  · next c rest _ =>
    exact storeKept_of_exec (s := { s with pending := rest }) ⟨hp.ports, hp.idle, hp.classes, hp.empty, hp.address⟩
      ⟨hs.distinct, hs.complete, hs.current, hs.noneValid, hs.target, hs.exclusive⟩
      ⟨ht.table, ht.banks, ht.snapshot, ht.written⟩ h

end Sys2Proof.Machine
end

section
/-! PROOF. A calibration run: CALIBRATE and CAL_ABORT, the measurements of an entry, and the entry's end with its
coefficients (R146 to R155). -/

namespace Sys2Proof.Machine

variable {s : State} {id : Byte} {payload : List Byte} {sc : Scope} {m : Measurement} {input : Int}

/-! ## CALIBRATE (R146, R147) -/

/-- The scope byte names a scope, and with RANGE the range byte a range; any other payload names none (R146). -/
theorem scopeOf_eq_some : scopeOf payload = some sc ↔
    (u8 payload 0 = 1 ∧ sc = .allInputs) ∨
      (u8 payload 0 = 2 ∧ ∃ r : RangeCode, u8 payload 1 = r.val ∧ sc = .range r) ∨
      (u8 payload 0 = 3 ∧ sc = .outputs) ∨ (u8 payload 0 = 4 ∧ sc = .all) := by
  unfold scopeOf
  split
  · next h => simp [h, eq_comm]
  · next h => simp [h, Option.map_eq_some_iff, finOf_eq_some, eq_comm (a := sc)]
  · next h => simp [h, eq_comm]
  · next h => simp [h, eq_comm]
  · next h1 h2 h3 h4 =>
    refine ⟨nofun, ?_⟩
    rintro (⟨h, -⟩ | ⟨h, -⟩ | ⟨h, -⟩ | ⟨h, -⟩)
    exacts [(h1 h).elim, (h2 h).elim, (h3 h).elim, (h4 h).elim]

theorem scopeOf_eq_none
    (h : u8 payload 0 = 0 ∨ 4 < u8 payload 0 ∨ (u8 payload 0 = 2 ∧ 8 ≤ u8 payload 1)) : scopeOf payload = none := by
  refine Option.eq_none_iff_forall_ne_some.2 fun sc hsc => ?_
  rcases scopeOf_eq_some.1 hsc with ⟨h0, -⟩ | ⟨h0, r, hr, -⟩ | ⟨h0, -⟩ | ⟨h0, -⟩ <;> omega

/-- The number of entries that CALIBRATE answers (R147). -/
theorem length_entries (sc : Scope) : sc.entries.length =
    match sc with
    | .allInputs => 8
    | .range _ => 1
    | .outputs => 4
    | .all => 12 := by
  cases sc <;> rfl

theorem requestCalibrate_bad_field
    (h : payload.length ≠ 2 ∨ u8 payload 0 = 0 ∨ 4 < u8 payload 0 ∨ (u8 payload 0 = 2 ∧ 8 ≤ u8 payload 1)) :
    requestCalibrate payload s = .refuse .badField [] := by
  unfold requestCalibrate
  by_cases hl : payload.length = 2
  · rw [if_neg (not_not.2 hl), scopeOf_eq_none (h.resolve_left (not_not.2 hl))]
  · rw [if_pos hl]

section
variable (hl : payload.length = 2) (hsc : scopeOf payload = some sc)
include hl hsc

theorem requestCalibrate_busy (h : s.calRun ≠ .idle ∨ s.save ≠ none) :
    requestCalibrate payload s = .refuse .busy [] := by
  unfold requestCalibrate
  rw [if_neg (not_not.2 hl), hsc]
  dsimp only
  split
  · rfl
  next hr =>
  have hidle : s.calRun = .idle := by simpa [State.runInProgress] using hr
  exact if_pos (Option.isSome_iff_ne_none.2 (h.resolve_left (not_not.2 hidle)))

theorem requestCalibrate_starts (hr : s.calRun = .idle) (hv : s.save = none) :
    requestCalibrate payload s =
      .done { s with calRun := .waiting sc, calResults := Vector.replicate 12 .notRun } (put8 sc.entries.length) := by
  simp [requestCalibrate, hl, hsc, State.runInProgress, hr, State.saveInProgress, hv]
end

/-- Settles O45: the checks in their order, and the WAITING run with the number of its entries. -/
theorem calibrateStartsRun : Obligations.CalibrateStartsRun := by
  intro s id payload hs
  refine ⟨fun h => onlyAnswers_of_refuse hs (requestCalibrate_bad_field h), fun sc n hl hscope => ?_⟩
  have hnamed : scopeOf payload = some sc ∧ put8 sc.entries.length = [n] := by
    rw [scopeOf_eq_some, length_entries]
    rcases hscope with ⟨h0, rfl, rfl⟩ | ⟨h0, ⟨r, hr, rfl⟩, rfl⟩ | ⟨h0, rfl, rfl⟩ | ⟨h0, rfl, rfl⟩
    · exact ⟨.inl ⟨h0, rfl⟩, rfl⟩
    · exact ⟨.inr (.inl ⟨h0, r, hr, rfl⟩), rfl⟩
    · exact ⟨.inr (.inr (.inl ⟨h0, rfl⟩)), rfl⟩
    · exact ⟨.inr (.inr (.inr ⟨h0, rfl⟩)), rfl⟩
  obtain ⟨hsc, hn⟩ := hnamed
  refine ⟨fun h => onlyAnswers_of_refuse hs (requestCalibrate_busy hl hsc h), fun hr hv => ?_⟩
  have hdone := requestCalibrate_starts hl hsc hr hv
  rw [hn] at hdone
  obtain ⟨f, hexec, hanswered⟩ := exec_answers hs hdone rfl rfl
  exact ⟨_, hexec, hanswered, rfl, fun e => get_replicate ..⟩

/-! ## CAL_ABORT (R155) -/

/-- Aborting a RUNNING run gives the channel under calibration back and leaves the other channels (R155). -/
theorem channel_abortRunning (s : State) (m : Measurement) (c : ChannelId) :
    (s.abortRunning m).channel c =
      if m.entry = .output c then { s.channel c with underCal := false } else s.channel c := by
  unfold State.abortRunning
  cases m.entry with
  | input r => rfl
  | output d =>
    change (s.setUnderCal d false).channel c = _
    rw [State.setUnderCal, channel_setChannel]
    by_cases h : d = c
    · subst h; simp
    · simp [h]

/-- Settles O46: the refusals, and the run cancelled or aborted with the run state it was in. -/
theorem calAbortEndsRun : Obligations.CalAbortEndsRun := by
  intro s id payload hs
  refine ⟨fun h => ?_, fun hl hr => ?_, fun sc hl hr => ?_, fun sc m hl hr => ?_⟩
  · exact onlyAnswers_of_refuse hs (if_pos (by simpa using h))
  · subst hl
    exact onlyAnswers_of_refuse hs (by simp [requestBody, requestCalAbort, hr])
  · subst hl
    have hdone : requestBody .calAbort .host [] s =
        .done (State.raiseCalDone { s with calRun := .idle } .aborted) [1] := by
      simp [requestBody, requestCalAbort, hr, CalRun.code, put8]
    obtain ⟨f, hexec, hanswered⟩ := exec_answers hs hdone rfl rfl
    exact ⟨_, hexec, hanswered, rfl⟩
  · subst hl
    have hdone : requestBody .calAbort .host [] s = .done (s.abortRunning m) [2] := by
      simp [requestBody, requestCalAbort, hr, CalRun.code, put8]
    obtain ⟨f, hexec, hanswered⟩ := exec_answers hs hdone (by rw [abortRunning_frame]) (by rw [abortRunning_frame])
    refine ⟨_, hexec, hanswered, ?_, channel_abortRunning s m⟩
    rw [abortRunning_frame]; rfl

/-! ## Measurements (R149, R151) -/

theorem exec_calSettleEnd (hr : s.calRun = .running sc m) :
    exec .calSettleEnd s =
      .next (if m.settled then s else { s with calRun := .running sc { m with settled := true } }) := by
  change execCalSettleEnd s = _
  rw [execCalSettleEnd, hr]

theorem exec_calSample (input : Int) (hr : s.calRun = .running sc m) :
    exec (.calSample input) s = .next (if m.settled then s.takeCalSample sc m input else s) := by
  change execCalSample input s = _
  rw [execCalSample, hr]

/-- Without a measurement its events change nothing (log 1). -/
theorem exec_cal_of_not_running (input : Int) (hr : s.calRun.NotRunning) :
    exec .calSettleEnd s = .next s ∧ exec (.calSample input) s = .next s := by
  change execCalSettleEnd s = _ ∧ execCalSample input s = _
  rw [execCalSettleEnd, execCalSample]
  cases h : s.calRun with
  | idle | waiting => exact ⟨rfl, rfl⟩
  | running sc m => exact absurd h (hr sc m)

/-- A measurement with one sample more. -/
def Measurement.addSample (m : Measurement) (code : Int) : Measurement :=
  { m with sum := m.sum + code, taken := m.taken + 1 }

/-- A sample below the 64th is added. -/
theorem takeCalSample_adds (h : m.taken < 63) :
    s.takeCalSample sc m input =
      { s with calRun := .running sc (m.addSample (converterCode m.entry.sampleRange input)) } :=
  if_neg (by simp only [Config.calSamples]; omega)

/-- The 64th sample ends the measurement. -/
theorem takeCalSample_ends (h : 63 ≤ m.taken) :
    s.takeCalSample sc m input = s.endMeasurement sc (m.addSample (converterCode m.entry.sampleRange input)) :=
  if_pos (by simp only [Config.calSamples]; omega)

/-- The first measurement of an input entry leads to the second, its sum kept (R149). -/
theorem endMeasurement_zero (h : m.phase = .zero) :
    s.endMeasurement sc m = { s with calRun := .running sc (.start m.entry .reference m.sum) } := by
  simp only [State.endMeasurement, h]

/-- The first measurement of a channel leads to the second, its sum kept (R151). -/
theorem endMeasurement_plus (h : m.phase = .plus) :
    s.endMeasurement sc m = { s with calRun := .running sc (.start m.entry .minus m.sum) } := by
  simp only [State.endMeasurement, h]

/-- Settles O47: settling, the samples below the 64th, and the 64th of an entry's first measurement. -/
theorem calMeasurement : Obligations.CalMeasurement := by
  intro s sc m input code r hrange hcode
  have hsample : converterCode m.entry.sampleRange input = code := by
    rw [hcode]
    rcases hrange with he | ⟨⟨c, he⟩, rfl⟩ <;> rw [he] <;> rfl
  refine ⟨fun hr => ?_, exec_cal_of_not_running input⟩
  rw [exec_calSettleEnd hr, exec_calSample input hr]
  refine ⟨fun hset => by simp [hset], fun hset => ?_⟩
  rw [if_pos hset, if_pos hset]
  refine ⟨rfl, fun hn => ?_, fun hn hph => ?_, fun hn hph => ?_⟩
  · rw [takeCalSample_adds hn, hsample, Measurement.addSample]
  · rw [takeCalSample_ends hn, hsample, endMeasurement_zero (m := m.addSample code) hph]; rfl
  · rw [takeCalSample_ends hn, hsample, endMeasurement_plus (m := m.addSample code) hph]; rfl

/-! ## The end of an entry (R149, R151, R152) -/

/-- The measured record is the one that an offset and a gain rounded to nearest give. -/
theorem eq_of_measured {o n d : Int} {x : Coefficients} (hn : 0 ≤ n) (h : Measured o n d x) :
    (if d ≤ 0 then .invalid else accepted o (divNearest n d)) = x := by
  obtain ⟨hinvalid, hvalid⟩ := h
  split
  · next hd => exact (hinvalid hd).symm
  · next hd =>
    rw [hvalid _ (by omega) (nearest_divNearest (by omega) hn)]
    simp [accepted, acceptable, and_assoc]

theorem inputEntryOf_eq {r : RangeCode} {zero reference : Int} {x : Coefficients}
    (h : Measured (zero.tdiv 64) (32768 * (if r.val < 4 then 26214 else 52428) * 64)
      (reference - 64 * zero.tdiv 64) x) : inputEntryOf r zero reference = x := by
  have hexpected : expectedCode r = if r.val < 4 then 26214 else 52428 := by
    simp [expectedCode, bipolar, Config.expectedBipolar, Config.expectedUnipolar]
  rw [← hexpected] at h
  refine eq_of_measured ?_ h
  rw [hexpected]
  split <;> decide

theorem outputEntryOf_eq {e0 x : Coefficients} {plus minus P M : Int} {k : Nat}
    (hmeans : (P, M, k) = (match e0 with
      | .invalid => (plus, minus, 64)
      | .valid o g => ((plus - 64 * o) * g, (minus - 64 * o) * g, 64 * 32768)))
    (h : Measured ((-(P + M)).tdiv (2 * k)) (32768 * 48000 * k) (P - M) x) : outputEntryOf e0 plus minus = x := by
  have hpos : (0 : Int) ≤ 32768 * 48000 * loopbackScale e0 := by cases e0 <;> simp [loopbackScale]
  cases e0 <;> cases hmeans <;> exact eq_of_measured hpos h

theorem measuredResult_eq (x : Coefficients) : measuredResult x = resultOf x := by cases x <;> rfl

/-- The second measurement of an input entry ends it (R149). -/
theorem endMeasurement_input {r : RangeCode} (he : m.entry = .input r) (hph : m.phase = .reference) :
    s.endMeasurement sc m = s.finishEntry sc (.input r) (inputEntryOf r m.earlier m.sum) := by
  simp only [State.endMeasurement, hph, he]

/-- The second measurement of a channel ends its entry (R151, R152). -/
theorem endMeasurement_output {c : ChannelId} (he : m.entry = .output c) (hph : m.phase = .minus) :
    s.endMeasurement sc m =
      s.finishEntry sc (.output c) (outputEntryOf (s.calEntry (.input 0)) m.earlier m.sum) := by
  simp only [State.endMeasurement, hph, he]

section
variable {before rest : List CalEntry}

/-- An input entry is replaced whole with its result, and the entries behind it begin (R149, R153). -/
theorem entriesBegin_finishEntry_input {r : RangeCode} (h : sc.entries = before ++ .input r :: rest)
    (x : Coefficients) :
    EntriesBegin sc rest
      { s with calTable := put s.calTable (CalEntry.input r).place x,
               calResults := put s.calResults (CalEntry.input r).place (resultOf x) }
      (s.finishEntry sc (.input r) x) := by
  rw [← measuredResult_eq, ← Scope.after_eq h]
  exact entriesBegin_beginEntries ..

/-- A channel's entry is replaced whole with its result, its mark is cleared, and the entries behind it begin (R152,
R153). -/
theorem entriesBegin_finishEntry_output {c : ChannelId} (h : sc.entries = before ++ .output c :: rest)
    (x : Coefficients) :
    EntriesBegin sc rest
      { s with calTable := put s.calTable (CalEntry.output c).place x,
               calResults := put s.calResults (CalEntry.output c).place (resultOf x),
               channels := put s.channels c { s.channel c with underCal := false } }
      (s.finishEntry sc (.output c) x) := by
  rw [← measuredResult_eq, ← Scope.after_eq h]
  exact entriesBegin_beginEntries ..
end

/-- Settles O48: the entry from its two sums, its result, its channel's mark, and the entries still to come. -/
theorem calEntryEnd : Obligations.CalEntryEnd := by
  intro s sc m input code last before rest hr hset hn hsc hlast
  have hexec (hcode : converterCode m.entry.sampleRange input = code) :
      exec (.calSample input) s = .next (s.endMeasurement sc (m.addSample code)) := by
    rw [exec_calSample input hr, if_pos hset, takeCalSample_ends hn, hcode]
  refine ⟨fun r o x he hph hcode ho hx => ?_, fun c x P M k he hph hcode hmeans hx => ?_⟩
  · have hentry : inputEntryOf r m.earlier last = x := inputEntryOf_eq (ho ▸ hx)
    refine ⟨_, hexec (by rw [he, hcode]; rfl), ?_⟩
    rw [he] at hsc ⊢
    rw [endMeasurement_input (m := m.addSample code) he hph, Measurement.addSample, ← hlast, hentry]
    exact entriesBegin_finishEntry_input hsc x
  · have hentry : outputEntryOf (s.calEntry (.input 0)) m.earlier last = x := outputEntryOf_eq hmeans hx
    refine ⟨_, hexec (by rw [he, hcode]; rfl), ?_⟩
    rw [he] at hsc ⊢
    rw [endMeasurement_output (m := m.addSample code) he hph, Measurement.addSample, ← hlast, hentry]
    exact entriesBegin_finishEntry_output hsc x

end Sys2Proof.Machine
end

section
/-! PROOF. A save of the Calibration Table: CAL_SAVE with its checks and what it fixes, and the ends of the three phases
of a save (R159, R161 to R163). -/

namespace Sys2Proof.Machine

variable {s t : State} {payload : List Byte} {v : Save} {n target : BankName} {x : Bank} {g : Nat}

/-- A command that writes one bank sets it and leaves the other. -/
theorem bankSet_of_setBank (h : t.bank = (s.setBank n x).bank) : t.bank n = x ∧ ∀ m, m ≠ n → t.bank m = s.bank m := by
  rw [h, bank_setBank_eq_update]
  exact ⟨Function.update_self .., fun m hm => Function.update_of_ne hm ..⟩

/-! ## CAL_SAVE (R161) -/

theorem requestCalSave_busy (h : s.calRun ≠ .idle ∨ s.save ≠ none) : requestCalSave [] s = .refuse .busy [] := by
  by_cases hr : s.calRun = .idle
  · have hv : s.save.isSome = true := Option.isSome_iff_ne_none.2 (h.resolve_left (not_not.2 hr))
    simp [requestCalSave, State.saveInProgress, hv]
  · simp [requestCalSave, State.runInProgress, hr]

theorem requestCalSave_starts (hr : s.calRun = .idle) (hv : s.save = none) :
    requestCalSave [] s =
      .done s.startSave (put8 (bankCode (some (targetOf s.pointer))) ++ put16 s.saveGeneration) := by
  simp [requestCalSave, State.runInProgress, hr, State.saveInProgress, hv]

/-- The generation that follows one in use; 65535 is followed by 1 (R159). -/
theorem nextGeneration_of_le (h : g ≤ 65535) : nextGeneration g = if g = 65535 then 1 else g + 1 := by
  unfold nextGeneration
  split <;> split <;> omega

/-- The bank that is not current is the target, A when there is none. -/
theorem targetOf_eq_of_ne (h : target ≠ n) : targetOf (some n) = target := by
  by_contra ht
  exact h (eq_of_ne_targetOf rfl (Ne.symm ht))

/-- The generation that a save writes fits its two bytes. -/
theorem saveGeneration_le (s : State) : s.saveGeneration ≤ 65535 := (followingGeneration_used s.bank s.pointer).2

theorem bankCode_some (n : BankName) : bankCode (some n) = if n = .a then 1 else 2 := by cases n <;> rfl

theorem bankCode_lt (n : Option BankName) : bankCode n < 256 := by rcases n with _ | _ | _ <;> decide

/-- A save that starts makes its target PARTIAL, with its generation and records kept for the time (R161, log 9). -/
theorem bankSet_startSave (s : State) :
    s.startSave.bank (targetOf s.pointer) = { s.bank (targetOf s.pointer) with state := .part } ∧
      ∀ m, m ≠ targetOf s.pointer → s.startSave.bank m = s.bank m :=
  bankSet_of_setBank rfl

/-- The target and the generation of R161, from the current bank. -/
theorem target_and_generation
    (h : (s.pointer = none ∧ target = .a ∧ g = 1) ∨
      (∃ n, s.pointer = some n ∧ target ≠ n ∧ 1 ≤ (s.bank n).generation ∧ (s.bank n).generation ≤ 65535 ∧
        g = if (s.bank n).generation = 65535 then 1 else (s.bank n).generation + 1)) :
    targetOf s.pointer = target ∧ s.saveGeneration = g := by
  unfold State.saveGeneration
  rcases h with ⟨hp, rfl, rfl⟩ | ⟨n, hp, hn, -, hg, rfl⟩ <;> rw [hp]
  · exact ⟨rfl, rfl⟩
  · exact ⟨targetOf_eq_of_ne hn, nextGeneration_of_le hg⟩

/-- Settles O49: the checks in their order, and the save that starts with the target and the generation it answers. -/
theorem calSaveStartsSave : Obligations.CalSaveStartsSave := by
  intro s id payload hs
  refine ⟨fun h => ?_, fun hl h => ?_, fun target g hl hr hv htarget => ?_⟩
  · exact onlyAnswers_of_refuse hs (if_pos (mt List.length_eq_zero_iff.1 h))
  · subst hl
    exact onlyAnswers_of_refuse hs (requestCalSave_busy h)
  · subst hl
    obtain ⟨rfl, rfl⟩ := target_and_generation htarget
    obtain ⟨f, hexec, hanswered⟩ :=
      exec_answers hs (requestCalSave_starts hr hv) (by rw [startSave_frame]) (by rw [startSave_frame])
    refine ⟨_, _, hexec, hanswered, rfl, ?_, u16_put16_nat (saveGeneration_le s), ?_, bankSet_startSave s⟩
    · rw [← bankCode_some]
      exact u8_put8 (bankCode_lt _)
    · rw [startSave_frame]; rfl

/-! ## The phases (R162, R163) -/

theorem exec_eraseEnd (hv : s.save = some v) (hp : v.phase = .erase) :
    exec .eraseEnd s = .next { s.setBank v.target Bank.erased with save := some { v with phase := .write 0 } } := by
  change execEraseEnd s = _
  simp only [execEraseEnd, hv, hp]

theorem exec_entryRecordWrite {i : Fin 12} (y : Coefficients) (hv : s.save = some v) (hp : v.phase = .write i.val) :
    exec (.entryRecordWrite y) s = .next (s.writeRecord v i y) := by
  change execEntryRecordWrite y s = _
  simp only [execEntryRecordWrite, hv, hp, dif_pos i.isLt]

theorem exec_markEnd (hv : s.save = some v) (hp : v.phase = .mark) :
    exec .markEnd s =
      .next (State.endSave
        { s.setBank v.target { s.bank v.target with state := .valid, generation := v.generation } with
          pointer := some v.target } .ok) := by
  change execMarkEnd s = _
  simp only [execMarkEnd, hv, hp]

/-- The end of a phase outside that phase changes nothing (log 1). -/
theorem exec_eraseEnd_of_not_erase (h : ∀ v, s.save = some v → v.phase ≠ .erase) : exec .eraseEnd s = .next s := by
  change execEraseEnd s = _
  unfold execEraseEnd
  split
  · rfl
  next v hv =>
  split
  · next hp => exact absurd hp (h v hv)
  all_goals rfl

theorem exec_entryRecordWrite_of_not_write (y : Coefficients) (h : ∀ v k, s.save = some v → v.phase ≠ .write k) :
    exec (.entryRecordWrite y) s = .next s := by
  change execEntryRecordWrite y s = _
  unfold execEntryRecordWrite
  split
  · rfl
  next v hv =>
  split
  · next k hp => exact absurd hp (h v k hv)
  all_goals rfl

theorem exec_markEnd_of_not_mark (h : ∀ v, s.save = some v → v.phase ≠ .mark) : exec .markEnd s = .next s := by
  change execMarkEnd s = _
  unfold execMarkEnd
  split
  · rfl
  next v hv =>
  split
  · next hp => exact absurd hp (h v hv)
  all_goals rfl

/-- A record joins its bank whatever was read back (R162). -/
theorem bankSet_writeRecord (s : State) (v : Save) (i : Fin 12) (y : Coefficients) :
    (s.writeRecord v i y).bank v.target =
        { s.bank v.target with state := .part, entries := (s.bank v.target).entries ++ [y] } ∧
      ∀ m, m ≠ v.target → (s.writeRecord v i y).bank m = s.bank m := by
  refine bankSet_of_setBank ?_
  unfold State.writeRecord
  dsimp only
  split <;> rfl

/-- A record read back as written leads to the next one or to MARK (R162). -/
theorem writeRecord_of_match {i : Fin 12} {y : Coefficients} (h : y = v.snapshot.get i) :
    s.writeRecord v i y =
      { s with save := some { v with phase := if i.val = 11 then .mark else .write (i.val + 1) }
               bankA := (s.writeRecord v i y).bankA, bankB := (s.writeRecord v i y).bankB } := by
  unfold State.writeRecord
  dsimp only
  rw [if_pos h, setBank_frame]

/-- A record read back otherwise ends the save FAILED (R163). -/
theorem writeRecord_of_mismatch {i : Fin 12} {y : Coefficients} (h : y ≠ v.snapshot.get i) :
    s.writeRecord v i y =
      { s with save := none, events := { s.events with saveDone := some .failed }
               bankA := (s.writeRecord v i y).bankA, bankB := (s.writeRecord v i y).bankB } := by
  unfold State.writeRecord
  dsimp only
  rw [if_neg h, setBank_frame]
  rfl

/-- Settles O50: the end of each phase, and a phase's end outside it. -/
theorem savePhases : Obligations.SavePhases := by
  refine ⟨fun s v hv => ⟨fun hp => ?_, fun i y hp => ?_, fun hp => ?_⟩, fun s y =>
    ⟨exec_eraseEnd_of_not_erase, exec_entryRecordWrite_of_not_write y, exec_markEnd_of_not_mark⟩⟩
  · refine ⟨_, exec_eraseEnd hv hp, ?_, bankSet_of_setBank rfl⟩
    rw [setBank_frame]
  · obtain ⟨htarget, hother⟩ := bankSet_writeRecord s v i y
    exact ⟨_, exec_entryRecordWrite y hv hp, htarget, hother, writeRecord_of_match, writeRecord_of_mismatch⟩
  · refine ⟨_, exec_markEnd hv hp, ?_, bankSet_of_setBank rfl⟩
    rw [setBank_frame]
    rfl

end Sys2Proof.Machine
end

section
/-! PROOF. The store across a reset: the load chooses the current bank and copies it, and a hard reset or a loss of
power abandons a save and leaves the banks (R159, R160, R164). -/

namespace Sys2Proof.Machine

variable {s : State} {a b : Bank} {n : BankName} {e : Instr}

/-! ## The load (R159, R160) -/

theorem currentBank_of_none_valid (ha : a.state ≠ .valid) (hb : b.state ≠ .valid) : currentBank a b = none := by
  simp only [currentBank, if_neg ha, if_neg hb]

theorem currentBank_of_a_valid (ha : a.state = .valid) (hb : b.state ≠ .valid) : currentBank a b = some .a := by
  simp only [currentBank, if_pos ha, if_neg hb]

theorem currentBank_of_b_valid (ha : a.state ≠ .valid) (hb : b.state = .valid) : currentBank a b = some .b := by
  simp only [currentBank, if_neg ha, if_pos hb]

/-- Of two VALID banks the one with the later generation is current (R159). -/
theorem currentBank_of_both_valid (ha : a.state = .valid) (hb : b.state = .valid) :
    currentBank a b =
      if 1 ≤ ((b.generation : Int) - (a.generation : Int)) % 65536 ∧
        ((b.generation : Int) - (a.generation : Int)) % 65536 ≤ 32767 then some .b else some .a := by
  simp only [currentBank, if_pos ha, if_pos hb]

theorem loadTable_pointer (s : State) : s.loadTable.pointer = currentBank s.bankA s.bankB := by
  rw [loadTable_frame]

theorem get_tableOf (l : List Coefficients) (i : Fin 12) : (tableOf l).get i = l.getD i.val .invalid :=
  Vector.get_ofFn ..

/-- The load with a current bank copies its records (R160). -/
theorem loadTable_of_current (h : currentBank s.bankA s.bankB = some n) :
    s.loadTable = { s with phase := .running, pointer := some n, calTable := tableOf (s.bank n).entries } := by
  simp only [State.loadTable, h]

/-- The load with no VALID bank makes every entry INVALID and raises STORE_EMPTY (R160). -/
theorem loadTable_of_none (h : currentBank s.bankA s.bankB = none) :
    s.loadTable =
      { s with phase := .running, pointer := none, calTable := Vector.replicate 12 .invalid,
               events := { s.events with storeEmpty := true } } := by
  simp only [State.loadTable, h]

/-- Settles O12: the bank chosen by the states and generations, its records in the table, or STORE_EMPTY. -/
theorem tableLoadChoosesBank : Obligations.TableLoadChoosesBank := by
  refine fun s => ⟨fun hp => ⟨s.loadTable, congrArg _ (if_pos hp), ?_, ?_⟩, fun hp => congrArg _ (if_neg hp)⟩
  · rw [loadTable_frame]
  · rw [loadTable_pointer]
    refine ⟨currentBank_of_none_valid, currentBank_of_a_valid, currentBank_of_b_valid, currentBank_of_both_valid,
      fun n hn => ?_, fun hn => ?_⟩
    · rw [loadTable_of_current hn]
      exact ⟨get_tableOf _, rfl⟩
    · rw [loadTable_of_none hn]
      exact ⟨get_replicate _, rfl⟩

/-! ## A save cut short (R164) -/

theorem exec_powerLoss (h : s.phase ≠ .off) :
    exec .powerLoss s =
      .next { s.inHardReset .off s.maintAddress s.freeIndex with calTable := Vector.replicate 12 .invalid } :=
  congrArg _ (if_neg h)

theorem exec_powerLoss_of_off (h : s.phase = .off) : exec .powerLoss s = .next s := congrArg _ (if_pos h)

/-- A hard reset of a part with power begins, whatever its cause (R182). -/
theorem exec_hardReset_begins (cause : ResetCause) (h : s.phase ≠ .off) :
    exec (.hardReset (.begins cause)) s = .next (s.inHardReset .inReset s.maintAddress s.freeIndex) :=
  congrArg _ (if_pos (by simp [State.resettable, h]))

/-- Each command that cuts a save short puts the part at its reset values with the banks kept. -/
theorem exec_cuts_short (h : s.phase ≠ .off)
    (he : e ∈ [.powerLoss, .hardReset (.begins .nReset), Instr.hardReset (.begins .powerOn)]) :
    ∃ ph table,
      exec e s = .next { s.inHardReset ph s.maintAddress s.freeIndex with calTable := table } := by
  simp only [List.mem_cons, List.not_mem_nil, or_false] at he
  rcases he with rfl | rfl | rfl
  · exact ⟨_, _, exec_powerLoss h⟩
  · exact ⟨_, s.calTable, exec_hardReset_begins _ h⟩
  · exact ⟨_, s.calTable, exec_hardReset_begins _ h⟩

/-- The target is EMPTY between its erase and its first record, and PARTIAL else (R162). -/
theorem state_of_savePhaseOk {w : Save} (h : savePhaseOk w b) :
    b.state = if w.phase = .write 0 then .empty else .part := by
  unfold savePhaseOk at h
  cases hp : w.phase with
  | erase => rw [hp] at h; exact h
  | write k =>
    rw [hp] at h
    obtain ⟨-, -, hstate⟩ := h
    simp only [hstate, SavePhase.write.injEq]
  | mark =>
    rw [hp] at h
    obtain ⟨-, hstate⟩ := h
    exact hstate

/-- Settles O14: the save is gone with its event, the banks stay, and the target is as its phase had reached. -/
theorem saveCutShort : Obligations.SaveCutShort := by
  refine ⟨fun s v e hs hrun hv he => ?_, fun s => ⟨exec_powerLoss, exec_powerLoss_of_off⟩⟩
  obtain ⟨ph, table, hexec⟩ := exec_cuts_short (by rw [hrun]; nofun) he
  obtain ⟨-, -, hphase⟩ := hs.target v hv
  refine ⟨_, hexec, rfl, rfl, fun n => rfl, (state_of_savePhaseOk hphase).trans ?_, hs.current⟩
  rcases v.phase with _ | (_ | k) | _ <;> rfl

end Sys2Proof.Machine
end

section
/-! PROOF. Frames: what the frame check makes of the bytes of a transfer, and the round trip of requests, responses and
codes (R167, R183, R184). -/

namespace Sys2Proof

/-! ## The frame check by its branches (R167, R172) -/

section
variable {p : Port} {bytes : List Byte}

theorem lengthPasses_iff {b : Byte} : lengthPasses b = true ↔ 5 ≤ b.toNat ∧ b.toNat ≤ 64 := by simp [lengthPasses]

/-- Past the length check a transfer is cut short, or its L bytes are closed by their CRC, or they are not. -/
theorem frameCheck_of_length (h5 : 5 ≤ (byteAt bytes 0).toNat) (h64 : (byteAt bytes 0).toNat ≤ 64) :
    frameCheck p bytes =
      if bytes.length < (byteAt bytes 0).toNat then .short
      else if (bytes.take (byteAt bytes 0).toNat).drop ((byteAt bytes 0).toNat - 2)
          = crcBytes (bytes.take ((byteAt bytes 0).toNat - 2)) then
        .good ⟨byteAt bytes 1, byteAt bytes 2, (bytes.take ((byteAt bytes 0).toNat - 2)).drop 3⟩
      else .badCrc := by
  cases bytes with
  | nil => exact absurd h5 (by decide)
  | cons b rest =>
    change 5 ≤ b.toNat at h5
    change b.toNat ≤ 64 at h64
    have hb : b ≠ 0 := by rintro rfl; exact absurd h5 (by decide)
    have hpass : lengthPasses b = true := lengthPasses_iff.2 ⟨h5, h64⟩
    have htake : min (b.toNat - 2) b.toNat = b.toNat - 2 := by omega
    rw [frameCheck_cons, if_neg (fun h => hb h.2), if_neg (by simp [hpass]), List.take_take, htake,
      byteAt_take (by omega), byteAt_take (by omega)]
    rfl

theorem frameCheck_of_short (h5 : 5 ≤ (byteAt bytes 0).toNat) (h64 : (byteAt bytes 0).toNat ≤ 64)
    (h : bytes.length < (byteAt bytes 0).toNat) : frameCheck p bytes = .short := by
  rw [frameCheck_of_length h5 h64, if_pos h]

theorem frameCheck_of_badCrc (h5 : 5 ≤ (byteAt bytes 0).toNat) (h64 : (byteAt bytes 0).toNat ≤ 64)
    (h : (byteAt bytes 0).toNat ≤ bytes.length)
    (hcrc : (bytes.take (byteAt bytes 0).toNat).drop ((byteAt bytes 0).toNat - 2)
      ≠ crcBytes (bytes.take ((byteAt bytes 0).toNat - 2))) : frameCheck p bytes = .badCrc := by
  rw [frameCheck_of_length h5 h64, if_neg (Nat.not_lt.2 h), if_neg hcrc]

/-- At the L-th byte of a frame the check is over, whichever way it ends. -/
theorem frameCheck_of_complete (h5 : 5 ≤ (byteAt bytes 0).toNat) (h64 : (byteAt bytes 0).toNat ≤ 64)
    (h : (byteAt bytes 0).toNat ≤ bytes.length) :
    (∃ q, frameCheck p bytes = .good q) ∨ frameCheck p bytes = .badCrc := by
  rw [frameCheck_of_length h5 h64, if_neg (Nat.not_lt.2 h)]
  split
  · exact .inl ⟨_, rfl⟩
  · exact .inr rfl

theorem frameCheck_of_badLength {b : Byte} (rest : List Byte) (h : b.toNat < 5 ∨ 64 < b.toNat)
    (hfetch : ¬ (p = .host ∧ b = 0)) : frameCheck p (b :: rest) = .badLength := by
  have hpass : lengthPasses b = false := by
    rw [Bool.eq_false_iff, Ne, lengthPasses_iff]
    omega
  rw [frameCheck_cons, if_neg hfetch, if_pos hpass]

end

/-! ## Request and response frames (R183, R184) -/

/-- The length byte of a request frame of at most 59 payload bytes. -/
theorem requestFrameOf_length_byte (q : Request) (extra : List Byte) (h : q.payload.length ≤ 59) :
    (byteAt (requestFrameOf q ++ extra) 0).toNat = q.payload.length + 5 := by
  change (BitVec.ofNat 8 (q.payload.length + 5)).toNat = _
  rw [BitVec.toNat_ofNat, Nat.mod_eq_of_lt (by omega)]

/-- A request frame passes the check of either port as its request, whatever follows it. -/
theorem frameCheck_requestFrameOf (p : Port) (q : Request) (extra : List Byte) (h : q.payload.length ≤ 59) :
    frameCheck p (requestFrameOf q ++ extra) = .good q := by
  have hL := requestFrameOf_length_byte q extra h
  have hframe : (requestFrameOf q ++ extra).take (q.payload.length + 5) = requestFrameOf q :=
    List.take_left' (length_requestFrameOf q)
  have hcovered : (requestFrameOf q ++ extra).take (q.payload.length + 3) =
      BitVec.ofNat 8 (q.payload.length + 5) :: q.code :: q.id :: q.payload := by
    rw [requestFrameOf, withCrc, List.append_assoc]
    exact List.take_left' (by simp)
  have hcrc : (requestFrameOf q).drop (q.payload.length + 3) =
      crcBytes (BitVec.ofNat 8 (q.payload.length + 5) :: q.code :: q.id :: q.payload) :=
    List.drop_left' (by simp)
  rw [frameCheck_of_length (by omega) (by omega), hL, if_neg (by simp [length_requestFrameOf]), hframe,
    show q.payload.length + 5 - 2 = q.payload.length + 3 by omega, hcovered, if_pos hcrc]
  rfl

/-- A response frame at its offsets: length byte, echoes, status, payload. -/
theorem responseFrame_fields (q : Request) (st : Status) (payload : List Byte) (h : payload.length ≤ 249) :
    (byteAt (responseFrame q st payload) 0).toNat = payload.length + 6 ∧
    byteAt (responseFrame q st payload) 1 = q.code ∧ byteAt (responseFrame q st payload) 2 = q.id ∧
    byteAt (responseFrame q st payload) 3 = statusCode st ∧
    ((responseFrame q st payload).drop 4).take payload.length = payload := by
  refine ⟨?_, rfl, rfl, rfl, List.take_left' rfl⟩
  change (BitVec.ofNat 8 (payload.length + 6)).toNat = _
  rw [BitVec.toNat_ofNat, Nat.mod_eq_of_lt (by omega)]

/-! ## Request codes (R176) -/

theorem requestKind_requestCode (k : RequestKind) : requestKind (requestCode k) = some k := by cases k <;> rfl

/-- A code names a request exactly when it is that request's code. -/
theorem requestKind_eq_some {code : Byte} {k : RequestKind} : requestKind code = some k ↔ code = requestCode k := by
  refine ⟨fun h => ?_, fun h => h ▸ requestKind_requestCode k⟩
  have hfound : (requestCode k == code) = true := List.find?_some (p := fun k => requestCode k == code) h
  exact (eq_of_beq hfound).symm

/-- Settles O9: the frame's length byte, its parts and its CRC come back as they were put. -/
theorem frameRoundTrip : Obligations.FrameRoundTrip := by
  refine ⟨fun p q extra h => ⟨frameCheck_requestFrameOf p q extra h, crc16_withCrc _, length_requestFrameOf q⟩,
    fun q st payload h => ?_, requestKind_requestCode⟩
  obtain ⟨hlength, hcode, hid, hstatus, hpayload⟩ := responseFrame_fields q st payload h
  exact ⟨hlength.trans (length_responseFrame q st payload).symm, length_responseFrame q st payload, hcode, hid, hstatus,
    hpayload, crc16_withCrc _⟩

end Sys2Proof
end

section
/-! PROOF. The Request Engine: what a request's checks and effects leave of the ports and put in a refusal, whom a grant
serves, and the requests that do not end in OK (R175 to R177). -/

namespace Sys2Proof.Machine

variable {s e t : State} {p : Port} {k : RequestKind} {id code : Byte} {payload bytes : List Byte} {st : Status}

/-! ## Refusals and effects, request by request (R176) -/

/-- A refusal carries n bytes, and effects leave the ports: what every request but SOFT_RESET comes to. -/
def Answer.Plain (s : State) (n : Nat) : Answer → Prop
  | .refuse _ bytes => bytes.length = n
  | .done t _ => t.hostPort = s.hostPort ∧ t.maintPort = s.maintPort

theorem plain_onPoint {n : Nat} {f : SlotId → PointRecord → Answer} (h : ∀ i r, (f i r).Plain s 0) :
    (s.onPoint payload n f).Plain s 0 := by
  unfold State.onPoint
  split
  · rfl
  · split
    · rfl
    · split
      · rfl
      · exact h _ _

theorem plain_defineInputChecks (i : SlotId) (tag : Nat) : (s.defineInputChecks i tag payload).Plain s 0 := by
  unfold State.defineInputChecks
  split
  · rfl
  · split
    · exact ⟨rfl, rfl⟩
    · rfl

theorem plain_defineOutputChecks (i : SlotId) (tag : Nat) : (s.defineOutputChecks i tag payload).Plain s 0 := by
  unfold State.defineOutputChecks
  split
  · rfl
  · split
    · rfl
    · split
      · rfl
      · exact ⟨rfl, rfl⟩

theorem plain_requestDefine : (requestDefine payload s).Plain s 0 := by
  unfold requestDefine
  split
  · rfl
  · split
    · rfl
    · split
      · rfl
      · split
        · rfl
        · split
          · exact plain_defineInputChecks _ _
          · exact plain_defineOutputChecks _ _

theorem plain_requestNext : (requestNext payload s).Plain s 0 := by
  unfold requestNext
  split
  · rfl
  · split
    · rfl
    · exact ⟨rfl, rfl⟩

theorem plain_modifyInputChecks (i : SlotId) (r : PointRecord) (c : InputConfig) (v : ValuePart)
    (items : List ModifyItem) : (s.modifyInputChecks i r c v items).Plain s 1 := by
  unfold State.modifyInputChecks
  split
  · rfl
  · split
    · rfl
    · split
      · rfl
      · rw [modifyInput_frame]; exact ⟨rfl, rfl⟩

theorem plain_modifyOutputChecks (i : SlotId) (r : PointRecord) (c : OutputConfig) (x : CodePart)
    (items : List ModifyItem) : (s.modifyOutputChecks i r c x items).Plain s 1 := by
  unfold State.modifyOutputChecks
  split
  · rfl
  · split
    · rfl
    · exact ⟨writeOutput_hostPort .., writeOutput_maintPort ..⟩

theorem plain_requestModify : (requestModify payload s).Plain s 1 := by
  unfold requestModify
  split
  · rfl
  · split
    · rfl
    · split
      · rfl
      · split
        · exact plain_modifyInputChecks ..
        · exact plain_modifyOutputChecks ..

theorem plain_holdPoint (i : SlotId) (r : PointRecord) : (Answer.done (s.holdPoint i r) bytes).Plain s 0 := by
  rw [holdPoint_frame]; exact ⟨rfl, rfl⟩

theorem plain_releasePoint (i : SlotId) (r : PointRecord) : (Answer.done (s.releasePoint i r) bytes).Plain s 0 := by
  rw [releasePoint_frame]; exact ⟨rfl, rfl⟩

theorem plain_retirePoint (i : SlotId) (r : PointRecord) : (Answer.done (s.retirePoint i r) bytes).Plain s 0 := by
  rw [retirePoint_frame]; exact ⟨rfl, rfl⟩

theorem plain_requestClass : (requestClass payload s).Plain s 0 := by
  unfold requestClass
  split
  · rfl
  · split
    · split
      · rfl
      · exact ⟨rfl, rfl⟩
    · rfl

theorem plain_requestRead : (requestRead payload s).Plain s 0 := by
  unfold requestRead
  split
  · rfl
  · split
    · rfl
    · exact ⟨rfl, rfl⟩

theorem plain_requestPeek : (requestPeek payload s).Plain s 0 := by
  unfold requestPeek
  split
  · rfl
  · exact ⟨rfl, rfl⟩

theorem plain_requestAck : (requestAck payload s).Plain s 0 := by
  unfold requestAck
  split
  · rfl
  · split
    · rfl
    · split
      · exact ⟨rfl, rfl⟩
      · split
        · rfl
        · split
          · rfl
          · exact ⟨rfl, rfl⟩

theorem plain_stagePoint (x : Int) (i : SlotId) (r : PointRecord) : (s.stagePoint p x i r).Plain s 0 := by
  unfold State.stagePoint
  split
  · rfl
  · split
    · rfl
    · split
      · rfl
      · exact ⟨rfl, rfl⟩

theorem plain_requestCommit : (requestCommit payload s).Plain s 0 := by
  unfold requestCommit
  split
  · rfl
  · exact ⟨rfl, rfl⟩

theorem plain_requestDiscard : (requestDiscard payload s).Plain s 0 := by
  unfold requestDiscard
  split
  · rfl
  · exact ⟨rfl, rfl⟩

theorem plain_requestCalibrate : (requestCalibrate payload s).Plain s 0 := by
  unfold requestCalibrate
  split
  · rfl
  · split
    · rfl
    · split
      · rfl
      · split
        · rfl
        · exact ⟨rfl, rfl⟩

theorem plain_requestCalAbort : (requestCalAbort payload s).Plain s 0 := by
  unfold requestCalAbort
  split
  · rfl
  · split
    · rfl
    · exact ⟨rfl, rfl⟩
    · rw [abortRunning_frame]; exact ⟨rfl, rfl⟩

theorem plain_requestCalSave : (requestCalSave payload s).Plain s 0 := by
  unfold requestCalSave
  split
  · rfl
  · split
    · rfl
    · split
      · rfl
      · rw [startSave_frame]; exact ⟨rfl, rfl⟩

theorem plain_requestStatus : (requestStatus payload s).Plain s 0 := by
  unfold requestStatus
  split
  · rfl
  · exact ⟨rfl, rfl⟩

/-- Every request but SOFT_RESET leaves the ports, and its refusal carries no payload, MODIFY's a position
(R33, R176). -/
theorem plain_requestBody (h : k ≠ .softReset) :
    (requestBody k p payload s).Plain s (if k = .modify then 1 else 0) := by
  cases k with
  | define => exact plain_requestDefine
  | lookup => exact plain_onPoint fun _ _ => ⟨rfl, rfl⟩
  | nextTag => exact plain_requestNext
  | modify => exact plain_requestModify
  | hold => exact plain_onPoint plain_holdPoint
  | release => exact plain_onPoint plain_releasePoint
  | retire => exact plain_onPoint fun _ _ => plain_retirePoint _ _
  | classSet => exact plain_requestClass
  | read => exact plain_requestRead
  | peek => exact plain_requestPeek
  | ack => exact plain_requestAck
  | stage => exact plain_onPoint (plain_stagePoint _)
  | commit => exact plain_requestCommit
  | discard => exact plain_requestDiscard
  | calibrate => exact plain_requestCalibrate
  | calAbort => exact plain_requestCalAbort
  | calSave => exact plain_requestCalSave
  | status => exact plain_requestStatus
  | softReset => exact absurd rfl h

theorem requestSoftReset_of_empty (h : payload = []) :
    requestSoftReset payload s = .done { s.softResetBlocks with maintPort := s.maintPort.dropRequest } [] := by
  subst h; rfl

theorem requestSoftReset_of_payload (h : payload ≠ []) : requestSoftReset payload s = .refuse .badField [] :=
  if_pos (mt List.length_eq_zero_iff.1 h)

/-- Effects leave the port that receives the response, and but for SOFT_RESET the other port too. -/
theorem port_of_done (h : requestBody k p payload s = .done e bytes) (ha : allowedOn p k = true) :
    e.port p = s.port p ∧ (k ≠ .softReset → ∀ p', e.port p' = s.port p') := by
  by_cases hk : k = .softReset
  · subst hk
    have hhost : p = .host := by
      cases p
      · rfl
      · cases ha
    subst hhost
    refine ⟨?_, fun hk => absurd rfl hk⟩
    by_cases hp : payload = []
    · rw [requestBody, requestSoftReset_of_empty hp] at h; cases h; rfl
    · rw [requestBody, requestSoftReset_of_payload hp] at h; cases h
  · have hplain := plain_requestBody (s := s) (p := p) (payload := payload) hk
    rw [h] at hplain
    obtain ⟨hhost, hmaint⟩ := hplain
    have hports : ∀ p', e.port p' = s.port p' := fun p' => by
      cases p'
      exacts [hhost, hmaint]
    exact ⟨hports p, fun _ => hports⟩

/-- A refusal carries no payload but for MODIFY's position byte. -/
theorem length_of_refuse (h : requestBody k p payload s = .refuse st bytes) :
    bytes = [] ∨ (k = .modify ∧ bytes.length = 1) := by
  by_cases hk : k = .softReset
  · subst hk
    by_cases hp : payload = []
    · rw [requestBody, requestSoftReset_of_empty hp] at h; cases h
    · rw [requestBody, requestSoftReset_of_payload hp] at h; cases h; exact .inl rfl
  · have hplain := plain_requestBody (s := s) (p := p) (payload := payload) hk
    rw [h] at hplain
    change bytes.length = _ at hplain
    split at hplain
    · next hm => exact .inr ⟨hm, hplain⟩
    · exact .inl (List.length_eq_zero_iff.1 hplain)

/-! ## A grant of the engine (R175) -/

/-- A grant that is made refuses the request and leaves everything else, or carries it out and places its response. -/
inductive Granted (s : State) (p : Port) (k : RequestKind) (id : Byte) (payload : List Byte) : State → Prop
  | refused {st : Status} {bytes : List Byte} : bytes = [] ∨ (k = .modify ∧ p = .host ∧ bytes.length = 1) →
      Granted s p k id payload (s.placeResponse p (responseFrame (requestOf k id payload) st bytes))
  | done {e : State} {bytes : List Byte} : e.port p = s.port p →
      (k ≠ .softReset → ∀ p', e.port p' = s.port p') →
      Granted s p k id payload (e.placeResponse p (responseFrame (requestOf k id payload) .ok bytes))

/-- The maintenance port may not send MODIFY (R177). -/
theorem eq_host_of_modify_allowed (h : allowedOn p .modify = true) : p = .host := by
  cases p
  · rfl
  · cases h

theorem granted_of_serves (h : s.serves p (requestOf k id payload) = true) :
    ∃ t, exec (requestCommand k p id payload) s = .next t ∧ Granted s p k id payload t := by
  refine ⟨_, exec_requestCommand _ _ _ _ _, ?_⟩
  rcases ha : allowedOn p k with _ | _
  · rw [grantRequest_of_denied h ha]
    exact .refused (.inl rfl)
  · rw [grantRequest_of_served ⟨h, ha⟩]
    cases hb : requestBody k p payload s with
    | refuse st bytes =>
      refine .refused ((length_of_refuse hb).imp_right ?_)
      rintro ⟨rfl, hl⟩
      exact ⟨rfl, eq_host_of_modify_allowed ha, hl⟩
    | done e bytes =>
      obtain ⟨hp, hports⟩ := port_of_done hb ha
      exact .done hp hports

/-! ## Requests answered without being carried out (R176, R177) -/

/-- A code outside the nineteen names no request. -/
theorem requestKind_of_not_mem (h : code ∉ [0x10, 0x11, 0x12, 0x13, 0x14, 0x15, 0x16, 0x20, 0x28, 0x30, 0x31, 0x40,
    0x41, 0x42, 0x50, 0x51, 0x58, 0x60, (0x6F : Byte)]) : requestKind code = none := by
  rcases hk : requestKind code with _ | k
  · rfl
  · rw [requestKind_eq_some.1 hk] at h
    exact absurd (by cases k <;> decide) h

/-- The eleven requests the maintenance port may not send are those with these codes. -/
theorem mem_of_deniedCode (h : deniedCode code = true) :
    code ∈ [0x10, 0x13, 0x14, 0x15, 0x16, 0x20, 0x42, 0x50, 0x51, 0x58, (0x6F : Byte)] := by
  unfold deniedCode at h
  split at h
  · next k hk =>
    rw [requestKind_eq_some.1 hk]
    revert h
    cases k <;> decide
  · nomatch h

theorem allowedOnMaintenance_of_mem (h : k ∈ [.define, .modify, .hold, .release, .retire, .classSet, .discard,
    .calibrate, .calAbort, .calSave, RequestKind.softReset]) : allowedOnMaintenance k = false := by
  revert h; cases k <;> decide

theorem exec_unknownRequestCode_of_not_due
    (h : s.serves p ⟨code, id, payload⟩ = false ∨ ∃ k, code = requestCode k) :
    exec (.unknownRequestCode p code id payload) s = .next s := by
  refine congrArg _ (if_neg ?_)
  rcases h with h | ⟨k, rfl⟩
  · simp [h]
  · simp [requestKind_requestCode]

theorem exec_deniedOnMaintenancePort_of_not_due
    (h : s.serves .maintenance ⟨code, id, payload⟩ = false ∨
      code ∉ [0x10, 0x13, 0x14, 0x15, 0x16, 0x20, 0x42, 0x50, 0x51, 0x58, (0x6F : Byte)]) :
    exec (.deniedOnMaintenancePort code id payload) s = .next s := by
  refine congrArg _ (if_neg fun hd => ?_)
  obtain ⟨hserves, hdenied⟩ := Bool.and_eq_true_iff.1 hd
  rcases h with h | h
  · rw [h] at hserves; cases hserves
  · exact h (mem_of_deniedCode hdenied)

/-- A command that places a response in a state left alone only answers. -/
theorem onlyAnswers_of_placeResponse {c : Instr} {q : Request}
    (h : exec c s = .next (s.placeResponse p (responseFrame q st bytes))) : OnlyAnswers c s p q st bytes :=
  ⟨_, h, answered_placeResponse (fun _ => rfl) .., placeResponse_eq_withPorts ..⟩

/-- Settles O3: whom the engine serves, what every grant it makes leaves of the ports, and the grants not due. -/
theorem engineServesInTurn : Obligations.EngineServesInTurn := by
  refine ⟨serves_iff, fun k p id payload s => ⟨fun h => ?_, fun h => ?_⟩, fun p code id payload s =>
    ⟨exec_unknownRequestCode_of_not_due, exec_deniedOnMaintenancePort_of_not_due⟩⟩
  · obtain ⟨_, hexec, hgrant⟩ := granted_of_serves h
    cases hgrant with
    | refused =>
      exact ⟨_, _, _, hexec, port_placeResponse_self .., fun _ _ hp => port_placeResponse_ne _ _ hp.symm, by simp⟩
    | done hport hports =>
      exact ⟨_, _, _, hexec, by rw [port_placeResponse_self, hport],
        fun hk p' hp => by rw [port_placeResponse_ne _ _ hp.symm, hports hk], by simp⟩
  · rw [exec_requestCommand, grantRequest_of_not_serves h]

/-- Settles O4: of a grant only the refusals carry a status other than OK, and they place their response alone. -/
theorem refusalsChangeNothing : Obligations.RefusalsChangeNothing := by
  refine ⟨fun k p id payload bytes st s t hs hexec hmode hst => ?_, fun p code id payload s hs hcode => ?_,
    fun k id payload s hs hk => ⟨?_, ?_⟩⟩
  · obtain ⟨t', hexec', hgrant⟩ := granted_of_serves hs
    cases hexec.symm.trans hexec'
    cases hgrant with
    | refused hbytes =>
      rw [port_placeResponse_self] at hmode
      obtain ⟨rfl, rfl⟩ := responseFrame_inj (PortMode.responseReady.inj hmode)
      exact ⟨placeResponse_eq_withPorts .., answered_placeResponse (fun _ => rfl) .., hbytes⟩
    | done =>
      rw [port_placeResponse_self] at hmode
      exact absurd (responseFrame_inj (PortMode.responseReady.inj hmode)).1.symm hst
  · exact onlyAnswers_of_placeResponse (congrArg _ (if_pos (by simp [hs, requestKind_of_not_mem hcode])))
  · have hdenied : deniedCode (requestCode k) = true := by
      simp only [deniedCode, requestKind_requestCode, allowedOnMaintenance_of_mem hk, Bool.not_false]
    exact onlyAnswers_of_placeResponse (congrArg _ (if_pos (by simp only [hs, hdenied, Bool.and_self])))
  · refine onlyAnswers_of_placeResponse ?_
    rw [exec_requestCommand, grantRequest_of_denied hs (allowedOnMaintenance_of_mem hk)]
    rfl

end Sys2Proof.Machine
end

section
/-! PROOF. The bytes of a transfer: a frame taken, refused or damaged, in its window, and the end of a transfer (R167,
R168, R172, R174). -/

namespace Sys2Proof.Machine

variable {s : State} {l : Link} {bytes : List Byte} {f : FrameCheck} {q : Request}

/-! ## Links (R174, R181) -/

theorem port_eq_host_iff : l.port = .host ↔ l = .spi := by cases l <;> simp [Link.port]

/-- A part that answers a link is alive, and on I2C the address is its own. -/
theorem answers_iff : s.answers l = true ↔
    (s.phase = .loading ∨ s.phase = .running) ∧ ∀ a, l = .i2c a → a = s.maintAddress := by
  cases l <;> simp [State.answers, alive_iff]

theorem answers_spi (h : s.answers l = true) : s.answers .spi = true :=
  answers_iff.2 ⟨(answers_iff.1 h).1, nofun⟩

/-- A part that does not answer a link takes nothing on it, whatever the command tells. -/
theorem exec_of_not_answers (h : s.answers l = false) (sent : Option Byte) (bytes : List Byte) (b : Byte) :
    exec (.requestFrame l bytes) s = .next s ∧ exec (.statusByte l sent) s = .next s ∧
      exec (.responseDelivery l) s = .next s ∧ exec (.frameAbort l bytes) s = .next s ∧
      exec (.lengthByteCheckFail l b) s = .next s := by
  simp only [exec, execRequestFrame, execStatusByte, execResponseDelivery, execFrameAbort, execLengthByteCheckFail, h,
    Bool.false_and, Bool.false_eq_true, if_false, and_self]

/-! ## What the frame check leads to -/

theorem exec_requestFrame (ha : s.answers l = true) (h : frameCheck l.port bytes = f) :
    exec (.requestFrame l bytes) s = .next (s.receive l f) := by
  subst h
  exact congrArg _ (if_pos ha)

/-- A transfer that ends once its frame is over ends without an effect on the flags. -/
theorem exec_frameAbort_of_complete (ha : s.answers l = true)
    (h : (∃ q, frameCheck l.port bytes = .good q) ∨ frameCheck l.port bytes = .badCrc) :
    exec (.frameAbort l bytes) s = .next (s.endTransfer l.port) := by
  refine congrArg _ ((if_pos ha).trans ?_)
  rcases h with ⟨q, h⟩ | h <;> rw [h]

theorem exec_frameAbort_of_short (ha : s.answers l = true) (h : frameCheck l.port bytes = .short) :
    exec (.frameAbort l bytes) s = .next ((s.receive l .short).endTransfer l.port) := by
  refine congrArg _ ((if_pos ha).trans ?_)
  rw [h]

/-- A transfer that ends with no byte of a frame arrived sets CHECK when a frame was under way. -/
theorem exec_frameAbort_nil (ha : s.answers l = true) :
    exec (.frameAbort l []) s = .next (s.setPort l.port { s.port l.port with
      openTransfer := none
      checkFlag := (s.port l.port).checkFlag ||
        decide ((s.port l.port).openTransfer.map Transfer.kind = some .request) }) := by
  refine congrArg _ ((if_pos ha).trans ?_)
  change State.endTransfer (if s.openKind l.port = some .request then s.setCheck l.port else s) l.port = _
  unfold State.openKind State.endTransfer
  split
  · next h => simp [State.setCheck, h]
  · next h => simp [h]

theorem exec_lengthByteCheckFail {b : Byte} (ha : s.answers l = true) (h : frameCheck l.port [b] = .badLength) :
    exec (.lengthByteCheckFail l b) s = .next (s.receive l .badLength) :=
  congrArg _ (if_pos (by simp only [ha, h, beq_self_eq_true, Bool.and_self]))

/-! ## Frames that pass their check (R168) -/

/-- The window of a frame with the frame over. -/
theorem endFrame_startWindow (s : State) (l : Link) (k : TransferKind) :
    (s.startWindow l k).endFrame l = s.setPort l.port
      { (s.startWindow l k).port l.port with openTransfer := afterFrame (s.startWindow l k) l } := by
  rw [endFrame_eq_setPort]
  conv_lhs => rw [startWindow_eq_setPort]
  rw [setPort_setPort, ← startWindow_eq_setPort]

theorem receive_good_eq : s.receive l (.good q) = State.takeFrame (s.setPort l.port
    { (s.startWindow l .request).port l.port with openTransfer := afterFrame (s.startWindow l .request) l }) l.port q :=
  congrArg (State.takeFrame · l.port q) (endFrame_startWindow s l .request)

/-- A frame that passes its check is taken into an IDLE port once the load is over. -/
theorem receive_taken (hm : (s.port l.port).mode = .idle) (hp : s.phase ≠ .loading) :
    s.receive l (.good q) = s.setPort l.port { (s.startWindow l .request).port l.port with
      mode := .executing q, openTransfer := afterFrame (s.startWindow l .request) l } := by
  rw [receive_good_eq, State.takeFrame, if_pos (by simp [hm, hp]), setPort_setPort, port_setPort_self]

/-- In any other port state and during the load it is refused. -/
theorem receive_refused (h : (s.port l.port).mode ≠ .idle ∨ s.phase = .loading) :
    s.receive l (.good q) = s.setPort l.port { (s.startWindow l .request).port l.port with
      refusedFlag := true, openTransfer := afterFrame (s.startWindow l .request) l } := by
  rw [receive_good_eq, State.takeFrame, if_neg, State.setRefused, setPort_setPort, port_setPort_self]
  simp only [port_setPort_self, mode_startWindow, setPort_phase]
  exact fun hi => h.elim (absurd hi.1) hi.2

/-- A length byte that passes opens no fetch. -/
theorem ne_zero_of_passes {b : Byte} (h : 5 ≤ b.toNat) : b ≠ 0 := by
  rintro rfl
  exact absurd h (by decide)

/-- Settles O5: the frame passes its check, and its port's state and the phase decide. -/
theorem frameTakenOrRefused : Obligations.FrameTakenOrRefused := by
  refine ⟨fun s l q extra hq => ⟨fun ha => ?_, fun ha => (exec_of_not_answers ha none _ 0).1⟩,
    fun s address => ⟨?_, fun hinv hack => ?_⟩⟩
  · have hlength := requestFrameOf_length_byte q [] hq
    rw [List.append_nil] at hlength
    have hexec := exec_requestFrame ha (frameCheck_requestFrameOf l.port q extra hq)
    refine ⟨_, inWindow_startWindow (fun _ => ne_zero_of_passes (by omega)) ha, fun ⟨hm, hp⟩ => ?_, fun h => ?_⟩
    · exact changesPort_of_setPort (hexec.trans (congrArg _ (receive_taken hm (by rw [hp]; nofun))))
    · exact changesPort_of_setPort (hexec.trans (congrArg _ (receive_refused h)))
  · rw [State.acknowledges, answers_iff]
    simp
  · rw [(answers_iff.1 hack).2 address rfl]
    exact hinv.address

/-! ## Damaged frames (R167) -/

theorem setsCheck_of_receive {c : Instr} {b : Byte} (ha : s.answers l = true) (hb : l = .spi → b ≠ 0)
    (hf : f = .badLength ∨ f = .short ∨ f = .badCrc) (h : exec c s = .next (s.receive l f)) : SetsCheck c s l b :=
  ⟨_, inWindow_startWindow hb ha, changesPort_of_setPort (h.trans (congrArg _ (receive_damaged hf)))⟩

/-- A frame cut short by the end of its transfer sets CHECK and leaves no transfer open. -/
theorem endsWithCheck_of_short {b : Byte} (ha : s.answers l = true) (hb : l = .spi → b ≠ 0)
    (h : frameCheck l.port bytes = .short) : EndsWithCheck (.frameAbort l bytes) s l b := by
  refine ⟨_, inWindow_startWindow hb ha, changesPort_of_setPort ((exec_frameAbort_of_short ha h).trans (congrArg _ ?_))⟩
  rw [receive_damaged (.inr (.inl rfl)), State.endTransfer, setPort_setPort, port_setPort_self]

/-- A first byte of 0 on SPI makes the window a fetch, as a STATUS_BYTE with that byte does (R172). -/
theorem exec_requestFrame_fetch (ha : s.answers .spi = true) (bytes : List Byte) :
    exec (.requestFrame .spi (0 :: bytes)) s =
      if (s.port .host).openTransfer.map Transfer.kind = some .fetch then .next s
      else exec (.statusByte .spi (some 0)) s := by
  rw [exec_requestFrame ha (f := .fetch) rfl]
  change Host.Outcome.next (s.startWindow .spi .fetch) = _
  unfold State.startWindow State.openKind
  dsimp only
  split
  · rfl
  · exact (congrArg _ (if_pos ha)).symm

theorem acknowledgesByte_iff {b : Byte} {n : Nat} :
    acknowledgesByte b n = true ↔ n = 0 ∨ (5 ≤ b.toNat ∧ b.toNat ≤ 64 ∧ n < b.toNat) := by
  simp [acknowledgesByte, lengthPasses_iff, and_assoc]

/-- Settles O6: by the frame check of the bytes, each kind of damage sets CHECK in its window. -/
theorem damagedFrameSetsCheck : Obligations.DamagedFrameSetsCheck := by
  intro s l bytes b ha
  refine ⟨fun h5 h64 hlen => ⟨fun hcrc => ?_, ?_⟩, fun h5 h64 hlen _ => ⟨?_, ?_⟩, fun hb hspi => ?_,
    exec_requestFrame_fetch (answers_spi ha) bytes, exec_requestFrame ha (f := .empty) rfl,
    changesPort_of_setPort (exec_frameAbort_nil ha), fun n => acknowledgesByte_iff⟩
  · exact setsCheck_of_receive ha (fun _ => ne_zero_of_passes h5) (.inr (.inr rfl))
      (exec_requestFrame ha (frameCheck_of_badCrc h5 h64 hlen hcrc))
  · exact changesPort_of_setPort (exec_frameAbort_of_complete ha (frameCheck_of_complete h5 h64 hlen))
  · exact setsCheck_of_receive ha (fun _ => ne_zero_of_passes h5) (.inr (.inl rfl))
      (exec_requestFrame ha (frameCheck_of_short h5 h64 hlen))
  · exact endsWithCheck_of_short ha (fun _ => ne_zero_of_passes h5) (frameCheck_of_short h5 h64 hlen)
  · have hfetch : ¬ (l.port = .host ∧ b = 0) := by rwa [port_eq_host_iff]
    have hfirst : l = .spi → b ≠ 0 := fun hl h0 => hspi ⟨hl, h0⟩
    exact ⟨setsCheck_of_receive ha hfirst (.inl rfl) (exec_requestFrame ha (frameCheck_of_badLength bytes hb hfetch)),
      setsCheck_of_receive ha hfirst (.inl rfl) (exec_lengthByteCheckFail ha (frameCheck_of_badLength [] hb hfetch))⟩

end Sys2Proof.Machine
end

section
/-! PROOF. The status byte and the fetch of a response: what the snapshot shows and clears, what a fetch sends, and when
a response is delivered (R169 to R174, R189). -/

namespace Sys2Proof.Machine

variable {s : State} {l : Link} {p : Port} {b : Byte}

/-! ## The status byte (R169, R189) -/

/-- Seven flags in a byte, read back bit by bit; bit 7 is always 0. -/
theorem getLsbD_statusBits (rdy executing refused check attn cal busy : Bool) :
    (statusBits rdy executing refused check attn cal busy).getLsbD 0 = rdy ∧
    (statusBits rdy executing refused check attn cal busy).getLsbD 1 = executing ∧
    (statusBits rdy executing refused check attn cal busy).getLsbD 2 = refused ∧
    (statusBits rdy executing refused check attn cal busy).getLsbD 3 = check ∧
    (statusBits rdy executing refused check attn cal busy).getLsbD 4 = attn ∧
    (statusBits rdy executing refused check attn cal busy).getLsbD 5 = cal ∧
    (statusBits rdy executing refused check attn cal busy).getLsbD 6 = busy ∧
    (statusBits rdy executing refused check attn cal busy).getLsbD 7 = false := by
  revert rdy executing refused check attn cal busy
  decide

theorem statusOf_of_loading (h : s.phase = .loading) : s.statusOf p = 0x40 := if_pos h

theorem attn_iff : s.attn = true ↔ s.attention ≠ [] ∨ s.events ≠ DeviceEvents.none := by simp [State.attn]

theorem inProgress_iff : (s.runInProgress || s.saveInProgress) = true ↔ s.calRun ≠ .idle ∨ s.save ≠ none := by
  simp [State.runInProgress, State.saveInProgress, Option.isSome_iff_ne_none]

/-- Once the load is over the status byte shows the flags as they stand. -/
theorem statusOf_of_not_loading (h : s.phase ≠ .loading) : ∃ rdy executing,
    s.statusOf p = statusBits rdy executing (s.port p).refusedFlag (s.port p).checkFlag s.attn
      (s.runInProgress || s.saveInProgress) false ∧
    (rdy = true ↔ ∃ f, (s.port p).mode = .responseReady f) ∧
    (executing = true ↔ ∃ q, (s.port p).mode = .executing q) := by
  refine ⟨_, _, if_neg h, ?_, ?_⟩
  · cases (s.port p).mode <;> simp
  · cases (s.port p).mode <;> simp

/-- Each flag stands at its bit of the snapshot. -/
theorem getLsbD_statusOf (h : s.phase ≠ .loading) :
    ((s.statusOf p).getLsbD 0 = true ↔ ∃ f, (s.port p).mode = .responseReady f) ∧
    ((s.statusOf p).getLsbD 1 = true ↔ ∃ q, (s.port p).mode = .executing q) ∧
    (s.statusOf p).getLsbD 2 = (s.port p).refusedFlag ∧ (s.statusOf p).getLsbD 3 = (s.port p).checkFlag ∧
    ((s.statusOf p).getLsbD 4 = true ↔ s.attention ≠ [] ∨ s.events ≠ DeviceEvents.none) ∧
    ((s.statusOf p).getLsbD 5 = true ↔ s.calRun ≠ .idle ∨ s.save ≠ none) ∧
    (s.statusOf p).getLsbD 6 = false ∧ (s.statusOf p).getLsbD 7 = false := by
  obtain ⟨rdy, executing, hstatus, hready, htaken⟩ := statusOf_of_not_loading (p := p) h
  obtain ⟨h0, h1, h2, h3, h4, h5, h6, h7⟩ := getLsbD_statusBits rdy executing (s.port p).refusedFlag
    (s.port p).checkFlag s.attn (s.runInProgress || s.saveInProgress) false
  rw [hstatus, h0, h1, h4, h5]
  exact ⟨hready, htaken, h2, h3, attn_iff, inProgress_iff, h6, h7⟩

/-- The transfer that a status byte opens: on SPI a first byte other than 0 makes the window of a frame (R172). -/
theorem transferKind_eq (l : Link) (first : Byte) :
    transferKind l first = if l = .spi ∧ first ≠ 0 then .request else .fetch := by
  cases l with
  | spi => by_cases h : first = 0 <;> simp [transferKind, h]
  | i2c a => simp [transferKind]

theorem exec_statusByte (ha : s.answers l = true) (first : Byte) :
    exec (.statusByte l (some first)) s = .next (s.sendStatus l.port (transferKind l first)) :=
  congrArg _ (if_pos ha)

/-- Settles O7: the snapshot opens the transfer, and its eighth bit clears the flags it carries. -/
theorem statusByteSnapshot : Obligations.StatusByteSnapshot := by
  refine fun s l first => ⟨fun ha => ⟨?_, changesPort_of_setPort (congrArg _ (if_pos ha))⟩, fun ha sent bytes b =>
    (exec_of_not_answers ha sent bytes b).2⟩
  obtain ⟨t, hexec, honly, hserved, hother, hport⟩ := changesPort_of_setPort (exec_statusByte ha first)
  refine ⟨t, s.statusOf l.port, hexec, honly, hserved, hother, ?_⟩
  rw [hport, ← transferKind_eq]
  refine ⟨rfl, rfl, fun hp => ⟨statusOf_of_loading hp, by simp [hp], by simp [hp]⟩, fun hp => ?_⟩
  obtain ⟨hrdy, hexecuting, hrefused, hcheck, hattn, hcal, hbusy, hzero⟩ := getLsbD_statusOf (p := l.port) hp
  exact ⟨hrdy, hexecuting, hrefused, hcheck, hattn, hcal, hbusy, hzero, by simp [hp], by simp [hp]⟩

/-! ## The fetch of a response (R171) -/

/-- The open transfer delivers exactly when it is a fetch with RDY in its snapshot and the response is there. -/
theorem delivers_iff : s.delivers p = true ↔ ∃ b frame, (s.port p).openTransfer = some ⟨b, .fetch⟩ ∧
    b.getLsbD 0 = true ∧ (s.port p).mode = .responseReady frame := by
  unfold State.delivers
  rcases (s.port p).openTransfer with _ | ⟨snapshot, kind⟩ <;> cases (s.port p).mode <;>
    simp [Transfer.sendsResponse, and_comm]

/-- A fetch that delivers sends the response byte by byte and then 0xFF. -/
theorem fetchByte_of_delivers {frame : List Byte} (ht : (s.port p).openTransfer = some ⟨b, .fetch⟩)
    (hb : b.getLsbD 0 = true) (hm : (s.port p).mode = .responseReady frame) (n : Nat) :
    s.fetchByte p n = some (frame.getD n 0xFF) := by
  simp [State.fetchByte, ht, hm, Transfer.sendsResponse, hb]

/-- Any other transfer that is open sends 0xFF. -/
theorem fetchByte_of_not_delivers {x : Transfer} (ht : (s.port p).openTransfer = some x)
    (h : s.delivers p = false) (n : Nat) : s.fetchByte p n = some 0xFF := by
  unfold State.delivers at h
  rw [ht] at h
  cases hm : (s.port p).mode with
  | responseReady frame =>
    simp only [hm] at h
    simp [State.fetchByte, ht, hm, h]
  | idle | executing => simp [State.fetchByte, ht, hm]

theorem exec_responseDelivery_of_not_delivers (h : s.delivers l.port = false) :
    exec (.responseDelivery l) s = .next s := congrArg _ (if_neg (by simp [h]))

/-- A delivery empties the buffer, and the rest of the transfer is over (R171). -/
theorem exec_responseDelivery_of_delivers {frame : List Byte} (ha : s.answers l = true)
    (ht : (s.port l.port).openTransfer = some ⟨b, .fetch⟩) (hb : b.getLsbD 0 = true)
    (hm : (s.port l.port).mode = .responseReady frame) :
    exec (.responseDelivery l) s = .next (s.setPort l.port
      { s.port l.port with mode := .idle, openTransfer := some ⟨b, .over⟩ }) := by
  have hd : s.delivers l.port = true := delivers_iff.2 ⟨b, frame, ht, hb, hm⟩
  refine congrArg _ ((if_pos (by simp only [ha, hd, Bool.and_self])).trans ?_)
  rw [State.passTransfer, setPort_setPort, port_setPort_self, ht]
  rfl

theorem delivers_of_no_transfer (h : (s.port p).openTransfer = none) : s.delivers p = false := by
  rw [State.delivers, h]

/-- Settles O8: a transfer delivers or not, by its kind, its snapshot and the port state; none that has ended does. -/
theorem responseDelivery : Obligations.ResponseDelivery := by
  refine fun s l ha => ⟨fun frame b hm ht hb => ⟨fetchByte_of_delivers ht hb hm,
      changesPort_of_setPort (exec_responseDelivery_of_delivers ha ht hb hm)⟩,
    fun b kind ht hnot => ?_, fun ht => ⟨exec_responseDelivery_of_not_delivers (delivers_of_no_transfer ht),
      fetchByte_of_no_transfer ht⟩, fun hopen => ?_⟩
  · have hd : s.delivers l.port = false := by
      rw [Bool.eq_false_iff, Ne, delivers_iff]
      rintro ⟨b', frame, ht', hb, hm⟩
      cases ht.symm.trans ht'
      rcases hnot with h | h | h
      · exact h rfl
      · rw [h] at hb; cases hb
      · exact h frame hm
    exact ⟨exec_responseDelivery_of_not_delivers hd, fetchByte_of_not_delivers ht hd⟩
  · have hkind : (s.port l.port).openTransfer.map Transfer.kind ≠ some .request := by
      rcases ht : (s.port l.port).openTransfer with _ | ⟨snapshot, kind⟩
      · nofun
      · intro hk
        cases Option.some.inj hk
        exact hopen _ ht
    obtain ⟨t, hexec, honly, hserved, hother, hport⟩ := changesPort_of_setPort (exec_frameAbort_nil ha)
    have hclosed : (t.port l.port).openTransfer = none := by rw [hport]
    exact ⟨t, hexec, honly, hserved, hother, by rw [hport]; simp [hkind],
      exec_responseDelivery_of_not_delivers (delivers_of_no_transfer hclosed), fetchByte_of_no_transfer hclosed⟩

end Sys2Proof.Machine
end

section
/-! PROOF. The hard reset and the soft reset: the blocks at their reset values, and what each of the two keeps (R164,
R174, R179 to R182). -/

namespace Sys2Proof.Machine

variable {s : State} {id : Byte} {payload : List Byte}

/-! ## The hard reset (R181, R182) -/

/-- The I2C address that A1 and A0 give (R174). -/
theorem maintenanceBase_add (a1 a0 : Bool) :
    Config.maintenanceBase + BitVec.ofNat 7 ((if a1 then 2 else 0) + (if a0 then 1 else 0)) =
      0x62 + (if a1 then 2 else 0) + (if a0 then 1 else 0) := by
  revert a1 a0
  decide

/-- The end of a hard reset samples A1 and A0 and begins the load. -/
theorem endHardReset_eq (s : State) (a1 a0 : Bool) :
    s.endHardReset a1 a0 =
      { s with phase := .loading, maintAddress := 0x62 + (if a1 then 2 else 0) + (if a0 then 1 else 0) } := by
  rw [State.endHardReset, maintenanceBase_add]

/-- From its beginning to its end a hard reset leaves the reset values, the sampled address and the load to come. -/
theorem wholeReset_eq (s : State) (a1 a0 : Bool) :
    (s.hardResetBlocks .inReset).endHardReset a1 a0 =
      s.inHardReset .loading (0x62 + (if a1 then 2 else 0) + (if a0 then 1 else 0)) s.freeIndex := by
  rw [endHardReset_eq]
  rfl

theorem resettable_iff {cause : ResetCause} : s.resettable cause = true ↔ cause = .powerOn ∨ s.phase ≠ .off := by
  simp [State.resettable]

/-- A short pulse on a part that is alive takes one free value, and by it resets the part or does nothing (log 7). -/
theorem exec_shortPulse (a1 a0 : Bool) (h : s.alive = true) :
    exec (.hardReset (.shortPulse a1 a0)) s = .next
      (if Config.shortPulseResets s.freeIndex then
        (State.hardResetBlocks { s with freeIndex := s.freeIndex + 1 } .inReset).endHardReset a1 a0
      else { s with freeIndex := s.freeIndex + 1 }) := congrArg _ (if_pos h)

/-- Settles O11: each form of HARD_RESET by the phase it meets, and no link answered until its end. -/
theorem hardResetRestores : Obligations.HardResetRestores := by
  intro s cause a1 a0
  refine ⟨fun h => ?_, fun h => ?_, fun h => ?_, fun h => ?_, fun h l => ?_⟩
  · have hr := resettable_iff.2 h
    exact ⟨congrArg _ (if_pos hr), congrArg _ ((if_pos hr).trans (wholeReset_eq s a1 a0))⟩
  · exact congrArg _ ((if_pos h).trans (endHardReset_eq s a1 a0))
  · rw [exec_shortPulse a1 a0 (alive_iff.2 h)]
    cases Config.shortPulseResets s.freeIndex with
    | false => exact .inl rfl
    | true => exact .inr (congrArg _ (wholeReset_eq _ a1 a0))
  · have hr : s.resettable .nReset ≠ true := by
      rw [Ne, resettable_iff, h]
      simp
    exact ⟨congrArg _ (if_neg hr), congrArg _ (if_neg hr)⟩
  · rw [Bool.eq_false_iff, Ne, answers_iff]
    rintro ⟨halive, -⟩
    rcases h with h | h <;> rw [h] at halive <;> simp at halive

/-! ## SOFT_RESET (R179, R180) -/

/-- A request the maintenance port has taken is dropped with REFUSED set (R180). -/
theorem dropRequest_of_executing {x : PortState} {q : Request} (h : x.mode = .executing q) :
    x.dropRequest = { x with mode := .idle, refusedFlag := true } := by
  rw [PortState.dropRequest, h]

theorem dropRequest_of_not_executing {x : PortState} (h : ∀ q, x.mode ≠ .executing q) : x.dropRequest = x := by
  unfold PortState.dropRequest
  split
  · next q hq => exact absurd hq (h q)
  · rfl

theorem softResetBlocks_channel (c : ChannelId) : s.softResetBlocks.channel c = ⟨none, (s.channel c).driven, false⟩ :=
  get_mapTable _ _ _

/-- A class is disabled with its period kept and its count and overrun flag cleared (R70). -/
theorem softResetBlocks_scanClass (c : ClassId) :
    (s.softResetBlocks.scanClass c).enabled = false ∧
      (s.softResetBlocks.scanClass c).period = (s.scanClass c).period ∧
      (s.softResetBlocks.scanClass c).outstanding = 0 ∧ (s.softResetBlocks.scanClass c).overrun = false := by
  have h : s.softResetBlocks.scanClass c = (s.scanClass c).softReset := get_mapTable _ _ _
  rw [h]
  exact ⟨rfl, rfl, rfl, rfl⟩

/-- Settles O13: the state of the soft reset with the response placed, field by field, and the refusal of a payload. -/
theorem softResetClearsAndKeeps : Obligations.SoftResetClearsAndKeeps := by
  intro s id payload hs
  refine ⟨fun hp => ?_, fun hp => onlyAnswers_of_refuse (k := .softReset) hs (requestSoftReset_of_payload hp)⟩
  exact ⟨_, exec_of_done (k := .softReset) hs (requestSoftReset_of_empty hp), rfl, rfl,
    fun q hq => dropRequest_of_executing hq, dropRequest_of_not_executing, get_replicate _, rfl, get_replicate _,
    softResetBlocks_channel, softResetBlocks_scanClass, rfl, rfl, rfl, rfl, rfl, rfl, rfl, rfl, rfl, rfl, rfl, rfl, rfl,
    rfl, rfl, rfl⟩

end Sys2Proof.Machine
end

section
/-! PROOF. STATUS: the 47 bytes it returns, read at their offsets, and that it changes nothing (R178, R188). -/

namespace Sys2Proof

/-! ## Fields of one size, one after another -/

/-- Field j of the k-th of blocks of n bytes. -/
theorem u8_flatMap {α : Type} {f : α → List Byte} {n : Nat} (h : ∀ x, (f x).length = n) {j : Nat} (hj : j < n)
    (l : List α) (k : Nat) (hk : k < l.length) : u8 (l.flatMap f) (n * k + j) = u8 (f l[k]) j := by
  induction l generalizing k with
  | nil => exact absurd hk (Nat.not_lt_zero k)
  | cons x l ih =>
    rw [List.flatMap_cons]
    cases k with
    | zero => rw [Nat.mul_zero, Nat.zero_add, u8_append_left (by rw [h]; exact hj)]; rfl
    | succ k =>
      rw [u8_append_right (by rw [h, Nat.mul_succ]; omega), h, show n * (k + 1) + j - n = n * k + j by
        rw [Nat.mul_succ]; omega]
      exact ih k (by simpa using hk)

/-- A byte of the middle one of three parts. -/
theorem byteAt_middle {a b c : List Byte} {n i : Nat} (ha : a.length = n) (hi : i < b.length) :
    byteAt (a ++ (b ++ c)) (n + i) = byteAt b i := by
  subst ha
  rw [byteAt_append_right (Nat.le_add_right _ _), Nat.add_sub_cancel_left, byteAt_append_left hi]

/-- A byte of the last one of two parts. -/
theorem byteAt_last {a b : List Byte} {n : Nat} (i : Nat) (ha : a.length = n) :
    byteAt (a ++ b) (n + i) = byteAt b i := by
  subst ha
  rw [byteAt_append_right (Nat.le_add_right _ _), Nat.add_sub_cancel_left]

namespace Machine

variable {s : State}

/-! ## The parts of the payload (R188) -/

/-- Bytes 0 to 5: part code, slots by slot state, queue length. -/
def statusHead (s : State) : List Byte :=
  put16 Config.partCode ++ (put8 (s.countState .active) ++ (put8 (s.countState .held) ++
    (put8 (s.countState .retiring) ++ put8 s.queue.length)))

/-- Bytes 26 to 28: run state and scope. -/
def statusRun (s : State) : List Byte :=
  put8 s.calRun.code ++ (put8 s.calRun.scopeCodes.1 ++ put8 s.calRun.scopeCodes.2)

/-- Bytes 41 to 46: current bank and its generation, save in progress, device events, length of the Attention List. -/
def statusTail (s : State) : List Byte :=
  put8 (bankCode s.pointer) ++ (put16 s.currentGeneration ++ (putBool s.saveInProgress ++ (put8 s.events.code ++
    put8 s.attention.length)))

/-- STATUS's payload in its five parts. -/
theorem statusPayload_eq (s : State) : statusPayload s =
    statusHead s ++ (s.classes.toList.flatMap putClass ++
      (statusRun s ++ (putResults s.calResults ++ statusTail s))) := by
  simp only [statusPayload, statusHead, statusRun, statusTail, putResults, List.append_assoc]

theorem length_putClass (c : ScanClass) : (putClass c).length = 5 := rfl

theorem length_statusClasses (s : State) : (s.classes.toList.flatMap putClass).length = 20 := by
  simp [List.length_flatMap, length_putClass]

theorem length_statusPayload (s : State) : (statusPayload s).length = 47 := by
  rw [statusPayload_eq]
  simp only [List.length_append, length_statusClasses, length_putResults]
  rfl

theorem byteAt_statusPayload_head {i : Nat} (h : i < 6) : byteAt (statusPayload s) i = byteAt (statusHead s) i := by
  rw [statusPayload_eq]
  exact byteAt_append_left h

theorem byteAt_statusPayload_class {i : Nat} (h : i < 20) :
    byteAt (statusPayload s) (6 + i) = byteAt (s.classes.toList.flatMap putClass) i := by
  rw [statusPayload_eq]
  exact byteAt_middle rfl (by rwa [length_statusClasses])

theorem byteAt_statusPayload_run {i : Nat} (h : i < 3) :
    byteAt (statusPayload s) (26 + i) = byteAt (statusRun s) i := by
  rw [statusPayload_eq, ← List.append_assoc]
  exact byteAt_middle (by rw [List.length_append, length_statusClasses]; rfl) h

theorem byteAt_statusPayload_result {i : Nat} (h : i < 12) :
    byteAt (statusPayload s) (29 + i) = byteAt (putResults s.calResults) i := by
  rw [statusPayload_eq, ← List.append_assoc, ← List.append_assoc]
  exact byteAt_middle (by simp only [List.length_append, length_statusClasses]; rfl) (by rwa [length_putResults])

theorem byteAt_statusPayload_tail (i : Nat) : byteAt (statusPayload s) (41 + i) = byteAt (statusTail s) i := by
  rw [statusPayload_eq, ← List.append_assoc, ← List.append_assoc, ← List.append_assoc]
  exact byteAt_last i (by simp only [List.length_append, length_statusClasses, length_putResults]; rfl)

/-! ## The fields of each part -/

theorem countState_lt (s : State) (st : SlotState) : s.countState st < 256 := by
  have hle : s.countState st ≤ slotIds.length := List.countP_le_length
  rw [slotIds, List.length_finRange] at hle
  omega

/-- Part code, slots by slot state and queue length at bytes 0 to 5. -/
theorem statusPayload_head_fields (hq : s.queue.length ≤ 64) : u16 (statusPayload s) 0 = Config.partCode ∧
    u8 (statusPayload s) 2 = s.countState .active ∧ u8 (statusPayload s) 3 = s.countState .held ∧
    u8 (statusPayload s) 4 = s.countState .retiring ∧ u8 (statusPayload s) 5 = s.queue.length := by
  simp only [u16, u8, byteAt_statusPayload_head, Nat.reduceLT, Nat.reduceAdd]
  exact ⟨u16_put16_nat (by decide), u8_put8 (countState_lt s .active), u8_put8 (countState_lt s .held),
    u8_put8 (countState_lt s .retiring), u8_put8 (by omega)⟩

/-- Field j of a class record, in the place of its class. -/
theorem u8_statusPayload_class (s : State) (c : ClassId) {j : Nat} (hj : j < 5) :
    u8 (statusPayload s) (6 + (5 * c.val + j)) = u8 (putClass (s.scanClass c)) j := by
  rw [u8, byteAt_statusPayload_class (by omega)]
  exact u8_flatMap length_putClass hj _ c.val (by simp)

/-- The five bytes of a class record. -/
theorem putClass_fields {c : ScanClass} (hp : c.period ≤ 65535) (ho : c.outstanding ≤ 64) :
    u8 (putClass c) 0 = (if c.enabled then 1 else 0) ∧ u16 (putClass c) 1 = c.period ∧
      u8 (putClass c) 3 = c.outstanding ∧ u8 (putClass c) 4 = (if c.overrun then 1 else 0) := by
  have e : putClass c = putBool c.enabled ++ (put16 c.period ++ (put8 c.outstanding ++ putBool c.overrun)) := by
    simp only [putClass, List.append_assoc]
  rw [e]
  exact ⟨u8_putBool _, u16_put16_nat hp, u8_put8 (by omega), u8_putBool _⟩

/-- The class records in class order from byte 6 on. -/
theorem statusPayload_class_fields (c : ClassId) (hp : (s.scanClass c).period ≤ 65535)
    (ho : (s.scanClass c).outstanding ≤ 64) :
    u8 (statusPayload s) (6 + 5 * c.val) = (if (s.scanClass c).enabled then 1 else 0) ∧
      u16 (statusPayload s) (7 + 5 * c.val) = (s.scanClass c).period ∧
      u8 (statusPayload s) (9 + 5 * c.val) = (s.scanClass c).outstanding ∧
      u8 (statusPayload s) (10 + 5 * c.val) = (if (s.scanClass c).overrun then 1 else 0) := by
  obtain ⟨henabled, hperiod, houtstanding, hoverrun⟩ := putClass_fields hp ho
  have place : ∀ j, 6 + j + 5 * c.val = 6 + (5 * c.val + j) := fun j => by omega
  refine ⟨?_, ?_, ?_, ?_⟩
  · rw [← henabled, ← u8_statusPayload_class s c (by omega)]; rfl
  · rw [← hperiod, u16, u16, ← u8_statusPayload_class s c (by omega), ← u8_statusPayload_class s c (by omega),
      ← place, ← place, Nat.add_right_comm]
  · rw [← houtstanding, ← u8_statusPayload_class s c (by omega), ← place]
  · rw [← hoverrun, ← u8_statusPayload_class s c (by omega), ← place]

theorem calRunCode_lt (r : CalRun) : r.code < 256 := by cases r <;> simp [CalRun.code]

theorem scopeCodes_lt (r : CalRun) : r.scopeCodes.1 < 256 ∧ r.scopeCodes.2 < 256 := by
  unfold CalRun.scopeCodes
  split
  · decide
  · next c _ => exact ⟨(by decide : 2 < 256), fin_lt_256 (by decide) c⟩
  · next sc _ _ => cases sc <;> simp [Scope.code]

/-- The scope and range bytes of a run in progress (11.4). -/
theorem scopeCodes_of_scope {r : CalRun} {sc : Scope} : r.scope = some sc →
    r.scopeCodes = match sc with
      | .allInputs => (1, 0)
      | .range r => (2, r.val)
      | .outputs => (3, 0)
      | .all => (4, 0) := by
  intro h
  rw [CalRun.scopeCodes, h]
  cases sc <;> rfl

/-- Run state, scope and scope range as they stand at bytes 26 to 28. -/
theorem statusPayload_run_fields (s : State) : u8 (statusPayload s) 26 = s.calRun.code ∧
    u8 (statusPayload s) 27 = s.calRun.scopeCodes.1 ∧ u8 (statusPayload s) 28 = s.calRun.scopeCodes.2 := by
  obtain ⟨h1, h2⟩ := scopeCodes_lt s.calRun
  rw [u8, u8, u8, byteAt_statusPayload_run (i := 0) (by omega), byteAt_statusPayload_run (i := 1) (by omega),
    byteAt_statusPayload_run (i := 2) (by omega)]
  exact ⟨u8_put8 (calRunCode_lt _), u8_put8 h1, u8_put8 h2⟩

/-- The per-entry results in table order from byte 29 on. -/
theorem u8_statusPayload_result (s : State) (e : Fin 12) :
    u8 (statusPayload s) (29 + e.val) = (s.calResults.get e).code := by
  rw [u8, byteAt_statusPayload_result e.isLt]
  exact u8_putResults _ _

/-- Bank, generation, save, events and Attention List at bytes 41 to 46. -/
theorem statusPayload_tail_fields (hg : s.currentGeneration ≤ 65535) (ha : s.attention.length ≤ 64) :
    u8 (statusPayload s) 41 = bankCode s.pointer ∧ u16 (statusPayload s) 42 = s.currentGeneration ∧
      u8 (statusPayload s) 44 = (if s.saveInProgress then 1 else 0) ∧
      byteAt (statusPayload s) 45 = BitVec.ofNat 8 s.events.code ∧ u8 (statusPayload s) 46 = s.attention.length := by
  rw [u16, u8, u8, u8, u8, u8, byteAt_statusPayload_tail 0, byteAt_statusPayload_tail 1, byteAt_statusPayload_tail 2,
    byteAt_statusPayload_tail 3, byteAt_statusPayload_tail 4, byteAt_statusPayload_tail 5]
  exact ⟨u8_put8 (bankCode_lt _), u16_put16_nat hg, u8_putBool _, rfl, u8_put8 (by omega)⟩

/-- Settles O51: each field is read in its part of the payload as it was put. -/
theorem statusReport : Obligations.StatusReport := by
  intro s p id payload hs
  refine ⟨fun h => onlyAnswers_of_refuse (k := .status) hs (if_pos (mt List.length_eq_zero_iff.1 h)), ?_⟩
  rintro rfl hqueue hattention hclasses hbanks
  have hgeneration : s.currentGeneration ≤ 65535 := by
    unfold State.currentGeneration
    split
    · omega
    · next n hn => exact hbanks n hn
  obtain ⟨hpart, hactive, hheld, hretiring, hentries⟩ := statusPayload_head_fields hqueue
  obtain ⟨hrun, hscope, hrange⟩ := statusPayload_run_fields s
  obtain ⟨hbank, hgen, hsave, hevents, hlength⟩ := statusPayload_tail_fields hgeneration hattention
  refine ⟨statusPayload s, onlyAnswers_of_done (k := .status) hs rfl, length_statusPayload s, hpart, hactive, hheld,
    hretiring, hentries, fun c => statusPayload_class_fields c (hclasses c).1 (hclasses c).2, fun hidle => ?_,
    fun sc hsc => ⟨?_, ?_⟩, u8_statusPayload_result s, fun hn => ?_, fun n hn => ?_, ?_,
    hevents ▸ eventBits_code _, hlength⟩
  · rw [hidle] at hrun hscope hrange
    exact ⟨hrun, hscope, hrange⟩
  · rw [hrun]
    rcases hsc with h | ⟨m, h⟩ <;> simp [h, CalRun.code]
  · rw [hscope, hrange]
    refine scopeCodes_of_scope ?_
    rcases hsc with h | ⟨m, h⟩ <;> rw [h] <;> rfl
  · rw [hbank, hgen, State.currentGeneration, hn]
    exact ⟨rfl, rfl⟩
  · rw [hbank, hgen, State.currentGeneration, hn]
    exact ⟨by cases n <;> rfl, rfl⟩
  · rw [hsave, State.saveInProgress]
    cases s.save <;> rfl

end Machine
end Sys2Proof
end

section
/-! PROOF. READ: its entries, read at their offsets, and that it changes nothing (R106 to R109, R187). -/

namespace Sys2Proof

/-! ## A field in one of several entries -/

/-- The bytes of `e`, an entry of 19 bytes, stand in `b` as entry m behind the count byte (R187). -/
def EntryAt (b : List Byte) (m : Nat) (e : List Byte) : Prop :=
  ∀ j, j < 19 → u8 b (1 + j + 19 * m) = u8 e j

namespace EntryAt

variable {b e : List Byte} {m : Nat}

theorem u16_eq (h : EntryAt b m e) (j : Nat) (hj : j + 1 < 19) : u16 b (1 + j + 19 * m) = u16 e j := by
  rw [u16, u16, ← h j (by omega), ← h (j + 1) hj, Nat.add_right_comm (1 + j)]; rfl

theorem s16_eq (h : EntryAt b m e) (j : Nat) (hj : j + 1 < 19) : s16 b (1 + j + 19 * m) = s16 e j := by
  rw [s16, s16, h.u16_eq j hj]

theorem s32_eq (h : EntryAt b m e) (j : Nat) (hj : j + 3 < 19) : s32 b (1 + j + 19 * m) = s32 e j := by
  rw [s32, s32, ← h.u16_eq j (by omega), ← h.u16_eq (j + 2) hj, Nat.add_right_comm (1 + j)]; rfl

end EntryAt

/-- A 4-byte field is read back where the bytes it was put as begin. -/
theorem s32_of_drop {e rest : List Byte} {n : Nat} {x : Int} (h : e.drop n = put32 x ++ rest)
    (hlo : -2147483648 ≤ x) (hhi : x ≤ 2147483647) : s32 e n = x := by
  have hbyte : ∀ j, j < 4 → u8 e (n + j) = u8 (put32 x) j := fun j hj => by
    rw [u8, ← byteAt_drop, h, byteAt_append_left hj, u8]
  have hread : s32 e n = s32 (put32 x) 0 := by
    simp only [s32, u16, Nat.add_assoc, Nat.reduceAdd, Nat.zero_add]
    rw [← hbyte 0 (by decide), ← hbyte 1 (by decide), ← hbyte 2 (by decide), ← hbyte 3 (by decide)]
    rfl
  rw [hread, s32_put32 hlo hhi]

namespace Machine

variable {s : State} {payload b : List Byte} {m tag : Nat} {i : SlotId} {r : PointRecord}

/-! ## The payload and its entries -/

/-- The payload of a READ that ends in OK: the count byte, then the entries (R187). -/
def readPayload (s : State) (payload : List Byte) : List Byte :=
  put8 (u8 payload 0) ++ (readTags payload).flatMap (readEntry s)

theorem length_readBody (r : PointRecord) : (readBody r).length = 14 := by
  unfold readBody
  split <;> rfl

theorem length_readEntry (s : State) (tag : Nat) : (readEntry s tag).length = 19 := by
  unfold readEntry
  split
  · rfl
  · simp [length_readBody]

theorem length_readTags (payload : List Byte) : (readTags payload).length = u8 payload 0 := by
  simp [readTags]

theorem length_readPayload (s : State) (payload : List Byte) :
    (readPayload s payload).length = 1 + 19 * u8 payload 0 := by
  simp [readPayload, List.length_flatMap, length_readEntry, length_readTags, Nat.mul_comm]

/-- Entry m of the payload is that of the m-th tag named. -/
theorem entryAt_readPayload (hm : m < u8 payload 0) :
    EntryAt (readPayload s payload) m (readEntry s (u16 payload (1 + 2 * m))) := by
  intro j hj
  have hlen : m < (readTags payload).length := by rwa [length_readTags]
  have htag : (readTags payload)[m] = u16 payload (1 + 2 * m) := by simp [readTags]
  rw [readPayload, u8_append_right (by rw [length_put8]; omega), length_put8,
    show 1 + j + 19 * m - 1 = 19 * m + j by omega, u8_flatMap (length_readEntry s) hj _ m hlen, htag]

theorem readEntry_of_none (h : s.findPoint tag = none) :
    readEntry s tag = put16 tag ++ ([statusCode .notFound] ++ zeros 16) := by
  simp only [readEntry, h, List.append_assoc]

/-- The entry of an input point, field by field (R108, R187). -/
theorem readEntry_input {c : InputConfig} {v : ValuePart} (h : s.findPoint tag = some (i, r))
    (hb : r.body = .input c v) :
    readEntry s tag = put16 tag ++ ([statusCode .ok] ++ (put8 1 ++ (put8 r.slotState.code ++
      (put8 (qualityOf r.slotState v).code ++ (put8 v.limitState.code ++ (putBool v.hasValue ++
      (put8 (if v.hasValue then v.lastCondition.code else 0) ++ (put8 v.updateCount.toNat ++ (put8 v.missedPasses ++
      (put32 (if v.hasValue then v.corrected else 0) ++ put32 (if v.hasValue then v.value else 0))))))))))) := by
  simp only [readEntry, h, readBody, hb, Body.kindCode, List.append_assoc]

/-- The entry of an output point, field by field (R109, R187). -/
theorem readEntry_output {c : OutputConfig} {k : CodePart} (h : s.findPoint tag = some (i, r))
    (hb : r.body = .output c k) :
    readEntry s tag = put16 tag ++ ([statusCode .ok] ++ (put8 2 ++ (put8 r.slotState.code ++
      (put16 k.live ++ (put16 k.target ++ (putBool k.staged.isSome ++ (put16 (k.staged.getD 0) ++
      (putBool (k.live != k.target) ++ zeros 6)))))))) := by
  simp only [readEntry, h, readBody, hb, Body.kindCode, List.append_assoc]

/-! ## The fields of an entry -/

theorem u8_zeros (n j : Nat) : u8 (zeros n) j = 0 := by
  rw [u8, byteAt, zeros, List.getD_eq_getElem?_getD, List.getElem?_replicate]
  split <;> rfl

theorem conditionCode_lt (c : Condition) : c.code < 256 := by cases c <;> decide

/-- A request sees a slot ACTIVE or HELD (R14). -/
theorem slotStateCode_of_not_retiring {st : SlotState} (h : st ≠ .retiring) :
    st.code = if st = .active then 1 else 2 := by
  cases st with
  | active => rfl
  | held => rfl
  | retiring => exact absurd rfl h

/-- The entry of a tag not held: NOT_FOUND, and zeros to its end (R107). -/
theorem notFound_fields (h : EntryAt b m (readEntry s tag)) (hf : s.findPoint tag = none) :
    u8 b (3 + 19 * m) = 3 ∧ ∀ j, 3 ≤ j → j < 19 → u8 b (1 + 19 * m + j) = 0 := by
  rw [readEntry_of_none hf] at h
  refine ⟨h 2 (by decide), fun j h3 hj => ?_⟩
  rw [Nat.add_right_comm, h j hj, u8_append_right (by rw [length_put16]; omega), u8_append_right (by simp; omega),
    u8_zeros]

/-- The tag stands in its entry whether it is held or not. -/
theorem entry_tag (h : EntryAt b m (readEntry s tag)) (ht : tag ≤ 65535) : u16 b (1 + 19 * m) = tag := by
  refine (h.u16_eq 0 (by decide)).trans ?_
  unfold readEntry
  split <;> exact u16_put16_nat ht

/-- Status, kind and slot state of a point found (R107). -/
theorem found_fields (h : EntryAt b m (readEntry s tag)) (hf : s.findPoint tag = some (i, r))
    (hst : r.slotState ≠ .retiring) :
    u8 b (3 + 19 * m) = 0 ∧ u8 b (4 + 19 * m) = r.body.kindCode ∧
      u8 b (5 + 19 * m) = (if r.slotState = .active then 1 else 2) := by
  rw [← slotStateCode_of_not_retiring hst]
  simp only [readEntry, hf] at h
  exact ⟨h 2 (by decide), (h 3 (by decide)).trans (u8_put8 (kindCode_lt _)),
    (h 4 (by decide)).trans (u8_put8 (slotStateCode_lt _))⟩

/-- The value part of an input point (R108); without a value its condition, code and value read 0. -/
theorem input_fields {c : InputConfig} {v : ValuePart} (h : EntryAt b m (readEntry s tag))
    (hf : s.findPoint tag = some (i, r)) (hb : r.body = .input c v) (hmissed : v.missedPasses ≤ 255)
    (hcode : -32768 ≤ v.corrected ∧ v.corrected ≤ 65535) (hvalue : -8912888 ≤ v.value ∧ v.value ≤ 8912887) :
    u8 b (6 + 19 * m) = (qualityOf r.slotState v).code ∧ u8 b (7 + 19 * m) = v.limitState.code ∧
      u8 b (8 + 19 * m) = (if v.hasValue then 1 else 0) ∧
      u8 b (9 + 19 * m) = (if v.hasValue then v.lastCondition.code else 0) ∧
      u8 b (10 + 19 * m) = v.updateCount.toNat ∧ u8 b (11 + 19 * m) = v.missedPasses ∧
      s32 b (12 + 19 * m) = (if v.hasValue then v.corrected else 0) ∧
      s32 b (16 + 19 * m) = (if v.hasValue then v.value else 0) := by
  rw [readEntry_input hf hb] at h
  have hcond : (if v.hasValue then v.lastCondition.code else 0) < 256 := by
    have := conditionCode_lt v.lastCondition
    split <;> omega
  exact ⟨(h 5 (by decide)).trans (u8_put8 (qualityCode_lt _)),
    (h 6 (by decide)).trans (u8_put8 (limitStateCode_lt _)),
    (h 7 (by decide)).trans (u8_putBool _), (h 8 (by decide)).trans (u8_put8 hcond),
    (h 9 (by decide)).trans (u8_put8 v.updateCount.isLt), (h 10 (by decide)).trans (u8_put8 (by omega)),
    (h.s32_eq 11 (by decide)).trans (s32_of_drop (rest := put32 _) rfl (by split <;> omega) (by split <;> omega)),
    (h.s32_eq 15 (by decide)).trans (s32_of_drop (rest := []) rfl (by split <;> omega) (by split <;> omega))⟩

/-- The codes of an output point, and zeros from the stepping byte on (R109). -/
theorem output_fields {c : OutputConfig} {k : CodePart} (h : EntryAt b m (readEntry s tag))
    (hf : s.findPoint tag = some (i, r)) (hb : r.body = .output c k) (hlive : isCode k.live) (htarget : isCode k.target)
    (hstaged : isCode (k.staged.getD 0)) :
    s16 b (6 + 19 * m) = k.live ∧ s16 b (8 + 19 * m) = k.target ∧
      u8 b (10 + 19 * m) = (if k.staged = none then 0 else 1) ∧ s16 b (11 + 19 * m) = k.staged.getD 0 ∧
      u8 b (13 + 19 * m) = (if k.live = k.target then 0 else 1) ∧
      ∀ j, 13 ≤ j → j < 19 → u8 b (1 + 19 * m + j) = 0 := by
  rw [readEntry_output hf hb] at h
  have hflag : (if k.staged.isSome then 1 else 0) = if k.staged = none then 0 else 1 := by cases k.staged <;> rfl
  have hmoving : (if (k.live != k.target) = true then 1 else 0) = if k.live = k.target then 0 else 1 := by
    by_cases heq : k.live = k.target <;> simp [heq]
  refine ⟨(h.s16_eq 5 (by decide)).trans (s16_put16 hlive.1 hlive.2),
    (h.s16_eq 7 (by decide)).trans (s16_put16 htarget.1 htarget.2),
    (h 9 (by decide)).trans ((u8_putBool _).trans hflag),
    (h.s16_eq 10 (by decide)).trans (s16_put16 hstaged.1 hstaged.2),
    (h 12 (by decide)).trans ((u8_putBool _).trans hmoving), fun j h13 hj => ?_⟩
  obtain ⟨n, rfl⟩ := Nat.exists_eq_add_of_le' h13
  rw [Nat.add_right_comm, h _ hj]
  exact u8_zeros 6 n

/-! ## The invariants' ranges of a point found -/

/-- The target code lies within the clamp, and so does a staged code (R126). -/
theorem isCode_target_staged (hc : CodeInv s) {st : SlotState} {c : OutputConfig} {k : CodePart}
    (hs : s.slot i = some ⟨tag, st, .output c k⟩) : isCode k.target ∧ isCode (k.staged.getD 0) := by
  obtain ⟨⟨hmin, -⟩, ⟨-, hmax⟩, hlo, hhi⟩ := hc.clamp _ _ _ _ _ hs
  refine ⟨⟨by omega, by omega⟩, ?_⟩
  cases hx : k.staged with
  | none => exact ⟨by decide, by decide⟩
  | some x =>
    obtain ⟨hxlo, hxhi⟩ := hc.staged _ _ _ _ _ x hs hx
    exact ⟨hmin.trans hxlo, hxhi.trans hmax⟩

/-! ## The checks (R106) -/

theorem readTags_any (payload : List Byte) :
    (readTags payload).any (fun t => t == 0 || t == 65535) = true ↔
      ∃ m, m < u8 payload 0 ∧ (u16 payload (1 + 2 * m) = 0 ∨ u16 payload (1 + 2 * m) = 65535) := by
  simp [readTags]

/-- Settles O38: each entry is that of its tag, and its fields are read at their offsets as they were put. -/
theorem readReturnsEntries : Obligations.ReadReturnsEntries := by
  intro s p id payload hs hx hc hv
  refine ⟨fun h => onlyAnswers_of_refuse (k := .read) hs (if_pos h), fun h1 h4 hl => ?_⟩
  have hcount : ¬(u8 payload 0 = 0 ∨ 4 < u8 payload 0 ∨ payload.length ≠ 1 + 2 * u8 payload 0) := by omega
  refine ⟨fun hbad => onlyAnswers_of_refuse (k := .read) hs ?_, fun htags =>
    ⟨readPayload s payload, onlyAnswers_of_done (k := .read) hs ?_, length_readPayload s payload,
      u8_put8 (u8_lt payload 0), fun m hm => ?_⟩⟩
  · exact (if_neg hcount).trans (if_pos ((readTags_any payload).2 hbad))
  · refine (if_neg hcount).trans (if_neg fun hany => ?_)
    obtain ⟨m, hm, hbad⟩ := (readTags_any payload).1 hany
    have := htags m hm
    omega
  have hentry := entryAt_readPayload (s := s) hm
  have htag := u16_lt payload (1 + 2 * m)
  refine ⟨entry_tag hentry (by omega), notFound_fields hentry, fun i r hf => ?_⟩
  obtain ⟨hslot, -, hst⟩ := (findPoint_eq_some (indexInv_iff.1 hx)).1 hf
  obtain ⟨hstatus, hkind, hstate⟩ := found_fields hentry hf hst
  refine ⟨hstatus, hkind, hstate, fun c v hb => ?_, fun c k hb => ?_⟩
  · have hr : s.slot i = some ⟨r.tag, r.slotState, .input c v⟩ := by rw [hslot, ← hb]
    exact input_fields hentry hf hb (hv.missed _ _ _ _ _ hr) (hv.codes _ _ _ _ _ hr) (hv.value _ _ _ _ _ hr)
  · have hr : s.slot i = some ⟨r.tag, r.slotState, .output c k⟩ := by rw [hslot, ← hb]
    obtain ⟨htarget, hstaged⟩ := isCode_target_staged hc hr
    exact output_fields hentry hf hb (hc.live _ _ _ _ _ hr) htarget hstaged

end Machine
end Sys2Proof
end

section
/-! PROOF. What one step does: the front command of the queue, or nothing when none waits. -/

namespace Sys2Proof.Machine

variable {s : State} {c : Instr} {rest : List Instr}

theorem step_of_pending_cons (h : s.pending = c :: rest) : step s = exec c { s with pending := rest } := by
  simp only [step, h]

theorem step_of_pending_nil (h : s.pending = []) : step s = .next s := by
  simp only [step, h]

/-- Settles O1: the two cases of the queue, a command waiting and none waiting (log 2). -/
theorem stepRunsFrontCommand : Obligations.StepRunsFrontCommand :=
  ⟨fun _ _ _ hcommand => step_of_pending_cons hcommand, fun _ hempty => step_of_pending_nil hempty⟩

end Sys2Proof.Machine
end
